-- ==== Sys2Proof/Word.lean ====
section
/-! DEFINITION. The words of the block: bytes, flash addresses and lengths, millisecond times. All unsigned (R9). -/

namespace Sys2Proof

/-- A byte, 8 bits (R9). -/
abbrev Byte := BitVec 8

/-- A flash address as it travels on the bus, ADDR_W = 24 bits (R8, R60). -/
abbrev Addr := BitVec 24

/-- A flash length, LEN_W_FLASH = 25 bits, legal values 0 .. 2^24 (R8, R40). -/
abbrev Len := BitVec 25

/-- A bulk count of the link, LEN_W_BULK = 16 bits (R8, R30). -/
abbrev Count := BitVec 16

/-- A value of the millisecond counter, TIME_W = 32 bits (R8, R48). -/
abbrev Time := BitVec 32

end Sys2Proof
end

