-- ==== Sys2Proof/Syntax.lean ====
section
/-! DEFINITION. The closed set of operations: one constructor of `Instr` per row of spec/opcode_table.json (47, R118). -/

namespace Sys2Proof

/-- The arbiter's clients; client and device coincide (R141). -/
inductive Client where
  | disp
  | mem
  deriving DecidableEq, Repr, Inhabited

/-- The other of the two clients. -/
def Client.other : Client → Client
  | .disp => .mem
  | .mem => .disp

/-- The code spaces of R100, with one HOST/ARB space per client, since the operand `c` of an ARB operation is the port's
own client (R104). -/
inductive Space where
  /-- the ARB port of client `c` -/
  | arb (c : Client)
  /-- the LINK port -/
  | link
  /-- the FLASH port -/
  | flash
  /-- request frames -/
  | req
  /-- response frames -/
  | rsp
  /-- bus commands -/
  | bus
  deriving DecidableEq, Repr

/-- The operations of the block. Operands are those of R104, R106 and R109; every link operand is one byte (R106). -/
inductive Instr where
  /-- `ACQUIRE(c)`, R142 -/
  | acquire (c : Client)
  /-- `RELEASE(c)`, R144 -/
  | release (c : Client)
  /-- `BEGIN_TRANSACTION(d)`, R145 -/
  | beginTransaction (d : Client)
  /-- `END_TRANSACTION(d)`, R146 -/
  | endTransaction (d : Client)
  /-- `BUS_XFER(c, o)`, R148 -/
  | busXfer (c : Client) (o : Byte)
  /-- `INIT()`, R211 -/
  | init
  /-- `PIN_MODE(pin, mode)`, R213 -/
  | pinMode (pin mode : Byte)
  /-- `DIGITAL_WRITE(pin, val)`, R214 -/
  | digitalWrite (pin val : Byte)
  /-- `DIGITAL_READ(pin)`, R215 -/
  | digitalRead (pin : Byte)
  /-- `ANALOG_WRITE(pin, val)`, R216 -/
  | analogWrite (pin val : Byte)
  /-- `ANALOG_READ(pin)`, R217 -/
  | analogRead (pin : Byte)
  /-- `I2C_WRITE(addr, data)`, R219 -/
  | i2cWrite (addr : Byte) (data : List Byte)
  /-- `I2C_READ(addr, n)`, R220 -/
  | i2cRead (addr : Byte) (n : Count)
  /-- `SPI_INIT(mode, clkdiv)`, R221 -/
  | spiInit (mode clkdiv : Byte)
  /-- `SPI_TRANSFER(data)`, R222 -/
  | spiTransfer (data : List Byte)
  /-- `INSTALL_SLEEP_MONITOR(pin, level)`, R223 -/
  | installSleepMonitor (pin level : Byte)
  /-- `PING()`, R212 -/
  | ping
  /-- `WAIT_FOR_READY()`, R266 -/
  | waitForReady
  /-- `WRITE(address, data)`, R262 -/
  | write (address : Addr) (data : List Byte)
  /-- `READ(address, length)`, R261 -/
  | read (address : Addr) (length : Len)
  /-- `IS_BUSY()`, R265 -/
  | isBusy
  /-- `ERASE_SECTOR(address)`, R263 -/
  | eraseSector (address : Addr)
  /-- `IDENTIFY()`, R260 -/
  | identify
  /-- `WAKE_UP()`, R268 -/
  | wakeUp
  /-- `POWER_DOWN()`, R267 -/
  | powerDown
  /-- `ERASE_CHIP()`, R264 -/
  | eraseChip
  /-- request frame of pin-mode, R101, R106, R213 -/
  | reqPinMode (pin mode : Byte)
  /-- request frame of digital-write, R214 -/
  | reqDigitalWrite (pin val : Byte)
  /-- request frame of digital-read, R215 -/
  | reqDigitalRead (pin : Byte)
  /-- request frame of analog-write, R216 -/
  | reqAnalogWrite (pin val : Byte)
  /-- request frame of analog-read, R217 -/
  | reqAnalogRead (pin : Byte)
  /-- request frame of i2c-write: the address and one chunk of 1 to 31 data bytes, R219 -/
  | reqI2cWrite (addr : Byte) (data : List Byte)
  /-- request frame of i2c-read of `len` = 1 to 32 bytes, R220 -/
  | reqI2cRead (addr len : Byte)
  /-- request frame of spi-init, R221 -/
  | reqSpiInit (mode clkdiv : Byte)
  /-- request frame of spi-transfer: one chunk of 1 to 32 bytes, R222 -/
  | reqSpiTransfer (chunk : List Byte)
  /-- request frame of install-sleep-monitor, R223 -/
  | reqInstallSleepMonitor (pin level : Byte)
  /-- request frame of ping, R212 -/
  | reqPing
  /-- a response frame, R102, R188 -/
  | response (payload : List Byte)
  /-- bus command write-enable, R251 -/
  | busWriteEnable
  /-- bus command read-status-1, R252 -/
  | busReadStatus1
  /-- bus command read-data, R253 -/
  | busReadData (address : Addr) (length : Len)
  /-- bus command page-program, R254 -/
  | busPageProgram (address : Addr) (data : List Byte)
  /-- bus command sector-erase-4K, R255 -/
  | busSectorErase4K (address : Addr)
  /-- bus command chip-erase, R256 -/
  | busChipErase
  /-- bus command jedec-id, R257 -/
  | busJedecId
  /-- bus command power-down, R258 -/
  | busPowerDown
  /-- bus command release-power-down, R259 -/
  | busReleasePowerDown
  deriving DecidableEq, Repr

end Sys2Proof
end

