-- ==== Sys2Proof/Config.lean ====
section
/-! DEFINITION. What this hardware fixes (R8), what an implementation fixes (the OPEN parameters of R8, constants without
a body), and the free values of the model. -/

namespace Sys2Proof

/-- The electrical parameters of the bus: the triple of R147. The spec names the three components and gives no value of
any, so their types are the model's (log 13). -/
structure BusConfig where
  clockRate : Nat
  msbFirst  : Bool
  clockMode : BitVec 2
  deriving DecidableEq, Repr, Inhabited

namespace Config

/-- START, the frame start marker (R8). -/
def start : Byte := 0xAA#8

/-- PING_ACK, the payload byte a ping response must carry (R8, R211). -/
def pingAck : Byte := 0xAA#8

/-- MAX_PAYLOAD, the largest LEN of a request and the largest expected response length (R8). -/
def maxPayload : Nat := 32

/-- TIMEOUT_DEFAULT, the reset value of timeout_ms (R8, R46). -/
def timeoutDefault : BitVec 16 := 200#16

/-- PING_ATTEMPTS, the handshake attempts (R8, R211). -/
def pingAttempts : Nat := 3

/-- PING_GAP, the pause between handshake attempts in milliseconds (R8, R211). -/
def pingGap : Nat := 50

/-- PAGE, the program granularity in bytes (R8, R61). -/
def page : Nat := 256

/-- SECTOR, the erase granularity in bytes (R8, R61). -/
def sector : Nat := 4096

/-- The number of the last sector of the chip: CAPACITY = (lastSector + 1) * SECTOR is OPEN in R8, between one sector
and 2^24 bytes and a multiple of SECTOR. No body: nothing constrains it further (log 13). -/
opaque lastSector : Fin 4096

/-- FILL_BYTE, driven out while the controller reads (R8, R109): OPEN (log 13). -/
opaque fillByte : Byte

/-- DEV_CFG[d] (R8, R147): OPEN (log 13). -/
opaque devCfg : Client → BusConfig

/-- SHARED_CFG (R8, R147): OPEN (log 13). -/
opaque sharedCfg : BusConfig

/-- ARB_FAIR (R8, R143, D18): whether a waiting client is eventually granted. OPEN (log 28). -/
opaque arbFair : Bool

/-- Free value: how often a client that waits may be passed over before the arbiter owes it the permit, where ARB_FAIR
holds; drawn anew, under the number of the grant that passes it over first (R143; log 28). -/
opaque fairBound : Nat → Nat

/-- Free value: the byte a device answers to the n-th bus transfer that nothing else determines (U5, R148; log 15). -/
opaque freeBusByte : Nat → Byte

/-- Free value: the client the arbiter chooses when both wait and no input directs it (R143, U1; log 23). -/
opaque freeGrant : Nat → Client

/-- Free value: the n-th byte of a result whose content the spec does not state (R301 for a failed I2C_WRITE; log 20). -/
opaque freeResultByte : Nat → Byte

end Config
end Sys2Proof
end

