-- ==== Sys2Proof/WellFormed.lean ====
section
/-! DEFINITION. The operand domains of R104, R106, R109 and the opcode table that the operand types do not already
enforce. A term outside them is no request, frame or bus command the spec knows. -/

namespace Sys2Proof

/-- A bulk data operand has at most 65535 bytes (`bulk_n` is 16 bits, R8, R30). The empty one is a request the machine
refuses (R114 (d)), so it is expressible. -/
def wfBulk (data : List Byte) : Bool := decide (data.length ≤ 65535)

/-- A flash length is 0 .. 2^24 (R8, R104). -/
def wfLength (n : Nat) : Bool := decide (n ≤ 2 ^ 24)

/-- The chunk of an i2c-write frame: 0 to 31 bytes, since LEN = 1 + k is at most 32 (R106; log 37). -/
def wfI2cChunk (data : List Byte) : Bool := decide (data.length ≤ 31)

/-- The `len` operand of an i2c-read frame: 1 to 32 (R106). -/
def wfI2cLen (len : Byte) : Bool := decide (1 ≤ len.toNat) && decide (len.toNat ≤ 32)

/-- The chunk of a spi-transfer frame: 1 to 32 bytes (R106). -/
def wfSpiChunk (data : List Byte) : Bool := decide (1 ≤ data.length) && decide (data.length ≤ 32)

/-- A response payload: LEN is one byte (R102). -/
def wfPayload (p : List Byte) : Bool := decide (p.length ≤ 255)

/-- A page-program: 1 to 256 bytes that stay inside one page (R254). -/
def wfPageProgram (a : Addr) (data : List Byte) : Bool :=
  decide (1 ≤ data.length) && decide (a.toNat % 256 + data.length ≤ 256)

/-- Whether an operation's operands lie in the domain the spec gives them. -/
def Instr.wf : Instr → Bool
  | .i2cWrite _ data => wfBulk data
  | .spiTransfer data => wfBulk data
  | .write _ data => wfLength data.length
  | .read _ length => wfLength length.toNat
  | .reqI2cWrite _ data => wfI2cChunk data
  | .reqI2cRead _ len => wfI2cLen len
  | .reqSpiTransfer chunk => wfSpiChunk chunk
  | .response payload => wfPayload payload
  | .busReadData _ length => wfLength length.toNat
  | .busPageProgram a data => wfPageProgram a data
  | .acquire _ | .release _ | .beginTransaction _ | .endTransaction _ | .busXfer _ _ => true
  | .init | .pinMode _ _ | .digitalWrite _ _ | .digitalRead _ | .analogWrite _ _ | .analogRead _ => true
  | .i2cRead _ _ | .spiInit _ _ | .installSleepMonitor _ _ | .ping => true
  | .waitForReady | .isBusy | .eraseSector _ | .identify | .wakeUp | .powerDown | .eraseChip => true
  | .reqPinMode _ _ | .reqDigitalWrite _ _ | .reqDigitalRead _ | .reqAnalogWrite _ _ | .reqAnalogRead _ => true
  | .reqSpiInit _ _ | .reqInstallSleepMonitor _ _ | .reqPing => true
  | .busWriteEnable | .busReadStatus1 | .busSectorErase4K _ | .busChipErase | .busJedecId => true
  | .busPowerDown | .busReleasePowerDown => true

end Sys2Proof
end

