-- ==== Sys2Proof/Decode.lean ====
section
/-! DEFINITION. Byte helpers (R10, R11, R66), the frame formats (R101, R102), the decoder of every code space (R100, R104,
R106, R109), total on any bytes and rejecting by name, and after it the encoder, written from the same tables. -/

namespace Sys2Proof

/-! ### Byte helpers -/

/-- The XOR fold of a byte sequence; `fold [] = 0` (R10). -/
def fold (s : List Byte) : Byte := s.foldr (fun a b => a ^^^ b) 0#8

/-- The unsigned value of a byte sequence, most significant byte first (`from_be`, R11). -/
def fromBe (s : List Byte) : Nat := s.foldl (fun acc b => acc * 256 + b.toNat) 0

/-- The three bytes of a flash address, most significant first (`be24`, R11, R110 (a)). -/
def be24 (a : Addr) : List Byte := [a.extractLsb' 16 8, a.extractLsb' 8 8, a.extractLsb' 0 8]

/-- The flash address whose bytes, most significant first, are `a2 a1 a0` (R11). -/
def addrOf (a2 a1 a0 : Byte) : Addr := a2 ++ a1 ++ a0

/-- The bytes of a flash length in a host request: four bytes, most significant first. DESIGN CHOICE: the spec gives a
length no byte layout (log 3). -/
def beLen (n : Len) : List Byte :=
  [(n.setWidth 32).extractLsb' 24 8, (n.setWidth 32).extractLsb' 16 8, (n.setWidth 32).extractLsb' 8 8,
    (n.setWidth 32).extractLsb' 0 8]

/-- The 32-bit value of the four length bytes of a host request (log 3). -/
def lenOf (l3 l2 l1 l0 : Byte) : BitVec 32 := l3 ++ l2 ++ l1 ++ l0

/-- The two bytes of a bulk count in a host request, most significant first (log 3). -/
def beCount (n : Count) : List Byte := [n.extractLsb' 8 8, n.extractLsb' 0 8]

/-- The bulk count of the two bytes `h l` of a host request (log 3). -/
def countOf (h l : Byte) : Count := h ++ l

/-! ### Frames -/

/-- The checksum of a request: `CMD ^ LEN ^ fold(PAYLOAD)` (R101, R103). -/
def requestCrc (cmd : Byte) (payload : List Byte) : Byte :=
  cmd ^^^ BitVec.ofNat 8 payload.length ^^^ fold payload

/-- `EncodeRequest(cmd, payload)` (R172). -/
def encodeRequest (cmd : Byte) (payload : List Byte) : List Byte :=
  [Config.start, cmd, BitVec.ofNat 8 payload.length] ++ payload ++ [requestCrc cmd payload]

/-- The checksum of a response: `LEN ^ fold(PAYLOAD)`, without CMD (R102, R103). -/
def responseCrc (len : Byte) (payload : List Byte) : Byte := len ^^^ fold payload

/-- `EncodeResponse(payload)` (R188). -/
def encodeResponse (payload : List Byte) : List Byte :=
  [Config.start, BitVec.ofNat 8 payload.length] ++ payload ++ [responseCrc (BitVec.ofNat 8 payload.length) payload]

/-! ### The decoder -/

/-- Why bytes are no operation of a code space. -/
inductive DecodeError where
  /-- no byte at all -/
  | empty
  /-- an `op_sel` not in R104 for its port (R114 (a), U17) -/
  | unknownOpSel
  /-- a CMD other than the eleven of R106 (R112) -/
  | unknownCmd
  /-- a bus opcode other than the nine of R108 (R113) -/
  | unknownOpcode
  /-- a frame that does not begin with START (R101, R102) -/
  | notStart
  /-- a checksum other than the format's (R101, R102; `BAD_CRC` of R174) -/
  | badChecksum
  /-- too few or too many bytes, or a length outside its domain -/
  | badLength
  /-- a page-program of no byte, of more than 256, or across a page boundary (R254) -/
  | badPage
  /-- a slot for an incoming byte that is not written as zero (log 3) -/
  | badSlot
  deriving DecidableEq, Repr

/-- What the decoder answers. -/
abbrev Decoded := Except DecodeError Instr

/-- `DecodeRequest(bytes)`, the reference function of the co-processor side (R174): the command and the payload of the
frame that begins the sequence; bytes after the frame are not looked at. -/
def decodeRequest : List Byte → Except DecodeError (Byte × List Byte)
  | [] => .error .empty
  | [_] => .error .badLength
  | [_, _] => .error .badLength
  | s :: cmd :: n :: rest =>
    if s ≠ Config.start then .error .notStart
    else if rest.length < n.toNat + 1 then .error .badLength
    else if rest.getD n.toNat 0#8 ≠ cmd ^^^ n ^^^ fold (rest.take n.toNat) then .error .badChecksum
    else .ok (cmd, rest.take n.toNat)

/-- The payload of a byte sequence that is exactly one response frame (R102). -/
def decodeResponse : List Byte → Except DecodeError (List Byte)
  | [] => .error .empty
  | [_] => .error .badLength
  | s :: n :: rest =>
    if s ≠ Config.start then .error .notStart
    else if rest.length ≠ n.toNat + 1 then .error .badLength
    else if rest.getD n.toNat 0#8 ≠ responseCrc n (rest.take n.toNat) then .error .badChecksum
    else .ok (rest.take n.toNat)

/-- An operation without operand bytes. -/
def operands0 (i : Instr) : List Byte → Decoded
  | [] => .ok i
  | _ => .error .badLength

/-- An operation with one operand byte. -/
def operands1 (f : Byte → Instr) : List Byte → Decoded
  | [a] => .ok (f a)
  | _ => .error .badLength

/-- An operation with two operand bytes. -/
def operands2 (f : Byte → Byte → Instr) : List Byte → Decoded
  | [a, b] => .ok (f a b)
  | _ => .error .badLength

/-- An operation whose operand is a flash address (R110 (a)). -/
def operandsAddr (f : Addr → Instr) : List Byte → Decoded
  | [a2, a1, a0] => .ok (f (addrOf a2 a1 a0))
  | _ => .error .badLength

/-- An operation whose operands must also lie in their domain. -/
def checked (e : DecodeError) (i : Instr) : Decoded := if i.wf then .ok i else .error e

/-- The ARB port of client `c` (R104). -/
def decodeArb (c : Client) : List Byte → Decoded
  | [] => .error .empty
  | op :: args =>
    match op with
    | 0x00#8 => operands0 (.acquire c) args
    | 0x01#8 => operands0 (.release c) args
    | 0x02#8 => operands0 (.beginTransaction c) args
    | 0x03#8 => operands0 (.endTransaction c) args
    | 0x04#8 => operands1 (.busXfer c) args
    | _ => .error .unknownOpSel

/-- The operands of I2C_WRITE: the address, then the data (R104). -/
def operandsI2cWrite : List Byte → Decoded
  | [] => .error .badLength
  | a :: data => checked .badLength (.i2cWrite a data)

/-- The operands of I2C_READ: the address, then the count in two bytes (R104; log 3). -/
def operandsI2cRead : List Byte → Decoded
  | [a, h, l] => .ok (.i2cRead a (countOf h l))
  | _ => .error .badLength

/-- The LINK port (R104). -/
def decodeLink : List Byte → Decoded
  | [] => .error .empty
  | op :: args =>
    match op with
    | 0x00#8 => operands0 .init args
    | 0x01#8 => operands2 .pinMode args
    | 0x02#8 => operands2 .digitalWrite args
    | 0x03#8 => operands1 .digitalRead args
    | 0x04#8 => operands2 .analogWrite args
    | 0x05#8 => operands1 .analogRead args
    | 0x10#8 => operandsI2cWrite args
    | 0x11#8 => operandsI2cRead args
    | 0x20#8 => operands2 .spiInit args
    | 0x21#8 => checked .badLength (.spiTransfer args)
    | 0x90#8 => operands2 .installSleepMonitor args
    | 0x99#8 => operands0 .ping args
    | _ => .error .unknownOpSel

/-- The operands of WRITE: the address, then the data (R104). -/
def operandsWrite : List Byte → Decoded
  | a2 :: a1 :: a0 :: data => checked .badLength (.write (addrOf a2 a1 a0) data)
  | _ => .error .badLength

/-- The operands of READ: the address, then the length in four bytes (R104; log 3). -/
def operandsRead : List Byte → Decoded
  | [a2, a1, a0, l3, l2, l1, l0] =>
    if wfLength (lenOf l3 l2 l1 l0).toNat then .ok (.read (addrOf a2 a1 a0) ((lenOf l3 l2 l1 l0).setWidth 25))
    else .error .badLength
  | _ => .error .badLength

/-- The FLASH port (R104). -/
def decodeFlash : List Byte → Decoded
  | [] => .error .empty
  | op :: args =>
    match op with
    | 0x00#8 => operands0 .waitForReady args
    | 0x02#8 => operandsWrite args
    | 0x03#8 => operandsRead args
    | 0x05#8 => operands0 .isBusy args
    | 0x20#8 => operandsAddr .eraseSector args
    | 0x9F#8 => operands0 .identify args
    | 0xAB#8 => operands0 .wakeUp args
    | 0xB9#8 => operands0 .powerDown args
    | 0xC7#8 => operands0 .eraseChip args
    | _ => .error .unknownOpSel

/-- The operands of an i2c-write frame: the address, then the chunk (R106). -/
def operandsReqI2cWrite : List Byte → Decoded
  | [] => .error .badLength
  | a :: data => checked .badLength (.reqI2cWrite a data)

/-- The operands of an i2c-read frame: the address and the length byte (R106). -/
def operandsReqI2cRead : List Byte → Decoded
  | [a, n] => checked .badLength (.reqI2cRead a n)
  | _ => .error .badLength

/-- The command of a request frame with its payload (R106). -/
def decodeCommand (cmd : Byte) (payload : List Byte) : Decoded :=
  match cmd with
  | 0x01#8 => operands2 .reqPinMode payload
  | 0x02#8 => operands2 .reqDigitalWrite payload
  | 0x03#8 => operands1 .reqDigitalRead payload
  | 0x04#8 => operands2 .reqAnalogWrite payload
  | 0x05#8 => operands1 .reqAnalogRead payload
  | 0x10#8 => operandsReqI2cWrite payload
  | 0x11#8 => operandsReqI2cRead payload
  | 0x20#8 => operands2 .reqSpiInit payload
  | 0x21#8 => checked .badLength (.reqSpiTransfer payload)
  | 0x90#8 => operands2 .reqInstallSleepMonitor payload
  | 0x99#8 => operands0 .reqPing payload
  | _ => .error .unknownCmd

/-- A request frame, exactly `LEN + 4` bytes (R101, R111). -/
def decodeReq (bytes : List Byte) : Decoded :=
  match decodeRequest bytes with
  | .error e => .error e
  | .ok (cmd, payload) =>
    if bytes.length = payload.length + 4 then decodeCommand cmd payload else .error .badLength

/-- A response frame (R102). -/
def decodeRsp (bytes : List Byte) : Decoded :=
  match decodeResponse bytes with
  | .error e => .error e
  | .ok payload => .ok (.response payload)

/-- The operands of read-data: the address, then one zero slot for every byte to come in (R109; log 3). -/
def operandsBusRead : List Byte → Decoded
  | a2 :: a1 :: a0 :: slots =>
    if slots.all (fun b => b == 0#8) then
      if wfLength slots.length then .ok (.busReadData (addrOf a2 a1 a0) (BitVec.ofNat 25 slots.length))
      else .error .badLength
    else .error .badSlot
  | _ => .error .badLength

/-- The operands of page-program: the address, then the data (R109, R254). -/
def operandsBusProgram : List Byte → Decoded
  | a2 :: a1 :: a0 :: data => checked .badPage (.busPageProgram (addrOf a2 a1 a0) data)
  | _ => .error .badLength

/-- A bus command with `k` incoming bytes: `k` zero slots (format B4 of R109; log 3). -/
def operandsIn (k : Nat) (i : Instr) (slots : List Byte) : Decoded :=
  if slots.length ≠ k then .error .badLength
  else if slots.all (fun b => b == 0#8) then .ok i else .error .badSlot

/-- A bus command (R108, R109). -/
def decodeBus : List Byte → Decoded
  | [] => .error .empty
  | op :: args =>
    match op with
    | 0x06#8 => operands0 .busWriteEnable args
    | 0x05#8 => operandsIn 1 .busReadStatus1 args
    | 0x03#8 => operandsBusRead args
    | 0x02#8 => operandsBusProgram args
    | 0x20#8 => operandsAddr .busSectorErase4K args
    | 0xC7#8 => operands0 .busChipErase args
    | 0x9F#8 => operandsIn 3 .busJedecId args
    | 0xB9#8 => operands0 .busPowerDown args
    | 0xAB#8 => operands0 .busReleasePowerDown args
    | _ => .error .unknownOpcode

/-- The operation that `bytes` are in a code space (R100): total, and rejecting by name. -/
def decode : Space → List Byte → Decoded
  | .arb c, bytes => decodeArb c bytes
  | .link, bytes => decodeLink bytes
  | .flash, bytes => decodeFlash bytes
  | .req, bytes => decodeReq bytes
  | .rsp, bytes => decodeRsp bytes
  | .bus, bytes => decodeBus bytes

/-! ### The encoder -/

/-- The code space of an operation (R118). -/
def Instr.space : Instr → Space
  | .acquire c | .release c | .beginTransaction c | .endTransaction c | .busXfer c _ => .arb c
  | .init | .pinMode _ _ | .digitalWrite _ _ | .digitalRead _ | .analogWrite _ _ | .analogRead _ => .link
  | .i2cWrite _ _ | .i2cRead _ _ | .spiInit _ _ | .spiTransfer _ | .installSleepMonitor _ _ | .ping => .link
  | .waitForReady | .write _ _ | .read _ _ | .isBusy | .eraseSector _ | .identify => .flash
  | .wakeUp | .powerDown | .eraseChip => .flash
  | .reqPinMode _ _ | .reqDigitalWrite _ _ | .reqDigitalRead _ | .reqAnalogWrite _ _ | .reqAnalogRead _ => .req
  | .reqI2cWrite _ _ | .reqI2cRead _ _ | .reqSpiInit _ _ | .reqSpiTransfer _ => .req
  | .reqInstallSleepMonitor _ _ | .reqPing => .req
  | .response _ => .rsp
  | .busWriteEnable | .busReadStatus1 | .busReadData _ _ | .busPageProgram _ _ | .busSectorErase4K _ => .bus
  | .busChipErase | .busJedecId | .busPowerDown | .busReleasePowerDown => .bus

/-- The bytes of an operation in its code space: the selector and the operands in the order of R104, the frames of R101
and R102 with the commands of R106, the bus commands of R108 and R109 with a zero slot for every incoming byte (log 3). -/
def encode : Instr → List Byte
  | .acquire _ => [0x00#8]
  | .release _ => [0x01#8]
  | .beginTransaction _ => [0x02#8]
  | .endTransaction _ => [0x03#8]
  | .busXfer _ o => [0x04#8, o]
  | .init => [0x00#8]
  | .pinMode pin mode => [0x01#8, pin, mode]
  | .digitalWrite pin val => [0x02#8, pin, val]
  | .digitalRead pin => [0x03#8, pin]
  | .analogWrite pin val => [0x04#8, pin, val]
  | .analogRead pin => [0x05#8, pin]
  | .i2cWrite addr data => 0x10#8 :: addr :: data
  | .i2cRead addr n => 0x11#8 :: addr :: beCount n
  | .spiInit mode clkdiv => [0x20#8, mode, clkdiv]
  | .spiTransfer data => 0x21#8 :: data
  | .installSleepMonitor pin level => [0x90#8, pin, level]
  | .ping => [0x99#8]
  | .waitForReady => [0x00#8]
  | .write a data => 0x02#8 :: (be24 a ++ data)
  | .read a n => 0x03#8 :: (be24 a ++ beLen n)
  | .isBusy => [0x05#8]
  | .eraseSector a => 0x20#8 :: be24 a
  | .identify => [0x9F#8]
  | .wakeUp => [0xAB#8]
  | .powerDown => [0xB9#8]
  | .eraseChip => [0xC7#8]
  | .reqPinMode pin mode => encodeRequest 0x01#8 [pin, mode]
  | .reqDigitalWrite pin val => encodeRequest 0x02#8 [pin, val]
  | .reqDigitalRead pin => encodeRequest 0x03#8 [pin]
  | .reqAnalogWrite pin val => encodeRequest 0x04#8 [pin, val]
  | .reqAnalogRead pin => encodeRequest 0x05#8 [pin]
  | .reqI2cWrite addr data => encodeRequest 0x10#8 (addr :: data)
  | .reqI2cRead addr len => encodeRequest 0x11#8 [addr, len]
  | .reqSpiInit mode clkdiv => encodeRequest 0x20#8 [mode, clkdiv]
  | .reqSpiTransfer chunk => encodeRequest 0x21#8 chunk
  | .reqInstallSleepMonitor pin level => encodeRequest 0x90#8 [pin, level]
  | .reqPing => encodeRequest 0x99#8 []
  | .response payload => encodeResponse payload
  | .busWriteEnable => [0x06#8]
  | .busReadStatus1 => [0x05#8, 0#8]
  | .busReadData a n => 0x03#8 :: (be24 a ++ List.replicate n.toNat 0#8)
  | .busPageProgram a data => 0x02#8 :: (be24 a ++ data)
  | .busSectorErase4K a => 0x20#8 :: be24 a
  | .busChipErase => [0xC7#8]
  | .busJedecId => [0x9F#8, 0#8, 0#8, 0#8]
  | .busPowerDown => [0xB9#8]
  | .busReleasePowerDown => [0xAB#8]

/-! ### Words of the opcode table -/

/-- The request frame with CMD `cmd` whose operand bytes are zero, completed as the format demands: the LEN and the CRC
of R101, and the shortest payload of R106 (log 5). -/
def tableFrame (cmd : Byte) : List Byte :=
  match cmd with
  | 0x01#8 | 0x02#8 | 0x04#8 | 0x20#8 | 0x90#8 => encodeRequest cmd [0#8, 0#8]
  | 0x03#8 | 0x05#8 => encodeRequest cmd [0#8]
  | 0x10#8 => encodeRequest cmd [0#8, 0#8]
  | 0x11#8 => encodeRequest cmd [0#8, 1#8]
  | 0x21#8 => encodeRequest cmd [0#8]
  | _ => encodeRequest cmd []

/-- The code space and the bytes of a one-byte word of the opcode table, its operand bytes zero. Four code spaces share
one-byte words (R118) and a word does not name its space, so a shared word is read at the FLASH port if that port has
the selector, else at the ARB port of DISP, else at the LINK port, else on the bus, else as a response (log 4). -/
def tableRequest8 (op : Byte) : Space × List Byte :=
  match op with
  | 0x00#8 | 0x05#8 | 0x9F#8 | 0xAB#8 | 0xB9#8 | 0xC7#8 => (.flash, [op])
  | 0x02#8 | 0x20#8 => (.flash, [op, 0#8, 0#8, 0#8])
  | 0x03#8 => (.flash, [op, 0#8, 0#8, 0#8, 0#8, 0#8, 0#8, 0#8])
  | 0x01#8 => (.arb .disp, [op])
  | 0x04#8 => (.arb .disp, [op, 0#8])
  | 0x99#8 => (.link, [op])
  | 0x21#8 => (.link, [op, 0#8])
  | 0x10#8 | 0x90#8 => (.link, [op, 0#8, 0#8])
  | 0x11#8 => (.link, [op, 0#8, 0#8, 0#8])
  | 0x06#8 => (.bus, [op])
  | 0xAA#8 => (.rsp, [op, 0#8, 0#8])
  | _ => (.flash, [op])

/-- The code space and the bytes of a word of the opcode table. A 16-bit word is the START and the CMD of a request
frame, START in its high byte (R118). -/
def tableRequest (nbits w : Nat) : Space × List Byte :=
  if nbits = 8 then tableRequest8 (BitVec.ofNat 8 w)
  else if nbits = 16 then
    if w / 256 = 0xAA then (.req, tableFrame (BitVec.ofNat 8 w)) else (.req, [BitVec.ofNat 8 (w / 256), BitVec.ofNat 8 w])
  else (.flash, [])

/-- The operation the decoder reads from a word of the opcode table (none where it refuses). -/
def decodeTableWord (nbits w : Nat) : Option Instr :=
  match decode (tableRequest nbits w).1 (tableRequest nbits w).2 with
  | .ok i => some i
  | .error _ => none

end Sys2Proof
end

