-- ==== Sys2Proof/Machine/State.lean ====
section
/-! DEFINITION. The state of the block and of the environment it depends on, as plain data (R20 to R55, R82), the
reasons a step can stop, and the state after reset. -/

namespace Sys2Proof.Machine

/-- Why the machine stops with a fault. -/
inductive Fault where
  /-- Raised by `Link.micro` and `flashMicro` when the sequencer registers hold a combination for which the transition
  tables R189 and R272 have no row ("no other transition exists"). Safe: no run from reset reaches it (log 29). -/
  | noTransition
  deriving DecidableEq, Repr

/-- Why the model gives a request no meaning (R13 "refused", R114). Every one is safe: the spec says a model refuses it. -/
inductive Refusal where
  /-- Raised by `exec` for an operation that has no meaning yet. -/
  | notModelled (mnemonic : String)
  /-- Raised by `runRequest` for bytes that are no operation of their port, no request frame and no bus command (R114 (a),
  R112, R113), and by `Link.accept` and `Flash.accept` for a selector that is none of their port's (R114 (a)). -/
  | undecodable (e : DecodeError)
  /-- Raised by the meanings for a term outside `Instr.wf`, which no bytes decode to: R102 for a response, R106 for a
  request frame, R8 and R30 for a count over 65535, R8 for a length over 2^24, R254 for a page-program (log 34). -/
  | illFormed
  /-- Raised by `arbAccept`: `ACQUIRE(c)` by the holder (R151 (a)). -/
  | reacquire
  /-- Raised by `arbAccept`: `BEGIN_TRANSACTION(c)` with `txn_open = c` (R151 (a)), also when the flash controller's own
  begin would be nested in a transaction left open at MEM's ARB port (log 10). -/
  | nestedBegin
  /-- Raised by `arbAccept`: `RELEASE(c)` by a non-holder or with a transaction open (R151 (b)). -/
  | releaseMisuse
  /-- Raised by `arbAccept`: `END_TRANSACTION(d)` without its begin (R151 (c)). -/
  | endMisuse
  /-- Raised by `arbAccept`: `BUS_XFER(c, o)` without permit or transaction (R151 (d)). -/
  | xferMisuse
  /-- Raised by `flashAccept`: an address range beyond CAPACITY (R65, R114 (c)). -/
  | beyondCapacity
  /-- Raised by `Link.accept`: a bulk transfer of no byte (R114 (d), R218). -/
  | emptyBulk
  /-- Raised by `Link.accept`: a command other than INIT and PING with `link_ready = 0` (R114 (f), R225). -/
  | linkNotReady
  /-- Raised by `runInput`: a write of timeout_ms during a link operation (R47, R114 (e)). -/
  | timeoutWriteBusy
  deriving DecidableEq, Repr

/-- The answer of a step of the machine or of one of its agents. -/
abbrev Answer (σ : Type) := Host.Outcome σ Fault Refusal

/-! ### Parameters -/

/-- One value per arbiter client. -/
structure PerClient (α : Type) where
  disp : α
  mem  : α
  deriving DecidableEq, Repr

/-- The value of client `c`. -/
def PerClient.get {α : Type} (p : PerClient α) : Client → α
  | .disp => p.disp
  | .mem => p.mem

/-- The same with client `c`'s value replaced. -/
def PerClient.set {α : Type} (p : PerClient α) (c : Client) (v : α) : PerClient α :=
  match c with
  | .disp => { p with disp := v }
  | .mem => { p with mem := v }

/-- The OPEN parameters of R8, fixed for one machine: written by nothing, so a claim about every state holds for every
value of them (log 13, log 14, log 28). -/
structure Params where
  /-- CAPACITY = (lastSector + 1) * 4096 -/
  lastSector : Fin 4096
  /-- FILL_BYTE -/
  fillByte   : Byte
  /-- DEV_CFG[d] -/
  devCfg     : PerClient BusConfig
  /-- SHARED_CFG -/
  sharedCfg  : BusConfig
  /-- WIP_BIT, the place of the write-in-progress bit in a status byte -/
  wipBit     : Fin 8
  /-- ARB_FAIR, whether a waiting client is eventually granted -/
  arbFair    : Bool
  deriving DecidableEq, Repr

/-! ### Arbiter -/

/-- A request at an ARB port (R104); the client is the port's own. -/
inductive ArbReq where
  | acquire
  | release
  | begin
  | finish
  | xfer (o : Byte)
  deriving DecidableEq, Repr

/-- The operation in progress at an ARB port: the two that can wait are ACQUIRE (R142) and BEGIN_TRANSACTION (R145). -/
inductive ArbPort where
  | idle
  | acquiring
  | beginning
  deriving DecidableEq, Repr

/-- An entry of the bus trace (R116, R148): select asserted, a byte out and the byte in, select deasserted. -/
inductive BusEvent where
  | begin (d : Client)
  | xfer (c : Client) (o i : Byte)
  | finish (d : Client)
  deriving DecidableEq, Repr

/-- The arbiter's registers (R23), the state of its two ports (R105) and the bus trace (R148). -/
structure Arbiter where
  permitCreated : Bool
  permitOwner   : Option Client
  arbWait       : PerClient Bool
  busCfg        : BusConfig
  cs            : PerClient Bool
  txnOpen       : Option Client
  /-- the operation in progress at each ARB port -/
  port          : PerClient ArbPort
  /-- the requests waiting at each ARB port, oldest first (R105, R309; log 11) -/
  waiting       : PerClient (List ArbReq)
  /-- the byte the last BUS_XFER of each client returned (R104, R148) -/
  lastIn        : PerClient Byte
  /-- the bus trace since reset, oldest first (R148) -/
  busTrace      : List BusEvent
  /-- MODEL's own, what ARB_FAIR needs: how often each client may still be passed over, `none` where it has not been
  passed over since it last held the permit (R143; log 28) -/
  passed        : PerClient (Option Nat)
  /-- MODEL's own: how many grants have passed a waiting client over (log 28) -/
  grants        : Nat
  deriving DecidableEq, Repr

/-! ### Link engine -/

/-- The result of an operation (R301). -/
structure Result where
  ok     : Bool
  status : BitVec 3
  data   : List Byte
  valid  : Nat
  deriving DecidableEq, Repr

/-- The values of link_state (R24). -/
inductive LinkState where
  | idle
  | sent
  | awaitStart
  | awaitLen
  | awaitData
  | awaitCrc
  | drain
  | ok
  | timeout
  | lenMismatch
  | crcMismatch
  deriving DecidableEq, Repr

/-- Where the command layer stands in a link operation (R210, R211, R218). -/
inductive LinkCtl where
  /-- no link operation in progress -/
  | idle
  /-- the next exchange is to be started -/
  | start
  /-- an exchange is in progress, at `link_state` -/
  | exchange
  /-- the handshake pause, begun at time `since` (R211) -/
  | pause (since : Time)
  deriving DecidableEq, Repr

/-- A request at the LINK port: selector, scalar operands, bulk data and count (R104, R210). -/
structure LinkReq where
  op   : Byte
  args : List Byte
  data : List Byte
  n    : Nat
  /-- presented as one request frame (a REQ row), not as a host operation (log 7); such a frame may be empty (log 37) -/
  wire : Bool
  deriving DecidableEq, Repr

/-- The link engine's registers (R24, R30, R31, R46), the serial streams (R32, R33), the host's buffers of the operation in
progress (R218, D40) and the requests waiting at the port (R105). -/
structure Link where
  linkState  : LinkState
  ctl        : LinkCtl
  lkOp       : Byte
  lkArgs     : List Byte
  bulkN      : BitVec 16
  bulkOff    : BitVec 16
  txCmd      : Byte
  txPayload  : List Byte
  expLen     : Byte
  t0         : Time
  rxLen      : Byte
  rxCnt      : BitVec 9
  rxBuf      : List Byte
  rxCrc      : Byte
  pingTry    : BitVec 2
  lkResult   : Result
  linkReady  : Bool
  timeoutMs  : BitVec 16
  linkStatus : BitVec 3
  serTx      : List Byte
  serRx      : List Byte
  /-- the host's data operand of the bulk operation in progress -/
  hostData   : List Byte
  /-- the host's result buffer: the response bytes of the chunks completed -/
  out        : List Byte
  waiting    : List LinkReq
  /-- MODEL's own: how many free result bytes have been used (log 20) -/
  freeCtr    : Nat
  deriving DecidableEq, Repr

/-! ### Flash controller -/

/-- The values of fl_phase (R25). -/
inductive FlPhase where
  | idle
  | wait
  | wren
  | cmd
  | done
  deriving DecidableEq, Repr

/-- Where the controller stands in its present Device Transaction (R250, R272). -/
inductive FlashCtl where
  /-- no operation in progress -/
  | idle
  /-- `Begin(MEM)` is to be issued -/
  | begin
  /-- `Begin(MEM)` has been issued and may wait for the permit -/
  | opening
  /-- the transaction is open: bytes to transfer, then `End(MEM)` -/
  | transfer
  /-- the result is to be handed to the host (F_DONE) -/
  | done
  deriving DecidableEq, Repr

/-- What the controller runs: a host operation (its selector is fl_op) or one bare bus command, `isStatus` for
read-status-1 (log 9). -/
inductive FlashJob where
  | host
  | bare (isStatus : Bool)
  deriving DecidableEq, Repr

/-- A request at the FLASH port: a host operation with its selector and operands, or a bare bus command with the bytes to
send and the number of bytes to read (R104, R250; log 9). -/
inductive FlashReq where
  | host (op : Byte) (addr : Addr) (len : Len) (data : List Byte)
  | bare (out : List Byte) (nIn : Nat) (isStatus : Bool)
  deriving DecidableEq, Repr

/-- The flash controller's registers (R25, R40, R46), its present Device Transaction (R250), the host's data of a WRITE in
progress (R40, D40) and the requests waiting at the port (R105). -/
structure Flash where
  flPhase     : FlPhase
  ctl         : FlashCtl
  job         : FlashJob
  flOp        : Byte
  flAddr      : Addr
  flRem       : Len
  flChunk     : BitVec 9
  flStatus    : Byte
  flId        : BitVec 24
  flResult    : Result
  flashStatus : BitVec 3
  /-- the bytes of a WRITE the host has not yet handed over -/
  hostData    : List Byte
  /-- bytes of the present transaction still to be sent -/
  txnOut      : List Byte
  /-- number of bytes of the present transaction still to be read -/
  txnIn       : Nat
  /-- bytes the present transaction has read -/
  txnGot      : List Byte
  waiting     : List FlashReq
  deriving DecidableEq, Repr

/-! ### The memory chip (environment) -/

/-- Which chip answers on MEM's select line: any chip at all, or the reference chip E-CHIP of R82 (D38; log 15). -/
inductive ChipKind where
  | free
  | reference
  deriving DecidableEq, Repr

/-- The chip's state (R50, R82). For a free chip only `kind` and `cmd` mean anything (log 15). -/
structure Chip where
  kind     : ChipKind
  /-- the array, in canonical form (`Memory.wf`) -/
  mem      : List Host.Cell
  wip      : Bool
  wel      : Bool
  pd       : Bool
  /-- manufacturer, memory type, capacity code -/
  ident    : BitVec 24
  /-- the bytes received since the select line was asserted -/
  cmd      : List Byte
  /-- MODEL's own: for how many status reads the chip stays busy after a program or an erase; `none`: until
  `Input.chipReady` (log 18) -/
  plan     : Option Nat
  /-- MODEL's own: how many status reads are still answered busy -/
  busyLeft : Option Nat
  deriving DecidableEq, Repr

/-! ### The environment's inputs and the schedule -/

/-- The agents of the block that can be activated (R7). -/
inductive Agent where
  /-- the operation in progress at client `c`'s ARB port, with the arbiter's grant logic -/
  | port (c : Client)
  | link
  | flash
  deriving DecidableEq, Repr

/-- What the outside world and the schedule can do in one step. -/
inductive Input where
  /-- a request in bytes at a port, or a frame or bus command in bytes (R100, R105) -/
  | request (sp : Space) (bytes : List Byte)
  /-- a byte arrives on the serial channel (R33) -/
  | rx (b : Byte)
  /-- time advances (R48) -/
  | tick (ms : Time)
  /-- the grant step, for this client (R143) -/
  | grant (c : Client)
  /-- an agent takes up to `n` of its own steps (R321) -/
  | run (a : Agent) (n : Nat)
  /-- the scheduling quantum is changed (log 2) -/
  | quantum (n : Nat)
  /-- the chip's own step: it clears its wip (R82) -/
  | chipReady
  /-- the host writes timeout_ms (R46, R47) -/
  | setTimeout (v : BitVec 16)
  /-- the block is restarted (R340) -/
  | reset
  deriving DecidableEq, Repr

/-- The environment: MODEL's own state (log 1, log 2, log 15, log 23). -/
structure Env where
  /-- the inputs to come, next first -/
  inbox   : List Input
  /-- the bytes the selected devices answer to the transfers to come, next first -/
  busIn   : List Byte
  /-- how many free bus bytes and free grants have been used -/
  freeCtr : Nat
  /-- how many of its own steps an agent takes when a request activates it -/
  quantum : Nat
  deriving DecidableEq, Repr

/-! ### The whole state -/

/-- The state of the block and of the environment it depends on. -/
structure State where
  params : Params
  arb    : Arbiter
  link   : Link
  flash  : Flash
  tNow   : Time
  chip   : Chip
  env    : Env
  deriving DecidableEq, Repr

def State.setArb (s : State) (a : Arbiter) : State := { s with arb := a }
def State.setLink (s : State) (l : Link) : State := { s with link := l }
def State.setFlash (s : State) (f : Flash) : State := { s with flash := f }
def State.setTime (s : State) (t : Time) : State := { s with tNow := t }
def State.setChip (s : State) (c : Chip) : State := { s with chip := c }
def State.setEnv (s : State) (e : Env) : State := { s with env := e }

/-! ### Reset values (R55, R340) -/

/-- The result register before any operation has ended: DESIGN CHOICE, the spec leaves it unspecified (log 12). -/
def Result.reset : Result := { ok := false, status := 0#3, data := [], valid := 0 }

/-- The arbiter after reset (R23, R55); `sharedCfg` is SHARED_CFG. -/
def Arbiter.reset (sharedCfg : BusConfig) : Arbiter where
  permitCreated := false
  permitOwner := none
  arbWait := { disp := false, mem := false }
  busCfg := sharedCfg
  cs := { disp := false, mem := false }
  txnOpen := none
  port := { disp := .idle, mem := .idle }
  waiting := { disp := [], mem := [] }
  lastIn := { disp := 0#8, mem := 0#8 }
  busTrace := []
  passed := { disp := none, mem := none }
  grants := 0

/-- The link engine after reset (R24, R31, R32, R33, R46, R55). The registers of R30 are unspecified after reset and hold
zero here: DESIGN CHOICE (log 12). -/
def Link.reset : Link where
  linkState := .idle
  ctl := .idle
  lkOp := 0#8
  lkArgs := []
  bulkN := 0#16
  bulkOff := 0#16
  txCmd := 0#8
  txPayload := []
  expLen := 0#8
  t0 := 0#32
  rxLen := 0#8
  rxCnt := 0#9
  rxBuf := List.replicate 32 0#8
  rxCrc := 0#8
  pingTry := 0#2
  lkResult := Result.reset
  linkReady := false
  timeoutMs := Config.timeoutDefault
  linkStatus := 0#3
  serTx := []
  serRx := []
  hostData := []
  out := []
  waiting := []
  freeCtr := 0

/-- The flash controller after reset (R25, R46, R55). The registers of R40 are unspecified after reset and hold zero here:
DESIGN CHOICE (log 12). -/
def Flash.reset : Flash where
  flPhase := .idle
  ctl := .idle
  job := .host
  flOp := 0#8
  flAddr := 0#24
  flRem := 0#25
  flChunk := 0#9
  flStatus := 0#8
  flId := 0#24
  flResult := Result.reset
  flashStatus := 0#3
  hostData := []
  txnOut := []
  txnIn := 0
  txnGot := []
  waiting := []

/-- The parameters of the machine of `State.reset`: the constants of Config.lean without a body (R8; log 13), and WIP_BIT = 0
(R8, from general knowledge, G1; log 14). -/
def Params.reset : Params where
  lastSector := Config.lastSector
  fillByte := Config.fillByte
  devCfg := { disp := Config.devCfg .disp, mem := Config.devCfg .mem }
  sharedCfg := Config.sharedCfg
  wipBit := 0
  arbFair := Config.arbFair

/-- The chip of `State.reset`: the reference chip E-CHIP of R82, erased and idle, which has finished a program or an erase
by the next status read (log 15, log 17, log 18). Reset of the block does not touch the chip (R341). -/
def Chip.reset : Chip where
  kind := .reference
  mem := []
  wip := false
  wel := false
  pd := false
  ident := 0xEF4016#24
  cmd := []
  plan := some 0
  busyLeft := none

/-- The environment of `State.reset`: nothing to come, no answer prepared (log 2). -/
def Env.reset : Env where
  inbox := []
  busIn := []
  freeCtr := 0
  quantum := 4096

/-- The machine right after reset (R55, R340). -/
def State.reset : State where
  params := Params.reset
  arb := Arbiter.reset Params.reset.sharedCfg
  link := Link.reset
  flash := Flash.reset
  tNow := 0#32
  chip := Chip.reset
  env := Env.reset

end Sys2Proof.Machine
end

