-- ==== Sys2Proof/Machine/Flags.lean ====
section
/-! DEFINITION. The one-bit values that steer the block (R45) and the status codes (R301). The block has no condition-code
register and no operation sets a flag as a side effect. -/

namespace Sys2Proof.Machine

/-- The write-in-progress bit of a status byte, `s[WIP_BIT]`; an all-ones byte reads as busy (R110 (f), R265, U15). -/
def wipOf (p : Params) (s : Byte) : Bool := s.getLsbD p.wipBit.val

/-- The result byte of IS_BUSY: the busy bit as 0 or 1 (R265; log 21). -/
def busyByte (p : Params) (s : Byte) : Byte := if wipOf p s then 1#8 else 0#8

/-- `ST_OK` (R301). -/
def stOk : BitVec 3 := 0#3
/-- `ST_TIMEOUT` (R301, R302). -/
def stTimeout : BitVec 3 := 1#3
/-- `ST_LEN_MISMATCH` (R301, R303). -/
def stLenMismatch : BitVec 3 := 2#3
/-- `ST_CRC_MISMATCH` (R301, R304). -/
def stCrcMismatch : BitVec 3 := 3#3
/-- `ST_NACK` (R301, R305). -/
def stNack : BitVec 3 := 4#3
/-- `ST_INIT_FAIL` (R301, R307). -/
def stInitFail : BitVec 3 := 5#3

/-- The status byte of the reference chip: `(wel << 1) | wip` (R82). -/
def chipStatus (c : Chip) : Byte := (if c.wel then 2#8 else 0#8) ||| (if c.wip then 1#8 else 0#8)

end Sys2Proof.Machine
end

