-- ==== Sys2Proof/Machine/Operands.lean ====
section
/-! DEFINITION. Operand forms: the selectors of R104, the request frame of every link command (R106, R210), chunk sizes
(R110, R218, R262), address decoding (R62) and the range check of R65. -/

namespace Sys2Proof.Machine

/-! ### Addresses and lengths -/

/-- CAPACITY, the number of bytes of the chip (R8). -/
def Params.capacity (p : Params) : Nat := p.lastSector.val * 4096 + 4096

/-- The page number of an address (R62). -/
def pageOf (a : Nat) : Nat := a / 256

/-- The sector number of an address (R62). -/
def sectorOf (a : Nat) : Nat := a / 4096

/-- The room left in the page of an address, 1 to 256 (R62, R17 (c)). -/
def pageRoom (a : Nat) : Nat := 256 - a % 256

/-- Whether `length` bytes from `address` leave the chip's addresses: such a READ or WRITE is refused (R65). -/
def beyondCapacity (p : Params) (address length : Nat) : Bool := decide (p.capacity < address + length)

/-- Whether an address lies beyond the last sector, that is `address >= CAPACITY`: such an ERASE_SECTOR is refused (R65). -/
def beyondLastSector (p : Params) (address : Nat) : Bool := decide (p.lastSector.val < sectorOf address)

/-- The chunk size of one page-program: `min(fl_rem, 256 - (fl_addr mod 256))` (R262, R110 (g)). -/
def pageChunk (a : Addr) (rem : Len) : Nat := min rem.toNat (pageRoom a.toNat)

/-! ### Link operations -/

/-- The twelve operations of the LINK port (R104). -/
inductive LinkOp where
  | init
  | pinMode
  | digitalWrite
  | digitalRead
  | analogWrite
  | analogRead
  | i2cWrite
  | i2cRead
  | spiInit
  | spiTransfer
  | installSleepMonitor
  | ping
  deriving DecidableEq, Repr

/-- The link operation of a selector (R104). -/
def linkOpOf (op : Byte) : Option LinkOp :=
  match op with
  | 0x00#8 => some .init
  | 0x01#8 => some .pinMode
  | 0x02#8 => some .digitalWrite
  | 0x03#8 => some .digitalRead
  | 0x04#8 => some .analogWrite
  | 0x05#8 => some .analogRead
  | 0x10#8 => some .i2cWrite
  | 0x11#8 => some .i2cRead
  | 0x20#8 => some .spiInit
  | 0x21#8 => some .spiTransfer
  | 0x90#8 => some .installSleepMonitor
  | 0x99#8 => some .ping
  | _ => none

/-- The operations that are split into chunks (R218). -/
def LinkOp.isBulk : LinkOp → Bool
  | .i2cWrite | .i2cRead | .spiTransfer => true
  | .init | .pinMode | .digitalWrite | .digitalRead | .analogWrite | .analogRead => false
  | .spiInit | .installSleepMonitor | .ping => false

/-- The operations the host may issue before the handshake (R225). -/
def LinkOp.beforeHandshake : LinkOp → Bool
  | .init | .ping => true
  | .pinMode | .digitalWrite | .digitalRead | .analogWrite | .analogRead | .i2cWrite | .i2cRead => false
  | .spiInit | .spiTransfer | .installSleepMonitor => false

/-- W, the data bytes one frame of a bulk operation carries: 31 for I2C_WRITE, whose frame also carries the address, else
32 (R218). -/
def LinkOp.width : LinkOp → Nat
  | .i2cWrite => 31
  | .i2cRead | .spiTransfer => 32
  | .init | .pinMode | .digitalWrite | .digitalRead | .analogWrite | .analogRead => 32
  | .spiInit | .installSleepMonitor | .ping => 32

/-- `k = min(bulk_n - bulk_off, W)`, the size of the present chunk (R218). -/
def Link.chunkLen (op : LinkOp) (l : Link) : Nat := min (l.bulkN.toNat - l.bulkOff.toNat) op.width

/-- `data[off .. off+k]`, the bytes of the present chunk (R218). -/
def Link.chunk (op : LinkOp) (l : Link) : List Byte := (l.hostData.drop l.bulkOff.toNat).take (l.chunkLen op)

/-- CMD of the operation's frames: the selector, but INIT sends pings (R210, R211). -/
def Link.cmdOf (op : LinkOp) (l : Link) : Byte :=
  match op with
  | .init => 0x99#8
  | .pinMode | .digitalWrite | .digitalRead | .analogWrite | .analogRead | .i2cWrite | .i2cRead => l.lkOp
  | .spiInit | .spiTransfer | .installSleepMonitor | .ping => l.lkOp

/-- PAYLOAD of the operation's next frame (R106, R219, R220, R222). -/
def Link.payloadOf (op : LinkOp) (l : Link) : List Byte :=
  match op with
  | .init | .ping => []
  | .pinMode | .digitalWrite | .digitalRead | .analogWrite | .analogRead => l.lkArgs
  | .spiInit | .installSleepMonitor => l.lkArgs
  | .i2cWrite => l.lkArgs ++ l.chunk op
  | .i2cRead => l.lkArgs ++ [BitVec.ofNat 8 (l.chunkLen op)]
  | .spiTransfer => l.chunk op

/-- `exp_len` of the operation's next frame (R106). -/
def Link.expOf (op : LinkOp) (l : Link) : Byte :=
  match op with
  | .analogRead => 2#8
  | .i2cRead | .spiTransfer => BitVec.ofNat 8 (l.chunkLen op)
  | .init | .ping | .pinMode | .digitalWrite | .digitalRead | .analogWrite => 1#8
  | .i2cWrite | .spiInit | .installSleepMonitor => 1#8

/-! ### Flash operations -/

/-- The nine operations of the FLASH port (R104). -/
inductive FlashOp where
  | waitForReady
  | write
  | read
  | isBusy
  | eraseSector
  | identify
  | wakeUp
  | powerDown
  | eraseChip
  deriving DecidableEq, Repr

/-- The flash operation of a selector (R104). -/
def flashOpOf (op : Byte) : Option FlashOp :=
  match op with
  | 0x00#8 => some .waitForReady
  | 0x02#8 => some .write
  | 0x03#8 => some .read
  | 0x05#8 => some .isBusy
  | 0x20#8 => some .eraseSector
  | 0x9F#8 => some .identify
  | 0xAB#8 => some .wakeUp
  | 0xB9#8 => some .powerDown
  | 0xC7#8 => some .eraseChip
  | _ => none

/-! ### The bytes of the bus commands (R108, R109) -/

/-- write-enable, format B0 (R251) -/
def bytesWriteEnable : List Byte := [0x06#8]
/-- read-status-1, format B4 with one byte in (R252) -/
def bytesReadStatus : List Byte := [0x05#8]
/-- read-data, format B3 (R253) -/
def bytesReadData (a : Addr) : List Byte := 0x03#8 :: be24 a
/-- page-program, format B2 (R254) -/
def bytesPageProgram (a : Addr) (d : List Byte) : List Byte := 0x02#8 :: (be24 a ++ d)
/-- sector-erase-4K, format B1 (R255) -/
def bytesSectorErase (a : Addr) : List Byte := 0x20#8 :: be24 a
/-- chip-erase, format B0 (R256) -/
def bytesChipErase : List Byte := [0xC7#8]
/-- jedec-id, format B4 with three bytes in (R257) -/
def bytesJedecId : List Byte := [0x9F#8]
/-- power-down, format B0 (R258) -/
def bytesPowerDown : List Byte := [0xB9#8]
/-- release-power-down, format B0 (R259) -/
def bytesReleasePowerDown : List Byte := [0xAB#8]

end Sys2Proof.Machine
end

