-- ==== Sys2Proof/Machine/Ops.lean ====
section
/-! DEFINITION. The shared operations: the chip's array as a memory (R60, R61), the free values, how an operation of the
link ends well and how it fails (R300, R301, R312: the block's counterpart of taking an exception; nothing returns from
a failure, R313). -/

namespace Sys2Proof.Machine

/-! ### Sequencing -/

/-- Go on with `f` where `x` answers a next state. -/
def andThen {σ τ : Type} (x : Answer σ) (f : σ → Answer τ) : Answer τ :=
  match x with
  | .next s => f s
  | .fault e => .fault e
  | .refused r => .refused r

/-! ### The chip's array -/

/-- What an address that nothing has written reads as: DESIGN CHOICE 0xFF, the erased byte of R82 (log 17). -/
def Memory.blank : Byte := 0xFF#8

/-- The byte at an address of the array. -/
def Memory.read (m : List Host.Cell) (a : Nat) : Byte :=
  match m with
  | [] => Memory.blank
  | (k, v) :: r => if k = a then v else Memory.read r a

/-- The array with one byte written, in canonical form. -/
def Memory.write (m : List Host.Cell) (a : Nat) (v : Byte) : List Host.Cell :=
  match m with
  | [] => if v = Memory.blank then [] else [(a, v)]
  | (k, w) :: r =>
    if a < k then (if v = Memory.blank then (k, w) :: r else (a, v) :: (k, w) :: r)
    else if a = k then (if v = Memory.blank then r else (a, v) :: r)
    else (k, w) :: Memory.write r a v

/-- The array with the bytes `lo .. lo+n-1` erased to 0xFF (R82, G6). -/
def Memory.erase (m : List Host.Cell) (lo n : Nat) : List Host.Cell :=
  m.filter (fun c => !(decide (lo ≤ c.1) && decide (c.1 < lo + n)))

/-- Where byte `k` of a page-program at address `a` goes: it wraps inside the page (R82). -/
def programAddr (a k : Nat) : Nat := a / 256 * 256 + (a + k) % 256

/-- The array after a page-program of `d` at `a`, whose first byte is number `k`: programming clears bits (R82, G2). -/
def Memory.program (m : List Host.Cell) (a k : Nat) (d : List Byte) : List Host.Cell :=
  match d with
  | [] => m
  | b :: r =>
    Memory.program (Memory.write m (programAddr a k) (Memory.read m (programAddr a k) &&& b)) a (k + 1) r

/-- The canonical form from address `lo` on: addresses strictly rising, no entry equal to what an unlisted address reads
as. -/
def Memory.wfFrom (lo : Nat) (m : List Host.Cell) : Bool :=
  match m with
  | [] => true
  | (k, v) :: r => decide (lo ≤ k) && !(v == Memory.blank) && Memory.wfFrom (k + 1) r

/-- The canonical form of the array. -/
def Memory.wf (m : List Host.Cell) : Bool := Memory.wfFrom 0 m

/-! ### Free values -/

/-- The byte a device answers where nothing else determines it: the environment's next answer, or a free value (U5, R148;
log 15). -/
def envByte (e : Env) : Byte :=
  match e.busIn with
  | [] => Config.freeBusByte e.freeCtr
  | b :: _ => b

/-- The environment after it has given that byte. -/
def envNext (e : Env) : Env :=
  match e.busIn with
  | [] => { e with freeCtr := e.freeCtr + 1 }
  | _ :: r => { e with busIn := r }

/-- `n` free result bytes, the first of number `k` (log 20). -/
def freeBytes (k n : Nat) : List Byte := (List.range n).map (fun j => Config.freeResultByte (k + j))

/-! ### What a link operation returns -/

/-- `from_be(payload[0..2])`, the value of an analog-read response, 0 to 65535 (R110 (d), R66). -/
def analogValue (payload : List Byte) : BitVec 16 := BitVec.ofNat 16 (fromBe (payload.take 2))

/-- The 16-bit value the LINK port returns to the host: `d[0] * 256 + d[1]` of the two bytes in lk_result, after an ANALOG_READ
that ended well (R104, R217, R301). -/
def Link.hostValue (l : Link) : Option (BitVec 16) :=
  if l.lkOp = 0x05#8 ∧ l.ctl = .idle ∧ l.lkResult.ok = true then some (analogValue l.lkResult.data) else none

/-! ### How a link operation ends -/

/-- The operation ends well with `data`: result and link_status written, the port idle (R210, R301). -/
def Link.succeed (data : List Byte) (l : Link) : Link :=
  { l with
    lkResult := { ok := true, status := stOk, data := data, valid := data.length }
    linkStatus := stOk
    linkState := .idle
    ctl := .idle }

/-- `raise X`: the operation ends now with a failure outcome; result and link_status written, link_state back to IDLE, the
port idle, everything else as it is (R300, R301, R312). -/
def Link.raise (status : BitVec 3) (data : List Byte) (valid : Nat) (l : Link) : Link :=
  { l with
    lkResult := { ok := false, status := status, data := data, valid := valid }
    linkStatus := status
    linkState := .idle
    ctl := .idle }

end Sys2Proof.Machine
end

