-- ==== Sys2Proof/Machine/Chip.lean ====
section
/-! DEFINITION. The memory chip on MEM's select line (R50, R82, R83): the reference chip E-CHIP of R82, byte by byte, and
the unconstrained chip. -/

namespace Sys2Proof.Machine

/-- Byte `k` of the identification signature: manufacturer, memory type, capacity code (R82, R257). -/
def identByte (c : Chip) (k : Nat) : Byte :=
  match k with
  | 0 => c.ident.extractLsb' 16 8
  | 1 => c.ident.extractLsb' 8 8
  | _ => c.ident.extractLsb' 0 8

/-- The chip as a status read finds it: where a plan is set, it clears its wip after that many busy answers (R82 "may at
any time set wip <- 0"; log 18). -/
def chipPoll (c : Chip) : Chip :=
  match c.wip, c.busyLeft with
  | true, some 0 => { c with wip := false, busyLeft := none }
  | true, some (n + 1) => { c with busyLeft := some n }
  | _, _ => c

/-- The chip at the moment of a transfer: a status read lets it move its plan (log 18). -/
def chipBefore (c : Chip) : Chip :=
  match c.kind, c.cmd with
  | .reference, op :: _ => if op = 0x05#8 then chipPoll c else c
  | _, _ => c

/-- The address bytes of a command the chip is receiving, `rest` being what followed the opcode. -/
def cmdAddr (rest : List Byte) : Nat := (addrOf (rest.getD 0 0#8) (rest.getD 1 0#8) (rest.getD 2 0#8)).toNat

/-- Whether the chip accepts a program or an erase (R82). -/
def chipWritable (c : Chip) : Bool := !c.wip && !c.pd && c.wel

/-- Whether the reference chip takes a command with opcode `op`: the condition R82 gives with it. A command it does not
take, and any other, is ignored. -/
def eChipTakes (c : Chip) (op : Byte) : Bool :=
  match op with
  | 0x05#8 | 0xAB#8 => true
  | 0x06#8 | 0x03#8 => !c.wip && !c.pd
  | 0x02#8 | 0x20#8 | 0xC7#8 => chipWritable c
  | 0x9F#8 => !c.pd
  | 0xB9#8 => !c.wip
  | _ => false

/-- What the reference chip answers to the next transfer of a command with opcode `op` that it takes, of which it has
received `rest` after the opcode; `none` where R82 says nothing of the byte (log 16). -/
def eChipRead (p : Params) (c : Chip) (op : Byte) (rest : List Byte) : Option Byte :=
  match op with
  | 0x05#8 => some (chipStatus c)
  | 0x9F#8 => if rest.length < 3 then some (identByte c rest.length) else none
  | 0x03#8 =>
    if rest.length < 3 then none
    else some (Memory.read c.mem ((cmdAddr rest + (rest.length - 3)) % p.capacity))
  | _ => none

/-- What the reference chip answers to the next transfer of a command: bytes read of a command it ignores are 0xFF
(R82). -/
def eChipAnswer (p : Params) (c : Chip) (op : Byte) (rest : List Byte) : Option Byte :=
  if eChipTakes c op then eChipRead p c op rest else some 0xFF#8

/-- What the chip answers to the next transfer, where the model determines it: the reference chip's answer; nothing for the
opcode byte and nothing of a free chip (R82; log 15, log 16). -/
def chipAnswer (p : Params) (c : Chip) : Option Byte :=
  match c.kind, c.cmd with
  | .free, _ => none
  | .reference, [] => none
  | .reference, op :: rest => eChipAnswer p (chipBefore c) op rest

/-- The chip after it has received a byte. -/
def chipReceive (o : Byte) (c : Chip) : Chip := { chipBefore c with cmd := c.cmd ++ [o] }

/-- The chip when its select line is asserted: a new command begins. -/
def chipSelect (c : Chip) : Chip := { c with cmd := [] }

/-- The chip after a command of which the spec does not say what it makes: from now on it may answer anything (U14;
log 16). -/
def chipUnknown (c : Chip) : Chip := { c with kind := .free }

/-- A program or an erase has been accepted: busy, write-enable latch cleared (R82). -/
def chipBusy (mem : List Host.Cell) (c : Chip) : Chip :=
  { c with mem := mem, wip := true, wel := false, busyLeft := c.plan }

/-- What a command that the reference chip takes does to it (R82; log 16). -/
def eChipEffect (p : Params) (c : Chip) (op : Byte) (rest : List Byte) : Chip :=
  match op with
  | 0x05#8 | 0x9F#8 => c
  | 0x03#8 => if rest.length < 3 then chipUnknown c else c
  | 0x06#8 => if rest = [] then { c with wel := true } else chipUnknown c
  | 0x02#8 =>
    if rest.length < 3 then chipUnknown c
    else if rest.drop 3 = [] then c
    else if p.capacity ≤ cmdAddr rest then chipUnknown c
    else chipBusy (Memory.program c.mem (cmdAddr rest) 0 (rest.drop 3)) c
  | 0x20#8 =>
    if rest.length ≠ 3 ∨ p.capacity ≤ cmdAddr rest then chipUnknown c
    else chipBusy (Memory.erase c.mem (sectorOf (cmdAddr rest) * 4096) 4096) c
  | 0xC7#8 => if rest = [] then chipBusy [] c else chipUnknown c
  | 0xB9#8 => if rest = [] then { c with pd := true } else chipUnknown c
  | 0xAB#8 => if rest = [] then { c with pd := false } else chipUnknown c
  | _ => c

/-- What a command does to the reference chip when the select line is deasserted: one that it does not take is ignored,
whatever bytes came with it (R82, R111; log 16). -/
def eChipExecute (p : Params) (c : Chip) (op : Byte) (rest : List Byte) : Chip :=
  if eChipTakes c op then eChipEffect p c op rest else c

/-- The chip when its select line is deasserted: the reference chip carries out the command it has received. -/
def chipDeselect (p : Params) (c : Chip) : Chip :=
  match c.kind, c.cmd with
  | .reference, op :: rest => { eChipExecute p c op rest with cmd := [] }
  | _, _ => { c with cmd := [] }

/-- The chip when reset deasserts its select line: a command cut short leaves it unconstrained (R341 (b), U14; log 26). -/
def chipCut (selected : Bool) (c : Chip) : Chip :=
  if selected && !c.cmd.isEmpty then { chipUnknown c with cmd := [] } else { c with cmd := [] }

/-- The chip's own step: it clears its wip (R82). -/
def chipOwnStep (c : Chip) : Chip := if c.wip then { c with wip := false, busyLeft := none } else c

end Sys2Proof.Machine
end

