-- ==== Sys2Proof/Machine/ArbEngine.lean ====
section
/-! DEFINITION. The Bus Arbiter as shared operations: the permit, the grant step, opening and closing a Device Transaction,
one bus transfer, the ports (R140 to R154, R105). -/

namespace Sys2Proof.Machine

/-! ### The permit -/

/-- Client `c` asks for the permit (R142): created at the first request, and `c` waits. -/
def requestPermit (c : Client) (p : ArbPort) (a : Arbiter) : Arbiter :=
  { a with permitCreated := true, arbWait := a.arbWait.set c true, port := a.port.set c p }

/-- How often client `c` may still be passed over, when it is passed over now: a bound drawn at the first time, one less at
each further one (log 28). -/
def passOver (c : Client) (a : Arbiter) : Option Nat :=
  match a.passed.get c with
  | none => some (Config.fairBound a.grants)
  | some n => some (n - 1)

/-- Client `c` is granted the permit (R143). The client that waits beside it has been passed over (log 28). -/
def grantTo (c : Client) (a : Arbiter) : Arbiter :=
  { a with
    permitOwner := some c
    arbWait := a.arbWait.set c false
    passed := (a.passed.set c none).set c.other
      (if a.arbWait.get c.other then passOver c.other a else a.passed.get c.other)
    grants := if a.arbWait.get c.other then a.grants + 1 else a.grants }

/-- The arbiter owes the permit to client `c`: ARB_FAIR holds, `c` waits, and it may not be passed over again (R8, R143;
log 28). -/
def owed (p : Params) (c : Client) (a : Arbiter) : Bool :=
  p.arbFair && a.arbWait.get c && a.passed.get c == some 0

/-- Whether the grant step may choose client `c`: it waits, and the permit is not owed to the other alone (R143; log 28). -/
def mayChoose (p : Params) (c : Client) (a : Arbiter) : Bool :=
  a.arbWait.get c && (!owed p c.other a || owed p c a)

/-- The grant step for a client the schedule names: taken where it is enabled for it (R143). -/
def grantIf (p : Params) (c : Client) (a : Arbiter) : Arbiter :=
  if a.permitOwner = none ∧ mayChoose p c a = true then grantTo c a else a

/-- The client the arbiter's own grant step chooses; where it may choose both the choice is a free value (R143, U1;
log 23). -/
def grantChoice (p : Params) (a : Arbiter) (e : Env) : Option Client :=
  if a.permitOwner ≠ none then none
  else match mayChoose p .disp a, mayChoose p .mem a with
    | true, true => some (Config.freeGrant e.freeCtr)
    | true, false => some .disp
    | false, true => some .mem
    | false, false => none

/-- The arbiter's own grant step (R143); nothing where it is not enabled. -/
def grantStep (s : State) : State :=
  match grantChoice s.params s.arb s.env with
  | none => s
  | some c =>
    (s.setArb (grantTo c s.arb)).setEnv
      (if s.arb.arbWait.disp && s.arb.arbWait.mem then { s.env with freeCtr := s.env.freeCtr + 1 } else s.env)

/-! ### Transactions -/

/-- The arbiter's side of opening device `d`'s transaction: configuration, then select (R145). -/
def openBus (p : Params) (d : Client) (a : Arbiter) : Arbiter :=
  { a with
    busCfg := p.devCfg.get d
    cs := a.cs.set d true
    txnOpen := some d
    port := a.port.set d .idle
    busTrace := a.busTrace ++ [.begin d] }

/-- The arbiter's side of closing device `d`'s transaction: deselect, restore, release (R146). -/
def closeBus (p : Params) (d : Client) (a : Arbiter) : Arbiter :=
  { a with
    cs := a.cs.set d false
    busCfg := p.sharedCfg
    txnOpen := none
    permitOwner := none
    busTrace := a.busTrace ++ [.finish d] }

/-- The rest of `BEGIN_TRANSACTION(d)` once `d` holds the permit (R145). -/
def openTxn (d : Client) (s : State) : State :=
  (s.setArb (openBus s.params d s.arb)).setChip (if d = .mem then chipSelect s.chip else s.chip)

/-- `END_TRANSACTION(d)` (R146). -/
def closeTxn (d : Client) (s : State) : State :=
  (s.setArb (closeBus s.params d s.arb)).setChip (if d = .mem then chipDeselect s.params s.chip else s.chip)

/-- What the model determines of the byte that device `c` returns for the next transfer: only the reference chip's bytes
(R148, R82; log 15). -/
def deviceAnswer (c : Client) (s : State) : Option Byte :=
  match c with
  | .disp => none
  | .mem => chipAnswer s.params s.chip

/-- The byte that device `c` returns for the next transfer (R148). -/
def inByte (c : Client) (s : State) : Byte := (deviceAnswer c s).getD (envByte s.env)

/-- One bus transfer of client `c`: byte `o` goes out, the selected device's byte comes in (R148). -/
def transfer (c : Client) (o : Byte) (s : State) : State :=
  ((s.setArb { s.arb with
      lastIn := s.arb.lastIn.set c (inByte c s)
      busTrace := s.arb.busTrace ++ [.xfer c o (inByte c s)] }).setChip
    (if c = .mem then chipReceive o s.chip else s.chip)).setEnv
    (if (deviceAnswer c s).isSome then s.env else envNext s.env)

/-! ### Requests at a port -/

/-- Client `c`'s request is accepted: its effect, or its wait for the permit; a breach of the protocol is refused
(R142, R144, R145, R146, R148, R151). -/
def arbAccept (c : Client) (r : ArbReq) (s : State) : Answer State :=
  match r with
  | .acquire =>
    if s.arb.permitOwner = some c then .refused .reacquire
    else .next (s.setArb (requestPermit c .acquiring s.arb))
  | .release =>
    if s.arb.permitOwner = some c ∧ s.arb.txnOpen = none then .next (s.setArb { s.arb with permitOwner := none })
    else .refused .releaseMisuse
  | .begin =>
    if s.arb.permitOwner = some c then
      if s.arb.txnOpen = none then .next (openTxn c s) else .refused .nestedBegin
    else .next (s.setArb (requestPermit c .beginning s.arb))
  | .finish =>
    if s.arb.txnOpen = some c ∧ s.arb.permitOwner = some c then .next (closeTxn c s) else .refused .endMisuse
  | .xfer o =>
    if s.arb.permitOwner = some c ∧ s.arb.txnOpen = some c then .next (transfer c o s) else .refused .xferMisuse

/-- Whether client `c`'s port takes a request: no operation of its own in progress, and MEM's port is the controller's own
while a flash operation runs (R104, R105; log 10). -/
def portFree (c : Client) (s : State) : Bool :=
  s.arb.port.get c == .idle && (c == .disp || s.flash.ctl == .idle)

/-- One micro-step at client `c`'s port: accept the oldest waiting request; or let the arbiter grant; or, once the permit
is held, return from ACQUIRE or do the rest of BEGIN_TRANSACTION (R105, R142, R143, R145). -/
def arbMicro (c : Client) (s : State) : Answer State :=
  match s.arb.port.get c with
  | .idle =>
    match s.arb.waiting.get c with
    | [] => .next s
    | r :: rest =>
      if portFree c s then arbAccept c r (s.setArb { s.arb with waiting := s.arb.waiting.set c rest }) else .next s
  | .acquiring =>
    if s.arb.permitOwner = some c then .next (s.setArb { s.arb with port := s.arb.port.set c .idle })
    else .next (grantStep s)
  | .beginning =>
    if s.arb.permitOwner = some c then .next (openTxn c s) else .next (grantStep s)

/-- Whether the operation in progress at client `c`'s port is held by another holder of the permit (R142, R309). -/
def permitBlocked (c : Client) (s : State) : Bool :=
  !(s.arb.permitOwner == none) && !(s.arb.permitOwner == some c)

/-- Up to `n` micro-steps at client `c`'s port, ended early when the operation has ended or is held. -/
def arbRun (c : Client) : Nat → State → Answer State
  | 0, s => .next s
  | n + 1, s =>
    if s.arb.port.get c == .idle || permitBlocked c s then .next s else andThen (arbMicro c s) (arbRun c n)

/-- A request is presented at client `c`'s ARB port: accepted and run where the port is free, else it waits (R105). -/
def presentArb (c : Client) (r : ArbReq) (s : State) : Answer State :=
  if portFree c s && s.arb.waiting.get c == [] then andThen (arbAccept c r s) (arbRun c s.env.quantum)
  else .next (s.setArb { s.arb with waiting := s.arb.waiting.set c (s.arb.waiting.get c ++ [r]) })

end Sys2Proof.Machine
end

