-- ==== Sys2Proof/Machine/ArbOps.lean ====
section
/-! DEFINITION. The meanings of the five operations of the ARB ports. -/

namespace Sys2Proof.Machine

/-- `ACQUIRE(c)`: ask for the permit and wait for the grant (R142). -/
def execAcquire (c : Client) (s : State) : Answer State := presentArb c .acquire s

/-- `RELEASE(c)`: the permit becomes free (R144). -/
def execRelease (c : Client) (s : State) : Answer State := presentArb c .release s

/-- `BEGIN_TRANSACTION(d)`: acquire unless held, configure the bus, assert the select line (R145). -/
def execBeginTransaction (d : Client) (s : State) : Answer State := presentArb d .begin s

/-- `END_TRANSACTION(d)`: deselect, restore the shared configuration, release (R146). -/
def execEndTransaction (d : Client) (s : State) : Answer State := presentArb d .finish s

/-- `BUS_XFER(c, o)`: one byte out, one byte in (R148). -/
def execBusXfer (c : Client) (o : Byte) (s : State) : Answer State := presentArb c (.xfer o) s

end Sys2Proof.Machine
end

