-- ==== Sys2Proof/Machine/FlashEngine.lean ====
section
/-! DEFINITION. The flash controller: its Device Transactions (R250), the transitions of fl_phase (R272) with what each
operation does (R260 to R268), the FLASH port (R105, R270). -/

namespace Sys2Proof.Machine

/-! ### Transactions and transitions -/

/-- The controller sets up `Txn(out, nIn)` in phase `ph` (R250). -/
def Flash.txn (ph : FlPhase) (out : List Byte) (nIn : Nat) (f : Flash) : Flash :=
  { f with flPhase := ph, ctl := .begin, txnOut := out, txnIn := nIn, txnGot := [] }

/-- The operation is done: phase F_DONE, the result latched; a flash operation always ends well (R272, R301, R306). -/
def Flash.finish (data : List Byte) (f : Flash) : Flash :=
  { f with
    flPhase := .done
    ctl := .done
    flResult := { ok := true, status := stOk, data := data, valid := data.length }
    flashStatus := stOk }

/-- The chip is ready: what follows the wait in each operation that waits (R261 to R264, R266). -/
def Flash.afterWait (op : FlashOp) (f : Flash) : Answer Flash :=
  match op with
  | .waitForReady => .next (f.finish [])
  | .read => .next (f.txn .cmd (bytesReadData f.flAddr) f.flRem.toNat)
  | .write | .eraseSector | .eraseChip => .next (f.txn .wren bytesWriteEnable 0)
  | .isBusy | .identify | .wakeUp | .powerDown => .fault .noTransition

/-- Write-enable has been sent: the operation's own command (R262 to R264). -/
def Flash.afterWren (op : FlashOp) (f : Flash) : Answer Flash :=
  match op with
  | .write =>
    .next (({ f with flChunk := BitVec.ofNat 9 (pageChunk f.flAddr f.flRem) } : Flash).txn .cmd
      (bytesPageProgram f.flAddr (f.hostData.take (pageChunk f.flAddr f.flRem))) 0)
  | .eraseSector => .next (f.txn .cmd (bytesSectorErase f.flAddr) 0)
  | .eraseChip => .next (f.txn .cmd bytesChipErase 0)
  | .waitForReady | .read | .isBusy | .identify | .wakeUp | .powerDown => .fault .noTransition

/-- A page-program has been sent: advance address and remaining length by the chunk, go on while bytes remain (R262). -/
def Flash.advance (f : Flash) : Flash :=
  let g : Flash := { f with
    flAddr := f.flAddr + f.flChunk.setWidth 24
    flRem := f.flRem - f.flChunk.setWidth 25
    hostData := f.hostData.drop f.flChunk.toNat }
  if 0 < g.flRem.toNat then g.txn .wait bytesReadStatus 1 else g.finish []

/-- The operation's own command has been sent, `got` being the bytes it read (R260 to R268). -/
def Flash.afterCmd (p : Params) (op : FlashOp) (got : List Byte) (f : Flash) : Answer Flash :=
  match op with
  | .read => .next (f.finish got)
  | .write => .next f.advance
  | .isBusy => .next (({ f with flStatus := got.headD 0#8 } : Flash).finish [busyByte p (got.headD 0#8)])
  | .identify => .next (({ f with flId := BitVec.ofNat 24 (fromBe got) } : Flash).finish got)
  | .eraseSector | .eraseChip | .wakeUp | .powerDown => .next (f.finish [])
  | .waitForReady => .fault .noTransition

/-- A Device Transaction of the controller has ended: the row of R272 for the phase and the operation. -/
def Flash.txnDone (p : Params) (f : Flash) : Answer Flash :=
  match f.job with
  | .bare isStatus =>
    .next (({ f with flStatus := if isStatus then f.txnGot.headD 0#8 else f.flStatus } : Flash).finish f.txnGot)
  | .host =>
    match flashOpOf f.flOp with
    | none => .fault .noTransition
    | some op =>
      match f.flPhase with
      | .wait =>
        let g : Flash := { f with flStatus := f.txnGot.headD 0#8 }
        if wipOf p g.flStatus then .next (g.txn .wait bytesReadStatus 1) else g.afterWait op
      | .wren => f.afterWren op
      | .cmd => f.afterCmd p op f.txnGot
      | .idle | .done => .fault .noTransition

/-! ### The FLASH port -/

/-- A host operation is accepted: its operands latched and its first transition taken (R272). -/
def Flash.start (op : FlashOp) (code : Byte) (addr : Addr) (len : Len) (data : List Byte) (f : Flash) : Flash :=
  let g : Flash := { f with job := .host, flOp := code }
  match op with
  | .waitForReady => g.txn .wait bytesReadStatus 1
  | .read => ({ g with flAddr := addr, flRem := len } : Flash).txn .wait bytesReadStatus 1
  | .write =>
    let h : Flash := { g with flAddr := addr, flRem := BitVec.ofNat 25 data.length, hostData := data }
    if data = [] then h.finish [] else h.txn .wait bytesReadStatus 1
  | .eraseSector => ({ g with flAddr := addr } : Flash).txn .wait bytesReadStatus 1
  | .eraseChip => g.txn .wait bytesReadStatus 1
  | .isBusy => g.txn .cmd bytesReadStatus 1
  | .identify => g.txn .cmd bytesJedecId 3
  | .wakeUp => g.txn .cmd bytesReleasePowerDown 0
  | .powerDown => g.txn .cmd bytesPowerDown 0

/-- Whether the request's address range is refused (R65, R114 (c)). -/
def rangeRefused (p : Params) (op : FlashOp) (addr : Addr) (len : Len) (data : List Byte) : Bool :=
  match op with
  | .read => beyondCapacity p addr.toNat len.toNat
  | .write => beyondCapacity p addr.toNat data.length
  | .eraseSector => beyondLastSector p addr.toNat
  | .waitForReady | .isBusy | .identify | .wakeUp | .powerDown | .eraseChip => false

/-- A request at the FLASH port is accepted (R65, R270, R272; a bare bus command: log 9). -/
def Flash.accept (p : Params) (r : FlashReq) (f : Flash) : Answer Flash :=
  match r with
  | .host code addr len data =>
    match flashOpOf code with
    | none => .refused (.undecodable .unknownOpSel)
    | some op =>
      if rangeRefused p op addr len data then .refused .beyondCapacity
      else .next (f.start op code addr len data)
  | .bare out nIn isStatus => .next (({ f with job := .bare isStatus } : Flash).txn .cmd out nIn)

/-- An answer of the controller's own registers as an answer of the machine. -/
def liftFlash (s : State) (x : Answer Flash) : Answer State := andThen x (fun f => .next (s.setFlash f))

/-- One byte of the present transaction: the bytes to send first, then the bytes to read, then the end (R250, R109). -/
def flashTransfer (s : State) : Answer State :=
  match s.flash.txnOut with
  | o :: rest => andThen (arbAccept .mem (.xfer o) s) (fun t => .next (t.setFlash { t.flash with txnOut := rest }))
  | [] =>
    match s.flash.txnIn with
    | n + 1 =>
      andThen (arbAccept .mem (.xfer s.params.fillByte) s) (fun t =>
        .next (t.setFlash { t.flash with txnIn := n, txnGot := t.flash.txnGot ++ [t.arb.lastIn.mem] }))
    | 0 => andThen (arbAccept .mem .finish s) (fun t => liftFlash t (t.flash.txnDone t.params))

/-- One micro-step of the flash controller: accept the oldest waiting request; issue `Begin(MEM)`; wait for the permit,
letting the arbiter grant; one byte or the end of the transaction with the transition that follows it; hand the result
back (R105, R250, R272). -/
def flashMicro (s : State) : Answer State :=
  match s.flash.ctl with
  | .idle =>
    match s.flash.waiting with
    | [] => .next s
    | r :: rest =>
      if s.arb.port.mem = .idle then liftFlash s (Flash.accept s.params r { s.flash with waiting := rest }) else .next s
  | .begin => andThen (arbAccept .mem .begin s) (fun t => .next (t.setFlash { t.flash with ctl := .opening }))
  | .opening =>
    if s.arb.txnOpen = some .mem then .next (s.setFlash { s.flash with ctl := .transfer }) else arbMicro .mem s
  | .transfer => flashTransfer s
  | .done => .next (s.setFlash { s.flash with flPhase := .idle, ctl := .idle })

/-- Whether the controller is held: it waits for a permit that another client holds (R309). -/
def flashBlocked (s : State) : Bool :=
  s.flash.ctl == .opening && !(s.arb.txnOpen == some .mem) && permitBlocked .mem s

/-- Up to `n` micro-steps of the controller, ended early when its operation has ended or is held. -/
def flashRun : Nat → State → Answer State
  | 0, s => .next s
  | n + 1, s => if s.flash.ctl == .idle || flashBlocked s then .next s else andThen (flashMicro s) (flashRun n)

/-- A request is presented at the FLASH port: accepted and run where the port is idle and MEM's ARB port has nothing in
progress, else it waits (R105; log 10). -/
def presentFlash (r : FlashReq) (s : State) : Answer State :=
  if s.flash.ctl = .idle ∧ s.flash.waiting = [] ∧ s.arb.port.mem = .idle then
    andThen (liftFlash s (Flash.accept s.params r s.flash)) (flashRun s.env.quantum)
  else .next (s.setFlash { s.flash with waiting := s.flash.waiting ++ [r] })

end Sys2Proof.Machine
end

