-- ==== Sys2Proof/Machine/BusOps.lean ====
section
/-! DEFINITION. The meanings of the nine bus commands (BUS rows): the flash controller carries out one Device Transaction,
R250; the bytes it reads are its result (log 9). -/

namespace Sys2Proof.Machine

/-- Bus command write-enable (R251). -/
def execBusWriteEnable (s : State) : Answer State := presentFlash (.bare bytesWriteEnable 0 false) s

/-- Bus command read-status-1, which writes fl_status (R252). -/
def execBusReadStatus1 (s : State) : Answer State := presentFlash (.bare bytesReadStatus 1 true) s

/-- Bus command sector-erase-4K (R255). -/
def execBusSectorErase4K (address : Addr) (s : State) : Answer State := presentFlash (.bare (bytesSectorErase address) 0 false) s

/-- Bus command chip-erase (R256). -/
def execBusChipErase (s : State) : Answer State := presentFlash (.bare bytesChipErase 0 false) s

/-- Bus command jedec-id (R257). -/
def execBusJedecId (s : State) : Answer State := presentFlash (.bare bytesJedecId 3 false) s

/-- Bus command power-down (R258). -/
def execBusPowerDown (s : State) : Answer State := presentFlash (.bare bytesPowerDown 0 false) s

/-- Bus command release-power-down (R259). -/
def execBusReleasePowerDown (s : State) : Answer State := presentFlash (.bare bytesReleasePowerDown 0 false) s

/-- Bus command read-data: one transaction whatever the length (R253). -/
def execBusReadData (address : Addr) (length : Len) (s : State) : Answer State :=
  if wfLength length.toNat then presentFlash (.bare (bytesReadData address) length.toNat false) s
  else .refused .illFormed

/-- Bus command page-program: 1 to 256 bytes inside one page (R254). -/
def execBusPageProgram (address : Addr) (data : List Byte) (s : State) : Answer State :=
  if wfPageProgram address data then presentFlash (.bare (bytesPageProgram address data) 0 false) s
  else .refused .illFormed

end Sys2Proof.Machine
end

