-- ==== Sys2Proof/Machine/FlashOps.lean ====
section
/-! DEFINITION. The meanings of the nine operations of the FLASH port. Each is its selector with its operands, presented at
the port; what the controller then does is `Flash.start` and `Flash.txnDone`. -/

namespace Sys2Proof.Machine

/-- `WAIT_FOR_READY()`: poll the status until WIP reads 0 (R266). -/
def execWaitForReady (s : State) : Answer State := presentFlash (.host 0x00#8 0#24 0#25 []) s

/-- `WRITE(address, data)`: per page chunk: wait, write-enable, page-program (R262). -/
def execWrite (address : Addr) (data : List Byte) (s : State) : Answer State := presentFlash (.host 0x02#8 address (BitVec.ofNat 25 data.length) data) s

/-- `READ(address, length)`: wait, then one read-data transaction (R261). -/
def execRead (address : Addr) (length : Len) (s : State) : Answer State := presentFlash (.host 0x03#8 address length []) s

/-- `IS_BUSY()`: one status read, its WIP bit (R265). -/
def execIsBusy (s : State) : Answer State := presentFlash (.host 0x05#8 0#24 0#25 []) s

/-- `ERASE_SECTOR(address)`: wait, write-enable, sector-erase (R263). -/
def execEraseSector (address : Addr) (s : State) : Answer State := presentFlash (.host 0x20#8 address 0#25 []) s

/-- `IDENTIFY()`: the three bytes of jedec-id (R260). -/
def execIdentify (s : State) : Answer State := presentFlash (.host 0x9F#8 0#24 0#25 []) s

/-- `WAKE_UP()`: release-power-down (R268). -/
def execWakeUp (s : State) : Answer State := presentFlash (.host 0xAB#8 0#24 0#25 []) s

/-- `POWER_DOWN()`: power-down (R267). -/
def execPowerDown (s : State) : Answer State := presentFlash (.host 0xB9#8 0#24 0#25 []) s

/-- `ERASE_CHIP()`: wait, write-enable, chip-erase (R264). -/
def execEraseChip (s : State) : Answer State := presentFlash (.host 0xC7#8 0#24 0#25 []) s

end Sys2Proof.Machine
end

