-- ==== Sys2Proof/Machine/LinkEngine.lean ====
section
/-! DEFINITION. The link engine: the serial primitives (R171, R173), the transitions of one exchange (R175 to R183, R189),
the command layer above it (R210, R211, R218, R224), the LINK port (R105). It reads the time and its own registers and
nothing else (R3, R80). -/

namespace Sys2Proof.Machine

/-! ### Serial primitives -/

/-- Whether the deadline of the present exchange has passed: `now() - t0 >= timeout_ms`, the difference modulo 2^32
(R173, R48, R17 (j)). -/
def Link.expired (now : Time) (l : Link) : Bool := decide (l.timeoutMs.toNat ≤ (now - l.t0).toNat)

/-- What `SerRx(t0, T)` comes to at this moment (R173). -/
inductive Rx where
  /-- the deadline has passed -/
  | timeout
  /-- neither: the engine waits -/
  | waiting
  /-- a byte is taken; `rest` stays in ser_rx -/
  | byte (b : Byte) (rest : List Byte)
  deriving DecidableEq, Repr

/-- `SerRx(t0, T)`: the deadline is tested first (R173). -/
def Link.serRxNow (now : Time) (l : Link) : Rx :=
  if l.expired now then .timeout
  else match l.serRx with
    | [] => .waiting
    | b :: rest => .byte b rest

/-! ### One exchange -/

/-- `IDLE → SENT`: the whole request frame is written to ser_tx, then the send time is sampled (R176, R171). -/
def Link.send (now : Time) (op : LinkOp) (l : Link) : Link :=
  { l with
    txCmd := l.cmdOf op
    txPayload := l.payloadOf op
    expLen := l.expOf op
    serTx := l.serTx ++ encodeRequest (l.cmdOf op) (l.payloadOf op)
    t0 := now
    linkState := .sent
    ctl := .exchange }

/-- A receive step that took byte `b`: the rows of R189 whose condition is "rx byte" (R177 to R182). The states that
receive nothing are left as they are. -/
def Link.takeByte (b : Byte) (l : Link) : Link :=
  match l.linkState with
  | .awaitStart => if b = Config.start then { l with linkState := .awaitLen } else l
  | .awaitLen =>
    if b ≠ l.expLen then { l with rxLen := b, rxCnt := 0#9, linkState := .drain }
    else if b = 0#8 then { l with rxLen := b, linkState := .awaitCrc }
    else { l with rxLen := b, rxCnt := 0#9, linkState := .awaitData }
  | .awaitData =>
    { l with
      rxBuf := l.rxBuf.set l.rxCnt.toNat b
      rxCnt := l.rxCnt + 1#9
      linkState := if l.rxCnt.toNat + 1 < l.rxLen.toNat then .awaitData else .awaitCrc }
  | .awaitCrc =>
    { l with
      rxCrc := b
      linkState := if b = responseCrc l.rxLen (l.rxBuf.take l.rxLen.toNat) then .ok else .crcMismatch }
  | .drain =>
    if l.rxCnt.toNat + 1 < l.rxLen.toNat + 1 then { l with rxCnt := l.rxCnt + 1#9 }
    else { l with linkState := .lenMismatch }
  | .idle | .sent | .ok | .timeout | .lenMismatch | .crcMismatch => l

/-- A receive step whose deadline has passed: `DRAIN` ends in LEN_MISMATCH, every other receiving state in TIMEOUT
(R177 to R182, R189). -/
def Link.takeTimeout (l : Link) : Link :=
  { l with linkState := if l.linkState = .drain then .lenMismatch else .timeout }

/-- One receive step of the exchange (R173, R189); the engine stays where it is while it waits. -/
def Link.receive (now : Time) (l : Link) : Link :=
  match l.serRxNow now with
  | .timeout => l.takeTimeout
  | .waiting => l
  | .byte b rest => ({ l with serRx := rest } : Link).takeByte b

/-! ### The command layer -/

/-- An attempt of INIT has failed: pause before the next, or after the last one fail for good (R211). -/
def Link.attemptFailed (now : Time) (l : Link) : Link :=
  if l.pingTry.toNat < Config.pingAttempts then { l with linkState := .idle, ctl := .pause now }
  else ({ l with linkReady := false } : Link).raise stInitFail [] 0

/-- The exchange, or the command's own test of its byte, failed with `status` (R211 to R223, R300, R301): INIT absorbs it
(R314); a bulk operation reports the bytes of its completed chunks, of which I2C_WRITE has none the spec states (log 20). -/
def Link.fail (now : Time) (op : LinkOp) (status : BitVec 3) (l : Link) : Link :=
  match op with
  | .init => l.attemptFailed now
  | .i2cRead | .spiTransfer => l.raise status l.out l.bulkOff.toNat
  | .i2cWrite =>
    ({ l with freeCtr := l.freeCtr + l.bulkOff.toNat } : Link).raise status (freeBytes l.freeCtr l.bulkOff.toNat)
      l.bulkOff.toNat
  | .pinMode | .digitalWrite | .digitalRead | .analogWrite | .analogRead => l.raise status [] 0
  | .spiInit | .installSleepMonitor | .ping => l.raise status [] 0

/-- The payload of the response just received: `rx_buf[0 .. rx_len]` (R175). -/
def Link.received (l : Link) : List Byte := l.rxBuf.take l.rxLen.toNat

/-- A chunk has completed with `out` in the host's buffer: the next chunk, or the end with `data` (R218). -/
def Link.chunkDone (op : LinkOp) (out data : List Byte) (l : Link) : Link :=
  let off := l.bulkOff + BitVec.ofNat 16 (l.chunkLen op)
  if off.toNat < l.bulkN.toNat then { l with out := out, bulkOff := off, linkState := .idle, ctl := .start }
  else ({ l with out := out, bulkOff := off } : Link).succeed data

/-- The exchange was OK: the command's own test of the byte, then its result (R211 to R224, R301). -/
def Link.onOk (now : Time) (op : LinkOp) (l : Link) : Link :=
  match op with
  | .init =>
    if l.received.headD 0#8 = Config.pingAck then ({ l with linkReady := true } : Link).succeed []
    else l.fail now op stNack
  | .ping => if l.received.headD 0#8 = Config.pingAck then l.succeed l.received else l.fail now op stNack
  | .i2cWrite =>
    if l.received.headD 0#8 = 0x01#8 then l.chunkDone op l.out l.received else l.fail now op stNack
  | .i2cRead | .spiTransfer => l.chunkDone op (l.out ++ l.received) (l.out ++ l.received)
  | .pinMode | .digitalWrite | .digitalRead | .analogWrite | .analogRead => l.succeed l.received
  | .spiInit | .installSleepMonitor => l.succeed l.received

/-! ### The LINK port -/

/-- A request is accepted: refused where the spec gives it no meaning, else its operands are latched (R210, R114 (d) (f),
R225, R218). link_ready is tested here, so a request that waited behind an INIT meets what that INIT left (R345; log 24),
and a request frame is tested as the operation that sends it is (R118). bulk_n and bulk_off are latched by the bulk
operations, ping_try by INIT. -/
def Link.accept (r : LinkReq) (l : Link) : Answer Link :=
  match linkOpOf r.op with
  | none => .refused (.undecodable .unknownOpSel)
  | some op =>
    if !op.beforeHandshake && !l.linkReady then .refused .linkNotReady
    else if op.isBulk && !r.wire && r.n == 0 then .refused .emptyBulk
    else if 65535 < r.n then .refused .illFormed
    else .next { l with
      lkOp := r.op
      lkArgs := r.args
      bulkN := if op.isBulk then BitVec.ofNat 16 r.n else l.bulkN
      bulkOff := if op.isBulk then 0#16 else l.bulkOff
      hostData := r.data
      out := []
      pingTry := if op = .init then 1#2 else l.pingTry
      ctl := .start }

/-- One micro-step of the link engine: one transition of R189, or one of the command layer above it. -/
def Link.micro (now : Time) (l : Link) : Answer Link :=
  match l.ctl with
  | .idle =>
    match l.waiting with
    | [] => .next l
    | r :: rest => Link.accept r { l with waiting := rest }
  | .start =>
    match linkOpOf l.lkOp with
    | none => .fault .noTransition
    | some op => .next (l.send now op)
  | .pause since =>
    .next (if Config.pingGap ≤ (now - since).toNat then { l with pingTry := l.pingTry + 1#2, ctl := .start } else l)
  | .exchange =>
    match l.linkState with
    | .idle => .fault .noTransition
    | .sent => .next { l with linkState := .awaitStart }
    | .awaitStart | .awaitLen | .awaitData | .awaitCrc | .drain => .next (l.receive now)
    | .ok =>
      match linkOpOf l.lkOp with
      | none => .fault .noTransition
      | some op => .next (l.onOk now op)
    | .timeout =>
      match linkOpOf l.lkOp with
      | none => .fault .noTransition
      | some op => .next (l.fail now op stTimeout)
    | .lenMismatch =>
      match linkOpOf l.lkOp with
      | none => .fault .noTransition
      | some op => .next (l.fail now op stLenMismatch)
    | .crcMismatch =>
      match linkOpOf l.lkOp with
      | none => .fault .noTransition
      | some op => .next (l.fail now op stCrcMismatch)

/-- Whether the engine is held at a suspension point: a receive step with no byte and time left, or the handshake pause
(R309, R173, R211). -/
def Link.blocked (now : Time) (l : Link) : Bool :=
  match l.ctl with
  | .idle | .start => false
  | .pause since => decide ((now - since).toNat < Config.pingGap)
  | .exchange =>
    match l.linkState with
    | .awaitStart | .awaitLen | .awaitData | .awaitCrc | .drain => l.serRxNow now == .waiting
    | .idle | .sent | .ok | .timeout | .lenMismatch | .crcMismatch => false

/-- Up to `n` micro-steps of the engine, ended early when its operation has ended or is held. -/
def Link.run (now : Time) : Nat → Link → Answer Link
  | 0, l => .next l
  | n + 1, l => if l.ctl = .idle || l.blocked now then .next l else andThen (l.micro now) (Link.run now n)

/-- A request is presented at the LINK port: accepted and run where the port is idle, else it waits (R105). -/
def Link.present (now : Time) (q : Nat) (r : LinkReq) (l : Link) : Answer Link :=
  if l.ctl = .idle ∧ l.waiting = [] then andThen (Link.accept r l) (Link.run now q)
  else .next { l with waiting := l.waiting ++ [r] }

/-- A whole frame arrives on the serial channel and the engine, if it waits for it, takes it (R33, R175). -/
def Link.arrive (now : Time) (q : Nat) (bytes : List Byte) (l : Link) : Answer Link :=
  Link.run now q { l with serRx := l.serRx ++ bytes }

/-! ### On the whole state -/

/-- An answer of the link engine as an answer of the machine: nothing but the engine changes. -/
def liftLink (s : State) (x : Answer Link) : Answer State := andThen x (fun l => .next (s.setLink l))

/-- A request is presented at the LINK port. -/
def presentLink (r : LinkReq) (s : State) : Answer State := liftLink s (Link.present s.tNow s.env.quantum r s.link)

end Sys2Proof.Machine
end

