-- ==== Sys2Proof/Machine/LinkOps.lean ====
section
/-! DEFINITION. The meanings of the twelve operations of the LINK port. Each is its selector with its operands, presented
at the port; what the engine then does is `Link.accept`, `Link.send`, `Link.receive`, `Link.onOk` and `Link.fail`. -/

namespace Sys2Proof.Machine

/-- A host operation at the LINK port (R104, R210). -/
def hostLink (op : Byte) (args data : List Byte) (n : Nat) : LinkReq :=
  { op := op, args := args, data := data, n := n, wire := false }

/-- `INIT()`: up to three pings, a 50 ms pause between them, link_ready set or cleared (R211). -/
def execInit (s : State) : Answer State :=
  presentLink (hostLink 0x00#8 [] [] 0) s

/-- `PIN_MODE(pin, mode)`: one exchange, an ack of any value (R213). -/
def execPinMode (pin mode : Byte) (s : State) : Answer State :=
  presentLink (hostLink 0x01#8 [pin, mode] [] 0) s

/-- `DIGITAL_WRITE(pin, val)`: one exchange, an ack of any value (R214). -/
def execDigitalWrite (pin val : Byte) (s : State) : Answer State :=
  presentLink (hostLink 0x02#8 [pin, val] [] 0) s

/-- `DIGITAL_READ(pin)`: one exchange, the value byte whole (R215). -/
def execDigitalRead (pin : Byte) (s : State) : Answer State :=
  presentLink (hostLink 0x03#8 [pin] [] 0) s

/-- `ANALOG_WRITE(pin, val)`: one exchange, an ack of any value (R216). -/
def execAnalogWrite (pin val : Byte) (s : State) : Answer State :=
  presentLink (hostLink 0x04#8 [pin, val] [] 0) s

/-- `ANALOG_READ(pin)`: one exchange, two bytes, big-endian (R217). -/
def execAnalogRead (pin : Byte) (s : State) : Answer State :=
  presentLink (hostLink 0x05#8 [pin] [] 0) s

/-- `I2C_WRITE(addr, data)`: chunks of 31, each with the address, each status byte tested (R219). -/
def execI2cWrite (addr : Byte) (data : List Byte) (s : State) : Answer State :=
  presentLink (hostLink 0x10#8 [addr] data data.length) s

/-- `I2C_READ(addr, n)`: chunks of 32, the bytes concatenated (R220). The address is latched in lk_args and the length in
bulk_n: R30 names both registers for it (log 32). -/
def execI2cRead (addr : Byte) (n : Count) (s : State) : Answer State :=
  presentLink (hostLink 0x11#8 [addr] [] n.toNat) s

/-- `SPI_INIT(mode, clkdiv)`: one exchange, an ack of any value (R221). -/
def execSpiInit (mode clkdiv : Byte) (s : State) : Answer State :=
  presentLink (hostLink 0x20#8 [mode, clkdiv] [] 0) s

/-- `SPI_TRANSFER(data)`: chunks of 32, the received bytes concatenated (R222). -/
def execSpiTransfer (data : List Byte) (s : State) : Answer State :=
  presentLink (hostLink 0x21#8 [] data data.length) s

/-- `INSTALL_SLEEP_MONITOR(pin, level)`: one exchange, an ack of any value (R223). -/
def execInstallSleepMonitor (pin level : Byte) (s : State) : Answer State :=
  presentLink (hostLink 0x90#8 [pin, level] [] 0) s

/-- `PING()`: one exchange, the byte 0xAA or NACK (R212). -/
def execPing (s : State) : Answer State :=
  presentLink (hostLink 0x99#8 [] [] 0) s

end Sys2Proof.Machine
end

