-- ==== Sys2Proof/Machine/WireOps.lean ====
section
/-! DEFINITION. The meanings of the eleven request frames (REQ rows) and of the response frame (RSP row). A request frame
is the link engine's side of its command for one frame: the frame is sent, one exchange runs, and the command's rule says
what becomes of the response (R101, R106, R118, R175; log 7). A response frame arrives on the serial channel (R102; log 8). -/

namespace Sys2Proof.Machine

/-- One request frame at the link engine (R101, R118). -/
def wireLink (op : Byte) (args data : List Byte) (n : Nat) : LinkReq :=
  { op := op, args := args, data := data, n := n, wire := true }

/-- Request frame of pin-mode and its exchange (R213). -/
def execReqPinMode (pin mode : Byte) (s : State) : Answer State :=
  presentLink (wireLink 0x01#8 [pin, mode] [] 0) s

/-- Request frame of digital-write and its exchange (R214). -/
def execReqDigitalWrite (pin val : Byte) (s : State) : Answer State :=
  presentLink (wireLink 0x02#8 [pin, val] [] 0) s

/-- Request frame of digital-read and its exchange (R215). -/
def execReqDigitalRead (pin : Byte) (s : State) : Answer State :=
  presentLink (wireLink 0x03#8 [pin] [] 0) s

/-- Request frame of analog-write and its exchange (R216). -/
def execReqAnalogWrite (pin val : Byte) (s : State) : Answer State :=
  presentLink (wireLink 0x04#8 [pin, val] [] 0) s

/-- Request frame of analog-read and its exchange (R217). -/
def execReqAnalogRead (pin : Byte) (s : State) : Answer State :=
  presentLink (wireLink 0x05#8 [pin] [] 0) s

/-- Request frame of spi-init and its exchange (R221). -/
def execReqSpiInit (mode clkdiv : Byte) (s : State) : Answer State :=
  presentLink (wireLink 0x20#8 [mode, clkdiv] [] 0) s

/-- Request frame of install-sleep-monitor and its exchange (R223). -/
def execReqInstallSleepMonitor (pin level : Byte) (s : State) : Answer State :=
  presentLink (wireLink 0x90#8 [pin, level] [] 0) s

/-- Request frame of ping and its exchange (R212). -/
def execReqPing (s : State) : Answer State :=
  presentLink (wireLink 0x99#8 [] [] 0) s

/-- Request frame of i2c-write with one chunk of 0 to 31 bytes and its exchange; the status byte is tested
(R106, R219; log 37). -/
def execReqI2cWrite (addr : Byte) (data : List Byte) (s : State) : Answer State :=
  if wfI2cChunk data then presentLink (wireLink 0x10#8 [addr] data data.length) s else .refused .illFormed

/-- Request frame of i2c-read of 1 to 32 bytes and its exchange (R220). As for I2C_READ the address is latched in lk_args and
the length in bulk_n: R30 names both registers for it (log 32). -/
def execReqI2cRead (addr len : Byte) (s : State) : Answer State :=
  if wfI2cLen len then presentLink (wireLink 0x11#8 [addr] [] len.toNat) s else .refused .illFormed

/-- Request frame of spi-transfer with one chunk of 1 to 32 bytes and its exchange (R222). -/
def execReqSpiTransfer (chunk : List Byte) (s : State) : Answer State :=
  if wfSpiChunk chunk then presentLink (wireLink 0x21#8 [] chunk chunk.length) s else .refused .illFormed

/-- A response frame arrives: its bytes are appended to ser_rx, and the engine takes them if it waits for them
(R33, R102, R175, R188). -/
def execResponse (payload : List Byte) (s : State) : Answer State :=
  if wfPayload payload then liftLink s (Link.arrive s.tNow s.env.quantum (encodeResponse payload) s.link)
  else .refused .illFormed

end Sys2Proof.Machine
end

