-- ==== Sys2Proof/Machine/Dispatch.lean ====
section
/-! DEFINITION. The meaning of every operation: one arm per constructor of `Instr`. -/

namespace Sys2Proof.Machine

def exec (i : Instr) (s : State) : Host.Outcome State Fault Refusal :=
  match i with
  | .acquire c => Sys2Proof.Machine.execAcquire c s
  | .release c => Sys2Proof.Machine.execRelease c s
  | .beginTransaction d => Sys2Proof.Machine.execBeginTransaction d s
  | .endTransaction d => Sys2Proof.Machine.execEndTransaction d s
  | .busXfer c o => Sys2Proof.Machine.execBusXfer c o s
  | .init => Sys2Proof.Machine.execInit s
  | .pinMode pin mode => Sys2Proof.Machine.execPinMode pin mode s
  | .digitalWrite pin val => Sys2Proof.Machine.execDigitalWrite pin val s
  | .digitalRead pin => Sys2Proof.Machine.execDigitalRead pin s
  | .analogWrite pin val => Sys2Proof.Machine.execAnalogWrite pin val s
  | .analogRead pin => Sys2Proof.Machine.execAnalogRead pin s
  | .i2cWrite addr data => Sys2Proof.Machine.execI2cWrite addr data s
  | .i2cRead addr n => Sys2Proof.Machine.execI2cRead addr n s
  | .spiInit mode clkdiv => Sys2Proof.Machine.execSpiInit mode clkdiv s
  | .spiTransfer data => Sys2Proof.Machine.execSpiTransfer data s
  | .installSleepMonitor pin level => Sys2Proof.Machine.execInstallSleepMonitor pin level s
  | .ping => Sys2Proof.Machine.execPing s
  | .waitForReady => Sys2Proof.Machine.execWaitForReady s
  | .write address data => Sys2Proof.Machine.execWrite address data s
  | .read address length => Sys2Proof.Machine.execRead address length s
  | .isBusy => Sys2Proof.Machine.execIsBusy s
  | .eraseSector address => Sys2Proof.Machine.execEraseSector address s
  | .identify => Sys2Proof.Machine.execIdentify s
  | .wakeUp => Sys2Proof.Machine.execWakeUp s
  | .powerDown => Sys2Proof.Machine.execPowerDown s
  | .eraseChip => Sys2Proof.Machine.execEraseChip s
  | .reqPinMode pin mode => Sys2Proof.Machine.execReqPinMode pin mode s
  | .reqDigitalWrite pin val => Sys2Proof.Machine.execReqDigitalWrite pin val s
  | .reqDigitalRead pin => Sys2Proof.Machine.execReqDigitalRead pin s
  | .reqAnalogWrite pin val => Sys2Proof.Machine.execReqAnalogWrite pin val s
  | .reqAnalogRead pin => Sys2Proof.Machine.execReqAnalogRead pin s
  | .reqI2cWrite addr data => Sys2Proof.Machine.execReqI2cWrite addr data s
  | .reqI2cRead addr len => Sys2Proof.Machine.execReqI2cRead addr len s
  | .reqSpiInit mode clkdiv => Sys2Proof.Machine.execReqSpiInit mode clkdiv s
  | .reqSpiTransfer chunk => Sys2Proof.Machine.execReqSpiTransfer chunk s
  | .reqInstallSleepMonitor pin level => Sys2Proof.Machine.execReqInstallSleepMonitor pin level s
  | .reqPing => Sys2Proof.Machine.execReqPing s
  | .response payload => Sys2Proof.Machine.execResponse payload s
  | .busWriteEnable => Sys2Proof.Machine.execBusWriteEnable s
  | .busReadStatus1 => Sys2Proof.Machine.execBusReadStatus1 s
  | .busReadData address length => Sys2Proof.Machine.execBusReadData address length s
  | .busPageProgram address data => Sys2Proof.Machine.execBusPageProgram address data s
  | .busSectorErase4K address => Sys2Proof.Machine.execBusSectorErase4K address s
  | .busChipErase => Sys2Proof.Machine.execBusChipErase s
  | .busJedecId => Sys2Proof.Machine.execBusJedecId s
  | .busPowerDown => Sys2Proof.Machine.execBusPowerDown s
  | .busReleasePowerDown => Sys2Proof.Machine.execBusReleasePowerDown s

end Sys2Proof.Machine
end

