-- ==== Sys2Proof/Machine/Inputs.lean ====
section
/-! DEFINITION. What one input of the outside world or of the schedule does (R7, R33, R46, R48, R82, R143, R321, R340), and
what the block does when no input is left. -/

namespace Sys2Proof.Machine

/-- Bytes that are no operation of their code space. On the serial channel they arrive all the same, whatever they are
(R33, R177 to R182, U18); at a port, as a request frame or as a bus command they are refused by name (R112, R113,
R114 (a)). -/
def runUndecoded (sp : Space) (bytes : List Byte) (e : DecodeError) (s : State) : Answer State :=
  match sp with
  | .rsp => liftLink s (Link.arrive s.tNow s.env.quantum bytes s.link)
  | .arb _ | .link | .flash | .req | .bus => .refused (.undecodable e)

/-- A request in bytes: decoded in its code space and carried out (R104). -/
def runRequest (sp : Space) (bytes : List Byte) (s : State) : Answer State :=
  match decode sp bytes with
  | .ok i => exec i s
  | .error e => runUndecoded sp bytes e s

/-- An agent takes up to `n` of its own micro-steps; an idle agent takes one, to accept a waiting request. -/
def runAgent (a : Agent) (n : Nat) (s : State) : Answer State :=
  match a with
  | .port c => if s.arb.port.get c == .idle then arbMicro c s else arbRun c n s
  | .link => if s.link.ctl = .idle then liftLink s (s.link.micro s.tNow) else liftLink s (Link.run s.tNow n s.link)
  | .flash => if s.flash.ctl == .idle then flashMicro s else flashRun n s

/-- The host writes timeout_ms: between link operations only (R46, R47). -/
def writeTimeout (v : BitVec 16) (s : State) : Answer State :=
  if s.link.ctl = .idle then .next (s.setLink { s.link with timeoutMs := v }) else .refused .timeoutWriteBusy

/-- Reset of the block: every register at its value of R55; the parameters, the chip and what the environment has in store
stay (R340, R341; log 26). -/
def resetBlock (s : State) : State :=
  { params := s.params
    arb := { Arbiter.reset s.params.sharedCfg with grants := s.arb.grants }
    link := { Link.reset with freeCtr := s.link.freeCtr }
    flash := Flash.reset
    tNow := State.reset.tNow
    chip := chipCut (s.arb.cs.mem) s.chip
    env := s.env }

/-- What one input does. -/
def runInput (x : Input) (s : State) : Answer State :=
  match x with
  | .request sp bytes => runRequest sp bytes s
  | .rx b => .next (s.setLink { s.link with serRx := s.link.serRx ++ [b] })
  | .tick ms => .next (s.setTime (s.tNow + ms))
  | .grant c => .next (s.setArb (grantIf s.params c s.arb))
  | .run a n => runAgent a n s
  | .quantum n => .next (s.setEnv { s.env with quantum := n })
  | .chipReady => .next (s.setChip (chipOwnStep s.chip))
  | .setTimeout v => writeTimeout v s
  | .reset => .next (resetBlock s)

/-- With no input left every agent with work takes one micro-step (R321; log 36). -/
def background (s : State) : Answer State :=
  andThen (liftLink s (s.link.micro s.tNow)) fun t =>
    andThen (flashMicro t) fun u =>
      andThen (arbMicro .disp u) fun v =>
        arbMicro .mem v

/-- The next input taken from the inbox and carried out; the rest of the inbox stays (log 1). -/
def stepInput (s : State) : Answer State :=
  match s.env.inbox with
  | [] => background s
  | x :: rest => runInput x (s.setEnv { s.env with inbox := rest })

/-- A request put before the inputs to come. -/
def withRequest (sp : Space) (bytes : List Byte) (s : State) : State :=
  s.setEnv { s.env with inbox := .request sp bytes :: s.env.inbox }

end Sys2Proof.Machine
end

