-- ==== Sys2Proof/Machine/Step.lean ====
section
/-! DEFINITION. One step of the machine, and how a word of the opcode table is put where the next step finds it. -/

namespace Sys2Proof.Machine

/-- One step: the next input of the inbox (log 1). -/
def step (s : State) : Host.Outcome State Fault Refusal := stepInput s

/-- `s` with the word `w` of the opcode table as its next input: the bytes and the code space are those of
`decodeTableWord` (log 4, log 5, log 6). -/
def State.withFetchWord (s : State) (nbits w : Nat) : State :=
  withRequest (tableRequest nbits w).1 (tableRequest nbits w).2 s

end Sys2Proof.Machine
end

