-- ==== Sys2Proof/Laws/Encoding.lean ====
section
/-! SUPPORT. Laws of the byte helpers and of the two frame formats: taking apart what was put together. -/

namespace Sys2Proof

/-! ### Byte helpers -/

theorem addrOf_be24 (a : Addr) : addrOf (a.extractLsb' 16 8) (a.extractLsb' 8 8) (a.extractLsb' 0 8) = a := by
  unfold addrOf
  apply BitVec.eq_of_getLsbD_eq
  intro i hi
  simp only [BitVec.getLsbD_append, BitVec.getLsbD_extractLsb']
  by_cases h1 : i < 8
  · simp [h1]
  · by_cases h2 : i - 8 < 8
    · simp [h1, h2, show 8 + (i - 8) = i by omega]
    · simp [h1, h2, show i - 8 - 8 < 8 by omega, show 16 + (i - 8 - 8) = i by omega]

theorem countOf_beCount (n : Count) : countOf (n.extractLsb' 8 8) (n.extractLsb' 0 8) = n := by
  unfold countOf
  apply BitVec.eq_of_getLsbD_eq
  intro i hi
  simp only [BitVec.getLsbD_append, BitVec.getLsbD_extractLsb']
  by_cases h1 : i < 8
  · simp [h1]
  · simp [h1, show i - 8 < 8 by omega, show 8 + (i - 8) = i by omega]

theorem lenOf_beLen (v : BitVec 32) :
    lenOf (v.extractLsb' 24 8) (v.extractLsb' 16 8) (v.extractLsb' 8 8) (v.extractLsb' 0 8) = v := by
  unfold lenOf
  apply BitVec.eq_of_getLsbD_eq
  intro i hi
  simp only [BitVec.getLsbD_append, BitVec.getLsbD_extractLsb']
  by_cases h1 : i < 8
  · simp [h1]
  · by_cases h2 : i - 8 < 8
    · simp [h1, h2, show 8 + (i - 8) = i by omega]
    · by_cases h3 : i - 8 - 8 < 8
      · simp [h1, h2, h3, show 16 + (i - 8 - 8) = i by omega]
      · simp [h1, h2, h3, show i - 8 - 8 - 8 < 8 by omega, show 24 + (i - 8 - 8 - 8) = i by omega]

theorem fold_append (s t : List Byte) : fold (s ++ t) = fold s ^^^ fold t := by
  induction s with
  | nil => simp [fold]
  | cons b r ih => simp only [fold, List.cons_append, List.foldr_cons] at ih ⊢; rw [ih, BitVec.xor_assoc]

/-! ### Frames -/

theorem toNat_length {p : List Byte} (h : p.length ≤ 255) : (BitVec.ofNat 8 p.length).toNat = p.length := by
  rw [BitVec.toNat_ofNat]; omega

theorem decodeRequest_encodeRequest (cmd : Byte) (p : List Byte) (h : p.length ≤ 255) :
    decodeRequest (encodeRequest cmd p) = .ok (cmd, p) := by
  have hl := toNat_length h
  cases p with
  | nil => simp [encodeRequest, decodeRequest, requestCrc, fold]
  | cons b r =>
    simp only [encodeRequest, decodeRequest, List.cons_append, List.nil_append, hl]
    simp [requestCrc, List.getD]

theorem decodeResponse_encodeResponse (p : List Byte) (h : p.length ≤ 255) :
    decodeResponse (encodeResponse p) = .ok p := by
  have hl := toNat_length h
  simp only [encodeResponse, decodeResponse, List.cons_append, List.nil_append, hl]
  simp [List.getD]

theorem encodeRequest_length (cmd : Byte) (p : List Byte) : (encodeRequest cmd p).length = p.length + 4 := by
  simp [encodeRequest]

theorem encodeResponse_length (p : List Byte) : (encodeResponse p).length = p.length + 3 := by
  simp [encodeResponse]

/-- A request frame decodes as its command decodes its payload. -/
theorem decodeReq_encodeRequest (cmd : Byte) (p : List Byte) (h : p.length ≤ 255) :
    decodeReq (encodeRequest cmd p) = decodeCommand cmd p := by
  rw [decodeReq, decodeRequest_encodeRequest cmd p h]
  simp [encodeRequest_length]

end Sys2Proof
end

