-- ==== Sys2Proof/Laws/PerInstr.lean ====
section
/-! SUPPORT. The laws made per instruction, one lemma per constructor: RoundTrip, decoding the encoding of a well-formed
operation in its code space gives the operation back. -/

namespace Sys2Proof.Laws.RoundTrip

/-- Decoding the encoding of a well-formed operation gives it back. -/
def Statement (i : Instr) : Prop := i.wf = true → decode i.space (encode i) = .ok i

/-! ### ARB ports -/

theorem acquire (c : Client) : Statement (.acquire c) := fun _ => rfl
theorem release (c : Client) : Statement (.release c) := fun _ => rfl
theorem beginTransaction (d : Client) : Statement (.beginTransaction d) := fun _ => rfl
theorem endTransaction (d : Client) : Statement (.endTransaction d) := fun _ => rfl
theorem busXfer (c : Client) (o : Byte) : Statement (.busXfer c o) := fun _ => rfl

/-! ### LINK port -/

theorem init : Statement .init := fun _ => rfl
theorem pinMode (pin mode : Byte) : Statement (.pinMode pin mode) := fun _ => rfl
theorem digitalWrite (pin val : Byte) : Statement (.digitalWrite pin val) := fun _ => rfl
theorem digitalRead (pin : Byte) : Statement (.digitalRead pin) := fun _ => rfl
theorem analogWrite (pin val : Byte) : Statement (.analogWrite pin val) := fun _ => rfl
theorem analogRead (pin : Byte) : Statement (.analogRead pin) := fun _ => rfl

theorem i2cWrite (addr : Byte) (data : List Byte) : Statement (.i2cWrite addr data) := fun h => by
  show checked .badLength (.i2cWrite addr data) = _
  rw [checked, if_pos h]

theorem i2cRead (addr : Byte) (n : Count) : Statement (.i2cRead addr n) := fun _ => by
  show Except.ok (Instr.i2cRead addr (countOf _ _)) = _
  rw [countOf_beCount]

theorem spiInit (mode clkdiv : Byte) : Statement (.spiInit mode clkdiv) := fun _ => rfl

theorem spiTransfer (data : List Byte) : Statement (.spiTransfer data) := fun h => by
  show checked .badLength (.spiTransfer data) = _
  rw [checked, if_pos h]

theorem installSleepMonitor (pin level : Byte) : Statement (.installSleepMonitor pin level) := fun _ => rfl
theorem ping : Statement .ping := fun _ => rfl

/-! ### FLASH port -/

theorem waitForReady : Statement .waitForReady := fun _ => rfl

theorem write (address : Addr) (data : List Byte) : Statement (.write address data) := fun h => by
  show checked .badLength (.write (addrOf _ _ _) data) = _
  rw [addrOf_be24, checked, if_pos h]

theorem read (address : Addr) (length : Len) : Statement (.read address length) := fun h => by
  have hl : (length.setWidth 32).toNat = length.toNat := by
    rw [BitVec.toNat_setWidth]; have := length.isLt; omega
  have hw : (length.setWidth 32).setWidth 25 = length := by
    apply BitVec.eq_of_toNat_eq
    rw [BitVec.toNat_setWidth, hl]; have := length.isLt; omega
  show (if wfLength (lenOf _ _ _ _).toNat then Except.ok (Instr.read (addrOf _ _ _) ((lenOf _ _ _ _).setWidth 25))
    else _) = _
  rw [addrOf_be24, lenOf_beLen, hl, if_pos (show wfLength length.toNat = true from h), hw]

theorem isBusy : Statement .isBusy := fun _ => rfl

theorem eraseSector (address : Addr) : Statement (.eraseSector address) := fun _ => by
  show Except.ok (Instr.eraseSector (addrOf _ _ _)) = _
  rw [addrOf_be24]

theorem identify : Statement .identify := fun _ => rfl
theorem wakeUp : Statement .wakeUp := fun _ => rfl
theorem powerDown : Statement .powerDown := fun _ => rfl
theorem eraseChip : Statement .eraseChip := fun _ => rfl

/-! ### Request frames -/

theorem reqPinMode (pin mode : Byte) : Statement (.reqPinMode pin mode) := fun _ =>
  decodeReq_encodeRequest _ [pin, mode] (by simp)
theorem reqDigitalWrite (pin val : Byte) : Statement (.reqDigitalWrite pin val) := fun _ =>
  decodeReq_encodeRequest _ [pin, val] (by simp)
theorem reqDigitalRead (pin : Byte) : Statement (.reqDigitalRead pin) := fun _ =>
  decodeReq_encodeRequest _ [pin] (by simp)
theorem reqAnalogWrite (pin val : Byte) : Statement (.reqAnalogWrite pin val) := fun _ =>
  decodeReq_encodeRequest _ [pin, val] (by simp)
theorem reqAnalogRead (pin : Byte) : Statement (.reqAnalogRead pin) := fun _ =>
  decodeReq_encodeRequest _ [pin] (by simp)

theorem reqI2cWrite (addr : Byte) (data : List Byte) : Statement (.reqI2cWrite addr data) := fun h => by
  have hw : data.length ≤ 31 := of_decide_eq_true h
  refine (decodeReq_encodeRequest 0x10#8 (addr :: data) (by simp; omega)).trans ?_
  show checked .badLength (.reqI2cWrite addr data) = _
  rw [checked, if_pos h]

theorem reqI2cRead (addr len : Byte) : Statement (.reqI2cRead addr len) := fun h => by
  refine (decodeReq_encodeRequest 0x11#8 [addr, len] (by simp)).trans ?_
  show checked .badLength (.reqI2cRead addr len) = _
  rw [checked, if_pos h]

theorem reqSpiInit (mode clkdiv : Byte) : Statement (.reqSpiInit mode clkdiv) := fun _ =>
  decodeReq_encodeRequest _ [mode, clkdiv] (by simp)

theorem reqSpiTransfer (chunk : List Byte) : Statement (.reqSpiTransfer chunk) := fun h => by
  have hw : 1 ≤ chunk.length ∧ chunk.length ≤ 32 := by
    have h' : wfSpiChunk chunk = true := h
    simpa [wfSpiChunk, and_comm] using h'
  refine (decodeReq_encodeRequest 0x21#8 chunk (by omega)).trans ?_
  show checked .badLength (.reqSpiTransfer chunk) = _
  rw [checked, if_pos h]

theorem reqInstallSleepMonitor (pin level : Byte) : Statement (.reqInstallSleepMonitor pin level) := fun _ =>
  decodeReq_encodeRequest _ [pin, level] (by simp)
theorem reqPing : Statement .reqPing := fun _ => decodeReq_encodeRequest 0x99#8 [] (by simp)

/-! ### The response frame -/

theorem response (payload : List Byte) : Statement (.response payload) := fun h => by
  have hw : payload.length ≤ 255 := by
    have h' : wfPayload payload = true := h
    simpa [wfPayload] using h'
  show decodeRsp (encodeResponse payload) = _
  rw [decodeRsp, decodeResponse_encodeResponse payload hw]

/-! ### Bus commands -/

theorem busWriteEnable : Statement .busWriteEnable := fun _ => rfl
theorem busReadStatus1 : Statement .busReadStatus1 := fun _ => rfl

theorem busReadData (address : Addr) (length : Len) : Statement (.busReadData address length) := fun h => by
  show operandsBusRead (_ :: _ :: _ :: List.replicate length.toNat 0#8) = _
  have hall : (List.replicate length.toNat 0#8).all (fun b => b == 0#8) = true := by
    simp
  have hw : wfLength length.toNat = true := h
  rw [operandsBusRead, if_pos hall, List.length_replicate, if_pos hw, addrOf_be24]
  simp

theorem busPageProgram (address : Addr) (data : List Byte) : Statement (.busPageProgram address data) := fun h => by
  show checked .badPage (.busPageProgram (addrOf _ _ _) data) = _
  rw [addrOf_be24, checked, if_pos h]

theorem busSectorErase4K (address : Addr) : Statement (.busSectorErase4K address) := fun _ => by
  show Except.ok (Instr.busSectorErase4K (addrOf _ _ _)) = _
  rw [addrOf_be24]

theorem busChipErase : Statement .busChipErase := fun _ => rfl
theorem busJedecId : Statement .busJedecId := fun _ => rfl
theorem busPowerDown : Statement .busPowerDown := fun _ => rfl
theorem busReleasePowerDown : Statement .busReleasePowerDown := fun _ => rfl

end Sys2Proof.Laws.RoundTrip
end

