-- ==== Sys2Proof/Safety.lean ====
section
/-! DEFINITION. The terms claims use: when a port takes a request at once, when the bus is free, and what holds of the
state between steps (R150, R301, R306, R60, R189, R272). -/

namespace Sys2Proof.Machine

/-! ### When a request is taken at once -/

/-- Client `c`'s ARB port takes a request at once: no operation in progress, none waiting, and MEM's port is not the
controller's (R105; log 10). -/
def ArbReady (c : Client) (s : State) : Prop :=
  s.arb.port.get c = .idle ∧ s.arb.waiting.get c = [] ∧ (c = .mem → s.flash.ctl = .idle)

/-- The LINK port takes a request at once (R105). -/
def LinkIdle (s : State) : Prop := s.link.ctl = .idle ∧ s.link.waiting = []

/-- The FLASH port takes a request at once (R105, R270; log 10). -/
def FlashReady (s : State) : Prop :=
  s.flash.ctl = .idle ∧ s.flash.waiting = [] ∧ s.arb.port.mem = .idle

/-- The permit is free, no transaction is open, and DISP is not waiting. -/
def BusFree (s : State) : Prop :=
  s.arb.permitOwner = none ∧ s.arb.txnOpen = none ∧ s.arb.arbWait.disp = false

/-! ### The request that an operation is -/

/-- The ARB port and the request of an ARB operation (R104). -/
def arbRequest : Instr → Option (Client × ArbReq)
  | .acquire c => some (c, .acquire)
  | .release c => some (c, .release)
  | .beginTransaction c => some (c, .begin)
  | .endTransaction c => some (c, .finish)
  | .busXfer c o => some (c, .xfer o)
  | .init | .pinMode _ _ | .digitalWrite _ _ | .digitalRead _ | .analogWrite _ _ | .analogRead _ => none
  | .i2cWrite _ _ | .i2cRead _ _ | .spiInit _ _ | .spiTransfer _ | .installSleepMonitor _ _ | .ping => none
  | .waitForReady | .write _ _ | .read _ _ | .isBusy | .eraseSector _ | .identify => none
  | .wakeUp | .powerDown | .eraseChip => none
  | .reqPinMode _ _ | .reqDigitalWrite _ _ | .reqDigitalRead _ | .reqAnalogWrite _ _ | .reqAnalogRead _ => none
  | .reqI2cWrite _ _ | .reqI2cRead _ _ | .reqSpiInit _ _ | .reqSpiTransfer _ => none
  | .reqInstallSleepMonitor _ _ | .reqPing | .response _ => none
  | .busWriteEnable | .busReadStatus1 | .busReadData _ _ | .busPageProgram _ _ | .busSectorErase4K _ => none
  | .busChipErase | .busJedecId | .busPowerDown | .busReleasePowerDown => none

/-- A request without bulk data at the LINK port. -/
def scalarRequest (wire : Bool) (op : Byte) (args : List Byte) : LinkReq :=
  { op := op, args := args, data := [], n := 0, wire := wire }

/-- The request at the link engine of a LINK operation or a request frame (R104, R106). -/
def linkRequest : Instr → Option LinkReq
  | .init => some (scalarRequest false 0x00#8 [])
  | .pinMode pin mode => some (scalarRequest false 0x01#8 [pin, mode])
  | .digitalWrite pin val => some (scalarRequest false 0x02#8 [pin, val])
  | .digitalRead pin => some (scalarRequest false 0x03#8 [pin])
  | .analogWrite pin val => some (scalarRequest false 0x04#8 [pin, val])
  | .analogRead pin => some (scalarRequest false 0x05#8 [pin])
  | .i2cWrite addr data => some { op := 0x10#8, args := [addr], data := data, n := data.length, wire := false }
  | .i2cRead addr n => some { op := 0x11#8, args := [addr], data := [], n := n.toNat, wire := false }
  | .spiInit mode clkdiv => some (scalarRequest false 0x20#8 [mode, clkdiv])
  | .spiTransfer data => some { op := 0x21#8, args := [], data := data, n := data.length, wire := false }
  | .installSleepMonitor pin level => some (scalarRequest false 0x90#8 [pin, level])
  | .ping => some (scalarRequest false 0x99#8 [])
  | .reqPinMode pin mode => some (scalarRequest true 0x01#8 [pin, mode])
  | .reqDigitalWrite pin val => some (scalarRequest true 0x02#8 [pin, val])
  | .reqDigitalRead pin => some (scalarRequest true 0x03#8 [pin])
  | .reqAnalogWrite pin val => some (scalarRequest true 0x04#8 [pin, val])
  | .reqAnalogRead pin => some (scalarRequest true 0x05#8 [pin])
  | .reqI2cWrite addr data => some { op := 0x10#8, args := [addr], data := data, n := data.length, wire := true }
  | .reqI2cRead addr len => some { op := 0x11#8, args := [addr], data := [], n := len.toNat, wire := true }
  | .reqSpiInit mode clkdiv => some (scalarRequest true 0x20#8 [mode, clkdiv])
  | .reqSpiTransfer chunk => some { op := 0x21#8, args := [], data := chunk, n := chunk.length, wire := true }
  | .reqInstallSleepMonitor pin level => some (scalarRequest true 0x90#8 [pin, level])
  | .reqPing => some (scalarRequest true 0x99#8 [])
  | .acquire _ | .release _ | .beginTransaction _ | .endTransaction _ | .busXfer _ _ => none
  | .waitForReady | .write _ _ | .read _ _ | .isBusy | .eraseSector _ | .identify => none
  | .wakeUp | .powerDown | .eraseChip | .response _ => none
  | .busWriteEnable | .busReadStatus1 | .busReadData _ _ | .busPageProgram _ _ | .busSectorErase4K _ => none
  | .busChipErase | .busJedecId | .busPowerDown | .busReleasePowerDown => none

/-- The request at the flash controller of a FLASH operation or a bus command (R104, R108, R109). -/
def flashRequest : Instr → Option FlashReq
  | .waitForReady => some (.host 0x00#8 0#24 0#25 [])
  | .write a data => some (.host 0x02#8 a (BitVec.ofNat 25 data.length) data)
  | .read a n => some (.host 0x03#8 a n [])
  | .isBusy => some (.host 0x05#8 0#24 0#25 [])
  | .eraseSector a => some (.host 0x20#8 a 0#25 [])
  | .identify => some (.host 0x9F#8 0#24 0#25 [])
  | .wakeUp => some (.host 0xAB#8 0#24 0#25 [])
  | .powerDown => some (.host 0xB9#8 0#24 0#25 [])
  | .eraseChip => some (.host 0xC7#8 0#24 0#25 [])
  | .busWriteEnable => some (.bare [0x06#8] 0 false)
  | .busReadStatus1 => some (.bare [0x05#8] 1 true)
  | .busReadData a n => some (.bare (0x03#8 :: be24 a) n.toNat false)
  | .busPageProgram a data => some (.bare (0x02#8 :: (be24 a ++ data)) 0 false)
  | .busSectorErase4K a => some (.bare (0x20#8 :: be24 a) 0 false)
  | .busChipErase => some (.bare [0xC7#8] 0 false)
  | .busJedecId => some (.bare [0x9F#8] 3 false)
  | .busPowerDown => some (.bare [0xB9#8] 0 false)
  | .busReleasePowerDown => some (.bare [0xAB#8] 0 false)
  | .acquire _ | .release _ | .beginTransaction _ | .endTransaction _ | .busXfer _ _ => none
  | .init | .pinMode _ _ | .digitalWrite _ _ | .digitalRead _ | .analogWrite _ _ | .analogRead _ => none
  | .i2cWrite _ _ | .i2cRead _ _ | .spiInit _ _ | .spiTransfer _ | .installSleepMonitor _ _ | .ping => none
  | .reqPinMode _ _ | .reqDigitalWrite _ _ | .reqDigitalRead _ | .reqAnalogWrite _ _ | .reqAnalogRead _ => none
  | .reqI2cWrite _ _ | .reqI2cRead _ _ | .reqSpiInit _ _ | .reqSpiTransfer _ => none
  | .reqInstallSleepMonitor _ _ | .reqPing | .response _ => none

/-- Nothing but the link engine changed. -/
def OnlyLink (s t : State) : Prop := t = s.setLink t.link

/-- The link engine, the parameters, the time, the inputs to come and the quantum are unchanged. -/
def LinkSideKept (s t : State) : Prop :=
  t.link = s.link ∧ t.params = s.params ∧ t.tNow = s.tNow ∧ t.env.inbox = s.env.inbox ∧ t.env.quantum = s.env.quantum

/-- Every byte of the chip's array outside `lo .. lo+n-1` reads as before. -/
def MemKeptOutside (lo n : Nat) (s t : State) : Prop :=
  ∀ a, a < lo ∨ lo + n ≤ a → Memory.read t.chip.mem a = Memory.read s.chip.mem a

/-- Every byte of the chip's array reads as before. -/
def MemKept (s t : State) : Prop := ∀ a, Memory.read t.chip.mem a = Memory.read s.chip.mem a

/-! ### The arbiter's invariants (R150) -/

/-- The transaction left open by a bus trace that starts with `d` open; `none` where a begin, a transfer or an end does not
belong to the open transaction (I5). -/
def bracket (d : Option Client) : List BusEvent → Option (Option Client)
  | [] => some d
  | .begin c :: r => if d = none then bracket (some c) r else none
  | .xfer c _ _ :: r => if d = some c then bracket d r else none
  | .finish c :: r => if d = some c then bracket none r else none

/-- R150, (I2) to (I6), the permit exists once it has been asked for (R23), and a waiting port has nothing open. (I1) is the
type of `permitOwner`; (I4) follows from (I2) and (I3). -/
structure ArbInv (s : State) : Prop where
  /-- (I2) and (I4) -/
  opened : ∀ d, s.arb.txnOpen = some d →
    s.arb.permitOwner = some d ∧ s.arb.cs.get d = true ∧ s.arb.cs.get d.other = false ∧
      s.arb.busCfg = s.params.devCfg.get d
  /-- (I3) -/
  closed : s.arb.txnOpen = none → (∀ d, s.arb.cs.get d = false) ∧ s.arb.busCfg = s.params.sharedCfg
  /-- (I5) -/
  bracketed : bracket none s.arb.busTrace = some s.arb.txnOpen
  /-- (I6) -/
  waits : ∀ c, s.arb.arbWait.get c = true → s.arb.permitOwner ≠ some c
  /-- R23: the permit is created by the first request -/
  created : s.arb.permitOwner ≠ none → s.arb.permitCreated = true
  /-- R23: only a client that has asked for the permit waits for it -/
  asked : ∀ c, s.arb.arbWait.get c = true → s.arb.permitCreated = true
  /-- MODEL's own (log 28): only a client that waits counts as passed over -/
  counted : ∀ c, s.arb.passed.get c ≠ none → s.arb.arbWait.get c = true
  /-- MODEL's own (log 28): at most one client counts as passed over, so the permit is never owed to both -/
  oneOwed : s.arb.passed.disp = none ∨ s.arb.passed.mem = none
  /-- MODEL's own: a client that still waits at its port has no transaction open (R142, R145) -/
  asking : ∀ c, s.arb.port.get c ≠ .idle → s.arb.txnOpen ≠ some c

/-! ### The chip's array (R60) -/

/-- The array is in canonical form and lists no address outside `0 .. CAPACITY-1`. -/
structure MemInv (s : State) : Prop where
  canonical : Memory.wf s.chip.mem = true
  inside : ∀ c ∈ s.chip.mem, c.1 < s.params.capacity

/-! ### Results (R301, R306, R30) -/

/-- Only the status codes 0 to 5 are ever produced, a good result has status 0, and the flash controller never fails. -/
structure StatusInv (s : State) : Prop where
  linkCode : s.link.linkStatus.toNat ≤ 5
  resultCode : s.link.lkResult.status.toNat ≤ 5
  resultOk : s.link.lkResult.ok = true → s.link.lkResult.status = 0#3
  flashCode : s.flash.flashStatus = 0#3
  flashResult : s.flash.flResult.status = 0#3

/-! ### The sequencers (R189, R272) -/

/-- The registers of the link engine hold a combination that R189 and the command layer know. -/
structure LinkSeqInv (l : Link) : Prop where
  buf : l.rxBuf.length = 32
  known : l.ctl ≠ .idle → linkOpOf l.lkOp ≠ none
  moving : l.ctl = .exchange ↔ l.linkState ≠ .idle

/-- The phases R272 gives an operation while one of its transactions is under way. -/
def phaseFits (op : FlashOp) (ph : FlPhase) : Bool :=
  match ph with
  | .wait =>
    match op with
    | .waitForReady | .write | .read | .eraseSector | .eraseChip => true
    | .isBusy | .identify | .wakeUp | .powerDown => false
  | .wren =>
    match op with
    | .write | .eraseSector | .eraseChip => true
    | .waitForReady | .read | .isBusy | .identify | .wakeUp | .powerDown => false
  | .cmd =>
    match op with
    | .write | .read | .isBusy | .eraseSector | .identify | .wakeUp | .powerDown | .eraseChip => true
    | .waitForReady => false
  | .idle | .done => false

/-- The registers of the flash controller hold a combination that R272 knows. -/
structure FlashSeqInv (f : Flash) : Prop where
  rest : f.flPhase = .idle ↔ f.ctl = .idle
  ending : f.flPhase = .done ↔ f.ctl = .done
  fits : f.job = .host → f.ctl ≠ .idle → f.ctl ≠ .done → ∃ op, flashOpOf f.flOp = some op ∧ phaseFits op f.flPhase = true

/-- Both sequencers stand where their transition tables have a row. -/
def SeqInv (s : State) : Prop := LinkSeqInv s.link ∧ FlashSeqInv s.flash

/-! ### What a claim about a link operation compares a run with -/

/-- The receiving states of R189. -/
def LinkState.receives : LinkState → Bool
  | .awaitStart | .awaitLen | .awaitData | .awaitCrc | .drain => true
  | .idle | .sent | .ok | .timeout | .lenMismatch | .crcMismatch => false

/-- A response with payload `resp` stands in ser_rx, `noise` without a START before it and `rest` after it, and the
window is open (R177, R188). -/
def Answered (noise resp rest : List Byte) (l : Link) : Prop :=
  l.serRx = noise ++ encodeResponse resp ++ rest ∧ (∀ b ∈ noise, b ≠ Config.start) ∧ l.timeoutMs ≠ 0#16

/-- The operand registers after a request without bulk data has been accepted (R210). -/
def Link.latched (op : Byte) (args : List Byte) (l : Link) : Link :=
  { l with lkOp := op, lkArgs := args, hostData := [], out := [] }

/-- The engine at the terminal state OK of an exchange: request `cmd`, `payload` sent at time `now`, response `resp` taken,
`rest` left in ser_rx (R175, R186). -/
def Link.exchanged (now : Time) (cmd : Byte) (payload resp rest : List Byte) (l : Link) : Link :=
  { l with
    linkState := .ok
    ctl := .exchange
    txCmd := cmd
    txPayload := payload
    expLen := BitVec.ofNat 8 resp.length
    serTx := l.serTx ++ encodeRequest cmd payload
    t0 := now
    serRx := rest
    rxLen := BitVec.ofNat 8 resp.length
    rxCnt := BitVec.ofNat 9 resp.length
    rxBuf := resp ++ l.rxBuf.drop resp.length
    rxCrc := responseCrc (BitVec.ofNat 8 resp.length) resp }

/-- The operations that are one exchange with a response of fixed length: CMD, payload and `exp_len` (R106). -/
def scalarRow : Instr → Option (Byte × List Byte × Nat)
  | .pinMode pin mode | .reqPinMode pin mode => some (0x01#8, [pin, mode], 1)
  | .digitalWrite pin val | .reqDigitalWrite pin val => some (0x02#8, [pin, val], 1)
  | .digitalRead pin | .reqDigitalRead pin => some (0x03#8, [pin], 1)
  | .analogWrite pin val | .reqAnalogWrite pin val => some (0x04#8, [pin, val], 1)
  | .analogRead pin | .reqAnalogRead pin => some (0x05#8, [pin], 2)
  | .spiInit mode clkdiv | .reqSpiInit mode clkdiv => some (0x20#8, [mode, clkdiv], 1)
  | .installSleepMonitor pin level | .reqInstallSleepMonitor pin level => some (0x90#8, [pin, level], 1)
  | .ping | .reqPing => some (0x99#8, [], 1)
  | .acquire _ | .release _ | .beginTransaction _ | .endTransaction _ | .busXfer _ _ => none
  | .init | .i2cWrite _ _ | .i2cRead _ _ | .spiTransfer _ => none
  | .waitForReady | .write _ _ | .read _ _ | .isBusy | .eraseSector _ | .identify => none
  | .wakeUp | .powerDown | .eraseChip => none
  | .reqI2cWrite _ _ | .reqI2cRead _ _ | .reqSpiTransfer _ | .response _ => none
  | .busWriteEnable | .busReadStatus1 | .busReadData _ _ | .busPageProgram _ _ | .busSectorErase4K _ => none
  | .busChipErase | .busJedecId | .busPowerDown | .busReleasePowerDown => none

/-- The chunks of a bulk transfer with `w` data bytes a frame (R218); `fuel` bounds their number. -/
def chunks (w : Nat) : Nat → List Byte → List (List Byte)
  | 0, _ => []
  | fuel + 1, d => if d = [] then [] else d.take w :: chunks w fuel (d.drop w)

/-- A failed operation without bulk data has ended with `status`: request sent, result written, nothing rolled back, the
port idle (R300, R301, R312). -/
structure ScalarFailed (cmd : Byte) (payload : List Byte) (status : BitVec 3) (rest : List Byte) (l m : Link) : Prop where
  idle : m.ctl = .idle ∧ m.linkState = .idle
  latched : m.lkOp = cmd ∧ m.lkArgs = payload
  sent : m.serTx = l.serTx ++ encodeRequest cmd payload
  left : m.serRx = rest
  outcome : m.lkResult = { ok := false, status := status, data := [], valid := 0 }
  code : m.linkStatus = status
  kept : m.linkReady = l.linkReady ∧ m.timeoutMs = l.timeoutMs ∧ m.waiting = l.waiting ∧ m.pingTry = l.pingTry ∧
    m.bulkN = l.bulkN ∧ m.bulkOff = l.bulkOff ∧ m.freeCtr = l.freeCtr

/-- What a co-processor sends whose response to one chunk of the bulk operation `op` fails with `status`, `n` bytes being
expected: a bad checksum, a wrong LEN with as many bytes as it declares, or, for I2C_WRITE, a status byte other than 1
(R181, R182, R219). -/
def BadResponse (op : Byte) (n : Nat) (status : BitVec 3) (sent : List Byte) : Prop :=
  (status = 3#3 ∧ ∃ body crc, body.length = n ∧ crc ≠ BitVec.ofNat 8 n ^^^ fold body ∧
    sent = [0xAA#8, BitVec.ofNat 8 n] ++ body ++ [crc]) ∨
  (status = 2#3 ∧ ∃ len body, len.toNat ≠ n ∧ body.length = len.toNat + 1 ∧ sent = [0xAA#8, len] ++ body) ∨
  (status = 4#3 ∧ op = 0x10#8 ∧ ∃ b, b ≠ 0x01#8 ∧ sent = encodeResponse [b])

/-- The engine after a bulk operation has failed with `status`: the bytes of the chunks completed are its result, which for
I2C_WRITE are free (R218, R301; log 20). -/
def Link.bulkFailed (status : BitVec 3) (l : Link) : Link :=
  if l.lkOp = 0x10#8 then
    { l with
      lkResult := {
        ok := false
        status := status
        data := freeBytes l.freeCtr l.bulkOff.toNat
        valid := l.bulkOff.toNat }
      linkStatus := status
      linkState := .idle
      ctl := .idle
      freeCtr := l.freeCtr + l.bulkOff.toNat }
  else
    { l with
      lkResult := { ok := false, status := status, data := l.out, valid := l.bulkOff.toNat }
      linkStatus := status
      linkState := .idle
      ctl := .idle }

/-- A bulk operation with `n` bytes asked for has ended after `off` of them: operands latched, `frames` sent, `used` free
bytes used, `rest` left in ser_rx, the result written, the port idle (R218, R301). -/
structure BulkEnded (op : Byte) (args : List Byte) (n off used : Nat) (frames : List (List Byte)) (result : Result)
    (rest : List Byte) (l m : Link) : Prop where
  idle : m.ctl = .idle ∧ m.linkState = .idle
  latched : m.lkOp = op ∧ m.lkArgs = args ∧ m.bulkN = BitVec.ofNat 16 n
  done : m.bulkOff = BitVec.ofNat 16 off
  sent : m.serTx = l.serTx ++ frames.flatten
  left : m.serRx = rest
  outcome : m.lkResult = result
  code : m.linkStatus = result.status
  kept : m.linkReady = l.linkReady ∧ m.timeoutMs = l.timeoutMs ∧ m.waiting = l.waiting ∧ m.pingTry = l.pingTry
  free : m.freeCtr = l.freeCtr + used

/-! ### What a claim about a flash operation compares a run with -/

/-- The bytes that come back while MEM sends `sent` to a chip already selected (R148, R82; log 15). -/
def answers (p : Params) : List Byte → Chip → Env → List Byte
  | [], _, _ => []
  | o :: r, c, e =>
    (chipAnswer p c).getD (envByte e) ::
      answers p r (chipReceive o c) (if (chipAnswer p c).isSome then e else envNext e)

/-- The environment after the same. -/
def envAfter (p : Params) : List Byte → Chip → Env → Env
  | [], _, e => e
  | o :: r, c, e => envAfter p r (chipReceive o c) (if (chipAnswer p c).isSome then e else envNext e)

/-- The chip after a whole Device Transaction that sent `sent` (R109, R111). -/
def chipAfter (p : Params) (sent : List Byte) (c : Chip) : Chip :=
  chipDeselect p (sent.foldl (fun d o => chipReceive o d) (chipSelect c))

/-- The bus events of one Device Transaction of `MEM` that sends `outs` while `ins` comes back (R116, R250). -/
def memTxn (outs ins : List Byte) : List BusEvent :=
  [.begin .mem] ++ List.zipWith (fun o i => BusEvent.xfer .mem o i) outs ins ++ [.finish .mem]

/-- The bytes that come back in the next Device Transaction of MEM, if it sends `sent`. -/
def txnAnswers (sent : List Byte) (s : State) : List Byte := answers s.params sent (chipSelect s.chip) s.env

/-- The state after one Device Transaction of MEM on a free bus that sends `sent`, filler bytes included; the
controller's own registers are left aside (R145, R146, R148, R250). -/
def afterTxn (sent : List Byte) (s : State) : State :=
  { s with
    arb := { s.arb with
      permitCreated := true
      permitOwner := none
      arbWait := s.arb.arbWait.set .mem false
      busCfg := s.params.sharedCfg
      cs := s.arb.cs.set .mem false
      txnOpen := none
      lastIn := s.arb.lastIn.set .mem ((txnAnswers sent s).getLastD s.arb.lastIn.mem)
      busTrace := s.arb.busTrace ++ memTxn sent (txnAnswers sent s)
      passed := s.arb.passed.set .mem none }
    chip := chipAfter s.params sent s.chip
    env := envAfter s.params sent (chipSelect s.chip) s.env }

/-- The bytes MEM sends in read-status-1: the opcode and one filler (R252). -/
def pollBytes (s : State) : List Byte := bytesReadStatus ++ [s.params.fillByte]

/-- The status byte the next read-status-1 of MEM reads. -/
def pollAnswer (s : State) : Byte := (txnAnswers (pollBytes s) s).getD 1 0#8

/-- The state after `k` read-status-1 transactions (R266). -/
def polled : Nat → State → State
  | 0, s => s
  | k + 1, s => polled k (afterTxn (pollBytes s) s)

/-- The next `k` polls read busy and the one after them reads ready (R266). -/
def ReadyAfter : Nat → State → Prop
  | 0, s => wipOf s.params (pollAnswer s) = false
  | k + 1, s => wipOf s.params (pollAnswer s) = true ∧ ReadyAfter k (afterTxn (pollBytes s) s)

/-- The status byte of the poll that reads ready. -/
def lastPoll (k : Nat) (s : State) : Byte := pollAnswer (polled k s)

/-- The controller's registers when it is idle again after an operation with selector `op` that ended with `data`; the
working registers of its last transaction hold `got` (R272, R301). -/
def Flash.ended (op : Byte) (data got : List Byte) (f : Flash) : Flash :=
  { f with
    flPhase := .idle
    ctl := .idle
    job := .host
    flOp := op
    flResult := { ok := true, status := stOk, data := data, valid := data.length }
    flashStatus := stOk
    txnOut := []
    txnIn := 0
    txnGot := got }

/-- The controller's registers when it is idle again after a bare bus command that read `got` (R250, R252; log 9). -/
def Flash.bareEnded (isStatus : Bool) (got : List Byte) (f : Flash) : Flash :=
  { f with
    flPhase := .idle
    ctl := .idle
    job := .bare isStatus
    flStatus := if isStatus then got.headD 0#8 else f.flStatus
    flResult := { ok := true, status := stOk, data := got, valid := got.length }
    flashStatus := stOk
    txnOut := []
    txnIn := 0
    txnGot := got }

/-- The bytes MEM sends in a bus command that sends `outs` and reads `n` bytes (R109, R250). -/
def withFill (outs : List Byte) (n : Nat) (s : State) : List Byte := outs ++ List.replicate n s.params.fillByte

/-- The `n` bytes the next such bus command reads. -/
def txnReads (outs : List Byte) (n : Nat) (s : State) : List Byte :=
  (txnAnswers (withFill outs n s) s).drop outs.length

/-- The loop of WRITE (R262): from `s` the data `d` are written at `a`, a poll series, a write-enable and a page-program
for each chunk, in `cost` micro-steps, and `t` is the state after it, the controller's own registers left aside; `last`
is the size of the last chunk and `st` the last status byte read. -/
inductive WriteLoop : Addr → List Byte → Nat → State → State → Nat → Byte → Prop where
  | last (a : Addr) (d : List Byte) (k : Nat) (s : State) :
      d ≠ [] → d.length ≤ pageRoom a.toNat → ReadyAfter k s →
      WriteLoop a d (7 * k + 22 + d.length) s
        (afterTxn (bytesPageProgram a d) (afterTxn bytesWriteEnable (polled (k + 1) s))) d.length (lastPoll k s)
  | more (a : Addr) (d : List Byte) (k cost : Nat) (s t : State) (last : Nat) (st : Byte) :
      pageRoom a.toNat < d.length → ReadyAfter k s →
      WriteLoop (a + BitVec.ofNat 24 (pageRoom a.toNat)) (d.drop (pageRoom a.toNat)) cost
        (afterTxn (bytesPageProgram a (d.take (pageRoom a.toNat))) (afterTxn bytesWriteEnable (polled (k + 1) s)))
        t last st →
      WriteLoop a d (cost + (7 * k + 22 + pageRoom a.toNat)) s t last st

/-! ### Functions of the operands that claims compare a run with -/

/-- The page-programs of `WRITE` for `n` bytes at `a`: address and size of each (R262, R269); `fuel` bounds their
number. -/
def pageSplit : Nat → Nat → Nat → List (Nat × Nat)
  | 0, _, _ => []
  | fuel + 1, a, n =>
    if n = 0 then [] else (a, min n (pageRoom a)) :: pageSplit fuel (a + min n (pageRoom a)) (n - min n (pageRoom a))

/-- A bus event with the incoming byte left out. -/
def BusEvent.outgoing : BusEvent → BusEvent
  | .begin d => .begin d
  | .xfer c o _ => .xfer c o 0#8
  | .finish d => .finish d

/-- One Device Transaction of MEM that sends `sent`, the incoming bytes left out. -/
def sentTxn (sent : List Byte) : List BusEvent :=
  [.begin .mem] ++ sent.map (fun o => BusEvent.xfer .mem o 0#8) ++ [.finish .mem]

/-- The transactions of one chunk of WRITE: `polls` status reads, write-enable, page-program (R262). -/
def chunkTxns (fill : Byte) (polls a : Nat) (d : List Byte) : List BusEvent :=
  (List.replicate polls (sentTxn [0x05#8, fill])).flatten ++ sentTxn [0x06#8] ++
    sentTxn ([0x02#8] ++ be24 (BitVec.ofNat 24 a) ++ d)

end Sys2Proof.Machine
end

