-- ==== Sys2Proof/Certificates/Slice0/Obligations.lean ====
section
/-! DEFINITION. The statements for the provers: what the machine does, from the numbered rules of spec/. An operation
presented at a port runs inside one step of the machine for at most `s.env.quantum` steps of its agent: that is the
model's form of the spec's interleaving (log 1, log 2). A hypothesis on the quantum says that the operation is not cut short;
the port and bus hypotheses (`ArbReady`, `LinkIdle`, `FlashReady`, `BusFree`) say that nothing else holds it up. -/

open Sys2Proof Sys2Proof.Machine

/-! ### Encodings -/

/-- Words written out from R101, R104, R106, R108 and the vectors V-L2, V-L4, V-L8 decode to what they stand for. The zero
bytes of the last word are the model's slots for the bytes that come in (log 3). -/
def Obligations.TableWordsDecode : Prop :=
  decode (.arb .disp) [0x04#8, 0x2C#8] = .ok (.busXfer .disp 0x2C#8) ∧
  decode .link [0x05#8, 0x03#8] = .ok (.analogRead 0x03#8) ∧
  decode .link [0x10#8, 0x3C#8, 0x00#8, 0xAF#8] = .ok (.i2cWrite 0x3C#8 [0x00#8, 0xAF#8]) ∧
  decode .flash [0x20#8, 0x00#8, 0x12#8, 0x34#8] = .ok (.eraseSector 0x001234#24) ∧
  decode .req [0xAA#8, 0x05#8, 0x01#8, 0x03#8, 0x07#8] = .ok (.reqAnalogRead 0x03#8) ∧
  decode .req [0xAA#8, 0x02#8, 0x02#8, 0xAA#8, 0xAA#8, 0x00#8] = .ok (.reqDigitalWrite 0xAA#8 0xAA#8) ∧
  decode .req [0xAA#8, 0x10#8, 0x03#8, 0x3C#8, 0x00#8, 0xAF#8, 0x80#8] = .ok (.reqI2cWrite 0x3C#8 [0x00#8, 0xAF#8]) ∧
  decode .rsp [0xAA#8, 0x02#8, 0x0F#8, 0xA0#8, 0xAD#8] = .ok (.response [0x0F#8, 0xA0#8]) ∧
  decode .bus [0x02#8, 0x00#8, 0x00#8, 0x10#8, 0xA5#8] = .ok (.busPageProgram 0x000010#24 [0xA5#8]) ∧
  decode .bus [0x9F#8, 0x00#8, 0x00#8, 0x00#8] = .ok .busJedecId

/-- Decoding the encoding of any well-formed operation in its code space gives it back, with every operand. The byte
layout of host requests is the model's (log 3). -/
def Obligations.DecodeEncode : Prop := ∀ i : Instr, i.wf = true → decode i.space (encode i) = .ok i

/-- What the decoder accepts is a well-formed operation of that code space, and its bytes are the only ones that stand
for it there. The byte layout of host requests is the model's (log 3). -/
def Obligations.DecodeCanonical : Prop :=
  ∀ (sp : Space) (bytes : List Byte) (i : Instr), decode sp bytes = .ok i →
    i.wf = true ∧ i.space = sp ∧ encode i = bytes

/-- R174: `DecodeRequest` of any sequence, and P1. -/
def Obligations.RequestDecoder : Prop :=
  (∀ (cmd n : Byte) (rest : List Byte), n.toNat + 1 ≤ rest.length →
    decodeRequest (0xAA#8 :: cmd :: n :: rest) =
      if rest.getD n.toNat 0#8 ≠ cmd ^^^ n ^^^ fold (rest.take n.toNat) then .error .badChecksum
      else .ok (cmd, rest.take n.toNat)) ∧
  (∀ s : List Byte, (s.length < 4 ∨ s.headD 0#8 ≠ 0xAA#8 ∨ s.length < (s.getD 2 0#8).toNat + 4) →
    ∃ e, decodeRequest s = .error e) ∧
  (∀ (c : Byte) (p : List Byte), p.length ≤ 32 → decodeRequest (encodeRequest c p) = .ok (c, p))

/-! ### The machine -/

/-- When the next input is a request whose bytes decode, the step is the operation's meaning with the request taken from
the inbox; a word of the opcode table put in place is run by the very next step. Bytes that are no operation of a host
port, no request frame and no bus command are refused by name; bytes that are no response frame arrive on the serial
channel all the same, and a waiting engine takes them (R33). The inbox is the model's own (log 1, log 6). -/
def Obligations.StepRunsDecoded : Prop :=
  (∀ (s : State) (sp : Space) (bytes : List Byte) (rest : List Input) (i : Instr),
    s.env.inbox = .request sp bytes :: rest → decode sp bytes = .ok i →
      step s = exec i { s with env := { s.env with inbox := rest } }) ∧
  (∀ (s : State) (sp : Space) (bytes : List Byte) (rest : List Input) (e : DecodeError),
    s.env.inbox = .request sp bytes :: rest → decode sp bytes = .error e → sp ≠ .rsp →
      step s = .refused (.undecodable e)) ∧
  (∀ (s u : State) (bytes : List Byte) (rest : List Input) (e : DecodeError),
    s.env.inbox = .request .rsp bytes :: rest → decode .rsp bytes = .error e →
      u = { s with
        env := { s.env with inbox := rest }
        link := { s.link with serRx := s.link.serRx ++ bytes } } →
      (s.link.ctl = .idle → step s = .next u) ∧
      (s.link.ctl ≠ .idle → step s = runInput (.run .link s.env.quantum) u)) ∧
  (∀ (s : State) (nbits w : Nat) (i : Instr), decodeTableWord nbits w = some i →
    step (s.withFetchWord nbits w) = exec i s)

/-- R55: what reset leaves, as an input at any moment and in `State.reset`. That the environment's prepared answers, inputs,
quantum and counters stay is the model's choice (log 26, log 2). The registers whose reset value R55 leaves
unspecified are not mentioned. -/
def Obligations.ResetValues : Prop :=
  (∀ s : State, ∃ t, runInput .reset s = .next t ∧
    t.arb.permitCreated = false ∧ t.arb.permitOwner = none ∧ (∀ c, t.arb.arbWait.get c = false) ∧
    t.arb.busCfg = s.params.sharedCfg ∧ (∀ d, t.arb.cs.get d = false) ∧ t.arb.txnOpen = none ∧
    t.link.linkState = .idle ∧ t.link.linkReady = false ∧ t.link.timeoutMs = 200#16 ∧ t.link.linkStatus = 0#3 ∧
    t.flash.flashStatus = 0#3 ∧ t.link.serRx = [] ∧ t.link.serTx = [] ∧ t.flash.flPhase = .idle ∧
    t.params = s.params ∧ t.chip.mem = s.chip.mem ∧ t.chip.wip = s.chip.wip ∧ t.chip.wel = s.chip.wel ∧
    t.chip.pd = s.chip.pd ∧ t.chip.ident = s.chip.ident ∧ t.env = s.env) ∧
  State.reset.arb.permitCreated = false ∧ State.reset.arb.permitOwner = none ∧
  (∀ c, State.reset.arb.arbWait.get c = false) ∧ State.reset.arb.busCfg = State.reset.params.sharedCfg ∧
  (∀ d, State.reset.arb.cs.get d = false) ∧ State.reset.arb.txnOpen = none ∧ State.reset.link.linkState = .idle ∧
  State.reset.link.linkReady = false ∧ State.reset.link.timeoutMs = 200#16 ∧ State.reset.link.linkStatus = 0#3 ∧
  State.reset.flash.flashStatus = 0#3 ∧ State.reset.link.serRx = [] ∧ State.reset.link.serTx = [] ∧
  State.reset.flash.flPhase = .idle

/-- The invariants of the machine hold right after reset. StatusInv rests on the zero results of log 12 and MemInv on the
empty array of log 17, both the model's choice. -/
def Obligations.ResetInvariants : Prop :=
  ArbInv State.reset ∧ MemInv State.reset ∧ StatusInv State.reset ∧ SeqInv State.reset

/-- R150: the arbiter's invariants are kept by every step; the clauses on `passed` are the model's form of ARB_FAIR
(log 28). -/
def Obligations.ArbInvKept : Prop := ∀ s t : State, ArbInv s → step s = .next t → ArbInv t

/-- The chip's array stays in canonical form and inside CAPACITY. -/
def Obligations.MemInvKept : Prop := ∀ s t : State, MemInv s → step s = .next t → MemInv t

/-- R301, R306: only the status codes 0 to 5 occur, a good result has code 0, flash_status is always 0. After a reset the two
result registers hold the model's values (log 12), since R55 leaves them unspecified. -/
def Obligations.StatusInvKept : Prop := ∀ s t : State, StatusInv s → step s = .next t → StatusInv t

/-- R189, R272: the sequencers stay at positions their transition tables know, and so no step ever faults. -/
def Obligations.SeqInvKept : Prop :=
  ∀ s : State, SeqInv s → (∀ t, step s = .next t → SeqInv t) ∧ (∀ e, step s ≠ .fault e)

/-- Time, arriving bytes, the chip's own step and the schedule touch what they name and nothing else; time wraps at 32
bits and intervals are measured exactly across the wrap (R33, R48, R82). -/
def Obligations.InputsAreLocal : Prop :=
  (∀ (s : State) (ms : Time), ∃ t, runInput (.tick ms) s = .next t ∧ t.tNow - s.tNow = ms ∧
    t.tNow.toNat = (s.tNow.toNat + ms.toNat) % 2 ^ 32 ∧ t = { s with tNow := t.tNow }) ∧
  (∀ (s : State) (b : Byte), runInput (.rx b) s =
    .next { s with link := { s.link with serRx := s.link.serRx ++ [b] } }) ∧
  (∀ s : State, ∃ t, runInput .chipReady s = .next t ∧ t = { s with chip := t.chip } ∧ t.chip.wip = false ∧
    t.chip.mem = s.chip.mem ∧ t.chip.wel = s.chip.wel ∧ t.chip.pd = s.chip.pd) ∧
  (∀ (s : State) (q : Nat), runInput (.quantum q) s = .next { s with env := { s.env with quantum := q } })

/-- R309: an agent held at a suspension point stays exactly where it is, however often it is activated: a client waiting
for a permit another holds, the flash controller likewise, the link engine waiting for a byte in time or in its pause. -/
def Obligations.HeldAgentsStay : Prop :=
  (∀ (s : State) (c : Client) (n : Nat), s.arb.permitOwner = some c.other → s.arb.port.get c ≠ .idle →
    runInput (.run (.port c) n) s = .next s) ∧
  (∀ (s : State) (n : Nat), s.flash.ctl = .opening → s.arb.permitOwner = some .disp → s.arb.txnOpen ≠ some .mem →
    runInput (.run .flash n) s = .next s) ∧
  (∀ (s : State) (n : Nat), s.link.ctl = .exchange → s.link.linkState.receives = true → s.link.serRx = [] →
    (s.tNow - s.link.t0).toNat < s.link.timeoutMs.toNat → runInput (.run .link n) s = .next s) ∧
  (∀ (s : State) (n : Nat) (since : Time), s.link.ctl = .pause since → (s.tNow - since).toNat < 50 →
    runInput (.run .link n) s = .next s)

/-- R105: a request at a busy port waits, behind those already waiting, and changes nothing else, whatever operation it is;
and when the agent of an idle port is activated the oldest waiting request is accepted, just as `exec` accepts it at an
idle port and there cut short at once. The order among the waiting requests is the model's (log 11), and so is which of
MEM's two users waits for the other (log 10). -/
def Obligations.BusyPortsWait : Prop :=
  (∀ (i : Instr) (c : Client) (r : ArbReq) (s : State), arbRequest i = some (c, r) →
    s.arb.port.get c ≠ .idle ∨ s.arb.waiting.get c ≠ [] ∨ (c = .mem ∧ s.flash.ctl ≠ .idle) →
    exec i s = .next (s.setArb { s.arb with waiting := s.arb.waiting.set c (s.arb.waiting.get c ++ [r]) })) ∧
  (∀ (i : Instr) (r : LinkReq) (s : State), linkRequest i = some r → i.wf = true →
    s.link.ctl ≠ .idle ∨ s.link.waiting ≠ [] →
    exec i s = .next (s.setLink { s.link with waiting := s.link.waiting ++ [r] })) ∧
  (∀ (i : Instr) (r : FlashReq) (s : State), flashRequest i = some r → i.wf = true →
    s.flash.ctl ≠ .idle ∨ s.flash.waiting ≠ [] ∨ s.arb.port.mem ≠ .idle →
    exec i s = .next (s.setFlash { s.flash with waiting := s.flash.waiting ++ [r] })) ∧
  (∀ (i : Instr) (c : Client) (r : ArbReq) (rest : List ArbReq) (s : State) (n : Nat), arbRequest i = some (c, r) →
    s.arb.port.get c = .idle → s.arb.waiting.get c = r :: rest → (c = .mem → s.flash.ctl = .idle) →
    runInput (.run (.port c) n) s =
      andThen (exec i { s with
          arb := { s.arb with waiting := s.arb.waiting.set c [] }
          env := { s.env with quantum := 0 } })
        (fun t => .next { t with
          arb := { t.arb with waiting := t.arb.waiting.set c rest }
          env := { t.env with quantum := s.env.quantum } })) ∧
  (∀ (i : Instr) (r : LinkReq) (rest : List LinkReq) (s : State) (n : Nat), linkRequest i = some r → i.wf = true →
    s.link.ctl = .idle → s.link.waiting = r :: rest →
    runInput (.run .link n) s =
      andThen (exec i { s with link := { s.link with waiting := [] }, env := { s.env with quantum := 0 } })
        (fun t => .next { t with
          link := { t.link with waiting := rest }
          env := { t.env with quantum := s.env.quantum } })) ∧
  (∀ (i : Instr) (r : FlashReq) (rest : List FlashReq) (s : State) (n : Nat), flashRequest i = some r → i.wf = true →
    s.flash.ctl = .idle → s.flash.waiting = r :: rest → s.arb.port.mem = .idle →
    runInput (.run .flash n) s =
      andThen (exec i { s with flash := { s.flash with waiting := [] }, env := { s.env with quantum := 0 } })
        (fun t => .next { t with
          flash := { t.flash with waiting := rest }
          env := { t.env with quantum := s.env.quantum } }))

/-- R114: the requests to which the spec gives no meaning are refused. -/
def Obligations.RefusedRequests : Prop :=
  (∀ (s : State) (op : Byte) (args : List Byte), linkOpOf op = none →
    runInput (.request .link (op :: args)) s = .refused (.undecodable .unknownOpSel)) ∧
  (∀ (s : State) (op : Byte) (args : List Byte), flashOpOf op = none →
    runInput (.request .flash (op :: args)) s = .refused (.undecodable .unknownOpSel)) ∧
  (∀ (s : State) (c : Client) (op : Byte) (args : List Byte), 4 < op.toNat →
    runInput (.request (.arb c) (op :: args)) s = .refused (.undecodable .unknownOpSel)) ∧
  (∀ s : State, FlashReady s →
    (∀ (a : Addr) (n : Len), s.params.capacity < a.toNat + n.toNat → exec (.read a n) s = .refused .beyondCapacity) ∧
    (∀ (a : Addr) (d : List Byte), s.params.capacity < a.toNat + d.length →
      exec (.write a d) s = .refused .beyondCapacity) ∧
    (∀ a : Addr, s.params.capacity ≤ a.toNat → exec (.eraseSector a) s = .refused .beyondCapacity)) ∧
  (∀ s : State, LinkIdle s → s.link.linkReady = true →
    (∀ addr, exec (.i2cRead addr 0#16) s = .refused .emptyBulk) ∧
    (∀ addr, exec (.i2cWrite addr []) s = .refused .emptyBulk) ∧ exec (.spiTransfer []) s = .refused .emptyBulk) ∧
  (∀ (s : State) (v : BitVec 16), s.link.ctl ≠ .idle → runInput (.setTimeout v) s = .refused .timeoutWriteBusy) ∧
  (∀ (s : State) (i : Instr), LinkIdle s → s.link.linkReady = false →
    i.space = .link ∨ (i.space = .req ∧ i.wf = true) → i ≠ .init → i ≠ .ping → i ≠ .reqPing →
    exec i s = .refused .linkNotReady)

/-! ### The arbiter -/

/-- R142: with the permit free and nobody else waiting, `ACQUIRE(c)` returns holding it; with the other client waiting too,
the arbiter chooses one of the two that it may choose, and the other counts as passed over (log 23, log 28). -/
def Obligations.AcquireCompletes : Prop :=
  ∀ (c : Client) (s : State), ArbReady c s → s.arb.permitOwner = none → 2 ≤ s.env.quantum →
    (s.arb.arbWait.get c.other = false →
      exec (.acquire c) s = .next (s.setArb { s.arb with
        permitCreated := true
        permitOwner := some c
        arbWait := s.arb.arbWait.set c false
        port := s.arb.port.set c .idle
        passed := s.arb.passed.set c none })) ∧
    (s.arb.arbWait.get c.other = true → ∃ d e,
      (s.params.arbFair = true → s.arb.passed.get d.other = some 0 → s.arb.passed.get d = some 0) ∧
      exec (.acquire c) s = .next ((s.setArb { s.arb with
        permitCreated := true
        permitOwner := some d
        arbWait := (s.arb.arbWait.set c true).set d false
        port := s.arb.port.set c (if d = c then .idle else .acquiring)
        passed := (s.arb.passed.set d none).set d.other (passOver d.other s.arb)
        grants := s.arb.grants + 1 }).setEnv e) ∧
      e = { s.env with freeCtr := s.env.freeCtr + 1 })

/-- R142, R145: while the other client holds the permit, `ACQUIRE(c)` and `BEGIN_TRANSACTION(c)` wait for it. -/
def Obligations.HolderMakesOthersWait : Prop :=
  ∀ (c : Client) (s : State), ArbReady c s → s.arb.permitOwner = some c.other →
    exec (.acquire c) s = .next (s.setArb { s.arb with
      permitCreated := true
      arbWait := s.arb.arbWait.set c true
      port := s.arb.port.set c .acquiring }) ∧
    exec (.beginTransaction c) s = .next (s.setArb { s.arb with
      permitCreated := true
      arbWait := s.arb.arbWait.set c true
      port := s.arb.port.set c .beginning })

/-- R144: `RELEASE(c)`. -/
def Obligations.ReleaseCompletes : Prop :=
  ∀ (c : Client) (s : State), ArbReady c s →
    (s.arb.permitOwner = some c → s.arb.txnOpen = none →
      exec (.release c) s = .next (s.setArb { s.arb with permitOwner := none })) ∧
    (¬(s.arb.permitOwner = some c ∧ s.arb.txnOpen = none) → exec (.release c) s = .refused .releaseMisuse)

/-- R145: `BEGIN_TRANSACTION(d)` on a free bus, and by the holder of the permit. -/
def Obligations.BeginCompletes : Prop :=
  ∀ (d : Client) (s : State), ArbReady d s → s.arb.txnOpen = none →
    (s.arb.permitOwner = none → s.arb.arbWait.get d.other = false → 2 ≤ s.env.quantum →
      exec (.beginTransaction d) s = .next { s with
        arb := { s.arb with
          permitCreated := true
          permitOwner := some d
          arbWait := s.arb.arbWait.set d false
          busCfg := s.params.devCfg.get d
          cs := s.arb.cs.set d true
          txnOpen := some d
          busTrace := s.arb.busTrace ++ [.begin d]
          passed := s.arb.passed.set d none }
        chip := if d = .mem then chipSelect s.chip else s.chip }) ∧
    (s.arb.permitOwner = some d →
      exec (.beginTransaction d) s = .next { s with
        arb := { s.arb with
          busCfg := s.params.devCfg.get d
          cs := s.arb.cs.set d true
          txnOpen := some d
          busTrace := s.arb.busTrace ++ [.begin d] }
        chip := if d = .mem then chipSelect s.chip else s.chip })

/-- R146: `END_TRANSACTION(d)`. MEM's chip carries out the command it has received (log 19). -/
def Obligations.EndCompletes : Prop :=
  ∀ (d : Client) (s : State), ArbReady d s → s.arb.txnOpen = some d → s.arb.permitOwner = some d →
    exec (.endTransaction d) s = .next { s with
      arb := { s.arb with
        cs := s.arb.cs.set d false
        busCfg := s.params.sharedCfg
        txnOpen := none
        permitOwner := none
        busTrace := s.arb.busTrace ++ [.finish d] }
      chip := if d = .mem then chipDeselect s.params s.chip else s.chip }

/-- R148: `BUS_XFER(c, o)`: one byte out, one byte in. The byte in is the reference chip's answer where R82 gives one, else
the environment's (log 15). -/
def Obligations.BusXferCompletes : Prop :=
  ∀ (c : Client) (o : Byte) (s : State), ArbReady c s → s.arb.permitOwner = some c → s.arb.txnOpen = some c →
    ∃ t, exec (.busXfer c o) s = .next t ∧
      t.arb = { s.arb with
        lastIn := s.arb.lastIn.set c (t.arb.lastIn.get c)
        busTrace := s.arb.busTrace ++ [.xfer c o (t.arb.lastIn.get c)] } ∧
      t = { s with arb := t.arb, chip := if c = .mem then chipReceive o s.chip else s.chip, env := t.env } ∧
      (∀ b, c = .mem → chipAnswer s.params s.chip = some b → t.arb.lastIn.get c = b ∧ t.env = s.env) ∧
      (c = .disp ∨ chipAnswer s.params s.chip = none →
        (∀ b r, s.env.busIn = b :: r → t.arb.lastIn.get c = b ∧ t.env = { s.env with busIn := r }) ∧
        (s.env.busIn = [] → t.env = { s.env with freeCtr := s.env.freeCtr + 1 }))

/-- R151: requests that break the protocol are refused, in every state that meets the arbiter's invariants. -/
def Obligations.MisuseRefused : Prop :=
  ∀ (c : Client) (s : State), ArbInv s → ArbReady c s →
    (s.arb.permitOwner = some c → exec (.acquire c) s = .refused .reacquire) ∧
    (s.arb.txnOpen = some c → exec (.beginTransaction c) s = .refused .nestedBegin) ∧
    (s.arb.permitOwner ≠ some c ∨ s.arb.txnOpen = some c → exec (.release c) s = .refused .releaseMisuse) ∧
    (s.arb.txnOpen ≠ some c → exec (.endTransaction c) s = .refused .endMisuse) ∧
    (∀ o, s.arb.permitOwner ≠ some c ∨ s.arb.txnOpen ≠ some c → exec (.busXfer c o) s = .refused .xferMisuse)

/-- R143: the grant step is enabled when the permit is free and a client waits, may choose any waiting client, and writes
`permit_owner` and that client's `arb_wait`. With ARB_FAIR (R8) it may not choose a client while it owes the permit to the
other alone, and each grant that passes a client over brings it nearer to that: so the client is served at last. How a
client comes to be owed the permit is the model's form of ARB_FAIR (log 28). -/
def Obligations.GrantStep : Prop :=
  (∀ (s : State) (c : Client), s.arb.permitOwner = none → s.arb.arbWait.get c = true →
    (s.params.arbFair = true → s.arb.arbWait.get c.other = true → s.arb.passed.get c.other = some 0 →
      s.arb.passed.get c = some 0) →
    (s.arb.arbWait.get c.other = false → runInput (.grant c) s = .next (s.setArb { s.arb with
      permitOwner := some c
      arbWait := s.arb.arbWait.set c false
      passed := s.arb.passed.set c none })) ∧
    (s.arb.arbWait.get c.other = true → runInput (.grant c) s = .next (s.setArb { s.arb with
      permitOwner := some c
      arbWait := s.arb.arbWait.set c false
      passed := (s.arb.passed.set c none).set c.other (passOver c.other s.arb)
      grants := s.arb.grants + 1 }))) ∧
  (∀ (s : State) (c : Client),
    s.arb.permitOwner ≠ none ∨ s.arb.arbWait.get c = false ∨
      (s.params.arbFair = true ∧ s.arb.arbWait.get c.other = true ∧ s.arb.passed.get c.other = some 0 ∧
        s.arb.passed.get c ≠ some 0) →
    runInput (.grant c) s = .next s) ∧
  (∀ s : State, s.arb.permitOwner = none → (∃ c, s.arb.arbWait.get c = true) →
    ∃ c, s.arb.arbWait.get c = true ∧ .next (s.setArb (grantStep s).arb) = runInput (.grant c) s ∧
      (grantStep s).arb.permitOwner = some c) ∧
  (∀ s : State, s.arb.permitOwner ≠ none ∨ (∀ c, s.arb.arbWait.get c = false) → grantStep s = s) ∧
  (∀ (s : State) (c : Client), s.params.arbFair = true → s.arb.permitOwner = none → (∀ d, s.arb.arbWait.get d = true) →
    s.arb.passed.get c.other = none →
    (s.arb.passed.get c = some 0 → (grantStep s).arb.permitOwner = some c) ∧
    (∀ n, s.arb.passed.get c = some (n + 1) → (grantStep s).arb.permitOwner = some c ∨
      ((grantStep s).arb.passed.get c = some n ∧ (grantStep s).arb.arbWait.get c = true)))

/-- The frame of the five ARB operations: link engine, flash controller, parameters, time and schedule are untouched; the
other client's select line, last byte, port and waiting requests are untouched (its wait bit may fall, where the arbiter
grants it the permit); DISP's operations leave the chip alone, and the bytes of the array change at most where MEM ends a
transaction. -/
def Obligations.ArbFrame : Prop :=
  ∀ (i : Instr) (c : Client) (s t : State), i.space = .arb c → exec i s = .next t →
    t.link = s.link ∧ t.flash = s.flash ∧ t.params = s.params ∧ t.tNow = s.tNow ∧ t.env.inbox = s.env.inbox ∧
    t.env.quantum = s.env.quantum ∧ t.arb.port.get c.other = s.arb.port.get c.other ∧
    t.arb.waiting.get c.other = s.arb.waiting.get c.other ∧ t.arb.cs.get c.other = s.arb.cs.get c.other ∧
    t.arb.lastIn.get c.other = s.arb.lastIn.get c.other ∧ (c = .disp → t.chip = s.chip) ∧
    (i ≠ .endTransaction .mem → MemKept s t)

/-! ### The link engine -/

/-- R173: `SerRx`: the deadline is tested first; then a waiting byte is taken from the head; else the engine waits. It is
the engine's only way to take a byte: a step that takes one is a receive step inside the window and takes the head; every
receive step of an exchange uses the same `t0` and `T`. -/
def Obligations.SerRxRule : Prop :=
  (∀ (now : Time) (l : Link),
    (l.timeoutMs.toNat ≤ (now - l.t0).toNat → l.serRxNow now = .timeout) ∧
    (∀ b rest, (now - l.t0).toNat < l.timeoutMs.toNat → l.serRx = b :: rest → l.serRxNow now = .byte b rest) ∧
    ((now - l.t0).toNat < l.timeoutMs.toNat → l.serRx = [] → l.serRxNow now = .waiting)) ∧
  (∀ (now : Time) (l m : Link), l.micro now = .next m →
    (m.serRx ≠ l.serRx → l.ctl = .exchange ∧ l.linkState.receives = true ∧
      (now - l.t0).toNat < l.timeoutMs.toNat ∧ ∃ b, l.serRx = b :: m.serRx) ∧
    (l.ctl = .exchange → l.linkState.receives = true → m.t0 = l.t0 ∧ m.timeoutMs = l.timeoutMs))

/-- R176: the send step writes the whole frame, records the time, reads nothing; SENT leads on without condition. -/
def Obligations.SendStep : Prop :=
  ∀ (now : Time) (l : Link) (op : LinkOp), linkOpOf l.lkOp = some op →
    (l.ctl = .start → l.micro now = .next { l with
      txCmd := l.cmdOf op
      txPayload := l.payloadOf op
      expLen := l.expOf op
      serTx := l.serTx ++ ([0xAA#8, l.cmdOf op, BitVec.ofNat 8 (l.payloadOf op).length] ++ l.payloadOf op ++
        [l.cmdOf op ^^^ BitVec.ofNat 8 (l.payloadOf op).length ^^^ fold (l.payloadOf op)])
      t0 := now
      linkState := .sent
      ctl := .exchange }) ∧
    (l.ctl = .exchange → l.linkState = .sent → l.micro now = .next { l with linkState := .awaitStart })

/-- R189: the transition table of link_state, every row with its action, for a known operation. -/
def Obligations.LinkTransitions : Prop :=
  ∀ (now : Time) (l : Link), linkOpOf l.lkOp ≠ none →
    (l.ctl = .start → ∃ m, l.micro now = .next m ∧ m.linkState = .sent ∧
      m.serTx = l.serTx ++ encodeRequest m.txCmd m.txPayload ∧ m.t0 = now) ∧
    (l.ctl = .exchange →
      (l.linkState = .sent → l.micro now = .next { l with linkState := .awaitStart }) ∧
      (∀ b rest, l.serRxNow now = .byte b rest →
        (l.linkState = .awaitStart → b ≠ 0xAA#8 → l.micro now = .next { l with serRx := rest }) ∧
        (l.linkState = .awaitStart → b = 0xAA#8 → l.micro now = .next { l with serRx := rest, linkState := .awaitLen }) ∧
        (l.linkState = .awaitLen → b = l.expLen → 0 < b.toNat →
          l.micro now = .next { l with serRx := rest, rxLen := b, rxCnt := 0#9, linkState := .awaitData }) ∧
        (l.linkState = .awaitLen → b = l.expLen → b = 0#8 →
          l.micro now = .next { l with serRx := rest, rxLen := 0#8, linkState := .awaitCrc }) ∧
        (l.linkState = .awaitLen → b ≠ l.expLen →
          l.micro now = .next { l with serRx := rest, rxLen := b, rxCnt := 0#9, linkState := .drain }) ∧
        (l.linkState = .awaitData → l.rxCnt.toNat + 1 < l.rxLen.toNat →
          l.micro now = .next { l with
            serRx := rest, rxBuf := l.rxBuf.set l.rxCnt.toNat b, rxCnt := l.rxCnt + 1#9 }) ∧
        (l.linkState = .awaitData → l.rxCnt.toNat + 1 = l.rxLen.toNat →
          l.micro now = .next { l with
            serRx := rest, rxBuf := l.rxBuf.set l.rxCnt.toNat b, rxCnt := l.rxCnt + 1#9, linkState := .awaitCrc }) ∧
        (l.linkState = .awaitCrc → b = l.rxLen ^^^ fold (l.rxBuf.take l.rxLen.toNat) →
          l.micro now = .next { l with serRx := rest, rxCrc := b, linkState := .ok }) ∧
        (l.linkState = .awaitCrc → b ≠ l.rxLen ^^^ fold (l.rxBuf.take l.rxLen.toNat) →
          l.micro now = .next { l with serRx := rest, rxCrc := b, linkState := .crcMismatch }) ∧
        (l.linkState = .drain → l.rxCnt.toNat + 1 < l.rxLen.toNat + 1 →
          l.micro now = .next { l with serRx := rest, rxCnt := l.rxCnt + 1#9 }) ∧
        (l.linkState = .drain → l.rxCnt.toNat + 1 = l.rxLen.toNat + 1 →
          l.micro now = .next { l with serRx := rest, linkState := .lenMismatch })) ∧
      (l.serRxNow now = .timeout →
        (l.linkState = .awaitStart ∨ l.linkState = .awaitLen ∨ l.linkState = .awaitData ∨ l.linkState = .awaitCrc →
          l.micro now = .next { l with linkState := .timeout }) ∧
        (l.linkState = .drain → l.micro now = .next { l with linkState := .lenMismatch })) ∧
      (l.serRxNow now = .waiting → l.linkState.receives = true → l.micro now = .next l) ∧
      (l.linkState = .ok ∨ l.linkState = .timeout ∨ l.linkState = .lenMismatch ∨ l.linkState = .crcMismatch →
        ∃ m, l.micro now = .next m ∧ m.linkState = .idle ∧ m.serRx = l.serRx ∧ m.serTx = l.serTx)) ∧
    (l.ctl = .idle ∨ (∃ since, l.ctl = .pause since) → ∀ m, l.micro now = .next m → m.linkState = l.linkState)

/-- R213 to R217, R221, R223: the seven host commands of one exchange. Behind any noise without a START, a response of the
expected length that is all there when the request is sent makes the command end well with the response bytes as its
result; the whole new state is given, so everything else is unchanged. The value ANALOG_READ returns is formed from its two
bytes, big-endian. -/
def Obligations.ScalarCommandsComplete : Prop :=
  ∀ (s : State) (noise resp rest : List Byte), LinkIdle s → LinkSeqInv s.link → s.link.linkReady = true →
    Answered noise resp rest s.link → noise.length + resp.length + 6 ≤ s.env.quantum →
    (resp.length = 1 →
      (∀ pin mode, exec (.pinMode pin mode) s = .next (s.setLink
        (((s.link.latched 0x01#8 [pin, mode]).exchanged s.tNow 0x01#8 [pin, mode] resp rest).succeed resp))) ∧
      (∀ pin val, exec (.digitalWrite pin val) s = .next (s.setLink
        (((s.link.latched 0x02#8 [pin, val]).exchanged s.tNow 0x02#8 [pin, val] resp rest).succeed resp))) ∧
      (∀ pin, exec (.digitalRead pin) s = .next (s.setLink
        (((s.link.latched 0x03#8 [pin]).exchanged s.tNow 0x03#8 [pin] resp rest).succeed resp))) ∧
      (∀ pin val, exec (.analogWrite pin val) s = .next (s.setLink
        (((s.link.latched 0x04#8 [pin, val]).exchanged s.tNow 0x04#8 [pin, val] resp rest).succeed resp))) ∧
      (∀ mode clkdiv, exec (.spiInit mode clkdiv) s = .next (s.setLink
        (((s.link.latched 0x20#8 [mode, clkdiv]).exchanged s.tNow 0x20#8 [mode, clkdiv] resp rest).succeed resp))) ∧
      (∀ pin level, exec (.installSleepMonitor pin level) s = .next (s.setLink
        (((s.link.latched 0x90#8 [pin, level]).exchanged s.tNow 0x90#8 [pin, level] resp rest).succeed resp)))) ∧
    (resp.length = 2 → ∀ pin, exec (.analogRead pin) s = .next (s.setLink
        (((s.link.latched 0x05#8 [pin]).exchanged s.tNow 0x05#8 [pin] resp rest).succeed resp))) ∧
    (∀ d0 d1 pin, resp = [d0, d1] → ∃ t, exec (.analogRead pin) s = .next t ∧
      t.link.hostValue = some (BitVec.ofNat 16 (d0.toNat * 256 + d1.toNat)))

/-- The same of the seven request frames of one exchange (R101, R106, R118; log 7). -/
def Obligations.ScalarFramesComplete : Prop :=
  ∀ (s : State) (noise resp rest : List Byte), LinkIdle s → LinkSeqInv s.link → s.link.linkReady = true →
    Answered noise resp rest s.link → noise.length + resp.length + 6 ≤ s.env.quantum →
    (resp.length = 1 →
      (∀ pin mode, exec (.reqPinMode pin mode) s = .next (s.setLink
        (((s.link.latched 0x01#8 [pin, mode]).exchanged s.tNow 0x01#8 [pin, mode] resp rest).succeed resp))) ∧
      (∀ pin val, exec (.reqDigitalWrite pin val) s = .next (s.setLink
        (((s.link.latched 0x02#8 [pin, val]).exchanged s.tNow 0x02#8 [pin, val] resp rest).succeed resp))) ∧
      (∀ pin, exec (.reqDigitalRead pin) s = .next (s.setLink
        (((s.link.latched 0x03#8 [pin]).exchanged s.tNow 0x03#8 [pin] resp rest).succeed resp))) ∧
      (∀ pin val, exec (.reqAnalogWrite pin val) s = .next (s.setLink
        (((s.link.latched 0x04#8 [pin, val]).exchanged s.tNow 0x04#8 [pin, val] resp rest).succeed resp))) ∧
      (∀ mode clkdiv, exec (.reqSpiInit mode clkdiv) s = .next (s.setLink
        (((s.link.latched 0x20#8 [mode, clkdiv]).exchanged s.tNow 0x20#8 [mode, clkdiv] resp rest).succeed resp))) ∧
      (∀ pin level, exec (.reqInstallSleepMonitor pin level) s = .next (s.setLink
        (((s.link.latched 0x90#8 [pin, level]).exchanged s.tNow 0x90#8 [pin, level] resp rest).succeed resp)))) ∧
    (resp.length = 2 → ∀ pin, exec (.reqAnalogRead pin) s = .next (s.setLink
        (((s.link.latched 0x05#8 [pin]).exchanged s.tNow 0x05#8 [pin] resp rest).succeed resp)))

/-- R212, R305: PING, as a host operation and as a frame, ends well exactly when the byte is 0xAA; any other byte is NACK. It
does not change link_ready and does not ask for it. -/
def Obligations.PingTestsItsByte : Prop :=
  ∀ (s : State) (noise rest : List Byte) (b : Byte), LinkIdle s → LinkSeqInv s.link →
    Answered noise [b] rest s.link → noise.length + 7 ≤ s.env.quantum →
    (b = 0xAA#8 →
      exec .ping s = .next (s.setLink
        (((s.link.latched 0x99#8 []).exchanged s.tNow 0x99#8 [] [b] rest).succeed [b])) ∧
      exec .reqPing s = .next (s.setLink
        (((s.link.latched 0x99#8 []).exchanged s.tNow 0x99#8 [] [b] rest).succeed [b]))) ∧
    (b ≠ 0xAA#8 →
      exec .ping s = .next (s.setLink
        (((s.link.latched 0x99#8 []).exchanged s.tNow 0x99#8 [] [b] rest).raise 4#3 [] 0)) ∧
      exec .reqPing s = .next (s.setLink
        (((s.link.latched 0x99#8 []).exchanged s.tNow 0x99#8 [] [b] rest).raise 4#3 [] 0)))

/-- R211, Scenario A: INIT answered at its first attempt: one ping frame, link_ready set, result ok without data. -/
def Obligations.InitCompletes : Prop :=
  ∀ (s : State) (noise rest : List Byte), LinkIdle s → LinkSeqInv s.link → Answered noise [0xAA#8] rest s.link →
    noise.length + 7 ≤ s.env.quantum →
    exec .init s = .next (s.setLink
      (({ (s.link.latched 0x00#8 []).exchanged s.tNow 0x99#8 [] [0xAA#8] rest with
          pingTry := 1#2, linkReady := true } : Link).succeed []))

/-- R211, R307, R314: the attempts of INIT: each sends one ping frame and expects one byte; 0xAA sets link_ready and ends
well; any failure of attempt 1 or 2 leads to a pause of 50 ms and the next attempt, reporting nothing; a failure of
attempt 3 clears link_ready and ends in INIT_FAIL. -/
def Obligations.InitAttempts : Prop :=
  ∀ (now : Time) (l : Link), l.lkOp = 0x00#8 →
    (l.ctl = .start → ∃ m, l.micro now = .next m ∧ m.serTx = l.serTx ++ [0xAA#8, 0x99#8, 0x00#8, 0x99#8] ∧
      m.expLen = 1#8 ∧ m.t0 = now ∧ m.pingTry = l.pingTry) ∧
    (l.ctl = .exchange → l.linkState = .ok → (l.rxBuf.take l.rxLen.toNat).headD 0#8 = 0xAA#8 →
      l.micro now = .next (({ l with linkReady := true } : Link).succeed [])) ∧
    (l.ctl = .exchange →
      (l.linkState = .ok ∧ (l.rxBuf.take l.rxLen.toNat).headD 0#8 ≠ 0xAA#8) ∨ l.linkState = .timeout ∨
        l.linkState = .lenMismatch ∨ l.linkState = .crcMismatch →
      (l.pingTry.toNat < 3 → l.micro now = .next { l with linkState := .idle, ctl := .pause now }) ∧
      (l.pingTry.toNat = 3 → l.micro now = .next { l with
        linkReady := false
        lkResult := { ok := false, status := 5#3, data := [], valid := 0 }
        linkStatus := 5#3
        linkState := .idle
        ctl := .idle })) ∧
    (∀ since, l.ctl = .pause since →
      ((now - since).toNat < 50 → l.micro now = .next l) ∧
      (50 ≤ (now - since).toNat → l.micro now = .next { l with pingTry := l.pingTry + 1#2, ctl := .start }))

/-- R218, R220: I2C_READ of any 1 to 65535 bytes, and the i2c-read frame of 1 to 32: chunks of 32, each with the address and
its count, the bytes concatenated in order. That lk_args then holds the address alone is the model's choice (log 32), and so
is what the frame leaves in the registers (log 7). -/
def Obligations.I2cReadCompletes : Prop :=
  ∀ (s : State) (addr : Byte) (data rest : List Byte), LinkIdle s → LinkSeqInv s.link → s.link.timeoutMs ≠ 0#16 →
    s.link.linkReady = true → 1 ≤ data.length → data.length ≤ 65535 → 7 * data.length ≤ s.env.quantum →
    s.link.serRx = (chunks 32 data.length data).flatMap encodeResponse ++ rest →
    (∃ l, exec (.i2cRead addr (BitVec.ofNat 16 data.length)) s = .next (s.setLink l) ∧
      BulkEnded 0x11#8 [addr] data.length data.length 0
        ((chunks 32 data.length data).map (fun c => encodeRequest 0x11#8 [addr, BitVec.ofNat 8 c.length]))
        { ok := true, status := 0#3, data := data, valid := data.length } rest s.link l) ∧
    (data.length ≤ 32 → ∃ l, exec (.reqI2cRead addr (BitVec.ofNat 8 data.length)) s = .next (s.setLink l) ∧
      BulkEnded 0x11#8 [addr] data.length data.length 0 [encodeRequest 0x11#8 [addr, BitVec.ofNat 8 data.length]]
        { ok := true, status := 0#3, data := data, valid := data.length } rest s.link l)

/-- R218, R222: SPI_TRANSFER of any 1 to 65535 bytes, and the spi-transfer frame of 1 to 32: chunks of 32, the received bytes
concatenated in order. -/
def Obligations.SpiTransferCompletes : Prop :=
  ∀ (s : State) (data rx rest : List Byte), LinkIdle s → LinkSeqInv s.link → s.link.timeoutMs ≠ 0#16 →
    s.link.linkReady = true → 1 ≤ data.length → data.length ≤ 65535 → rx.length = data.length →
    7 * data.length ≤ s.env.quantum → s.link.serRx = (chunks 32 rx.length rx).flatMap encodeResponse ++ rest →
    (∃ l, exec (.spiTransfer data) s = .next (s.setLink l) ∧
      BulkEnded 0x21#8 [] data.length data.length 0 ((chunks 32 data.length data).map (encodeRequest 0x21#8))
        { ok := true, status := 0#3, data := rx, valid := rx.length } rest s.link l) ∧
    (data.length ≤ 32 → ∃ l, exec (.reqSpiTransfer data) s = .next (s.setLink l) ∧
      BulkEnded 0x21#8 [] data.length data.length 0 [encodeRequest 0x21#8 data]
        { ok := true, status := 0#3, data := rx, valid := rx.length } rest s.link l)

/-- R218, R219: I2C_WRITE of any 1 to 65535 bytes, and the i2c-write frame of 0 to 31 (R106; log 37): chunks of 31, each with
the address, every status byte 1. -/
def Obligations.I2cWriteCompletes : Prop :=
  (∀ (s : State) (addr : Byte) (data rest : List Byte), LinkIdle s → LinkSeqInv s.link → s.link.timeoutMs ≠ 0#16 →
    s.link.linkReady = true → 1 ≤ data.length → data.length ≤ 65535 → 7 * data.length ≤ s.env.quantum →
    s.link.serRx = (chunks 31 data.length data).flatMap (fun _ => encodeResponse [0x01#8]) ++ rest →
    ∃ l, exec (.i2cWrite addr data) s = .next (s.setLink l) ∧
      BulkEnded 0x10#8 [addr] data.length data.length 0
        ((chunks 31 data.length data).map (fun c => encodeRequest 0x10#8 (addr :: c)))
        { ok := true, status := 0#3, data := [0x01#8], valid := 1 } rest s.link l) ∧
  (∀ (s : State) (addr : Byte) (data rest : List Byte), LinkIdle s → LinkSeqInv s.link → s.link.timeoutMs ≠ 0#16 →
    s.link.linkReady = true → data.length ≤ 31 → 7 ≤ s.env.quantum →
    s.link.serRx = encodeResponse [0x01#8] ++ rest →
    ∃ l, exec (.reqI2cWrite addr data) s = .next (s.setLink l) ∧
      BulkEnded 0x10#8 [addr] data.length data.length 0 [encodeRequest 0x10#8 (addr :: data)]
        { ok := true, status := 0#3, data := [0x01#8], valid := 1 } rest s.link l)

/-- R218, R219, R301, PROG-5: the first chunk that fails aborts the rest. After `j` whole chunks a response that fails ends
SPI_TRANSFER, I2C_READ and I2C_WRITE with its status: CRC_MISMATCH, LEN_MISMATCH, and for I2C_WRITE also NACK; the result is
the bytes of the good chunks, which for I2C_WRITE are free (log 20), and no later frame is sent. A bulk frame is one chunk,
and lk_args holds the address alone for I2C_READ and the i2c-read frame: both are the model's choice (log 7, log 32). A window
that passes ends each of them in TIMEOUT, or in LEN_MISMATCH out of DRAIN, with the same result. -/
def Obligations.BulkAborts : Prop :=
  (∀ (s : State) (j n : Nat) (good bad rest : List Byte) (st : BitVec 3), LinkIdle s → LinkSeqInv s.link →
    s.link.timeoutMs ≠ 0#16 → s.link.linkReady = true → good.length = 32 * j → good.length < n → n ≤ 65535 →
    s.link.serRx = (chunks 32 good.length good).flatMap encodeResponse ++ bad ++ rest → 7 * n + 300 ≤ s.env.quantum →
    (∀ data : List Byte, data.length = n → BadResponse 0x21#8 (min 32 (n - good.length)) st bad →
      (∃ l, exec (.spiTransfer data) s = .next (s.setLink l) ∧
        BulkEnded 0x21#8 [] n good.length 0 (((chunks 32 n data).take (j + 1)).map (encodeRequest 0x21#8))
          { ok := false, status := st, data := good, valid := good.length } rest s.link l) ∧
      (n ≤ 32 → ∃ l, exec (.reqSpiTransfer data) s = .next (s.setLink l) ∧
        BulkEnded 0x21#8 [] n 0 0 [encodeRequest 0x21#8 data]
          { ok := false, status := st, data := [], valid := 0 } rest s.link l)) ∧
    (∀ addr : Byte, BadResponse 0x11#8 (min 32 (n - good.length)) st bad →
      (∃ l, exec (.i2cRead addr (BitVec.ofNat 16 n)) s = .next (s.setLink l) ∧
        BulkEnded 0x11#8 [addr] n good.length 0
          (List.replicate j (encodeRequest 0x11#8 [addr, 32#8]) ++
            [encodeRequest 0x11#8 [addr, BitVec.ofNat 8 (min 32 (n - good.length))]])
          { ok := false, status := st, data := good, valid := good.length } rest s.link l) ∧
      (n ≤ 32 → ∃ l, exec (.reqI2cRead addr (BitVec.ofNat 8 n)) s = .next (s.setLink l) ∧
        BulkEnded 0x11#8 [addr] n 0 0 [encodeRequest 0x11#8 [addr, BitVec.ofNat 8 n]]
          { ok := false, status := st, data := [], valid := 0 } rest s.link l))) ∧
  (∀ (s : State) (j : Nat) (addr : Byte) (data bad rest : List Byte) (st : BitVec 3), LinkIdle s → LinkSeqInv s.link →
    s.link.timeoutMs ≠ 0#16 → s.link.linkReady = true → BadResponse 0x10#8 1 st bad →
    s.link.serRx = (List.replicate j (encodeResponse [0x01#8])).flatten ++ bad ++ rest →
    7 * data.length + 300 ≤ s.env.quantum →
    (31 * j < data.length → data.length ≤ 65535 → ∃ l, exec (.i2cWrite addr data) s = .next (s.setLink l) ∧
      BulkEnded 0x10#8 [addr] data.length (31 * j) (31 * j)
        (((chunks 31 data.length data).take (j + 1)).map (fun c => encodeRequest 0x10#8 (addr :: c)))
        { ok := false, status := st, data := freeBytes s.link.freeCtr (31 * j), valid := 31 * j } rest s.link l) ∧
    (j = 0 → data.length ≤ 31 → ∃ l, exec (.reqI2cWrite addr data) s = .next (s.setLink l) ∧
      BulkEnded 0x10#8 [addr] data.length 0 0 [encodeRequest 0x10#8 (addr :: data)]
        { ok := false, status := st, data := [], valid := 0 } rest s.link l)) ∧
  (∀ (s : State) (n : Nat), s.link.ctl = .exchange → 2 ≤ n →
    s.link.lkOp = 0x10#8 ∨ s.link.lkOp = 0x11#8 ∨ s.link.lkOp = 0x21#8 →
    s.link.timeoutMs.toNat ≤ (s.tNow - s.link.t0).toNat →
    (s.link.linkState = .awaitStart ∨ s.link.linkState = .awaitLen ∨ s.link.linkState = .awaitData ∨
        s.link.linkState = .awaitCrc →
      runInput (.run .link n) s = .next (s.setLink (s.link.bulkFailed 1#3))) ∧
    (s.link.linkState = .drain → runInput (.run .link n) s = .next (s.setLink (s.link.bulkFailed 2#3))))

/-- R182, R303, P3: a response whose LEN differs from the expected length makes a command of one exchange end in
LEN_MISMATCH after exactly LEN + 1 further bytes have been taken; the START stands first in ser_rx here. That a request frame
runs as one exchange and which registers it writes is the model's choice (log 7). -/
def Obligations.LengthMismatchDrains : Prop :=
  ∀ (s : State) (i : Instr) (cmd : Byte) (payload : List Byte) (n : Nat) (len : Byte) (body rest : List Byte),
    scalarRow i = some (cmd, payload, n) → LinkIdle s → LinkSeqInv s.link →
    s.link.linkReady = true ∨ cmd = 0x99#8 →
    s.link.timeoutMs ≠ 0#16 → len.toNat ≠ n → body.length = len.toNat + 1 →
    s.link.serRx = [0xAA#8, len] ++ body ++ rest → 300 ≤ s.env.quantum →
    ∃ l, exec i s = .next (s.setLink l) ∧ ScalarFailed cmd payload 2#3 rest s.link l

/-- R181, R304: a response of the right length with another checksum than `rx_len ^ fold(payload)` makes a command of one
exchange end in CRC_MISMATCH, and nothing after it is taken; the START stands first in ser_rx here. That a request frame runs
as one exchange and which registers it writes is the model's choice (log 7). -/
def Obligations.ChecksumMismatchFails : Prop :=
  ∀ (s : State) (i : Instr) (cmd : Byte) (payload : List Byte) (n : Nat) (body rest : List Byte) (crc : Byte),
    scalarRow i = some (cmd, payload, n) → LinkIdle s → LinkSeqInv s.link →
    s.link.linkReady = true ∨ cmd = 0x99#8 →
    s.link.timeoutMs ≠ 0#16 → body.length = n → crc ≠ BitVec.ofNat 8 n ^^^ fold body →
    s.link.serRx = [0xAA#8, BitVec.ofNat 8 n] ++ body ++ [crc] ++ rest → 300 ≤ s.env.quantum →
    ∃ l, exec i s = .next (s.setLink l) ∧ ScalarFailed cmd payload 3#3 rest s.link l

/-- R302, R182, P2, R47: when the window has passed, an exchange in AWAIT_START, AWAIT_LEN, AWAIT_DATA or AWAIT_CRC ends in
TIMEOUT, one in DRAIN in LEN_MISMATCH, whatever ser_rx holds, and nothing is taken from it; shown for the commands of
one exchange. With timeout_ms = 0 each of them sends its frame and ends in TIMEOUT; that a request frame does so as one
exchange and which registers it writes is the model's choice (log 7). -/
def Obligations.WindowExpires : Prop :=
  (∀ (s : State) (n : Nat), s.link.ctl = .exchange → 2 ≤ n →
    (∃ op, linkOpOf s.link.lkOp = some op ∧ op ≠ .init ∧ op.isBulk = false) →
    s.link.timeoutMs.toNat ≤ (s.tNow - s.link.t0).toNat →
    (s.link.linkState = .awaitStart ∨ s.link.linkState = .awaitLen ∨ s.link.linkState = .awaitData ∨
        s.link.linkState = .awaitCrc →
      runInput (.run .link n) s = .next (s.setLink (s.link.raise 1#3 [] 0))) ∧
    (s.link.linkState = .drain → runInput (.run .link n) s = .next (s.setLink (s.link.raise 2#3 [] 0)))) ∧
  (∀ (s : State) (i : Instr) (cmd : Byte) (payload : List Byte) (n : Nat), scalarRow i = some (cmd, payload, n) →
    LinkIdle s → s.link.linkReady = true ∨ cmd = 0x99#8 → s.link.timeoutMs = 0#16 → 5 ≤ s.env.quantum →
    ∃ l, exec i s = .next (s.setLink l) ∧ ScalarFailed cmd payload 1#3 s.link.serRx s.link l)

/-- R47: timeout_ms can be written between link operations only; the value 0 makes every exchange time out at its first
receive step. -/
def Obligations.TimeoutRegister : Prop :=
  (∀ (s : State) (v : BitVec 16),
    (s.link.ctl = .idle → runInput (.setTimeout v) s = .next (s.setLink { s.link with timeoutMs := v })) ∧
    (s.link.ctl ≠ .idle → runInput (.setTimeout v) s = .refused .timeoutWriteBusy)) ∧
  (∀ (now : Time) (l : Link), l.timeoutMs = 0#16 → l.ctl = .exchange → l.linkState = .awaitStart →
    l.micro now = .next { l with linkState := .timeout })

/-- The frame of the LINK operations, the request frames and the response frame, however they end: nothing outside the link
engine changes (so no byte of memory), timeout_ms does not change, ser_tx only grows, and only INIT changes link_ready. -/
def Obligations.LinkFrame : Prop :=
  ∀ (i : Instr) (s t : State), i.space = .link ∨ i.space = .req ∨ i.space = .rsp → exec i s = .next t →
    t = { s with link := t.link } ∧ t.link.timeoutMs = s.link.timeoutMs ∧
    (∃ sent, t.link.serTx = s.link.serTx ++ sent) ∧
    (i ≠ .init → s.link.ctl = .idle → t.link.linkReady = s.link.linkReady ∧ t.link.pingTry = s.link.pingTry)

/-- R31: the engine changes link_ready only where an attempt of INIT ends the operation. -/
def Obligations.LinkReadyOnlyByInit : Prop :=
  ∀ (now : Time) (l m : Link), l.micro now = .next m → m.linkReady ≠ l.linkReady →
    l.lkOp = 0x00#8 ∧ l.ctl = .exchange ∧ m.ctl = .idle ∧ (m.linkReady = true ↔ m.linkStatus = 0#3)

/-- R32: ser_tx is append-only: every step but a reset leaves what was sent as a prefix. -/
def Obligations.SerTxAppendOnly : Prop :=
  ∀ s t : State, s.env.inbox.head? ≠ some .reset → step s = .next t → ∃ sent, t.link.serTx = s.link.serTx ++ sent

/-- R33, R188: a response frame that arrives while no operation runs stays in ser_rx; one that arrives alone and in time
while a command of one exchange waits for it makes the command end well with its payload. -/
def Obligations.ResponseArrives : Prop :=
  (∀ (s : State) (p : List Byte), p.length ≤ 255 → s.link.ctl = .idle →
    exec (.response p) s = .next (s.setLink { s.link with serRx := s.link.serRx ++ encodeResponse p })) ∧
  (∀ (s : State) (p : List Byte) (op : LinkOp), LinkSeqInv s.link → linkOpOf s.link.lkOp = some op → op ≠ .init →
    op ≠ .ping → op.isBulk = false → s.link.ctl = .exchange → s.link.linkState = .awaitStart → s.link.serRx = [] →
    (s.tNow - s.link.t0).toNat < s.link.timeoutMs.toNat → 1 ≤ p.length → p.length ≤ 32 →
    s.link.expLen = BitVec.ofNat 8 p.length → p.length + 4 ≤ s.env.quantum →
    exec (.response p) s = .next (s.setLink (({ s.link with
      rxLen := BitVec.ofNat 8 p.length
      rxCnt := BitVec.ofNat 9 p.length
      rxBuf := p ++ s.link.rxBuf.drop p.length
      rxCrc := responseCrc (BitVec.ofNat 8 p.length) p } : Link).succeed p))) ∧
  (∀ (s : State) (p : List Byte), 255 < p.length → exec (.response p) s = .refused .illFormed)

/-! ### The flash controller -/

/-- R250 to R259: each bus command on a free bus is exactly one Device Transaction of MEM with the bytes of its format;
what it reads is its result (log 9), read-status-1 also writes fl_status, nothing else of the controller changes. -/
def Obligations.BusCommandsComplete : Prop :=
  ∀ s : State, FlashReady s → BusFree s →
    (7 ≤ s.env.quantum →
      exec .busWriteEnable s = .next ((afterTxn [0x06#8] s).setFlash (s.flash.bareEnded false [])) ∧
      exec .busChipErase s = .next ((afterTxn [0xC7#8] s).setFlash (s.flash.bareEnded false [])) ∧
      exec .busPowerDown s = .next ((afterTxn [0xB9#8] s).setFlash (s.flash.bareEnded false [])) ∧
      exec .busReleasePowerDown s = .next ((afterTxn [0xAB#8] s).setFlash (s.flash.bareEnded false []))) ∧
    (8 ≤ s.env.quantum →
      exec .busReadStatus1 s =
        .next ((afterTxn (withFill [0x05#8] 1 s) s).setFlash (s.flash.bareEnded true (txnReads [0x05#8] 1 s)))) ∧
    (10 ≤ s.env.quantum →
      exec .busJedecId s =
        .next ((afterTxn (withFill [0x9F#8] 3 s) s).setFlash (s.flash.bareEnded false (txnReads [0x9F#8] 3 s))) ∧
      ∀ a : Addr, exec (.busSectorErase4K a) s =
        .next ((afterTxn (0x20#8 :: be24 a) s).setFlash (s.flash.bareEnded false []))) ∧
    (∀ (a : Addr) (n : Len), n.toNat ≤ 2 ^ 24 → n.toNat + 10 ≤ s.env.quantum →
      exec (.busReadData a n) s = .next ((afterTxn (withFill (0x03#8 :: be24 a) n.toNat s) s).setFlash
        (s.flash.bareEnded false (txnReads (0x03#8 :: be24 a) n.toNat s)))) ∧
    (∀ (a : Addr) (d : List Byte), 1 ≤ d.length → a.toNat % 256 + d.length ≤ 256 → d.length + 10 ≤ s.env.quantum →
      exec (.busPageProgram a d) s =
        .next ((afterTxn (0x02#8 :: (be24 a ++ d)) s).setFlash (s.flash.bareEnded false [])))

/-- R260, R265, R267, R268: the four operations that do not wait: one transaction each; the signature is the three bytes,
first most significant; the busy bit is bit WIP_BIT of the status byte. -/
def Obligations.UnwaitingOperationsComplete : Prop :=
  ∀ s : State, FlashReady s → BusFree s → 10 ≤ s.env.quantum →
    (∃ m t c, txnReads [0x9F#8] 3 s = [m, t, c] ∧
      exec .identify s = .next ((afterTxn (withFill [0x9F#8] 3 s) s).setFlash
        (({ s.flash with flId := m ++ t ++ c } : Flash).ended 0x9F#8 [m, t, c] [m, t, c]))) ∧
    exec .isBusy s = .next ((afterTxn (pollBytes s) s).setFlash
      (({ s.flash with flStatus := pollAnswer s } : Flash).ended 0x05#8
        [if (pollAnswer s).getLsbD s.params.wipBit.val then 1#8 else 0#8] [pollAnswer s])) ∧
    exec .powerDown s = .next ((afterTxn [0xB9#8] s).setFlash (s.flash.ended 0xB9#8 [] [])) ∧
    exec .wakeUp s = .next ((afterTxn [0xAB#8] s).setFlash (s.flash.ended 0xAB#8 [] []))

/-- R266, P6: WAIT_FOR_READY makes exactly `k + 1` polls, where the first `k` read busy and the next reads ready. -/
def Obligations.WaitForReadyPolls : Prop :=
  ∀ (s : State) (k : Nat), FlashReady s → BusFree s → ReadyAfter k s → 7 * (k + 1) + 1 ≤ s.env.quantum →
    exec .waitForReady s = .next ((polled (k + 1) s).setFlash
      (({ s.flash with flStatus := lastPoll k s } : Flash).ended 0x00#8 [] [lastPoll k s]))

/-- R261: READ waits until the chip is ready and then reads all its bytes in one transaction. -/
def Obligations.ReadCompletes : Prop :=
  ∀ (s : State) (a : Addr) (n : Len) (k : Nat), FlashReady s → BusFree s → ReadyAfter k s →
    a.toNat + n.toNat ≤ s.params.capacity → 7 * (k + 1) + n.toNat + 10 ≤ s.env.quantum →
    exec (.read a n) s = .next ((afterTxn (withFill (0x03#8 :: be24 a) n.toNat s) (polled (k + 1) s)).setFlash
      (({ s.flash with flAddr := a, flRem := n, flStatus := lastPoll k s } : Flash).ended 0x03#8
        (txnReads (0x03#8 :: be24 a) n.toNat (polled (k + 1) s))
        (txnReads (0x03#8 :: be24 a) n.toNat (polled (k + 1) s))))

/-- R262: WRITE of at least one byte runs its loop: for each chunk a series of polls, a write-enable, a page-program of
`min(remaining, 256 - address mod 256)` bytes; address and remaining length end advanced over all of it. -/
def Obligations.WriteCompletes : Prop :=
  ∀ (s t : State) (a : Addr) (d : List Byte) (cost last : Nat) (st : Byte), FlashReady s → BusFree s → d ≠ [] →
    a.toNat + d.length ≤ s.params.capacity → WriteLoop a d cost s t last st → cost + 1 ≤ s.env.quantum →
    exec (.write a d) s = .next (t.setFlash (({ s.flash with
      flAddr := a + BitVec.ofNat 24 d.length
      flRem := 0#25
      flChunk := BitVec.ofNat 9 last
      flStatus := st
      hostData := [] } : Flash).ended 0x02#8 [] []))

/-- R262: WRITE of no byte does nothing at all on the bus. -/
def Obligations.EmptyWriteDoesNothing : Prop :=
  ∀ (s : State) (a : Addr), FlashReady s → a.toNat ≤ s.params.capacity → 1 ≤ s.env.quantum →
    exec (.write a []) s = .next (s.setFlash { s.flash with
      flPhase := .idle
      ctl := .idle
      job := .host
      flOp := 0x02#8
      flAddr := a
      flRem := 0#25
      hostData := []
      flResult := { ok := true, status := 0#3, data := [], valid := 0 }
      flashStatus := 0#3 })

/-- R263, R264: the erases wait until the chip is ready, send write-enable, send the erase command, and return. -/
def Obligations.ErasesComplete : Prop :=
  ∀ (s : State) (k : Nat), FlashReady s → BusFree s → ReadyAfter k s → 7 * (k + 1) + 16 ≤ s.env.quantum →
    (∀ a : Addr, a.toNat < s.params.capacity →
      exec (.eraseSector a) s = .next ((afterTxn (0x20#8 :: be24 a) (afterTxn [0x06#8] (polled (k + 1) s))).setFlash
        (({ s.flash with flAddr := a, flStatus := lastPoll k s } : Flash).ended 0x20#8 [] []))) ∧
    exec .eraseChip s = .next ((afterTxn [0xC7#8] (afterTxn [0x06#8] (polled (k + 1) s))).setFlash
      (({ s.flash with flStatus := lastPoll k s } : Flash).ended 0xC7#8 [] []))

/-- The frame of the FLASH operations and the bus commands, however far they get: the link engine, the parameters, the time,
the inputs to come and DISP's side of the arbiter but the wait bit are untouched. -/
def Obligations.FlashFrame : Prop :=
  ∀ (i : Instr) (s t : State), i.space = .flash ∨ i.space = .bus → exec i s = .next t →
    LinkSideKept s t ∧ t.arb.port.disp = s.arb.port.disp ∧ t.arb.waiting = s.arb.waiting ∧
    t.arb.cs.disp = s.arb.cs.disp ∧ t.arb.lastIn.disp = s.arb.lastIn.disp

/-- While DISP holds the permit no flash operation and no bus command puts anything on the bus or reaches the chip (R149,
R250, R309). -/
def Obligations.PermitExcludesFlash : Prop :=
  ∀ (i : Instr) (s t : State), i.space = .flash ∨ i.space = .bus → ArbInv s → s.arb.permitOwner = some .disp →
    exec i s = .next t →
    t.arb.busTrace = s.arb.busTrace ∧ t.chip = s.chip ∧ t.arb.permitOwner = some .disp ∧ t.arb.cs = s.arb.cs ∧
    t.arb.busCfg = s.arb.busCfg

/-- R75, R260, R261, R265 to R268: the flash operations and bus commands that do not program or erase leave every byte of
the array as it was, however far they get. -/
def Obligations.ReadersKeepMemory : Prop :=
  ∀ (i : Instr) (s t : State), ArbInv s → exec i s = .next t →
    (i = .waitForReady ∨ i = .isBusy ∨ i = .identify ∨ i = .wakeUp ∨ i = .powerDown ∨ (∃ a n, i = .read a n) ∨
      i = .busWriteEnable ∨ i = .busReadStatus1 ∨ (∃ a n, i = .busReadData a n) ∨ i = .busJedecId ∨ i = .busPowerDown ∨
      i = .busReleasePowerDown) → MemKept s t

/-- R61, R82, R262, R263: what programs or erases changes bytes of the array at most where its operands say: WRITE and
page-program in `address .. address + length - 1`, the sector erases in the sector of the address, however far they
get. -/
def Obligations.StoresStayInRange : Prop :=
  ∀ (s t : State), ArbInv s →
    (∀ (a : Addr) (d : List Byte), exec (.write a d) s = .next t → MemKeptOutside a.toNat d.length s t) ∧
    (∀ (a : Addr) (d : List Byte), exec (.busPageProgram a d) s = .next t → MemKeptOutside a.toNat d.length s t) ∧
    (∀ a : Addr, exec (.eraseSector a) s = .next t → MemKeptOutside (a.toNat / 4096 * 4096) 4096 s t) ∧
    (∀ a : Addr, exec (.busSectorErase4K a) s = .next t → MemKeptOutside (a.toNat / 4096 * 4096) 4096 s t)

/-- R269: the properties of the page split. -/
def Obligations.PageSplit : Prop :=
  ∀ a n : Nat, 1 ≤ n →
    (n ≤ 256 - a % 256 → pageSplit n a n = [(a, n)]) ∧
    (256 - a % 256 < n → pageSplit n a n =
      (a, 256 - a % 256) ::
        ((List.range ((n - (256 - a % 256)) / 256)).map (fun j => (a + (256 - a % 256) + 256 * j, 256)) ++
          if (n - (256 - a % 256)) % 256 ≠ 0 then
            [(a + (256 - a % 256) + 256 * ((n - (256 - a % 256)) / 256), (n - (256 - a % 256)) % 256)]
          else [])) ∧
    (pageSplit n a n).length = (a % 256 + n + 255) / 256 ∧
    (∀ c ∈ (pageSplit n a n).tail, c.1 % 256 = 0) ∧
    (∀ c ∈ pageSplit n a n, c.1 / 256 = (c.1 + c.2 - 1) / 256) ∧
    (∀ (k : Nat) (x y : Nat × Nat), (pageSplit n a n)[k]? = some x → (pageSplit n a n)[k + 1]? = some y →
      y.1 = x.1 + x.2) ∧
    ((pageSplit n a n).map Prod.snd).sum = n ∧
    (∀ c ∈ pageSplit n a n, 1 ≤ c.2 ∧ c.2 ≤ 256)

/-- R272: the transition table of fl_phase: what accepting an operation does, what the end of a transaction does in each
phase, and F_DONE to F_IDLE. -/
def Obligations.FlashTransitions : Prop :=
  (∀ (p : Params) (f : Flash) (code : Byte) (op : FlashOp) (a : Addr) (n : Len) (d : List Byte),
    flashOpOf code = some op → rangeRefused p op a n d = false →
    ∃ g, Flash.accept p (.host code a n d) f = .next g ∧ g.flOp = code ∧
      (op = .read ∨ (op = .write ∧ d ≠ []) ∨ op = .eraseSector ∨ op = .eraseChip ∨ op = .waitForReady →
        g.flPhase = .wait ∧ g.txnOut = [0x05#8] ∧ g.txnIn = 1) ∧
      (op = .write ∧ d = [] → g.flPhase = .done) ∧
      (op = .identify ∨ op = .isBusy ∨ op = .powerDown ∨ op = .wakeUp → g.flPhase = .cmd) ∧
      (op = .read ∨ op = .write ∨ op = .eraseSector → g.flAddr = a) ∧
      (op = .read → g.flRem = n) ∧ (op = .write → g.flRem = BitVec.ofNat 25 d.length ∧ g.hostData = d)) ∧
  (∀ (p : Params) (f : Flash) (op : FlashOp), f.job = .host → flashOpOf f.flOp = some op →
    (f.flPhase = .wait → (f.txnGot.headD 0#8).getLsbD p.wipBit.val = true →
      ∃ g, f.txnDone p = .next g ∧ g.flPhase = .wait ∧ g.flStatus = f.txnGot.headD 0#8 ∧ g.txnOut = [0x05#8] ∧
        g.txnIn = 1) ∧
    (f.flPhase = .wait → (f.txnGot.headD 0#8).getLsbD p.wipBit.val = false →
      (op = .waitForReady → ∃ g, f.txnDone p = .next g ∧ g.flPhase = .done ∧ g.flStatus = f.txnGot.headD 0#8) ∧
      (op = .read → ∃ g, f.txnDone p = .next g ∧ g.flPhase = .cmd ∧ g.flStatus = f.txnGot.headD 0#8 ∧
        g.txnOut = 0x03#8 :: be24 f.flAddr ∧ g.txnIn = f.flRem.toNat) ∧
      (op = .write ∨ op = .eraseSector ∨ op = .eraseChip →
        ∃ g, f.txnDone p = .next g ∧ g.flPhase = .wren ∧ g.flStatus = f.txnGot.headD 0#8 ∧ g.txnOut = [0x06#8] ∧
          g.txnIn = 0)) ∧
    (f.flPhase = .wren →
      (op = .write → ∃ g, f.txnDone p = .next g ∧ g.flPhase = .cmd ∧
        g.flChunk = BitVec.ofNat 9 (min f.flRem.toNat (256 - f.flAddr.toNat % 256)) ∧
        g.txnOut = 0x02#8 :: (be24 f.flAddr ++ f.hostData.take (min f.flRem.toNat (256 - f.flAddr.toNat % 256)))) ∧
      (op = .eraseSector → ∃ g, f.txnDone p = .next g ∧ g.flPhase = .cmd ∧ g.txnOut = 0x20#8 :: be24 f.flAddr) ∧
      (op = .eraseChip → ∃ g, f.txnDone p = .next g ∧ g.flPhase = .cmd ∧ g.txnOut = [0xC7#8])) ∧
    (f.flPhase = .cmd →
      (op = .write → ∃ g, f.txnDone p = .next g ∧ g.flAddr = f.flAddr + f.flChunk.setWidth 24 ∧
        g.flRem = f.flRem - f.flChunk.setWidth 25 ∧
        (0 < g.flRem.toNat → g.flPhase = .wait) ∧ (g.flRem.toNat = 0 → g.flPhase = .done)) ∧
      (op ≠ .write → op ≠ .waitForReady → ∃ g, f.txnDone p = .next g ∧ g.flPhase = .done ∧ g.flResult.ok = true ∧
        g.flResult.status = 0#3))) ∧
  (∀ s : State, s.flash.ctl = .done →
    flashMicro s = .next (s.setFlash { s.flash with flPhase := .idle, ctl := .idle }))

/-! ### The reference chip -/

/-- R82: what a whole command does to the reference chip, whatever came before, and that one whose condition fails is
ignored: the chip is then as it was. General knowledge of the spec, not of the source (G3; log 15). -/
def Obligations.ReferenceChipCommands : Prop :=
  ∀ (p : Params) (c : Chip), c.kind = .reference →
    (c.wip = false → c.pd = false → (chipAfter p [0x06#8] c).wel = true ∧ (chipAfter p [0x06#8] c).mem = c.mem ∧
      (chipAfter p [0x06#8] c).wip = false) ∧
    (∀ rest, c.wip = true ∨ c.pd = true → chipAfter p (0x06#8 :: rest) c = { c with cmd := [] }) ∧
    (∀ (a : Addr) (d : List Byte), d ≠ [] → a.toNat < p.capacity → c.wip = false → c.pd = false → c.wel = true →
      (chipAfter p (0x02#8 :: (be24 a ++ d)) c).mem = Memory.program c.mem a.toNat 0 d ∧
      (chipAfter p (0x02#8 :: (be24 a ++ d)) c).wip = true ∧ (chipAfter p (0x02#8 :: (be24 a ++ d)) c).wel = false) ∧
    (∀ a : Addr, a.toNat < p.capacity → c.wip = false → c.pd = false → c.wel = true →
      (∀ x, Memory.read (chipAfter p (0x20#8 :: be24 a) c).mem x =
        if x / 4096 = a.toNat / 4096 then 0xFF#8 else Memory.read c.mem x) ∧
      (chipAfter p (0x20#8 :: be24 a) c).wip = true ∧ (chipAfter p (0x20#8 :: be24 a) c).wel = false) ∧
    (c.wip = false → c.pd = false → c.wel = true →
      (∀ x, Memory.read (chipAfter p [0xC7#8] c).mem x = 0xFF#8) ∧ (chipAfter p [0xC7#8] c).wip = true ∧
      (chipAfter p [0xC7#8] c).wel = false) ∧
    (∀ rest, c.wip = true ∨ c.pd = true ∨ c.wel = false →
      chipAfter p (0x02#8 :: rest) c = { c with cmd := [] } ∧ chipAfter p (0x20#8 :: rest) c = { c with cmd := [] } ∧
      chipAfter p (0xC7#8 :: rest) c = { c with cmd := [] }) ∧
    (c.wip = false → (chipAfter p [0xB9#8] c).pd = true ∧ (chipAfter p [0xB9#8] c).mem = c.mem) ∧
    (∀ rest, c.wip = true → chipAfter p (0xB9#8 :: rest) c = { c with cmd := [] }) ∧
    ((chipAfter p [0xAB#8] c).pd = false ∧ (chipAfter p [0xAB#8] c).mem = c.mem) ∧
    (∀ (op o : Byte) (rest : List Byte) (e : Env),
      (op = 0x06#8 ∨ op = 0x03#8) ∧ (c.wip = true ∨ c.pd = true) ∨
        (op = 0x02#8 ∨ op = 0x20#8 ∨ op = 0xC7#8) ∧ (c.wip = true ∨ c.pd = true ∨ c.wel = false) ∨
        op = 0x9F#8 ∧ c.pd = true ∨ op = 0xB9#8 ∧ c.wip = true →
      ∀ b ∈ (answers p (op :: o :: rest) (chipSelect c) e).tail, b = 0xFF#8)

/-- R73, R82, R261: READ on an idle reference chip returns the bytes of the array in address order. -/
def Obligations.ReadReturnsMemory : Prop :=
  ∀ (s : State) (a : Addr) (n : Len), FlashReady s → BusFree s → s.chip.kind = .reference → s.params.wipBit = 0 →
    s.chip.wip = false → s.chip.pd = false → a.toNat + n.toNat ≤ s.params.capacity →
    n.toNat + 17 ≤ s.env.quantum →
    ∃ t, exec (.read a n) s = .next t ∧ t.flash.ctl = .idle ∧ MemKept s t ∧
      t.flash.flResult = {
        ok := true
        status := 0#3
        data := (List.range n.toNat).map (fun j => Memory.read s.chip.mem (a.toNat + j))
        valid := n.toNat }

/-- R262, R269, P4: WRITE on an idle reference chip that stays busy for `k` polls after each program: the bytes sent are
those of one poll series, one write-enable and one page-program for each chunk of the page split, and in the array
exactly the bytes of the operand range change, each to the bitwise and of what it was and what was written. -/
def Obligations.WriteOnReferenceChip : Prop :=
  ∀ (s : State) (a : Addr) (d : List Byte) (k : Nat), FlashReady s → BusFree s → MemInv s → d ≠ [] →
    s.chip.kind = .reference → s.params.wipBit = 0 → s.chip.wip = false → s.chip.pd = false → s.chip.plan = some k →
    a.toNat + d.length ≤ s.params.capacity → (7 * k + 24) * (d.length + 1) ≤ s.env.quantum →
    ∃ t, exec (.write a d) s = .next t ∧ t.flash.ctl = .idle ∧ t.flash.flAddr = a + BitVec.ofNat 24 d.length ∧
      t.flash.flRem = 0#25 ∧ t.arb.permitOwner = none ∧ t.arb.txnOpen = none ∧ t.chip.wip = true ∧
      (t.arb.busTrace.drop s.arb.busTrace.length).map BusEvent.outgoing =
        ((pageSplit d.length a.toNat d.length).zipIdx).flatMap (fun c =>
          chunkTxns s.params.fillByte (if c.2 = 0 then 1 else k + 1) c.1.1
            ((d.drop (c.1.1 - a.toNat)).take c.1.2)) ∧
      (∀ x, Memory.read t.chip.mem x =
        if a.toNat ≤ x ∧ x < a.toNat + d.length then Memory.read s.chip.mem x &&& d.getD (x - a.toNat) 0#8
        else Memory.read s.chip.mem x)
end

