-- ==== Sys2Proof/Laws/State.lean ====
section
/-! SUPPORT. The small lemmas of the state record: one per field and update, and those of the per-client pairs. -/

namespace Sys2Proof.Machine

@[simp] theorem State.setArb_params (s : State) (x : Arbiter) : (s.setArb x).params = s.params := rfl
@[simp] theorem State.setArb_arb (s : State) (x : Arbiter) : (s.setArb x).arb = x := rfl
@[simp] theorem State.setArb_link (s : State) (x : Arbiter) : (s.setArb x).link = s.link := rfl
@[simp] theorem State.setArb_flash (s : State) (x : Arbiter) : (s.setArb x).flash = s.flash := rfl
@[simp] theorem State.setArb_tNow (s : State) (x : Arbiter) : (s.setArb x).tNow = s.tNow := rfl
@[simp] theorem State.setArb_chip (s : State) (x : Arbiter) : (s.setArb x).chip = s.chip := rfl
@[simp] theorem State.setArb_env (s : State) (x : Arbiter) : (s.setArb x).env = s.env := rfl
@[simp] theorem State.setArb_setArb (s : State) (x y : Arbiter) : (s.setArb x).setArb y = s.setArb y := rfl
@[simp] theorem State.setArb_self (s : State) : s.setArb s.arb = s := rfl

@[simp] theorem State.setLink_params (s : State) (x : Link) : (s.setLink x).params = s.params := rfl
@[simp] theorem State.setLink_arb (s : State) (x : Link) : (s.setLink x).arb = s.arb := rfl
@[simp] theorem State.setLink_link (s : State) (x : Link) : (s.setLink x).link = x := rfl
@[simp] theorem State.setLink_flash (s : State) (x : Link) : (s.setLink x).flash = s.flash := rfl
@[simp] theorem State.setLink_tNow (s : State) (x : Link) : (s.setLink x).tNow = s.tNow := rfl
@[simp] theorem State.setLink_chip (s : State) (x : Link) : (s.setLink x).chip = s.chip := rfl
@[simp] theorem State.setLink_env (s : State) (x : Link) : (s.setLink x).env = s.env := rfl
@[simp] theorem State.setLink_setLink (s : State) (x y : Link) : (s.setLink x).setLink y = s.setLink y := rfl
@[simp] theorem State.setLink_self (s : State) : s.setLink s.link = s := rfl

@[simp] theorem State.setFlash_params (s : State) (x : Flash) : (s.setFlash x).params = s.params := rfl
@[simp] theorem State.setFlash_arb (s : State) (x : Flash) : (s.setFlash x).arb = s.arb := rfl
@[simp] theorem State.setFlash_link (s : State) (x : Flash) : (s.setFlash x).link = s.link := rfl
@[simp] theorem State.setFlash_flash (s : State) (x : Flash) : (s.setFlash x).flash = x := rfl
@[simp] theorem State.setFlash_tNow (s : State) (x : Flash) : (s.setFlash x).tNow = s.tNow := rfl
@[simp] theorem State.setFlash_chip (s : State) (x : Flash) : (s.setFlash x).chip = s.chip := rfl
@[simp] theorem State.setFlash_env (s : State) (x : Flash) : (s.setFlash x).env = s.env := rfl
@[simp] theorem State.setFlash_setFlash (s : State) (x y : Flash) : (s.setFlash x).setFlash y = s.setFlash y := rfl
@[simp] theorem State.setFlash_self (s : State) : s.setFlash s.flash = s := rfl

@[simp] theorem State.setTime_params (s : State) (x : Time) : (s.setTime x).params = s.params := rfl
@[simp] theorem State.setTime_arb (s : State) (x : Time) : (s.setTime x).arb = s.arb := rfl
@[simp] theorem State.setTime_link (s : State) (x : Time) : (s.setTime x).link = s.link := rfl
@[simp] theorem State.setTime_flash (s : State) (x : Time) : (s.setTime x).flash = s.flash := rfl
@[simp] theorem State.setTime_tNow (s : State) (x : Time) : (s.setTime x).tNow = x := rfl
@[simp] theorem State.setTime_chip (s : State) (x : Time) : (s.setTime x).chip = s.chip := rfl
@[simp] theorem State.setTime_env (s : State) (x : Time) : (s.setTime x).env = s.env := rfl
@[simp] theorem State.setTime_setTime (s : State) (x y : Time) : (s.setTime x).setTime y = s.setTime y := rfl
@[simp] theorem State.setTime_self (s : State) : s.setTime s.tNow = s := rfl

@[simp] theorem State.setChip_params (s : State) (x : Chip) : (s.setChip x).params = s.params := rfl
@[simp] theorem State.setChip_arb (s : State) (x : Chip) : (s.setChip x).arb = s.arb := rfl
@[simp] theorem State.setChip_link (s : State) (x : Chip) : (s.setChip x).link = s.link := rfl
@[simp] theorem State.setChip_flash (s : State) (x : Chip) : (s.setChip x).flash = s.flash := rfl
@[simp] theorem State.setChip_tNow (s : State) (x : Chip) : (s.setChip x).tNow = s.tNow := rfl
@[simp] theorem State.setChip_chip (s : State) (x : Chip) : (s.setChip x).chip = x := rfl
@[simp] theorem State.setChip_env (s : State) (x : Chip) : (s.setChip x).env = s.env := rfl
@[simp] theorem State.setChip_setChip (s : State) (x y : Chip) : (s.setChip x).setChip y = s.setChip y := rfl
@[simp] theorem State.setChip_self (s : State) : s.setChip s.chip = s := rfl

@[simp] theorem State.setEnv_params (s : State) (x : Env) : (s.setEnv x).params = s.params := rfl
@[simp] theorem State.setEnv_arb (s : State) (x : Env) : (s.setEnv x).arb = s.arb := rfl
@[simp] theorem State.setEnv_link (s : State) (x : Env) : (s.setEnv x).link = s.link := rfl
@[simp] theorem State.setEnv_flash (s : State) (x : Env) : (s.setEnv x).flash = s.flash := rfl
@[simp] theorem State.setEnv_tNow (s : State) (x : Env) : (s.setEnv x).tNow = s.tNow := rfl
@[simp] theorem State.setEnv_chip (s : State) (x : Env) : (s.setEnv x).chip = s.chip := rfl
@[simp] theorem State.setEnv_env (s : State) (x : Env) : (s.setEnv x).env = x := rfl
@[simp] theorem State.setEnv_setEnv (s : State) (x y : Env) : (s.setEnv x).setEnv y = s.setEnv y := rfl
@[simp] theorem State.setEnv_self (s : State) : s.setEnv s.env = s := rfl

@[simp] theorem PerClient.get_set_same {α : Type} (p : PerClient α) (c : Client) (v : α) : (p.set c v).get c = v := by
  cases c <;> rfl

@[simp] theorem PerClient.get_set_other {α : Type} (p : PerClient α) (c : Client) (v : α) :
    (p.set c v).get c.other = p.get c.other := by
  cases c <;> rfl

theorem PerClient.get_set {α : Type} (p : PerClient α) (c d : Client) (v : α) :
    (p.set c v).get d = if d = c then v else p.get d := by
  cases c <;> cases d <;> rfl

@[simp] theorem PerClient.get_disp {α : Type} (p : PerClient α) : p.get .disp = p.disp := rfl
@[simp] theorem PerClient.get_mem {α : Type} (p : PerClient α) : p.get .mem = p.mem := rfl
@[simp] theorem PerClient.set_disp_disp {α : Type} (p : PerClient α) (v : α) : (p.set .disp v).disp = v := rfl
@[simp] theorem PerClient.set_disp_mem {α : Type} (p : PerClient α) (v : α) : (p.set .disp v).mem = p.mem := rfl
@[simp] theorem PerClient.set_mem_disp {α : Type} (p : PerClient α) (v : α) : (p.set .mem v).disp = p.disp := rfl
@[simp] theorem PerClient.set_mem_mem {α : Type} (p : PerClient α) (v : α) : (p.set .mem v).mem = v := rfl

@[simp] theorem PerClient.set_set {α : Type} (p : PerClient α) (c : Client) (v w : α) :
    (p.set c v).set c w = p.set c w := by
  cases c <;> rfl

@[simp] theorem PerClient.set_get_self {α : Type} (p : PerClient α) (c : Client) : p.set c (p.get c) = p := by
  cases c <;> rfl

@[simp] theorem Client.other_other (c : Client) : c.other.other = c := by cases c <;> rfl

theorem Client.other_ne (c : Client) : c.other ≠ c := by cases c <;> decide

theorem Client.eq_or_other (c d : Client) : d = c ∨ d = c.other := by cases c <;> cases d <;> decide

end Sys2Proof.Machine
end

