-- ==== Sys2Proof/Laws/Ops.lean ====
section
/-! SUPPORT. Laws of sequencing and of the chip's array: read after write, erase and program, and that every operation
keeps the canonical form. -/

namespace Sys2Proof.Machine

/-! ### Sequencing -/

@[simp] theorem andThen_next {σ τ : Type} (s : σ) (f : σ → Answer τ) : andThen (.next s) f = f s := rfl
@[simp] theorem andThen_fault {σ τ : Type} (e : Fault) (f : σ → Answer τ) : andThen (.fault e) f = .fault e := rfl
@[simp] theorem andThen_refused {σ τ : Type} (r : Refusal) (f : σ → Answer τ) : andThen (.refused r) f = .refused r := rfl

/-- A sequence answers a next state exactly if both parts do. -/
theorem andThen_eq_next {σ τ : Type} {x : Answer σ} {f : σ → Answer τ} {t : τ} :
    andThen x f = .next t ↔ ∃ s, x = .next s ∧ f s = .next t := by
  cases x <;> simp

/-- A sequence faults exactly if a part does. -/
theorem andThen_eq_fault {σ τ : Type} {x : Answer σ} {f : σ → Answer τ} {e : Fault} :
    andThen x f = .fault e ↔ x = .fault e ∨ ∃ s, x = .next s ∧ f s = .fault e := by
  cases x <;> simp

/-- A sequence is refused exactly if a part is. -/
theorem andThen_eq_refused {σ τ : Type} {x : Answer σ} {f : σ → Answer τ} {e : Refusal} :
    andThen x f = .refused e ↔ x = .refused e ∨ ∃ s, x = .next s ∧ f s = .refused e := by
  cases x <;> simp

/-! ### The chip's array -/

theorem Memory.read_write_same (m : List Host.Cell) (a : Nat) (v : Byte) (h : Memory.wfFrom lo m = true) :
    Memory.read (Memory.write m a v) a = v := by
  induction m generalizing lo with
  | nil => by_cases hv : v = Memory.blank <;> simp [Memory.write, Memory.read, hv]
  | cons c r ih =>
    obtain ⟨k, w⟩ := c
    simp only [Memory.wfFrom, Bool.and_eq_true, decide_eq_true_eq] at h
    have fresh : ∀ (q : List Host.Cell) (b : Nat), Memory.wfFrom b q = true → a < b → Memory.read q a = Memory.blank := by
      intro q
      induction q with
      | nil => intros; rfl
      | cons d q ihq =>
        intro b hq hab
        simp only [Memory.wfFrom, Bool.and_eq_true, decide_eq_true_eq] at hq
        have : d.1 ≠ a := by omega
        simp only [Memory.read, this, if_false]
        exact ihq _ hq.2 (by omega)
    by_cases h1 : a < k
    · have hk : k ≠ a := by omega
      by_cases hv : v = Memory.blank
      · simp only [Memory.write, h1, hv, if_true, Memory.read, hk, if_false]
        exact fresh _ _ h.2 (by omega)
      · simp [Memory.write, h1, hv, Memory.read]
    · by_cases h2 : a = k
      · by_cases hv : v = Memory.blank
        · simp only [Memory.write, h2, hv, if_true, if_false, lt_irrefl]
          rw [← h2]
          exact fresh _ _ h.2 (by omega)
        · simp [Memory.write, h2, hv, Memory.read]
      · have hk : k ≠ a := fun e => h2 e.symm
        simp only [Memory.write, h1, h2, if_false, Memory.read, hk]
        exact ih h.2

theorem Memory.read_write_other (m : List Host.Cell) (a b : Nat) (v : Byte) (h : b ≠ a) :
    Memory.read (Memory.write m a v) b = Memory.read m b := by
  induction m with
  | nil => by_cases hv : v = Memory.blank <;> simp [Memory.write, Memory.read, hv, h.symm]
  | cons c r ih =>
    obtain ⟨k, w⟩ := c
    by_cases h1 : a < k
    · by_cases hv : v = Memory.blank <;> simp [Memory.write, h1, hv, Memory.read, h.symm]
    · by_cases h2 : a = k
      · subst h2
        by_cases hv : v = Memory.blank <;> simp [Memory.write, hv, Memory.read, h.symm]
      · simp only [Memory.write, h1, h2, if_false, Memory.read, ih]

theorem Memory.wfFrom_mono {lo hi : Nat} (m : List Host.Cell) (hlo : lo ≤ hi) (h : Memory.wfFrom hi m = true) :
    Memory.wfFrom lo m = true := by
  cases m with
  | nil => rfl
  | cons c r =>
    simp only [Memory.wfFrom, Bool.and_eq_true, decide_eq_true_eq] at h ⊢
    exact ⟨⟨by omega, h.1.2⟩, h.2⟩

theorem Memory.wfFrom_write {lo : Nat} (m : List Host.Cell) (a : Nat) (v : Byte) (ha : lo ≤ a)
    (h : Memory.wfFrom lo m = true) : Memory.wfFrom lo (Memory.write m a v) = true := by
  induction m generalizing lo with
  | nil => by_cases hv : v = Memory.blank <;> simp [Memory.write, Memory.wfFrom, hv, ha]
  | cons c r ih =>
    obtain ⟨k, w⟩ := c
    have h' := h
    simp only [Memory.wfFrom, Bool.and_eq_true, decide_eq_true_eq] at h
    by_cases h1 : a < k
    · by_cases hv : v = Memory.blank
      · simpa [Memory.write, h1, hv] using h'
      · simp only [Memory.write, h1, hv, if_true, if_false, Memory.wfFrom, Bool.and_eq_true, decide_eq_true_eq]
        exact ⟨⟨ha, by simpa using hv⟩, ⟨by omega, h.1.2⟩, h.2⟩
    · by_cases h2 : a = k
      · subst h2
        by_cases hv : v = Memory.blank
        · simp only [Memory.write, hv, lt_irrefl, if_true, if_false]
          exact Memory.wfFrom_mono r (by omega) h.2
        · simp only [Memory.write, hv, lt_irrefl, if_true, if_false, Memory.wfFrom, Bool.and_eq_true,
            decide_eq_true_eq]
          exact ⟨⟨ha, by simpa using hv⟩, h.2⟩
      · simp only [Memory.write, h1, h2, if_false, Memory.wfFrom, Bool.and_eq_true, decide_eq_true_eq]
        exact ⟨h.1, ih (by omega) h.2⟩

theorem Memory.wf_write (m : List Host.Cell) (a : Nat) (v : Byte) (h : Memory.wf m = true) :
    Memory.wf (Memory.write m a v) = true := Memory.wfFrom_write m a v (Nat.zero_le a) h

theorem Memory.mem_write {m : List Host.Cell} {a : Nat} {v : Byte} {c : Host.Cell} (h : c ∈ Memory.write m a v) :
    c.1 = a ∨ c ∈ m := by
  induction m with
  | nil =>
    by_cases hv : v = Memory.blank <;> simp [Memory.write, hv] at h
    simp [h]
  | cons d r ih =>
    obtain ⟨k, w⟩ := d
    by_cases h1 : a < k
    · by_cases hv : v = Memory.blank <;> simp [Memory.write, h1, hv] at h
      · simp [h]
      · rcases h with h | h | h <;> simp [h]
    · by_cases h2 : a = k
      · by_cases hv : v = Memory.blank <;> simp [Memory.write, h2, hv] at h
        · exact .inr (List.mem_cons_of_mem _ h)
        · rcases h with h | h
          · simp [h, h2]
          · exact .inr (List.mem_cons_of_mem _ h)
      · simp only [Memory.write, h1, h2, if_false, List.mem_cons] at h
        rcases h with h | h
        · simp [h]
        · rcases ih h with h | h
          · exact .inl h
          · exact .inr (List.mem_cons_of_mem _ h)

theorem Memory.wfFrom_filter {lo : Nat} (m : List Host.Cell) (f : Host.Cell → Bool) (h : Memory.wfFrom lo m = true) :
    Memory.wfFrom lo (m.filter f) = true := by
  induction m generalizing lo with
  | nil => rfl
  | cons c r ih =>
    simp only [Memory.wfFrom, Bool.and_eq_true, decide_eq_true_eq] at h
    by_cases hc : f c
    · simp only [List.filter_cons_of_pos hc, Memory.wfFrom, Bool.and_eq_true, decide_eq_true_eq]
      exact ⟨h.1, ih h.2⟩
    · simp only [List.filter_cons_of_neg hc]
      exact ih (Memory.wfFrom_mono r (by omega) h.2)

theorem Memory.wf_erase (m : List Host.Cell) (lo n : Nat) (h : Memory.wf m = true) :
    Memory.wf (Memory.erase m lo n) = true := Memory.wfFrom_filter m _ h

theorem Memory.read_erase (m : List Host.Cell) (lo n a : Nat) :
    Memory.read (Memory.erase m lo n) a = if lo ≤ a ∧ a < lo + n then Memory.blank else Memory.read m a := by
  induction m with
  | nil => simp [Memory.erase, Memory.read]
  | cons c r ih =>
    obtain ⟨k, w⟩ := c
    unfold Memory.erase at ih ⊢
    by_cases hc : lo ≤ k ∧ k < lo + n
    · rw [List.filter_cons_of_neg (by simp [hc]), ih]
      by_cases hk : k = a
      · subst hk; simp [hc]
      · simp [Memory.read, hk]
    · rw [List.filter_cons_of_pos (by simp only [Bool.not_eq_true', Bool.and_eq_false_iff, decide_eq_false_iff_not]; omega)]
      by_cases hk : k = a
      · subst hk; simp [Memory.read, hc]
      · simp only [Memory.read, hk, if_false, ih]

theorem Memory.wf_program (m : List Host.Cell) (a k : Nat) (d : List Byte) (h : Memory.wf m = true) :
    Memory.wf (Memory.program m a k d) = true := by
  induction d generalizing m k with
  | nil => exact h
  | cons b r ih => exact ih _ _ (Memory.wf_write m _ _ h)

theorem Memory.mem_program {m : List Host.Cell} {a k : Nat} {d : List Byte} {c : Host.Cell}
    (h : c ∈ Memory.program m a k d) : (∃ j, c.1 = programAddr a j) ∨ c ∈ m := by
  induction d generalizing m k with
  | nil => exact .inr h
  | cons b r ih =>
    rcases ih h with h | h
    · exact .inl h
    · rcases Memory.mem_write h with h | h
      · exact .inl ⟨k, h⟩
      · exact .inr h

theorem Memory.read_program_outside (m : List Host.Cell) (a k : Nat) (d : List Byte) (b : Nat)
    (h : ∀ j, k ≤ j → j < k + d.length → b ≠ programAddr a j) :
    Memory.read (Memory.program m a k d) b = Memory.read m b := by
  induction d generalizing m k with
  | nil => rfl
  | cons x r ih =>
    simp only [List.length_cons] at h
    rw [Memory.program, ih _ _ (fun j h1 h2 => h j (by omega) (by omega)),
      Memory.read_write_other _ _ _ _ (h k (by omega) (by omega))]

/-- A page-program that stays inside its page goes to consecutive addresses. -/
theorem programAddr_inside {a k : Nat} (h : a % 256 + k < 256) : programAddr a k = a + k := by
  unfold programAddr; omega

end Sys2Proof.Machine
end

