-- ==== Sys2Proof/Laws/Step.lean ====
section
/-! SUPPORT. What a step can do, said once: an operation is a request presented at a port, a run repeats micro-steps, and
whatever every micro-step and every input keeps, every step keeps. -/

namespace Sys2Proof.Machine

/-! ### Runs -/

theorem liftFlash_eq_next {s t : State} {x : Answer Flash} :
    liftFlash s x = .next t ↔ ∃ f, x = .next f ∧ t = s.setFlash f := by
  unfold liftFlash
  rw [andThen_eq_next]
  constructor
  · rintro ⟨l, h, e⟩; cases e; exact ⟨l, h, rfl⟩
  · rintro ⟨l, h, rfl⟩; exact ⟨l, h, rfl⟩

/-- What every micro-step of a busy port keeps, a run of the port keeps. -/
theorem arbRun_keeps {P : State → Prop} {c : Client}
    (h : ∀ s t, P s → s.arb.port.get c ≠ .idle → arbMicro c s = .next t → P t) :
    ∀ (n : Nat) (s t : State), P s → arbRun c n s = .next t → P t
  | 0, s, t, hs, e => by cases e; exact hs
  | n + 1, s, t, hs, e => by
    rw [arbRun] at e
    split at e
    · cases e; exact hs
    · rename_i hb
      obtain ⟨u, hu, ht⟩ := andThen_eq_next.1 e
      exact arbRun_keeps h n u t (h s u hs (fun hi => hb (by simp [hi])) hu) ht

/-- What every micro-step of the busy controller keeps, a run of the controller keeps. -/
theorem flashRun_keeps {P : State → Prop}
    (h : ∀ s t, P s → s.flash.ctl ≠ .idle → flashBlocked s = false → flashMicro s = .next t → P t) :
    ∀ (n : Nat) (s t : State), P s → flashRun n s = .next t → P t
  | 0, s, t, hs, e => by cases e; exact hs
  | n + 1, s, t, hs, e => by
    rw [flashRun] at e
    split at e
    · cases e; exact hs
    · rename_i hb
      obtain ⟨u, hu, ht⟩ := andThen_eq_next.1 e
      have hb' : s.flash.ctl ≠ .idle ∧ flashBlocked s = false := by simpa [not_or] using hb
      exact flashRun_keeps h n u t (h s u hs hb'.1 hb'.2 hu) ht

/-- What every micro-step of the busy link engine keeps, a run of the engine keeps. -/
theorem Link.run_keeps {P : Link → Prop} {now : Time} (h : ∀ l m, P l → l.ctl ≠ .idle → l.micro now = .next m → P m) :
    ∀ (n : Nat) (l m : Link), P l → Link.run now n l = .next m → P m
  | 0, l, m, hl, e => by cases e; exact hl
  | n + 1, l, m, hl, e => by
    rw [Link.run] at e
    split at e
    · cases e; exact hl
    · rename_i hb
      obtain ⟨u, hu, ht⟩ := andThen_eq_next.1 e
      exact Link.run_keeps h n u m (h l u hl (fun hi => hb (by simp [hi])) hu) ht

/-- What a change of the controller's own registers, a request at MEM's port and a micro-step of that port keep, a
micro-step of the controller keeps. -/
theorem flashMicro_keeps {P : State → Prop} (hf : ∀ s f, P s → P (s.setFlash f))
    (ha : ∀ r s t, P s → arbAccept .mem r s = .next t → P t) (hm : ∀ s t, P s → arbMicro .mem s = .next t → P t)
    {s t : State} (h : P s) (e : flashMicro s = .next t) : P t := by
  unfold flashMicro at e
  split at e
  · split at e
    · cases e; exact h
    · split at e
      · obtain ⟨f, _, rfl⟩ := liftFlash_eq_next.1 e; exact hf _ _ h
      · cases e; exact h
  · obtain ⟨u, hu, ht⟩ := andThen_eq_next.1 e; cases ht; exact hf _ _ (ha _ _ _ h hu)
  · split at e
    · cases e; exact hf _ _ h
    · exact hm _ _ h e
  · unfold flashTransfer at e
    split at e
    · obtain ⟨u, hu, ht⟩ := andThen_eq_next.1 e; cases ht; exact hf _ _ (ha _ _ _ h hu)
    · split at e
      · obtain ⟨u, hu, ht⟩ := andThen_eq_next.1 e; cases ht; exact hf _ _ (ha _ _ _ h hu)
      · obtain ⟨u, hu, ht⟩ := andThen_eq_next.1 e
        obtain ⟨f, _, rfl⟩ := liftFlash_eq_next.1 ht; exact hf _ _ (ha _ _ _ h hu)
  · cases e; exact hf _ _ h

/-- A run of a port whose operation has ended or is held does nothing. -/
theorem arbRun_stop {c : Client} {s : State} (h : (s.arb.port.get c == .idle || permitBlocked c s) = true) (n : Nat) :
    arbRun c n s = .next s := by
  cases n with
  | zero => rfl
  | succ n => rw [arbRun, if_pos h]

/-- One micro-step of a run of a port. -/
theorem arbRun_succ {c : Client} {s : State} (h : (s.arb.port.get c == .idle || permitBlocked c s) = false) (n : Nat) :
    arbRun c (n + 1) s = andThen (arbMicro c s) (arbRun c n) := by
  rw [arbRun, if_neg (by simp [h])]

/-- A run of the controller whose operation has ended or is held does nothing. -/
theorem flashRun_stop {s : State} (h : (s.flash.ctl == .idle || flashBlocked s) = true) (n : Nat) :
    flashRun n s = .next s := by
  cases n with
  | zero => rfl
  | succ n => rw [flashRun, if_pos h]

/-- One micro-step of a run of the controller. -/
theorem flashRun_succ {s : State} (h : (s.flash.ctl == .idle || flashBlocked s) = false) (n : Nat) :
    flashRun (n + 1) s = andThen (flashMicro s) (flashRun n) := by
  rw [flashRun, if_neg (by simp [h])]

/-- A run of the engine whose operation has ended or is held does nothing. -/
theorem Link.run_stop {now : Time} {l : Link} (h : l.ctl = .idle ∨ l.blocked now = true) (n : Nat) :
    Link.run now n l = .next l := by
  cases n with
  | zero => rfl
  | succ n => rw [Link.run, if_pos (by simpa using h)]

/-- One micro-step of a run of the engine. -/
theorem Link.run_succ {now : Time} {l : Link} (h : l.ctl ≠ .idle) (hb : l.blocked now = false) (n : Nat) :
    Link.run now (n + 1) l = andThen (l.micro now) (Link.run now n) := by
  rw [Link.run, if_neg (by simp [h, hb])]

/-- A run of `m + n` micro-steps is a run of `m` and then one of `n`. -/
theorem Link.run_add {now : Time} (m n : Nat) (l : Link) :
    Link.run now (m + n) l = andThen (Link.run now m l) (Link.run now n) := by
  induction m generalizing l with
  | zero => simp [Link.run]
  | succ m ih =>
    by_cases h : l.ctl = .idle ∨ l.blocked now = true
    · rw [Link.run_stop h, Link.run_stop h, andThen_next, Link.run_stop h]
    · have h' : l.ctl ≠ .idle ∧ l.blocked now = false := by simpa [not_or] using h
      rw [Nat.add_right_comm, Link.run_succ h'.1 h'.2, Link.run_succ h'.1 h'.2]
      cases l.micro now with
      | next u => exact ih u
      | fault e => rfl
      | refused r => rfl

/-- A run of `m + n` micro-steps is a run of `m` and then one of `n`. -/
theorem flashRun_add (m n : Nat) (s : State) : flashRun (m + n) s = andThen (flashRun m s) (flashRun n) := by
  induction m generalizing s with
  | zero => simp [flashRun]
  | succ m ih =>
    by_cases h : (s.flash.ctl == .idle || flashBlocked s) = true
    · rw [flashRun_stop h, flashRun_stop h, andThen_next, flashRun_stop h]
    · rw [Nat.add_right_comm, flashRun_succ (by simpa using h), flashRun_succ (by simpa using h)]
      cases flashMicro s with
      | next u => exact ih u
      | fault e => rfl
      | refused r => rfl

/-! ### What an operation is -/

/-- The meaning of every operation is a request presented at a port, the arrival of a frame, or a refusal of a term
outside its domain. -/
theorem exec_forms (i : Instr) (s : State) :
    (∃ c r, exec i s = presentArb c r s) ∨ (∃ r, exec i s = presentLink r s) ∨
    (∃ p, exec i s = liftLink s (Link.arrive s.tNow s.env.quantum (encodeResponse p) s.link)) ∨
    (∃ r, exec i s = presentFlash r s) ∨ exec i s = .refused .illFormed := by
  cases i
  case acquire | release | beginTransaction | endTransaction | busXfer => exact .inl ⟨_, _, rfl⟩
  case init | pinMode | digitalWrite | digitalRead | analogWrite | analogRead | i2cWrite | i2cRead | spiInit | spiTransfer |
    installSleepMonitor | ping | reqPinMode | reqDigitalWrite | reqDigitalRead | reqAnalogWrite | reqAnalogRead |
    reqSpiInit | reqInstallSleepMonitor | reqPing => exact .inr (.inl ⟨_, rfl⟩)
  case reqI2cWrite =>
    simp only [exec, execReqI2cWrite]
    split
    · exact .inr (.inl ⟨_, rfl⟩)
    · simp
  case reqI2cRead =>
    simp only [exec, execReqI2cRead]
    split
    · exact .inr (.inl ⟨_, rfl⟩)
    · simp
  case reqSpiTransfer =>
    simp only [exec, execReqSpiTransfer]
    split
    · exact .inr (.inl ⟨_, rfl⟩)
    · simp
  case response =>
    simp only [exec, execResponse]
    split
    · exact .inr (.inr (.inl ⟨_, rfl⟩))
    · simp
  case busReadData =>
    simp only [exec, execBusReadData]
    split
    · exact .inr (.inr (.inr (.inl ⟨_, rfl⟩)))
    · simp
  case busPageProgram =>
    simp only [exec, execBusPageProgram]
    split
    · exact .inr (.inr (.inr (.inl ⟨_, rfl⟩)))
    · simp
  all_goals exact .inr (.inr (.inr (.inl ⟨_, rfl⟩)))

/-! ### What a step can do -/

/-- What can happen to the link engine's registers in one go. -/
inductive LinkChange (now : Time) (l : Link) : Link → Prop
  /-- a micro-step of the engine -/
  | micro {m : Link} : l.micro now = .next m → LinkChange now l m
  /-- a request is accepted at the idle port -/
  | accept {m : Link} (r : LinkReq) : l.ctl = .idle → Link.accept r l = .next m → LinkChange now l m
  /-- a request waits at the busy port -/
  | enqueue (r : LinkReq) : LinkChange now l { l with waiting := l.waiting ++ [r] }
  /-- bytes arrive -/
  | arrive (bytes : List Byte) : LinkChange now l { l with serRx := l.serRx ++ bytes }
  /-- the host writes timeout_ms -/
  | setTimeout (v : BitVec 16) : l.ctl = .idle → LinkChange now l { l with timeoutMs := v }

/-- What is kept by everything that can happen to the parts of the state. -/
structure Kept (P : State → Prop) : Prop where
  accept : ∀ c r s t, P s → portFree c s = true → arbAccept c r s = .next t → P t
  port : ∀ c s t, P s → arbMicro c s = .next t → P t
  portWait : ∀ s w, P s → P (s.setArb { s.arb with waiting := w })
  link : ∀ s l, P s → LinkChange s.tNow s.link l → P (s.setLink l)
  flash : ∀ s t, P s → flashMicro s = .next t → P t
  flashAccept : ∀ s r f, P s → s.flash.ctl = .idle → Flash.accept s.params r s.flash = .next f → P (s.setFlash f)
  flashWait : ∀ s w, P s → P (s.setFlash { s.flash with waiting := w })
  time : ∀ s t, P s → P (s.setTime t)
  env : ∀ s e, P s → P (s.setEnv e)
  chip : ∀ s, P s → P (s.setChip (chipOwnStep s.chip))
  grant : ∀ c s, P s → P (s.setArb (grantIf s.params c s.arb))

theorem liftLink_eq_next {s t : State} {x : Answer Link} :
    liftLink s x = .next t ↔ ∃ l, x = .next l ∧ t = s.setLink l := by
  unfold liftLink
  rw [andThen_eq_next]
  constructor
  · rintro ⟨l, h, e⟩; cases e; exact ⟨l, h, rfl⟩
  · rintro ⟨l, h, rfl⟩; exact ⟨l, h, rfl⟩

section
variable {P : State → Prop} (k : Kept P)
include k

theorem Kept.presentArb {c : Client} {r : ArbReq} {s t : State} (hs : P s) (h : presentArb c r s = .next t) : P t := by
  rw [Machine.presentArb] at h
  split at h
  · rename_i hf
    obtain ⟨u, hu, ht⟩ := andThen_eq_next.1 h
    exact arbRun_keeps (fun a b ha _ hb => k.port c a b ha hb) _ u t (k.accept c r s u hs (by simp_all) hu) ht
  · cases h; exact k.portWait s _ hs

theorem Kept.linkRun {s : State} {l : Link} (n : Nat) {m : Link} (hs : P (s.setLink l))
    (h : Link.run s.tNow n l = .next m) : P (s.setLink m) :=
  Link.run_keeps (P := fun l => P (s.setLink l))
    (fun a b ha _ hb => by simpa using k.link (s.setLink a) b ha (.micro (by simpa using hb))) n l m hs h

theorem Kept.presentLink {r : LinkReq} {s t : State} (hs : P s) (h : presentLink r s = .next t) : P t := by
  obtain ⟨l, hl, rfl⟩ := liftLink_eq_next.1 h
  rw [Link.present] at hl
  split at hl
  · rename_i hf
    obtain ⟨u, hu, ht⟩ := andThen_eq_next.1 hl
    exact k.linkRun _ (k.link s u hs (.accept r hf.1 hu)) ht
  · cases hl; exact k.link s _ hs (.enqueue r)

theorem Kept.arrive {bytes : List Byte} {s t : State} {q : Nat} (hs : P s)
    (h : liftLink s (Link.arrive s.tNow q bytes s.link) = .next t) : P t := by
  obtain ⟨l, hl, rfl⟩ := liftLink_eq_next.1 h
  exact k.linkRun _ (k.link s _ hs (.arrive bytes)) hl

theorem Kept.presentFlash {r : FlashReq} {s t : State} (hs : P s) (h : presentFlash r s = .next t) : P t := by
  rw [Machine.presentFlash] at h
  split at h
  · rename_i hf
    obtain ⟨u, hu, ht⟩ := andThen_eq_next.1 h
    obtain ⟨f, hf', rfl⟩ := liftFlash_eq_next.1 hu
    exact flashRun_keeps (fun a b ha _ _ hb => k.flash a b ha hb) _ _ t (k.flashAccept s r f hs hf.1 hf') ht
  · cases h; exact k.flashWait s _ hs

theorem Kept.exec {i : Instr} {s t : State} (hs : P s) (h : exec i s = .next t) : P t := by
  rcases exec_forms i s with ⟨c, r, e⟩ | ⟨r, e⟩ | ⟨p, e⟩ | ⟨r, e⟩ | e <;> rw [e] at h
  · exact k.presentArb hs h
  · exact k.presentLink hs h
  · exact k.arrive hs h
  · exact k.presentFlash hs h
  · cases h

theorem Kept.undecoded {sp : Space} {bytes : List Byte} {e : DecodeError} {s t : State} (hs : P s)
    (h : runUndecoded sp bytes e s = .next t) : P t := by
  unfold runUndecoded at h
  split at h
  · exact k.arrive hs h
  all_goals cases h

theorem Kept.runInput {x : Input} {s t : State} (hs : P s) (hr : x = .reset → P (resetBlock s))
    (h : runInput x s = .next t) : P t := by
  cases x with
  | request sp bytes =>
    simp only [Machine.runInput, runRequest] at h
    split at h
    · exact k.exec hs h
    · exact k.undecoded hs h
  | rx b => cases h; exact k.link s _ hs (.arrive [b])
  | tick ms => cases h; exact k.time s _ hs
  | grant c => cases h; exact k.grant c s hs
  | run a n =>
    cases a with
    | port c =>
      simp only [Machine.runInput, runAgent] at h
      split at h
      · exact k.port c s t hs h
      · exact arbRun_keeps (fun a b ha _ hb => k.port c a b ha hb) n s t hs h
    | link =>
      simp only [Machine.runInput, runAgent] at h
      split at h
      · obtain ⟨l, hl, rfl⟩ := liftLink_eq_next.1 h
        exact k.link s l hs (.micro hl)
      · obtain ⟨l, hl, rfl⟩ := liftLink_eq_next.1 h
        exact k.linkRun n (by simpa using hs) hl
    | flash =>
      simp only [Machine.runInput, runAgent] at h
      split at h
      · exact k.flash s t hs h
      · exact flashRun_keeps (fun a b ha _ _ hb => k.flash a b ha hb) n s t hs h
  | quantum n => cases h; exact k.env s _ hs
  | chipReady => cases h; exact k.chip s hs
  | setTimeout v =>
    simp only [Machine.runInput, writeTimeout] at h
    split at h
    · rename_i hc
      cases h
      exact k.link s _ hs (.setTimeout v hc)
    · cases h
  | reset => cases h; exact hr rfl

theorem Kept.background {s t : State} (hs : P s) (h : background s = .next t) : P t := by
  obtain ⟨u, hu, h1⟩ := andThen_eq_next.1 h
  obtain ⟨l, hl, rfl⟩ := liftLink_eq_next.1 hu
  obtain ⟨v, hv, h2⟩ := andThen_eq_next.1 h1
  obtain ⟨w, hw, h3⟩ := andThen_eq_next.1 h2
  exact k.port _ w t (k.port _ v w (k.flash _ v (k.link s l hs (.micro hl)) hv) hw) h3

/-- What everything keeps that can happen to the parts of the state, every step keeps but a reset. -/
theorem Kept.stepNoReset {s t : State} (hs : P s)
    (hr : s.env.inbox.head? = some .reset → ∀ u, P u → P (resetBlock u)) (h : step s = .next t) : P t := by
  simp only [Machine.step, stepInput] at h
  split at h
  · exact k.background hs h
  · rename_i x rest hx
    exact k.runInput (k.env s _ hs) (fun e => hr (by rw [hx, e]; rfl) _ (k.env s _ hs)) h

/-- What everything and a reset keep, every step keeps. -/
theorem Kept.step {s t : State} (hr : ∀ u, P u → P (resetBlock u)) (hs : P s) (h : step s = .next t) : P t :=
  k.stepNoReset hs (fun _ => hr) h

end

end Sys2Proof.Machine
end

