-- ==== Sys2Proof/Laws/Flash.lean ====
section
/-! SUPPORT. What one Device Transaction of the flash controller does, said once: from a free bus, the micro-steps of
`Txn(out, nIn)` come to `afterTxn` (R250). -/

namespace Sys2Proof.Machine

/-- MEM's transfers of the bytes `sent`. -/
def sendAll : List Byte → State → State
  | [], s => s
  | o :: r, s => sendAll r (transfer .mem o s)

theorem transfer_mem (o : Byte) (s : State) : transfer .mem o s =
    { s with
      arb := { s.arb with
        lastIn := s.arb.lastIn.set .mem ((chipAnswer s.params s.chip).getD (envByte s.env))
        busTrace := s.arb.busTrace ++ [.xfer .mem o ((chipAnswer s.params s.chip).getD (envByte s.env))] }
      chip := chipReceive o s.chip
      env := if (chipAnswer s.params s.chip).isSome then s.env else envNext s.env } := rfl

theorem sendAll_eq (sent : List Byte) (s : State) : sendAll sent s =
    { s with
      arb := { s.arb with
        lastIn := s.arb.lastIn.set .mem ((answers s.params sent s.chip s.env).getLastD s.arb.lastIn.mem)
        busTrace := s.arb.busTrace ++
          List.zipWith (fun o i => BusEvent.xfer .mem o i) sent (answers s.params sent s.chip s.env) }
      chip := sent.foldl (fun d o => chipReceive o d) s.chip
      env := envAfter s.params sent s.chip s.env } := by
  induction sent generalizing s with
  | nil =>
    cases s; rename_i a _ _ _ _ _; cases a; rename_i l _ _ _
    cases l
    simp [sendAll, answers, envAfter, PerClient.set]
  | cons o r ih =>
    rw [sendAll, ih, transfer_mem]
    simp only [answers, envAfter, List.zipWith_cons_cons, List.foldl_cons, PerClient.set_set, PerClient.set_mem_mem,
      List.append_assoc, List.singleton_append, List.getLastD_cons]

/-- The permit asked for and granted to MEM (R142, R143). -/
def memGranted (s : State) : State :=
  s.setArb { s.arb with
    permitCreated := true
    permitOwner := some .mem
    arbWait := s.arb.arbWait.set .mem false
    port := s.arb.port.set .mem .beginning
    passed := s.arb.passed.set .mem none }

theorem afterTxn_eq (sent : List Byte) (s : State) (hp : s.arb.port.mem = .idle) :
    afterTxn sent s = closeTxn .mem (sendAll sent (openTxn .mem (memGranted s))) := by
  rw [sendAll_eq]
  obtain ⟨p, ⟨pc, po, aw, bc, cs, tx, ⟨pd, pm⟩, w, li, bt, pa, gr⟩, l, f, tn, c, e⟩ := s
  obtain rfl : pm = .idle := hp
  simp [afterTxn, closeTxn, closeBus, openTxn, openBus, memGranted, State.setArb, State.setChip, PerClient.set,
    chipAfter, txnAnswers, memTxn]

@[simp] theorem transfer_flash (o : Byte) (s : State) : (transfer .mem o s).flash = s.flash := rfl
@[simp] theorem transfer_params (o : Byte) (s : State) : (transfer .mem o s).params = s.params := rfl
@[simp] theorem transfer_owner (o : Byte) (s : State) : (transfer .mem o s).arb.permitOwner = s.arb.permitOwner := rfl
@[simp] theorem transfer_open (o : Byte) (s : State) : (transfer .mem o s).arb.txnOpen = s.arb.txnOpen := rfl

theorem transfer_setFlash (o : Byte) (s : State) (f : Flash) :
    transfer .mem o (s.setFlash f) = (transfer .mem o s).setFlash f := rfl

theorem sendAll_setFlash (sent : List Byte) (s : State) (f : Flash) :
    sendAll sent (s.setFlash f) = (sendAll sent s).setFlash f := by
  induction sent generalizing s with
  | nil => rfl
  | cons o r ih => rw [sendAll, transfer_setFlash, ih]; rfl

theorem sendAll_append (a b : List Byte) (s : State) : sendAll (a ++ b) s = sendAll b (sendAll a s) := by
  induction a generalizing s with
  | nil => rfl
  | cons o r ih => exact ih _

@[simp] theorem sendAll_flash (sent : List Byte) (s : State) : (sendAll sent s).flash = s.flash := by
  rw [sendAll_eq]
@[simp] theorem sendAll_params (sent : List Byte) (s : State) : (sendAll sent s).params = s.params := by
  rw [sendAll_eq]
@[simp] theorem sendAll_owner (sent : List Byte) (s : State) :
    (sendAll sent s).arb.permitOwner = s.arb.permitOwner := by rw [sendAll_eq]
@[simp] theorem sendAll_open (sent : List Byte) (s : State) : (sendAll sent s).arb.txnOpen = s.arb.txnOpen := by
  rw [sendAll_eq]

theorem answers_length (p : Params) (sent : List Byte) (c : Chip) (e : Env) :
    (answers p sent c e).length = sent.length := by
  induction sent generalizing c e with
  | nil => rfl
  | cons o r ih => simp [answers, ih]

theorem answers_append (p : Params) (a b : List Byte) (c : Chip) (e : Env) :
    answers p (a ++ b) c e =
      answers p a c e ++ answers p b (a.foldl (fun d o => chipReceive o d) c) (envAfter p a c e) := by
  induction a generalizing c e with
  | nil => rfl
  | cons o r ih => simp [answers, envAfter, ih]

/-- The controller sends the bytes `txnOut` of its open transaction. -/
theorem flashRun_send (outs : List Byte) {s : State} (hc : s.flash.ctl = .transfer) (ho : s.flash.txnOut = outs)
    (h1 : s.arb.permitOwner = some .mem) (h2 : s.arb.txnOpen = some .mem) (n : Nat) :
    flashRun (n + outs.length) s = flashRun n ((sendAll outs s).setFlash { s.flash with txnOut := [] }) := by
  induction outs generalizing s with
  | nil =>
    have : ({ s.flash with txnOut := [] } : Flash) = s.flash := by rw [← ho]
    rw [this]; rfl
  | cons o r ih =>
    have hm : flashMicro s = .next ((transfer .mem o s).setFlash { s.flash with txnOut := r }) := by
      simp [flashMicro, hc, flashTransfer, ho, arbAccept, h1, h2]
    rw [List.length_cons, ← Nat.add_assoc, flashRun_succ (by simp [hc, flashBlocked]), hm, andThen_next,
      ih (s := (transfer .mem o s).setFlash { s.flash with txnOut := r }) hc rfl h1 h2, sendAll_setFlash]
    rfl

/-- The controller reads the `txnIn` bytes of its open transaction. -/
theorem flashRun_read (m : Nat) {s : State} (hc : s.flash.ctl = .transfer) (ho : s.flash.txnOut = [])
    (hi : s.flash.txnIn = m) (h1 : s.arb.permitOwner = some .mem) (h2 : s.arb.txnOpen = some .mem) (n : Nat) :
    flashRun (n + m) s = flashRun n ((sendAll (List.replicate m s.params.fillByte) s).setFlash
      { s.flash with
        txnIn := 0
        txnGot := s.flash.txnGot ++ answers s.params (List.replicate m s.params.fillByte) s.chip s.env }) := by
  induction m generalizing s with
  | zero =>
    have : ({ s.flash with txnIn := 0, txnGot := s.flash.txnGot ++ [] } : Flash) = s.flash := by
      rw [← hi, List.append_nil]
    simp only [List.replicate_zero, answers, this]; rfl
  | succ m ih =>
    let g : Flash :=
      { s.flash with
        txnIn := m
        txnGot := s.flash.txnGot ++ [(chipAnswer s.params s.chip).getD (envByte s.env)] }
    have hm : flashMicro s = .next ((transfer .mem s.params.fillByte s).setFlash g) := by
      simp [flashMicro, hc, flashTransfer, ho, hi, arbAccept, h1, h2, transfer_mem, g]
    rw [← Nat.add_assoc, flashRun_succ (by simp [hc, flashBlocked]), hm, andThen_next,
      ih (s := (transfer .mem s.params.fillByte s).setFlash g) hc ho rfl h1 h2, sendAll_setFlash,
      List.replicate_succ, sendAll, State.setFlash_setFlash]
    simp [answers, g, transfer_mem]

/-- The controller's registers when the bytes of its transaction have been exchanged. -/
def Flash.exchanged (got : List Byte) (f : Flash) : Flash :=
  { f with ctl := .transfer, txnOut := [], txnIn := 0, txnGot := got }

/-- One Device Transaction from a free bus, up to the transition that follows it (R250). -/
theorem flashRun_txn {s : State} {outs : List Byte} {m : Nat} (hc : s.flash.ctl = .begin) (ho : s.flash.txnOut = outs)
    (hi : s.flash.txnIn = m) (hg : s.flash.txnGot = []) (hp : s.arb.port.mem = .idle) (hb : BusFree s) (n : Nat) :
    flashRun (n + (outs.length + m + 5)) s =
      andThen (liftFlash ((afterTxn (outs ++ List.replicate m s.params.fillByte) s).setFlash
          (s.flash.exchanged ((txnAnswers (outs ++ List.replicate m s.params.fillByte) s).drop outs.length)))
        ((s.flash.exchanged ((txnAnswers (outs ++ List.replicate m s.params.fillByte) s).drop outs.length)).txnDone
          s.params)) (flashRun n) := by
  obtain ⟨b1, b2, b3⟩ := hb
  let s1 : State := (s.setArb (requestPermit .mem .beginning s.arb)).setFlash { s.flash with ctl := .opening }
  let s2 : State := (memGranted s).setFlash { s.flash with ctl := .opening }
  let s3 : State := (openTxn .mem (memGranted s)).setFlash { s.flash with ctl := .opening }
  let s4 : State := (openTxn .mem (memGranted s)).setFlash { s.flash with ctl := .transfer }
  have m1 : flashMicro s = .next s1 := by
    simp [flashMicro, hc, arbAccept, b1, s1]
  have m2 : flashMicro s1 = .next s2 := by
    simp [flashMicro, s1, requestPermit, b2, arbMicro, b1, grantStep, grantChoice, mayChoose, owed, b3, s2, memGranted,
      grantTo, Client.other, State.setArb, State.setFlash, State.setEnv, PerClient.set]
  have m3 : flashMicro s2 = .next s3 := by
    simp [flashMicro, s2, s3, memGranted, b2, arbMicro, State.setArb, State.setFlash, openTxn, State.setChip, PerClient.get,
      PerClient.set]
  have m4 : flashMicro s3 = .next s4 := by
    simp [flashMicro, s3, s4, openTxn, openBus, State.setFlash, State.setChip, State.setArb]
  have e : n + (outs.length + m + 5) = n + 1 + m + outs.length + 1 + 1 + 1 + 1 := by omega
  rw [e, flashRun_succ (by simp [hc, flashBlocked]), m1, andThen_next,
    flashRun_succ (by simp [s1, flashBlocked, requestPermit, permitBlocked, b1]), m2, andThen_next,
    flashRun_succ (by simp [s2, flashBlocked, memGranted, permitBlocked]), m3, andThen_next,
    flashRun_succ (by simp [s3, flashBlocked, openTxn, openBus]), m4, andThen_next,
    flashRun_send outs (s := s4) rfl ho rfl rfl]
  let fill : List Byte := List.replicate m s.params.fillByte
  let o : State := openTxn .mem (memGranted s)
  let s5 : State := (sendAll outs s4).setFlash { s4.flash with txnOut := [] }
  have hf5 : s5.params.fillByte = s.params.fillByte := by simp [s5, s4, openTxn, memGranted]
  have h5 := flashRun_read m (s := s5) (n := n + 1) rfl rfl (by simpa [s5, s4] using hi)
    (by simp [s5, s4, openTxn, openBus, memGranted]) (by simp [s5, s4, openTxn, openBus])
  have hgot : (txnAnswers (outs ++ fill) s).drop outs.length = answers s.params fill s5.chip s5.env := by
    have hc5 : s5.chip = outs.foldl (fun d o => chipReceive o d) (chipSelect s.chip) := by
      simp only [s5, s4, State.setFlash_chip, sendAll_eq]
      simp [openTxn, memGranted]
    have he5 : s5.env = envAfter s.params outs (chipSelect s.chip) s.env := by
      simp only [s5, s4, State.setFlash_env, sendAll_eq]
      simp [openTxn, memGranted]
    rw [hc5, he5, txnAnswers, answers_append, List.drop_left' (answers_length _ _ _ _)]
  let f6 : Flash := s.flash.exchanged (answers s.params fill s5.chip s5.env)
  have h6 : (sendAll fill s5).setFlash
      { s5.flash with txnIn := 0, txnGot := s5.flash.txnGot ++ answers s5.params fill s5.chip s5.env } =
      (sendAll (outs ++ fill) o).setFlash f6 := by
    have hp5 : s5.params = s.params := by simp [s5, s4, openTxn, memGranted]
    rw [sendAll_append, hp5]
    simp only [s5, s4, sendAll_setFlash, State.setFlash_setFlash]
    simp [f6, Flash.exchanged, hg, o, s5, s4, sendAll_setFlash]
  have m6 : flashMicro ((sendAll (outs ++ fill) o).setFlash f6) =
      liftFlash ((afterTxn (outs ++ fill) s).setFlash f6) (f6.txnDone s.params) := by
    rw [afterTxn_eq _ _ hp]
    have hown : (sendAll (outs ++ fill) o).arb.permitOwner = some .mem := by simp [o, openTxn, openBus, memGranted]
    have hopen : (sendAll (outs ++ fill) o).arb.txnOpen = some .mem := by simp [o, openTxn, openBus]
    have hpar : (sendAll (outs ++ fill) o).params = s.params := by simp [o, openTxn, memGranted]
    have hacc : arbAccept .mem .finish ((sendAll (outs ++ fill) o).setFlash f6) =
        .next ((closeTxn .mem (sendAll (outs ++ fill) o)).setFlash f6) := by
      simp only [arbAccept]
      rw [if_pos ⟨hopen, hown⟩]
      rfl
    change andThen (arbAccept .mem .finish ((sendAll (outs ++ fill) o).setFlash f6))
      (fun t => liftFlash t (t.flash.txnDone t.params)) = _
    rw [hacc, andThen_next]
    have hpc : ((closeTxn .mem (sendAll (outs ++ fill) o)).setFlash f6).params = s.params := hpar
    rw [hpc]
    rfl
  rw [h5, hf5, show List.replicate m s.params.fillByte = fill from rfl, h6, hgot,
    flashRun_succ (by simp [f6, Flash.exchanged, flashBlocked]), m6]

/-! ### What the controller does with the result -/

/-- The result is handed to the host (F_DONE to F_IDLE). -/
theorem flashRun_done {s : State} (hc : s.flash.ctl = .done) (n : Nat) :
    flashRun (n + 1) s = .next (s.setFlash { s.flash with flPhase := .idle, ctl := .idle }) := by
  have hm : flashMicro s = .next (s.setFlash { s.flash with flPhase := .idle, ctl := .idle }) := by
    simp [flashMicro, hc]
  rw [flashRun_succ (by simp [hc, flashBlocked]), hm, andThen_next, flashRun_stop (by simp)]

/-- What a transaction leaves of a free bus is a free bus. -/
theorem BusFree.afterTxn {s : State} (sent : List Byte) (h : BusFree s) : BusFree (afterTxn sent s) := by
  obtain ⟨_, _, h3⟩ := h
  exact ⟨rfl, rfl, h3⟩

theorem BusFree.setFlash {s : State} (f : Flash) (h : BusFree s) : BusFree (s.setFlash f) := h

theorem afterTxn_setFlash (sent : List Byte) (s : State) (f : Flash) :
    Machine.afterTxn sent (s.setFlash f) = (Machine.afterTxn sent s).setFlash f := rfl

theorem BusFree.polled {s : State} (k : Nat) (h : BusFree s) : BusFree (polled k s) := by
  induction k generalizing s with
  | zero => exact h
  | succ k ih => exact ih (h.afterTxn _)

theorem polled_setFlash (k : Nat) (s : State) (f : Flash) : polled k (s.setFlash f) = (polled k s).setFlash f := by
  induction k generalizing s with
  | zero => rfl
  | succ k ih => exact ih (Machine.afterTxn (pollBytes s) s)

theorem polled_succ (k : Nat) (s : State) :
    polled (k + 1) s = Machine.afterTxn (pollBytes (polled k s)) (polled k s) := by
  induction k generalizing s with
  | zero => rfl
  | succ k ih => exact ih (Machine.afterTxn (pollBytes s) s)

@[simp] theorem polled_params (k : Nat) (s : State) : (polled k s).params = s.params := by
  induction k generalizing s with
  | zero => rfl
  | succ k ih => exact ih (Machine.afterTxn (pollBytes s) s)

@[simp] theorem polled_port (k : Nat) (s : State) : (polled k s).arb.port = s.arb.port := by
  induction k generalizing s with
  | zero => rfl
  | succ k ih => exact ih (Machine.afterTxn (pollBytes s) s)

@[simp] theorem polled_flash (k : Nat) (s : State) : (polled k s).flash = s.flash := by
  induction k generalizing s with
  | zero => rfl
  | succ k ih => exact ih (Machine.afterTxn (pollBytes s) s)

theorem pollAnswer_setFlash (s : State) (f : Flash) : pollAnswer (s.setFlash f) = pollAnswer s := rfl

theorem ReadyAfter.setFlash {k : Nat} {s : State} (f : Flash) (h : ReadyAfter k s) : ReadyAfter k (s.setFlash f) := by
  induction k generalizing s with
  | zero => exact h
  | succ k ih => exact ⟨h.1, ih h.2⟩

/-- The wait of an operation (R266): `k` busy polls and one that reads ready, then what follows the wait. -/
theorem flashRun_wait (k : Nat) {s : State} {f : Flash} {op : FlashOp} (hf : s.flash = f.txn .wait bytesReadStatus 1)
    (hj : f.job = .host) (ho : flashOpOf f.flOp = some op) (hp : s.arb.port.mem = .idle) (hb : BusFree s)
    (hr : ReadyAfter k s) (n : Nat) :
    flashRun (n + 7 * (k + 1)) s =
      andThen (liftFlash (polled (k + 1) s)
        (({ f with
            flPhase := .wait
            ctl := .transfer
            txnOut := []
            txnIn := 0
            txnGot := [lastPoll k s]
            flStatus := lastPoll k s } : Flash).afterWait op)) (flashRun n) := by
  induction k generalizing s f with
  | zero =>
    have h := flashRun_txn (s := s) (outs := bytesReadStatus) (m := 1) (by rw [hf]; rfl) (by rw [hf]; rfl) (by rw [hf]; rfl)
      (by rw [hf]; rfl) hp hb n
    have hg : (txnAnswers (bytesReadStatus ++ List.replicate 1 s.params.fillByte) s).drop bytesReadStatus.length =
        [pollAnswer s] := rfl
    rw [show n + 7 * (0 + 1) = n + (bytesReadStatus.length + 1 + 5) from rfl, h, hg]
    have hw : wipOf s.params (pollAnswer s) = false := hr
    have hd : (s.flash.exchanged [pollAnswer s]).txnDone s.params =
        ({ f with
            flPhase := .wait
            ctl := .transfer
            txnOut := []
            txnIn := 0
            txnGot := [lastPoll 0 s]
            flStatus := lastPoll 0 s } : Flash).afterWait op := by
      simp [hf, Flash.exchanged, Flash.txn, Flash.txnDone, hj, ho, hw, lastPoll, polled]
    rw [hd]
    rfl
  | succ k ih =>
    have h := flashRun_txn (s := s) (outs := bytesReadStatus) (m := 1) (by rw [hf]; rfl) (by rw [hf]; rfl) (by rw [hf]; rfl)
      (by rw [hf]; rfl) hp hb (n + 7 * (k + 1))
    have hg : (txnAnswers (bytesReadStatus ++ List.replicate 1 s.params.fillByte) s).drop bytesReadStatus.length =
        [pollAnswer s] := rfl
    obtain ⟨hw, hr⟩ := hr
    let g : Flash :=
      { f with
        flPhase := .wait
        ctl := .transfer
        txnOut := []
        txnIn := 0
        txnGot := [pollAnswer s]
        flStatus := pollAnswer s }
    have hd : (s.flash.exchanged [pollAnswer s]).txnDone s.params = .next (g.txn .wait bytesReadStatus 1) := by
      simp [hf, Flash.exchanged, Flash.txn, Flash.txnDone, hj, ho, hw, g]
    rw [show n + 7 * (k + 1 + 1) = n + 7 * (k + 1) + (bytesReadStatus.length + 1 + 5) from by
      rw [show bytesReadStatus.length = 1 from rfl]; omega, h, hg, hd]
    rw [show (bytesReadStatus ++ List.replicate 1 s.params.fillByte) = pollBytes s from rfl]
    simp only [liftFlash, andThen_next, State.setFlash_setFlash]
    rw [ih (s := (Machine.afterTxn (pollBytes s) s).setFlash (g.txn .wait bytesReadStatus 1)) (f := g) rfl hj ho hp
      ((hb.afterTxn _).setFlash _) (hr.setFlash _)]
    rw [polled_setFlash]
    have hl : lastPoll k ((Machine.afterTxn (pollBytes s) s).setFlash (g.txn .wait bytesReadStatus 1)) =
        lastPoll (k + 1) s := by
      rw [lastPoll, polled_setFlash]; rfl
    rw [hl]
    rfl

/-! ### Requests at the idle port -/

/-- A request that the idle port accepts is run for a quantum. -/
theorem presentFlash_ready {s : State} {r : FlashReq} {f : Flash} (h : FlashReady s)
    (ha : Flash.accept s.params r s.flash = .next f) :
    presentFlash r s = flashRun s.env.quantum (s.setFlash f) := by
  have h' : s.flash.ctl = .idle ∧ s.flash.waiting = [] ∧ s.arb.port.mem = .idle := h
  rw [presentFlash, if_pos h', ha]
  rfl

/-- A request whose one transaction is followed by the end of the operation. -/
theorem presentFlash_once {s : State} {r : FlashReq} {f g : Flash} {outs : List Byte} {m : Nat} (h : FlashReady s)
    (hb : BusFree s) (ha : Flash.accept s.params r s.flash = .next f) (hc : f.ctl = .begin) (ho : f.txnOut = outs)
    (hi : f.txnIn = m) (hg : f.txnGot = [])
    (hd : (f.exchanged (txnReads outs m s)).txnDone s.params = .next g) (hgc : g.ctl = .done)
    (hq : outs.length + m + 6 ≤ s.env.quantum) :
    presentFlash r s =
      .next ((afterTxn (withFill outs m s) s).setFlash { g with flPhase := .idle, ctl := .idle }) := by
  obtain ⟨q, hq'⟩ : ∃ q, s.env.quantum = (q + 1) + (outs.length + m + 5) :=
    ⟨s.env.quantum - (outs.length + m + 6), by omega⟩
  have hx := flashRun_txn (s := s.setFlash f) (outs := outs) (m := m) hc ho hi hg h.2.2 (hb.setFlash f) (q + 1)
  have hd' : ((s.setFlash f).flash.exchanged ((txnAnswers (outs ++ List.replicate m (s.setFlash f).params.fillByte)
      (s.setFlash f)).drop outs.length)).txnDone (s.setFlash f).params = .next g := hd
  rw [presentFlash_ready h ha, hq', hx, hd']
  simp only [liftFlash, andThen_next]
  rw [flashRun_done (by exact hgc)]
  rfl

end Sys2Proof.Machine
end

