-- ==== Sys2Proof/Laws/Frames.lean ====
section
/-! SUPPORT. What the shared operations leave alone, said once each: at an ARB port, and in the link engine. -/

namespace Sys2Proof.Machine

/-! ### The ARB ports -/

theorem chipBefore_mem (c : Chip) : (chipBefore c).mem = c.mem := by
  unfold chipBefore
  split
  · split
    · unfold chipPoll; split <;> rfl
    · rfl
  · rfl

/-- What everything at client `c`'s port leaves alone. -/
def ArbSide (c : Client) (s t : State) : Prop :=
    t.link = s.link ∧ t.flash = s.flash ∧ t.params = s.params ∧ t.tNow = s.tNow ∧ t.env.inbox = s.env.inbox ∧
    t.env.quantum = s.env.quantum ∧ t.arb.port.get c.other = s.arb.port.get c.other ∧
    t.arb.waiting.get c.other = s.arb.waiting.get c.other ∧ t.arb.cs.get c.other = s.arb.cs.get c.other ∧
    t.arb.lastIn.get c.other = s.arb.lastIn.get c.other ∧ (c = .disp → t.chip = s.chip)

theorem ArbSide.trans {c : Client} {s t u : State} (h1 : ArbSide c s t) (h2 : ArbSide c t u) : ArbSide c s u := by
  obtain ⟨a1, a2, a3, a4, a5, a6, a7, a8, a9, a10, a11⟩ := h1
  obtain ⟨b1, b2, b3, b4, b5, b6, b7, b8, b9, b10, b11⟩ := h2
  exact ⟨b1.trans a1, b2.trans a2, b3.trans a3, b4.trans a4, b5.trans a5, b6.trans a6, b7.trans a7,
    b8.trans a8, b9.trans a9, b10.trans a10, fun h => (b11 h).trans (a11 h)⟩

theorem envNext_kept (e : Env) : (envNext e).inbox = e.inbox ∧ (envNext e).quantum = e.quantum := by
  unfold envNext; split <;> exact ⟨rfl, rfl⟩

theorem grantStep_frame (c : Client) (s : State) : ArbSide c s (grantStep s) ∧ (grantStep s).chip = s.chip := by
  unfold grantStep
  split
  · exact ⟨⟨rfl, rfl, rfl, rfl, rfl, rfl, rfl, rfl, rfl, rfl, fun _ => rfl⟩, rfl⟩
  · refine ⟨⟨rfl, rfl, rfl, rfl, ?_, ?_,rfl, rfl, rfl, rfl, fun _ => rfl⟩, rfl⟩ <;> simp <;> split <;> rfl

theorem openTxn_frame (c : Client) (s : State) : ArbSide c s (openTxn c s) ∧ (openTxn c s).chip.mem = s.chip.mem := by
  refine ⟨⟨rfl, rfl, rfl, rfl, rfl, rfl, ?_,rfl, ?_,rfl, ?_⟩, ?_⟩
  · simp [openTxn, openBus]
  · simp [openTxn, openBus]
  · rintro rfl; rfl
  · simp only [openTxn, State.setChip_chip]; split <;> rfl

theorem arbAccept_frame {c : Client} {r : ArbReq} {s t : State} (h : arbAccept c r s = .next t) :
    ArbSide c s t ∧ (¬ (c = .mem ∧ r = .finish) → t.chip.mem = s.chip.mem) := by
  cases r <;> simp only [arbAccept] at h
  · split at h <;> cases h
    exact ⟨⟨rfl, rfl, rfl, rfl, rfl, rfl, by simp [requestPermit],rfl, rfl, rfl, fun _ => rfl⟩, fun _ => rfl⟩
  · split at h <;> cases h
    exact ⟨⟨rfl, rfl, rfl, rfl, rfl, rfl, rfl, rfl, rfl, rfl, fun _ => rfl⟩, fun _ => rfl⟩
  · split at h
    · split at h <;> cases h
      exact ⟨(openTxn_frame c s).1, fun _ => (openTxn_frame c s).2⟩
    · cases h
      exact ⟨⟨rfl, rfl, rfl, rfl, rfl, rfl, by simp [requestPermit],rfl, rfl, rfl, fun _ => rfl⟩, fun _ => rfl⟩
  · split at h <;> cases h
    refine ⟨⟨rfl, rfl, rfl, rfl, rfl, rfl, rfl, rfl, by simp [closeTxn, closeBus],rfl, ?_⟩, ?_⟩
    · rintro rfl; rfl
    · intro h; have : c ≠ .mem := fun e => h ⟨e, rfl⟩
      simp [closeTxn, this]
  · rename_i o
    split at h <;> cases h
    refine ⟨⟨rfl, rfl, rfl, rfl, ?_, ?_,rfl, rfl, rfl, by simp [transfer], ?_⟩, fun _ => ?_⟩
    · simp [transfer]; split <;> simp [envNext_kept]
    · simp [transfer]; split <;> simp [envNext_kept]
    · rintro rfl; simp [transfer]
    · simp only [transfer, State.setEnv_chip, State.setChip_chip]; split
      · simp [chipReceive, chipBefore_mem]
      · rfl

theorem arbMicro_frame {c : Client} {s t : State} (hp : s.arb.port.get c ≠ .idle) (h : arbMicro c s = .next t) :
    ArbSide c s t ∧ t.chip.mem = s.chip.mem := by
  unfold arbMicro at h
  split at h
  · exact absurd (by assumption) hp
  · split at h <;> cases h
    · exact ⟨⟨rfl, rfl, rfl, rfl, rfl, rfl, by simp,rfl, rfl, rfl, fun _ => rfl⟩, rfl⟩
    · exact ⟨(grantStep_frame c s).1, by rw [(grantStep_frame c s).2]⟩
  · split at h <;> cases h
    · exact openTxn_frame c s
    · exact ⟨(grantStep_frame c s).1, by rw [(grantStep_frame c s).2]⟩

theorem presentArb_frame {c : Client} {r : ArbReq} {s t : State} (h : presentArb c r s = .next t) :
    ArbSide c s t ∧ (¬ (c = .mem ∧ r = .finish) → t.chip.mem = s.chip.mem) := by
  unfold presentArb at h
  split at h
  · obtain ⟨u, hu, ht⟩ := andThen_eq_next.1 h
    have h1 := arbAccept_frame hu
    have := arbRun_keeps (P := fun v => ArbSide c s v ∧ (¬ (c = .mem ∧ r = .finish) → v.chip.mem = s.chip.mem)) (c := c)
      (fun a b ha hp hb => ⟨ha.1.trans (arbMicro_frame hp hb).1, fun hh => (arbMicro_frame hp hb).2.trans (ha.2 hh)⟩) _ u t h1 ht
    exact this
  · cases h
    exact ⟨⟨rfl, rfl, rfl, rfl, rfl, rfl, rfl, by simp,rfl, rfl, fun _ => rfl⟩, fun _ => rfl⟩

/-! ### The link engine -/

/-- What one change of the engine does to timeout_ms, ser_tx, link_ready, ping_try and lk_op. -/
def Link.Frame (l m : Link) : Prop := m.timeoutMs = l.timeoutMs ∧ (∃ sent, m.serTx = l.serTx ++ sent) ∧
  (m.linkReady ≠ l.linkReady → l.lkOp = 0x00#8) ∧
  (m.pingTry ≠ l.pingTry → (∃ t, l.ctl = .pause t) ∨ l.ctl = .idle) ∧ (l.ctl ≠ .idle → m.lkOp = l.lkOp)

theorem Link.Frame.refl (l : Link) : Link.Frame l l :=
  ⟨rfl, ⟨[], by simp⟩, fun h => absurd rfl h, fun h => absurd rfl h, fun _ => rfl⟩

theorem Link.Frame.of {l m : Link} (h : l.timeoutMs = m.timeoutMs) (h1 : l.serTx = m.serTx)
    (h2 : l.linkReady = m.linkReady) (h3 : l.pingTry = m.pingTry) (h4 : l.lkOp = m.lkOp) :
    Link.Frame l m :=
  ⟨h.symm, ⟨[], by simp [h1]⟩, fun h => absurd h2.symm h, fun h => absurd h3.symm h, fun _ => h4.symm⟩

theorem linkOpOf_init {c : Byte} (h : linkOpOf c = some .init) : c = 0x00#8 := by
  unfold linkOpOf at h; split at h <;> simp_all

theorem Link.fail_frame {now : Time} {op : LinkOp} {st : BitVec 3} (l : Link) (ho : linkOpOf l.lkOp = some op) :
    Link.Frame l (l.fail now op st) := by
  cases op <;> simp only [Link.fail, Link.raise, Link.attemptFailed]
  case init =>
    split
    · exact .of rfl rfl rfl rfl rfl
    · exact ⟨rfl, ⟨[], by simp⟩, fun _ => linkOpOf_init ho, fun h => absurd rfl h, fun _ => rfl⟩
  all_goals exact .of rfl rfl rfl rfl rfl

theorem Link.onOk_frame {now : Time} {op : LinkOp} (l : Link) (ho : linkOpOf l.lkOp = some op) :
    Link.Frame l (l.onOk now op) := by
  cases op <;> simp only [Link.onOk, Link.succeed, Link.chunkDone]
  case init =>
    split
    · exact ⟨rfl, ⟨[], by simp⟩, fun _ => linkOpOf_init ho, fun h => absurd rfl h, fun _ => rfl⟩
    · exact Link.fail_frame l ho
  all_goals first
    | exact .of rfl rfl rfl rfl rfl
    | (split <;> first | exact Link.fail_frame l ho | exact .of rfl rfl rfl rfl rfl | (split <;> exact .of rfl rfl rfl rfl rfl))

theorem Link.accept_frame {l m : Link} {r : LinkReq} (hc : l.ctl = .idle) (h : Link.accept r l = .next m) : Link.Frame l m := by
  unfold Link.accept at h
  split at h
  · cases h
  · split at h
    · cases h
    · split at h
      · cases h
      · split at h <;> cases h
        exact ⟨rfl, ⟨[], by simp⟩, fun h => absurd rfl h, fun _ => .inr hc, fun h => absurd hc h⟩

theorem Link.takeByte_kept (l : Link) (b : Byte) :
    (l.takeByte b).timeoutMs = l.timeoutMs ∧ (l.takeByte b).serTx = l.serTx ∧
      (l.takeByte b).linkReady = l.linkReady ∧ (l.takeByte b).pingTry = l.pingTry ∧
      (l.takeByte b).lkOp = l.lkOp := by
  unfold Link.takeByte
  split
  · split <;> exact ⟨rfl, rfl, rfl, rfl, rfl⟩
  · split
    · exact ⟨rfl, rfl, rfl, rfl, rfl⟩
    · split <;> exact ⟨rfl, rfl, rfl, rfl, rfl⟩
  · exact ⟨rfl, rfl, rfl, rfl, rfl⟩
  · exact ⟨rfl, rfl, rfl, rfl, rfl⟩
  · split <;> exact ⟨rfl, rfl, rfl, rfl, rfl⟩
  all_goals exact ⟨rfl, rfl, rfl, rfl, rfl⟩

theorem Link.receive_frame (l : Link) (now : Time) : Link.Frame l (l.receive now) := by
  unfold Link.receive
  split
  · exact .of rfl rfl rfl rfl rfl
  · exact .refl l
  · obtain ⟨a, b, c, d, e⟩ := Link.takeByte_kept ({ l with serRx := ‹_› } : Link) ‹_›
    exact .of a.symm b.symm c.symm d.symm e.symm

theorem Link.micro_frame {now : Time} {l m : Link} (h : l.micro now = .next m) : Link.Frame l m := by
  unfold Link.micro at h
  split at h
  · rename_i hc
    split at h
    · cases h; exact .refl l
    · rename_i rest _; have := Link.accept_frame (l := { l with waiting := rest }) hc h; exact this
  · split at h <;> cases h
    exact ⟨rfl, ⟨_, rfl⟩, fun h => absurd rfl h, fun h => absurd rfl h, fun _ => rfl⟩
  · rename_i t hc
    cases h
    split
    · exact ⟨rfl, ⟨[], by simp⟩, fun h => absurd rfl h, fun _ => .inl ⟨t, hc⟩, fun _ => rfl⟩
    · exact .refl l
  · rename_i hc
    split at h
    · cases h
    · cases h; exact .of rfl rfl rfl rfl rfl
    iterate 5 (cases h; exact Link.receive_frame l now)
    · split at h <;> cases h; exact Link.onOk_frame l ‹_›
    · split at h <;> cases h; exact Link.fail_frame l ‹_›
    · split at h <;> cases h; exact Link.fail_frame l ‹_›
    · split at h <;> cases h; exact Link.fail_frame l ‹_›

end Sys2Proof.Machine
end

