-- ==== Sys2Proof/Laws/Grant.lean ====
section
/-! SUPPORT. The grant step, said once: what a grant writes, whom it may choose, and what the arbiter's own step does
(R143, R8). -/

namespace Sys2Proof.Machine

/-- A grant that passes nobody over. -/
theorem grantTo_alone {c : Client} {a : Arbiter} (h : a.arbWait.get c.other = false) :
    grantTo c a = { a with
      permitOwner := some c
      arbWait := a.arbWait.set c false
      passed := a.passed.set c none } := by
  cases c <;> simp_all [grantTo, Client.other, PerClient.set]

/-- A grant that passes the other client over. -/
theorem grantTo_contested {c : Client} {a : Arbiter} (h : a.arbWait.get c.other = true) :
    grantTo c a = { a with
      permitOwner := some c
      arbWait := a.arbWait.set c false
      passed := (a.passed.set c none).set c.other (passOver c.other a)
      grants := a.grants + 1 } := by
  simp [grantTo, h]

/-- Whom the grant step may choose. -/
theorem mayChoose_iff {p : Params} {c : Client} {a : Arbiter} :
    mayChoose p c a = true ↔ a.arbWait.get c = true ∧
      (p.arbFair = true → a.arbWait.get c.other = true → a.passed.get c.other = some 0 → a.passed.get c = some 0) := by
  unfold mayChoose owed
  cases p.arbFair <;> cases a.arbWait.get c <;> cases a.arbWait.get c.other <;>
    by_cases h1 : a.passed.get c = some 0 <;> by_cases h2 : a.passed.get c.other = some 0 <;> simp [h1, h2]

/-- Some waiting client may always be chosen. -/
theorem mayChoose_exists {p : Params} {c : Client} {a : Arbiter} (h : a.arbWait.get c = true) :
    ∃ d, mayChoose p d a = true := by
  by_cases hc : mayChoose p c a = true
  · exact ⟨c, hc⟩
  · rw [mayChoose_iff] at hc
    have hc' : p.arbFair = true ∧ a.arbWait.get c.other = true ∧ a.passed.get c.other = some 0 := by
      by_contra hn
      exact hc ⟨h, fun h1 h2 h3 => absurd ⟨h1, h2, h3⟩ hn⟩
    exact ⟨c.other, mayChoose_iff.2 ⟨hc'.2.1, fun _ _ _ => hc'.2.2⟩⟩

/-- What the arbiter's own grant step does: nothing where it is not enabled, else a grant to a client it may choose; the
rest of the state is kept but the counter of free values. -/
theorem grantStep_cases (s : State) :
    (grantStep s = s ∧ (s.arb.permitOwner ≠ none ∨ ∀ c, s.arb.arbWait.get c = false)) ∨
    ∃ c, s.arb.permitOwner = none ∧ mayChoose s.params c s.arb = true ∧
      grantStep s = (s.setArb (grantTo c s.arb)).setEnv
        (if s.arb.arbWait.disp && s.arb.arbWait.mem then { s.env with freeCtr := s.env.freeCtr + 1 } else s.env) := by
  by_cases ho : s.arb.permitOwner = none
  · cases hd : mayChoose s.params .disp s.arb <;> cases hm : mayChoose s.params .mem s.arb
    · refine .inl ⟨by simp [grantStep, grantChoice, ho, hd, hm], .inr fun c => ?_⟩
      by_contra hc
      obtain ⟨d, h⟩ := mayChoose_exists (p := s.params) (show s.arb.arbWait.get c = true by simpa using hc)
      cases d <;> simp_all
    · exact .inr ⟨.mem, ho, hm, by simp [grantStep, grantChoice, ho, hd, hm]⟩
    · exact .inr ⟨.disp, ho, hd, by simp [grantStep, grantChoice, ho, hd, hm]⟩
    · refine .inr ⟨Config.freeGrant s.env.freeCtr, ho, ?_, by simp [grantStep, grantChoice, ho, hd, hm]⟩
      cases Config.freeGrant s.env.freeCtr <;> assumption
  · exact .inl ⟨by simp [grantStep, grantChoice, ho], .inl ho⟩

/-- The arbiter's own grant step where only client `c` waits. -/
theorem grantStep_alone {c : Client} {s : State} (ho : s.arb.permitOwner = none) (hc : s.arb.arbWait.get c = true)
    (hw : s.arb.arbWait.get c.other = false) : grantStep s = s.setArb (grantTo c s.arb) := by
  rcases grantStep_cases s with ⟨_, h | h⟩ | ⟨d, _, hd, e⟩
  · exact absurd ho h
  · exact absurd (h c) (by simp [hc])
  · have hdc : d = c := by
      rcases Client.eq_or_other c d with h | rfl
      · exact h
      · simp [mayChoose_iff, hw] at hd
    subst hdc
    have : (s.arb.arbWait.disp && s.arb.arbWait.mem) = false := by cases d <;> simp_all [Client.other]
    rw [e, this]
    rfl

/-- The grant step for a client the schedule names, where it is enabled. -/
theorem grantIf_of_may {p : Params} {c : Client} {a : Arbiter} (ho : a.permitOwner = none) (h : mayChoose p c a = true) :
    grantIf p c a = grantTo c a := if_pos ⟨ho, h⟩

/-- The grant step for a client the schedule names, where it is not enabled. -/
theorem grantIf_of_not {p : Params} {c : Client} {a : Arbiter} (h : a.permitOwner ≠ none ∨ mayChoose p c a = false) :
    grantIf p c a = a := if_neg (by rintro ⟨h1, h2⟩; rcases h with h | h <;> simp_all)

end Sys2Proof.Machine
end

