-- ==== Sys2Proof/Laws/Link.lean ====
section
/-! SUPPORT. What one exchange of the link engine does, said once: it sends its frame, discards noise, takes a response,
drains after a length mismatch (R175 to R183). -/

namespace Sys2Proof.Machine

/-! ### Time -/

theorem Link.not_expired_at_send {now : Time} {l : Link} (h0 : l.t0 = now) (ht : l.timeoutMs ≠ 0#16) :
    l.expired now = false := by
  have : l.timeoutMs.toNat ≠ 0 := fun e => ht (BitVec.eq_of_toNat_eq e)
  simp only [Link.expired, h0, BitVec.sub_self, decide_eq_false_iff_not, BitVec.toNat_ofNat, Nat.zero_mod]
  omega

theorem Link.serRxNow_byte {now : Time} {l : Link} {b : Byte} {rest : List Byte} (h : l.expired now = false)
    (hb : l.serRx = b :: rest) : l.serRxNow now = .byte b rest := by
  simp [Link.serRxNow, h, hb]

theorem Link.serRxNow_expired {now : Time} {l : Link} (h : l.expired now = true) : l.serRxNow now = .timeout := by
  simp [Link.serRxNow, h]

/-- A micro-step in a receiving state is a receive step. -/
theorem Link.micro_receive {now : Time} {l : Link} (hc : l.ctl = .exchange) (hs : l.linkState.receives = true) :
    l.micro now = .next (l.receive now) := by
  unfold Link.micro
  rw [hc]
  cases h : l.linkState <;> first | rfl | (simp [h, LinkState.receives] at hs)

/-- In a receiving state the engine is held exactly while it neither has a byte nor has run out of time. -/
theorem Link.blocked_receive {now : Time} {l : Link} (hc : l.ctl = .exchange) (hs : l.linkState.receives = true) :
    l.blocked now = (l.serRxNow now == .waiting) := by
  unfold Link.blocked
  rw [hc]
  cases h : l.linkState <;> first | rfl | (simp [h, LinkState.receives] at hs)

/-- A receive step that finds a byte takes it. -/
theorem Link.run_take {now : Time} {l : Link} {b : Byte} {rest : List Byte} (hc : l.ctl = .exchange)
    (hs : l.linkState.receives = true) (he : l.expired now = false) (hb : l.serRx = b :: rest) (n : Nat) :
    Link.run now (n + 1) l = Link.run now n (({ l with serRx := rest } : Link).takeByte b) := by
  have hr := Link.serRxNow_byte he hb
  have hm : l.receive now = ({ l with serRx := rest } : Link).takeByte b := by
    unfold Link.receive
    rw [hr]
  rw [Link.run_succ (by simp [hc]) (by rw [Link.blocked_receive hc hs, hr]; rfl), Link.micro_receive hc hs, andThen_next,
    hm]

/-- A receive step after the deadline ends the exchange. -/
theorem Link.run_expired {now : Time} {l : Link} (hc : l.ctl = .exchange) (hs : l.linkState.receives = true)
    (he : l.expired now = true) (n : Nat) : Link.run now (n + 1) l = Link.run now n l.takeTimeout := by
  have hr := Link.serRxNow_expired he
  have hm : l.receive now = l.takeTimeout := by
    unfold Link.receive
    rw [hr]
  rw [Link.run_succ (by simp [hc]) (by rw [Link.blocked_receive hc hs, hr]; rfl), Link.micro_receive hc hs, andThen_next,
    hm]

/-! ### One exchange -/

/-- The engine at another state of the exchange. -/
def Link.goto (st : LinkState) (l : Link) : Link := { l with linkState := st }

/-- `IDLE → SENT → AWAIT_START`. -/
theorem Link.run_send {now : Time} {l : Link} {op : LinkOp} (hc : l.ctl = .start) (ho : linkOpOf l.lkOp = some op) (n : Nat) :
    Link.run now (n + 2) l = Link.run now n ((l.send now op).goto .awaitStart) := by
  have h1 : l.micro now = .next (l.send now op) := by simp [Link.micro, hc, ho]
  have h2 : (l.send now op).micro now = .next ((l.send now op).goto .awaitStart) := by
    simp [Link.micro, Link.send, Link.goto]
  rw [Link.run_succ (by simp [hc]) (by simp [Link.blocked, hc]), h1, andThen_next,
    Link.run_succ (by simp [Link.send]) (by simp [Link.blocked, Link.send]), h2, andThen_next]

/-- Bytes other than START are discarded. -/
theorem Link.run_noise {now : Time} (noise : List Byte) {l : Link} {r : List Byte} (hc : l.ctl = .exchange)
    (hs : l.linkState = .awaitStart) (he : l.expired now = false) (hb : l.serRx = noise ++ r)
    (hn : ∀ b ∈ noise, b ≠ Config.start) (n : Nat) :
    Link.run now (n + noise.length) l = Link.run now n { l with serRx := r } := by
  induction noise generalizing l with
  | nil => cases l; cases hb; rfl
  | cons b q ih =>
    have h1 : b ≠ Config.start := hn b (by simp)
    rw [List.length_cons, ← Nat.add_assoc,
      Link.run_take (l := l) hc (by simp [hs, LinkState.receives]) he hb]
    have : ({ l with serRx := q ++ r } : Link).takeByte b = { l with serRx := q ++ r } := by
      simp [Link.takeByte, hs, h1]
    rw [show q.append r = q ++ r from rfl, this]
    exact ih (l := { l with serRx := q ++ r }) hc hs he rfl (fun b hb => hn b (by simp [hb]))

/-- `AWAIT_START → AWAIT_LEN → AWAIT_DATA` for a response of the expected length. -/
theorem Link.run_header {now : Time} {l : Link} {k : Byte} {r : List Byte} (hc : l.ctl = .exchange)
    (hs : l.linkState = .awaitStart) (he : l.expired now = false) (hb : l.serRx = Config.start :: k :: r)
    (hk : k = l.expLen) (h0 : k ≠ 0#8) (n : Nat) :
    Link.run now (n + 2) l =
      Link.run now n { l with serRx := r, rxLen := k, rxCnt := 0#9, linkState := .awaitData } := by
  rw [Link.run_take hc (by simp [hs, LinkState.receives]) he hb]
  have h1 : ({ l with serRx := k :: r } : Link).takeByte Config.start =
      { l with serRx := k :: r, linkState := .awaitLen } := by simp [Link.takeByte, hs]
  rw [h1, Link.run_take (l := { l with serRx := k :: r, linkState := .awaitLen }) hc (by rfl) he rfl]
  subst hk
  simp [Link.takeByte, h0]

theorem list_set_split {α : Type} (q : List α) (k : Nat) (x : α) (h : k < q.length) :
    (q.set k x).take (k + 1) = q.take k ++ [x] ∧ (q.set k x).drop (k + 1) = q.drop (k + 1) := by
  constructor
  · rw [List.set_eq_take_append_cons_drop, if_pos h,
      List.take_append, List.take_take, List.length_take]
    have : min (k + 1) k = k := by omega
    rw [this, min_eq_left (by omega), show k + 1 - k = 1 by omega]
    rfl
  · rw [List.drop_set_of_lt (by omega)]

/-- `AWAIT_DATA`: exactly the payload bytes are taken and stored in order. -/
theorem Link.run_data {now : Time} (d : List Byte) {l : Link} {r : List Byte} (hc : l.ctl = .exchange)
    (hs : l.linkState = .awaitData) (he : l.expired now = false) (hb : l.serRx = d ++ r) (h1 : d ≠ [])
    (hl : l.rxLen.toNat = l.rxCnt.toNat + d.length) (hm : l.rxLen.toNat ≤ 32) (hbuf : l.rxBuf.length = 32) (n : Nat) :
    Link.run now (n + d.length) l = Link.run now n
      { l with
        serRx := r
        rxCnt := l.rxCnt + BitVec.ofNat 9 d.length
        rxBuf := l.rxBuf.take l.rxCnt.toNat ++ d ++ l.rxBuf.drop l.rxLen.toNat
        linkState := .awaitCrc } := by
  induction d generalizing l with
  | nil => exact absurd rfl h1
  | cons b q ih =>
    simp only [List.length_cons] at hl
    have hk : l.rxCnt.toNat < l.rxBuf.length := by omega
    have hsp := list_set_split l.rxBuf l.rxCnt.toNat b hk
    have hcnt : (l.rxCnt + 1#9).toNat = l.rxCnt.toNat + 1 := by
      rw [BitVec.toNat_add]; simp; omega
    rw [List.length_cons, ← Nat.add_assoc,
      Link.run_take (l := l) hc (by simp [hs, LinkState.receives]) he hb]
    have ht : ({ l with serRx := q ++ r } : Link).takeByte b =
        { l with
          serRx := q ++ r
          rxBuf := l.rxBuf.set l.rxCnt.toNat b
          rxCnt := l.rxCnt + 1#9
          linkState := if l.rxCnt.toNat + 1 < l.rxLen.toNat then .awaitData else .awaitCrc } := by
      simp [Link.takeByte, hs]
    rw [show q.append r = q ++ r from rfl, ht]
    by_cases hq : q = []
    · subst hq
      have : ¬ l.rxCnt.toNat + 1 < l.rxLen.toNat := by simp at hl; omega
      have hlen : l.rxLen.toNat = l.rxCnt.toNat + 1 := by simpa using hl
      have hset : l.rxBuf.set l.rxCnt.toNat b = l.rxBuf.take l.rxCnt.toNat ++ [b] ++ l.rxBuf.drop l.rxLen.toNat := by
        rw [hlen, ← hsp.1, ← hsp.2, List.take_append_drop]
      simp only [List.length_nil, Nat.add_zero, List.nil_append, this, if_false, hset, Nat.zero_add]
    · have hlt : l.rxCnt.toNat + 1 < l.rxLen.toNat := by
        have : q.length ≠ 0 := fun e => hq (List.length_eq_zero_iff.1 e)
        omega
      let m : Link :=
        { l with
          serRx := q ++ r
          rxBuf := l.rxBuf.set l.rxCnt.toNat b
          rxCnt := l.rxCnt + 1#9
          linkState := .awaitData }
      rw [if_pos hlt, ih (l := m) hc rfl he rfl hq (by simp only [m, hcnt]; omega) hm (by simpa [m] using hbuf)]
      simp only [m, hcnt, hsp.1]
      have hd : (l.rxBuf.set l.rxCnt.toNat b).drop l.rxLen.toNat = l.rxBuf.drop l.rxLen.toNat := by
        rw [List.drop_set_of_lt (by omega)]
      have hc2 : l.rxCnt + 1#9 + BitVec.ofNat 9 q.length = l.rxCnt + BitVec.ofNat 9 (q.length + 1) := by
        rw [BitVec.ofNat_add, BitVec.add_assoc, BitVec.add_comm (BitVec.ofNat 9 q.length)]
      rw [hd, hc2]
      simp

/-- `AWAIT_CRC` with the right checksum. -/
theorem Link.run_crc {now : Time} {l : Link} {b : Byte} {r : List Byte} (hc : l.ctl = .exchange)
    (hs : l.linkState = .awaitCrc) (he : l.expired now = false) (hb : l.serRx = b :: r) (n : Nat) :
    Link.run now (n + 1) l = Link.run now n
      { l with
        serRx := r
        rxCrc := b
        linkState := if b = responseCrc l.rxLen (l.rxBuf.take l.rxLen.toNat) then .ok else .crcMismatch } := by
  rw [Link.run_take hc (by simp [hs, LinkState.receives]) he hb]
  simp [Link.takeByte, hs]

/-- `DRAIN`: exactly LEN + 1 bytes are discarded. -/
theorem Link.run_drain {now : Time} (d : List Byte) {l : Link} {r : List Byte} (hc : l.ctl = .exchange)
    (hs : l.linkState = .drain) (he : l.expired now = false) (hb : l.serRx = d ++ r) (h1 : d ≠ [])
    (hl : l.rxLen.toNat + 1 = l.rxCnt.toNat + d.length) (n : Nat) :
    Link.run now (n + d.length) l = Link.run now n
      { l with serRx := r, rxCnt := l.rxLen.setWidth 9, linkState := .lenMismatch } := by
  induction d generalizing l with
  | nil => exact absurd rfl h1
  | cons b q ih =>
    simp only [List.length_cons] at hl
    have hlen := l.rxLen.isLt
    rw [List.length_cons, ← Nat.add_assoc,
      Link.run_take (l := l) hc (by simp [hs, LinkState.receives]) he hb, show q.append r = q ++ r from rfl]
    by_cases hq : q = []
    · subst hq
      have hk : l.rxCnt.toNat = l.rxLen.toNat := by simp at hl; omega
      have : l.rxLen.setWidth 9 = l.rxCnt := by
        apply BitVec.eq_of_toNat_eq
        rw [hk, BitVec.toNat_setWidth]; omega
      simp [Link.takeByte, hs, hk, this]
    · have hlt : l.rxCnt.toNat + 1 < l.rxLen.toNat + 1 := by
        have : q.length ≠ 0 := fun e => hq (List.length_eq_zero_iff.1 e)
        omega
      have ht : ({ l with serRx := q ++ r } : Link).takeByte b = { l with serRx := q ++ r, rxCnt := l.rxCnt + 1#9 } := by
        simp only [Link.takeByte, hs, hlt, if_true]
      have hcnt : (l.rxCnt + 1#9).toNat = l.rxCnt.toNat + 1 := by
        rw [BitVec.toNat_add]; simp; omega
      rw [ht, ih (l := { l with serRx := q ++ r, rxCnt := l.rxCnt + 1#9 }) hc hs he rfl hq (by simp only [hcnt]; omega)]

/-- A whole exchange whose response arrives whole and in time is OK, and leaves the registers as `Link.exchanged` says. -/
theorem Link.run_exchange {now : Time} {l : Link} {op : LinkOp} {noise resp rest : List Byte} (hc : l.ctl = .start)
    (ho : linkOpOf l.lkOp = some op) (ha : Answered noise resp rest l) (hexp : l.expOf op = BitVec.ofNat 8 resp.length)
    (h1 : 1 ≤ resp.length) (h32 : resp.length ≤ 32) (hbuf : l.rxBuf.length = 32) (n : Nat) :
    Link.run now (n + (noise.length + resp.length + 5)) l =
      Link.run now n (l.exchanged now (l.cmdOf op) (l.payloadOf op) resp rest) := by
  obtain ⟨hrx, hnoise, ht⟩ := ha
  have hlen : (BitVec.ofNat 8 resp.length).toNat = resp.length := by simp; omega
  have hne : resp ≠ [] := fun e => by simp [e] at h1
  have e : n + (noise.length + resp.length + 5) = (((n + 1) + resp.length) + 2 + noise.length) + 2 := by omega
  have hex : ∀ m : Link, m.t0 = now → m.timeoutMs = l.timeoutMs → m.expired now = false :=
    fun m h0 hm => Link.not_expired_at_send h0 (by rw [hm]; exact ht)
  have hk0 : BitVec.ofNat 8 resp.length ≠ 0#8 := fun h => by
    have := congrArg BitVec.toNat h
    simp at this
    omega
  rw [e, Link.run_send hc ho, Link.run_noise noise (r := encodeResponse resp ++ rest),
    Link.run_header (k := BitVec.ofNat 8 resp.length)
      (r := resp ++ ([responseCrc (BitVec.ofNat 8 resp.length) resp] ++ rest)),
    Link.run_data resp (r := [responseCrc (BitVec.ofNat 8 resp.length) resp] ++ rest),
    Link.run_crc (b := responseCrc (BitVec.ofNat 8 resp.length) resp) (r := rest)]
  · simp only [hlen, List.take_zero, List.nil_append, BitVec.toNat_ofNat, Nat.zero_mod, List.take_left', BitVec.zero_add,
      if_true, Link.goto, Link.send, Link.exchanged, hexp]
  all_goals first
    | rfl
    | exact hk0
    | exact hne
    | exact hbuf
    | exact hnoise
    | exact hex _ rfl rfl
    | (simp [Link.goto, Link.send, hrx, hexp, encodeResponse]; done)
    | (simp [hlen]; done)
    | (simp only [hlen]; exact h32)

/-! ### Requests at the idle port -/

/-- A request that the idle port accepts is run for a quantum. -/
theorem presentLink_idle {s : State} {r : LinkReq} {l : Link} (h : LinkIdle s) (ha : Link.accept r s.link = .next l) :
    presentLink r s = liftLink s (Link.run s.tNow s.env.quantum l) := by
  have h' : s.link.ctl = .idle ∧ s.link.waiting = [] := h
  rw [presentLink, Link.present, if_pos h', ha, andThen_next]

/-- Accepting an operation of one exchange. -/
theorem Link.accept_scalar {op : LinkOp} {code : Byte} {args : List Byte} {wire : Bool} {l : Link}
    (ho : linkOpOf code = some op) (hb : op.isBulk = false) (hi : op ≠ .init)
    (hr : op.beforeHandshake = true ∨ l.linkReady = true) :
    Link.accept { op := code, args := args, data := [], n := 0, wire := wire } l =
      .next { l.latched code args with ctl := .start } := by
  have : (!op.beforeHandshake && !l.linkReady) = false := by
    rcases hr with h | h <;> simp [h]
  simp [Link.accept, ho, this, hb, hi, Link.latched]

/-- The end of an exchange that went well. -/
theorem Link.run_ok {now : Time} {l : Link} {op : LinkOp} (hc : l.ctl = .exchange) (hs : l.linkState = .ok)
    (ho : linkOpOf l.lkOp = some op) (n : Nat) : Link.run now (n + 1) l = Link.run now n (l.onOk now op) := by
  rw [Link.run_succ (by simp [hc]) (by simp [Link.blocked, hc, hs])]
  simp [Link.micro, hc, hs, ho]

/-- The end of an exchange that failed, in the state and with the status given. -/
theorem Link.run_failed {now : Time} {l : Link} {op : LinkOp} {st : BitVec 3} (hc : l.ctl = .exchange)
    (hs : (l.linkState = .timeout ∧ st = stTimeout) ∨ (l.linkState = .lenMismatch ∧ st = stLenMismatch) ∨
      (l.linkState = .crcMismatch ∧ st = stCrcMismatch))
    (ho : linkOpOf l.lkOp = some op) (n : Nat) : Link.run now (n + 1) l = Link.run now n (l.fail now op st) := by
  rcases hs with ⟨hs, rfl⟩ | ⟨hs, rfl⟩ | ⟨hs, rfl⟩ <;>
    rw [Link.run_succ (by simp [hc]) (by simp [Link.blocked, hc, hs])] <;> simp [Link.micro, hc, hs, ho]

theorem Link.received_exchanged (now : Time) (cmd : Byte) (payload resp rest : List Byte) (l : Link)
    (h : resp.length ≤ 32) : (l.exchanged now cmd payload resp rest).received = resp := by
  have : (BitVec.ofNat 8 resp.length).toNat = resp.length := by simp; omega
  simp [Link.received, Link.exchanged, this]

/-- An operation of one exchange, answered whole and in time, runs to the end of its exchange. -/
theorem presentLink_exchange {s : State} {op : LinkOp} {code : Byte} {args : List Byte} {wire : Bool}
    {noise resp rest : List Byte} (ho : linkOpOf code = some op) (hb : op.isBulk = false) (hi : op ≠ .init)
    (hr : op.beforeHandshake = true ∨ s.link.linkReady = true) (hl : LinkIdle s) (hq : LinkSeqInv s.link)
    (ha : Answered noise resp rest s.link) (hn : noise.length + resp.length + 6 ≤ s.env.quantum)
    (h1 : 1 ≤ resp.length) (h32 : resp.length ≤ 32)
    (hexp : (s.link.latched code args).expOf op = BitVec.ofNat 8 resp.length)
    (hidle : (((s.link.latched code args).exchanged s.tNow ((s.link.latched code args).cmdOf op)
      ((s.link.latched code args).payloadOf op) resp rest).onOk s.tNow op).ctl = .idle) :
    presentLink { op := code, args := args, data := [], n := 0, wire := wire } s =
      .next (s.setLink (((s.link.latched code args).exchanged s.tNow ((s.link.latched code args).cmdOf op)
        ((s.link.latched code args).payloadOf op) resp rest).onOk s.tNow op)) := by
  obtain ⟨q, hq'⟩ : ∃ q, s.env.quantum = (q + 1) + (noise.length + resp.length + 5) :=
    ⟨s.env.quantum - (noise.length + resp.length + 6), by omega⟩
  rw [presentLink_idle hl (Link.accept_scalar ho hb hi hr), hq']
  have hrx := Link.run_exchange (now := s.tNow) (l := { s.link.latched code args with ctl := .start }) (op := op)
    (noise := noise) (resp := resp) (rest := rest) rfl ho ha (by cases op <;> exact hexp) h1 h32 hq.buf (q + 1)
  rw [hrx, Link.run_ok rfl rfl (show linkOpOf code = some op from ho)]
  have heq : Link.exchanged s.tNow (Link.cmdOf op { s.link.latched code args with ctl := .start })
      (Link.payloadOf op { s.link.latched code args with ctl := .start }) resp rest
      { s.link.latched code args with ctl := .start } =
    (s.link.latched code args).exchanged s.tNow ((s.link.latched code args).cmdOf op)
      ((s.link.latched code args).payloadOf op) resp rest := rfl
  rw [heq, Link.run_stop (.inl hidle)]
  rfl

end Sys2Proof.Machine
end

