-- ==== Sys2Proof/Tests/Slice0.lean ====
section
/-! SUPPORT. The model's own tests: the domain of the operands, a decoded word for every operation, one or two steps of each
operation with results from spec/95_test_vectors.md, and a witness for the hypotheses of every obligation. -/

namespace Sys2Proof.Tests
open Sys2Proof.Machine

-- one test after another: a test that waits for the kernel would hold a thread of its own
set_option Elab.async false

/-! ### Small states -/

/-- A field after a step that answers a next state. -/
def after {α : Type} (x : Answer State) (f : State → α) : Option α :=
  match x with
  | .next s => some (f s)
  | .fault _ => none
  | .refused _ => none

/-- Why a step is refused. -/
def refusal (x : Answer State) : Option Refusal :=
  match x with
  | .next _ => none
  | .fault _ => none
  | .refused r => some r

/-- Concrete parameters: CAPACITY = 2^20, FILL_BYTE = 0x5A, WIP_BIT = 0, ARB_FAIR = 1. -/
def params : Params where
  lastSector := 255
  fillByte := 0x5A#8
  devCfg := { disp := ⟨1, true, 0#2⟩, mem := ⟨2, true, 3#2⟩ }
  sharedCfg := ⟨0, true, 0#2⟩
  wipBit := 0
  arbFair := true

/-- An idle machine with those parameters and the reference chip. -/
def base : State :=
  { State.reset with
    params := params
    arb := Arbiter.reset params.sharedCfg }

/-- link_ready = 1, and these bytes wait in ser_rx. -/
def linkWith (rx : List Byte) : State := base.setLink { base.link with linkReady := true, serRx := rx }

/-- The same before the handshake. -/
def unready (rx : List Byte) : State := base.setLink { base.link with serRx := rx }

/-- Any chip, which will answer these bytes. -/
def chipSays (ins : List Byte) : State :=
  (base.setChip { base.chip with kind := .free }).setEnv { base.env with busIn := ins }

/-- Client `c` holds the permit (end of V-A2). -/
def holding (c : Client) : State :=
  base.setArb { base.arb with permitCreated := true, permitOwner := some c }

/-- Client `d` has a transaction open (end of V-A4). -/
def opened (d : Client) : State :=
  base.setArb { base.arb with
    permitCreated := true
    permitOwner := some d
    busCfg := params.devCfg.get d
    cs := base.arb.cs.set d true
    txnOpen := some d
    busTrace := [.begin d] }

/-- Both clients wait for the free permit (V-A9). -/
def bothWait : State :=
  base.setArb { base.arb with
    permitCreated := true
    arbWait := { disp := true, mem := true }
    port := { disp := .acquiring, mem := .acquiring } }

/-- The arbiter's state as 95_test_vectors.md writes it. -/
structure ArbView where
  owner : Option Client
  waitDisp : Bool
  waitMem : Bool
  txn : Option Client
  csDisp : Bool
  csMem : Bool
  cfg : BusConfig
  deriving DecidableEq, Repr

/-- `(permit_owner, arb_wait[DISP], arb_wait[MEM], txn_open, cs[DISP], cs[MEM], bus_cfg)`. -/
def arbOf (s : State) : ArbView :=
  ⟨s.arb.permitOwner, s.arb.arbWait.disp, s.arb.arbWait.mem, s.arb.txnOpen, s.arb.cs.disp, s.arb.cs.mem, s.arb.busCfg⟩

/-- Result, bytes sent, bytes left. -/
def linkOf (s : State) : Result × List Byte × List Byte := (s.link.lkResult, s.link.serTx, s.link.serRx)

/-- The bus trace since the start, and the result data. -/
def flashOf (s : State) : List BusEvent × List Byte := (s.arb.busTrace, s.flash.flResult.data)

/-- The trace of one transaction of MEM: `MEM[ o/i ... ]`. -/
def mem (ois : List (Byte × Byte)) : List BusEvent :=
  [.begin .mem] ++ ois.map (fun x => BusEvent.xfer .mem x.1 x.2) ++ [.finish .mem]

/-- A good result. -/
def good (d : List Byte) : Result := { ok := true, status := 0#3, data := d, valid := d.length }

/-- A failed result. -/
def bad (st : BitVec 3) (d : List Byte) : Result := { ok := false, status := st, data := d, valid := d.length }

/-! ### The domain of the operands (R8, R40, R102, R106, R254): an ill-formed term for each check, and the boundary -/

theorem test_wfBulk : Instr.wf (.spiTransfer (List.replicate 65536 0#8)) = false ∧
    Instr.wf (.i2cWrite 0#8 (List.replicate 65535 0#8)) = true := by
  constructor <;> rw [Instr.wf, wfBulk, List.length_replicate] <;> decide
theorem test_wfLength : Instr.wf (.read 0#24 0x1000001#25) = false ∧ Instr.wf (.read 0#24 0x1000000#25) = true := by decide
theorem test_wfLength_write (d : List Byte) (h : d.length = 0x1000001) : Instr.wf (.write 0#24 d) = false := by
  rw [Instr.wf, wfLength, h]
  decide
theorem test_wfLength_bus : Instr.wf (.busReadData 0#24 0x1000001#25) = false := by decide
theorem test_wfI2cChunk : Instr.wf (.reqI2cWrite 0#8 []) = true ∧
    Instr.wf (.reqI2cWrite 0#8 (List.replicate 32 0#8)) = false ∧
    Instr.wf (.reqI2cWrite 0#8 (List.replicate 31 0#8)) = true := by decide
theorem test_wfI2cLen : Instr.wf (.reqI2cRead 0#8 0#8) = false ∧ Instr.wf (.reqI2cRead 0#8 33#8) = false ∧
    Instr.wf (.reqI2cRead 0#8 32#8) = true := by decide
theorem test_wfSpiChunk : Instr.wf (.reqSpiTransfer []) = false ∧
    Instr.wf (.reqSpiTransfer (List.replicate 33 0#8)) = false ∧
    Instr.wf (.reqSpiTransfer (List.replicate 32 0#8)) = true := by decide
theorem test_wfPayload : Instr.wf (.response (List.replicate 256 0#8)) = false ∧
    Instr.wf (.response (List.replicate 255 0#8)) = true := by
  constructor <;> rw [Instr.wf, wfPayload, List.length_replicate] <;> decide
theorem test_wfPageProgram : Instr.wf (.busPageProgram 0#24 []) = false ∧
    Instr.wf (.busPageProgram 0xFF#24 [0#8, 0#8]) = false ∧ Instr.wf (.busPageProgram 0xFF#24 [0#8]) = true := by decide
/-- Terms outside their domain are refused by the meanings as well (log 34). -/
theorem test_illFormed_refused :
    refusal (exec (.reqI2cRead 0#8 33#8) base) = some .illFormed ∧
    refusal (exec (.reqI2cWrite 0#8 (List.replicate 32 0#8)) base) = some .illFormed ∧
    refusal (exec (.reqSpiTransfer []) base) = some .illFormed ∧
    refusal (exec (.busPageProgram 0xFF#24 [0#8, 0#8]) base) = some .illFormed ∧
    refusal (exec (.busReadData 0#24 0x1000001#25) base) = some .illFormed := by decide

/-! ### A decoded word for every operation, written out from R101, R102, R104, R106, R108, R109 -/

theorem test_decode_arb :
    decode (.arb .disp) [0x00#8] = .ok (.acquire .disp) ∧ decode (.arb .mem) [0x01#8] = .ok (.release .mem) ∧
    decode (.arb .mem) [0x02#8] = .ok (.beginTransaction .mem) ∧
    decode (.arb .disp) [0x03#8] = .ok (.endTransaction .disp) ∧
    decode (.arb .disp) [0x04#8, 0x2C#8] = .ok (.busXfer .disp 0x2C#8) := by decide
theorem test_decode_link :
    decode .link [0x00#8] = .ok .init ∧ decode .link [0x01#8, 0x0D#8, 0x01#8] = .ok (.pinMode 0x0D#8 0x01#8) ∧
    decode .link [0x02#8, 0x0D#8, 0x01#8] = .ok (.digitalWrite 0x0D#8 0x01#8) ∧
    decode .link [0x03#8, 0x07#8] = .ok (.digitalRead 0x07#8) ∧
    decode .link [0x04#8, 0x05#8, 0x80#8] = .ok (.analogWrite 0x05#8 0x80#8) ∧
    decode .link [0x05#8, 0x03#8] = .ok (.analogRead 0x03#8) ∧
    decode .link [0x10#8, 0x3C#8, 0x00#8, 0xAF#8] = .ok (.i2cWrite 0x3C#8 [0x00#8, 0xAF#8]) ∧
    decode .link [0x11#8, 0x68#8, 0x01#8, 0x02#8] = .ok (.i2cRead 0x68#8 0x0102#16) ∧
    decode .link [0x20#8, 0x00#8, 0x04#8] = .ok (.spiInit 0x00#8 0x04#8) ∧
    decode .link [0x21#8, 0xDE#8, 0xAD#8] = .ok (.spiTransfer [0xDE#8, 0xAD#8]) ∧
    decode .link [0x90#8, 0x02#8, 0x00#8] = .ok (.installSleepMonitor 0x02#8 0x00#8) ∧
    decode .link [0x99#8] = .ok .ping := by decide +kernel
theorem test_decode_flash :
    decode .flash [0x00#8] = .ok .waitForReady ∧
    decode .flash [0x02#8, 0x00#8, 0x00#8, 0xF0#8, 0xA5#8] = .ok (.write 0x0000F0#24 [0xA5#8]) ∧
    decode .flash [0x03#8, 0x00#8, 0x01#8, 0xFE#8, 0x00#8, 0x00#8, 0x00#8, 0x04#8] = .ok (.read 0x0001FE#24 4#25) ∧
    decode .flash [0x05#8] = .ok .isBusy ∧
    decode .flash [0x20#8, 0x00#8, 0x12#8, 0x34#8] = .ok (.eraseSector 0x001234#24) ∧
    decode .flash [0x9F#8] = .ok .identify ∧ decode .flash [0xAB#8] = .ok .wakeUp ∧
    decode .flash [0xB9#8] = .ok .powerDown ∧ decode .flash [0xC7#8] = .ok .eraseChip := by decide +kernel
/-- The frames of V-C1 to V-C11. -/
theorem test_decode_req :
    decode .req [0xAA#8, 0x01#8, 0x02#8, 0x0D#8, 0x01#8, 0x0F#8] = .ok (.reqPinMode 0x0D#8 0x01#8) ∧
    decode .req [0xAA#8, 0x02#8, 0x02#8, 0x0D#8, 0x01#8, 0x0C#8] = .ok (.reqDigitalWrite 0x0D#8 0x01#8) ∧
    decode .req [0xAA#8, 0x03#8, 0x01#8, 0x07#8, 0x05#8] = .ok (.reqDigitalRead 0x07#8) ∧
    decode .req [0xAA#8, 0x04#8, 0x02#8, 0x05#8, 0x80#8, 0x83#8] = .ok (.reqAnalogWrite 0x05#8 0x80#8) ∧
    decode .req [0xAA#8, 0x05#8, 0x01#8, 0x03#8, 0x07#8] = .ok (.reqAnalogRead 0x03#8) ∧
    decode .req [0xAA#8, 0x10#8, 0x03#8, 0x3C#8, 0x00#8, 0xAF#8, 0x80#8] = .ok (.reqI2cWrite 0x3C#8 [0x00#8, 0xAF#8]) ∧
    decode .req [0xAA#8, 0x11#8, 0x02#8, 0x68#8, 0x02#8, 0x79#8] = .ok (.reqI2cRead 0x68#8 0x02#8) ∧
    decode .req [0xAA#8, 0x20#8, 0x02#8, 0x00#8, 0x04#8, 0x26#8] = .ok (.reqSpiInit 0x00#8 0x04#8) ∧
    decode .req [0xAA#8, 0x21#8, 0x02#8, 0xDE#8, 0xAD#8, 0x50#8] = .ok (.reqSpiTransfer [0xDE#8, 0xAD#8]) ∧
    decode .req [0xAA#8, 0x90#8, 0x02#8, 0x02#8, 0x00#8, 0x90#8] = .ok (.reqInstallSleepMonitor 0x02#8 0x00#8) ∧
    decode .req [0xAA#8, 0x99#8, 0x00#8, 0x99#8] = .ok .reqPing := by decide +kernel
theorem test_decode_rsp :
    decode .rsp [0xAA#8, 0x02#8, 0x0F#8, 0xA0#8, 0xAD#8] = .ok (.response [0x0F#8, 0xA0#8]) := by decide
/-- The transactions of V-F13 to V-F26; a zero stands for every byte to come in (log 3). -/
theorem test_decode_bus :
    decode .bus [0x06#8] = .ok .busWriteEnable ∧ decode .bus [0x05#8, 0x00#8] = .ok .busReadStatus1 ∧
    decode .bus [0x03#8, 0x12#8, 0x34#8, 0x56#8, 0x00#8] = .ok (.busReadData 0x123456#24 1#25) ∧
    decode .bus [0x02#8, 0x00#8, 0x00#8, 0x10#8, 0xA5#8] = .ok (.busPageProgram 0x000010#24 [0xA5#8]) ∧
    decode .bus [0x20#8, 0x00#8, 0x12#8, 0x34#8] = .ok (.busSectorErase4K 0x001234#24) ∧
    decode .bus [0xC7#8] = .ok .busChipErase ∧ decode .bus [0x9F#8, 0x00#8, 0x00#8, 0x00#8] = .ok .busJedecId ∧
    decode .bus [0xB9#8] = .ok .busPowerDown ∧ decode .bus [0xAB#8] = .ok .busReleasePowerDown := by decide +kernel
/-- What is no operation is rejected by name (R101, R112, R113, R114 (a), R254). -/
theorem test_decode_rejects :
    decode (.arb .disp) [0x05#8] = .error .unknownOpSel ∧ decode .link [0x06#8] = .error .unknownOpSel ∧
    decode .flash [0x01#8] = .error .unknownOpSel ∧ decode .link [] = .error .empty ∧
    decode .req [0xAA#8, 0x06#8, 0x00#8, 0x06#8] = .error .unknownCmd ∧
    decode .req [0xAA#8, 0x05#8, 0x01#8, 0x03#8, 0x06#8] = .error .badChecksum ∧
    decode .req [0xAB#8, 0x99#8, 0x00#8, 0x99#8] = .error .notStart ∧
    decode .req [0xAA#8, 0x99#8, 0x00#8, 0x99#8, 0x00#8] = .error .badLength ∧
    decode .bus [0x04#8] = .error .unknownOpcode ∧
    decode .bus [0x02#8, 0x00#8, 0x00#8, 0xFF#8, 0x01#8, 0x02#8] = .error .badPage := by decide +kernel
/-- V-L6: the longest frame. -/
theorem test_encode_longest :
    encodeRequest 0x21#8 ((List.range 32).map (BitVec.ofNat 8)) =
      [0xAA#8, 0x21#8, 0x20#8] ++ (List.range 32).map (BitVec.ofNat 8) ++ [0x01#8] := by decide +kernel
/-- Words of the opcode table: shared words go to the FLASH port first, a request frame is completed (log 4, log 5). -/
theorem test_table_words :
    decodeTableWord 8 0x9F = some .identify ∧ decodeTableWord 8 0x06 = some .busWriteEnable ∧
    decodeTableWord 8 0x99 = some .ping ∧ decodeTableWord 8 0xAA = some (.response []) ∧
    decodeTableWord 16 0xAA03 = some (.reqDigitalRead 0#8) ∧ decodeTableWord 16 0xAB03 = none := by decide +kernel
/-- The word put in place is run by the very next step. -/
theorem test_withFetchWord :
    after (step (State.reset.withFetchWord 8 0x01)) (fun t => t.env.inbox) = none ∧
    after (step (State.reset.withFetchWord 8 0x99)) (fun t => t.link.serTx) =
      some [0xAA#8, 0x99#8, 0x00#8, 0x99#8] := by decide +kernel

/-! ### The arbiter (V-A1 to V-A18) -/

theorem test_acquire : after (exec (.acquire .disp) base) (fun t => (arbOf t, t.arb.permitCreated)) =
    some (⟨some .disp, false, false, none, false, false, params.sharedCfg⟩, true) := by decide
theorem test_acquire_again : refusal (exec (.acquire .disp) (holding .disp)) = some .reacquire := by decide
theorem test_release : after (exec (.release .disp) (holding .disp)) arbOf =
    some ⟨none, false, false, none, false, false, params.sharedCfg⟩ := by decide
theorem test_release_refused : refusal (exec (.release .mem) (holding .disp)) = some .releaseMisuse ∧
    refusal (exec (.release .mem) (opened .mem)) = some .releaseMisuse := by decide
theorem test_begin : after (exec (.beginTransaction .mem) base) arbOf =
    some ⟨some .mem, false, false, some .mem, false, true, params.devCfg.mem⟩ := by decide
theorem test_begin_waits : after (exec (.beginTransaction .disp) (opened .mem)) arbOf =
    some ⟨some .mem, true, false, some .mem, false, true, params.devCfg.mem⟩ := by decide
theorem test_end : after (exec (.endTransaction .mem) (opened .mem)) arbOf =
    some ⟨none, false, false, none, false, false, params.sharedCfg⟩ := by decide
theorem test_end_refused : refusal (exec (.endTransaction .mem) base) = some .endMisuse := by decide
theorem test_busXfer : after (exec (.busXfer .mem 0x9F#8) ((opened .mem).setEnv { base.env with busIn := [0x77#8] }))
    (fun t => (t.arb.busTrace, t.arb.lastIn.mem, t.env.busIn)) =
    some ([.begin .mem, .xfer .mem 0x9F#8 0x77#8], 0x77#8, []) := by decide
theorem test_busXfer_refused : refusal (exec (.busXfer .disp 0#8) (opened .mem)) = some .xferMisuse ∧
    refusal (exec (.busXfer .disp 0#8) (holding .disp)) = some .xferMisuse := by decide
/-- V-A9: both choices are legal. -/
theorem test_grant :
    after (runInput (.grant .disp) bothWait) (fun t => (t.arb.permitOwner, t.arb.arbWait)) =
      some (some .disp, ⟨false, true⟩) ∧
    after (runInput (.grant .mem) bothWait) (fun t => (t.arb.permitOwner, t.arb.arbWait)) =
      some (some .mem, ⟨true, false⟩) := by decide

/-- ARB_FAIR (R143): a client that may not be passed over again is granted whichever the schedule names, and passing it
over brings it nearer to that (log 28). -/
theorem test_grant_fair :
    after (runInput (.grant .disp) (bothWait.setArb { bothWait.arb with passed := ⟨none, some 0⟩ }))
      (fun t => t.arb.permitOwner) = some none ∧
    after (runInput (.grant .disp) (bothWait.setArb { bothWait.arb with passed := ⟨none, some 1⟩ }))
      (fun t => (t.arb.permitOwner, t.arb.passed)) = some (some .disp, ⟨none, some 0⟩) := by decide

/-! ### The link (Scenario A, Scenario B, V-X, V-C) -/

/-- Scenario A. -/
theorem test_init : after (exec .init (unready [0xAA#8, 0x01#8, 0xAA#8, 0xAB#8]))
    (fun t => (linkOf t, t.link.linkReady, t.link.pingTry)) =
    some ((good [], [0xAA#8, 0x99#8, 0x00#8, 0x99#8], []), true, 1#2) := by decide +kernel
/-- The first attempt of V-C28: a wrong byte leads to the pause. -/
theorem test_init_pauses : after (exec .init (unready [0xAA#8, 0x01#8, 0x55#8, 0x54#8]))
    (fun t => (t.link.ctl, t.link.linkReady)) = some (.pause 0#32, false) := by decide +kernel
theorem test_pinMode : after (exec (.pinMode 13#8 1#8) (linkWith [0xAA#8, 0x01#8, 0xFF#8, 0xFE#8])) linkOf =
    some (good [0xFF#8], [0xAA#8, 0x01#8, 0x02#8, 0x0D#8, 0x01#8, 0x0F#8], []) := by decide +kernel
/-- V-X9 on another command. -/
theorem test_pinMode_drains :
    after (exec (.pinMode 13#8 1#8)
      (linkWith [0xAA#8, 0x02#8, 0x11#8, 0x22#8, 0x31#8, 0xAA#8, 0x01#8, 0x01#8, 0x00#8])) linkOf =
    some (bad 2#3 [], [0xAA#8, 0x01#8, 0x02#8, 0x0D#8, 0x01#8, 0x0F#8], [0xAA#8, 0x01#8, 0x01#8, 0x00#8]) := by
  decide +kernel
theorem test_digitalWrite : after (exec (.digitalWrite 13#8 1#8) (linkWith [0xAA#8, 0x01#8, 0x01#8, 0x00#8])) linkOf =
    some (good [0x01#8], [0xAA#8, 0x02#8, 0x02#8, 0x0D#8, 0x01#8, 0x0C#8], []) := by decide +kernel
/-- V-C22. -/
theorem test_digitalWrite_refused : refusal (exec (.digitalWrite 13#8 1#8) (unready [])) = some .linkNotReady := by decide
theorem test_digitalRead : after (exec (.digitalRead 7#8) (linkWith [0x00#8, 0x13#8, 0xAA#8, 0x01#8, 0x7F#8, 0x7E#8])) linkOf =
    some (good [0x7F#8], [0xAA#8, 0x03#8, 0x01#8, 0x07#8, 0x05#8], []) := by decide +kernel
/-- V-X20: with timeout_ms = 0 the deadline is tested before the byte. -/
theorem test_digitalRead_timeout :
    after (exec (.digitalRead 7#8) ((linkWith [0xAA#8, 0x01#8, 0x01#8, 0x00#8]).setLink
      { (linkWith [0xAA#8, 0x01#8, 0x01#8, 0x00#8]).link with timeoutMs := 0#16 })) linkOf =
    some (bad 1#3 [], [0xAA#8, 0x03#8, 0x01#8, 0x07#8, 0x05#8], [0xAA#8, 0x01#8, 0x01#8, 0x00#8]) := by decide +kernel
theorem test_analogWrite : after (exec (.analogWrite 5#8 128#8) (linkWith [0xAA#8, 0x01#8, 0x01#8, 0x00#8])) linkOf =
    some (good [0x01#8], [0xAA#8, 0x04#8, 0x02#8, 0x05#8, 0x80#8, 0x83#8], []) := by decide +kernel
/-- V-X8 on another command. -/
theorem test_analogWrite_crc : after (exec (.analogWrite 5#8 128#8) (linkWith [0xAA#8, 0x01#8, 0x01#8, 0x01#8]))
    (fun t => (t.link.lkResult, t.link.linkStatus)) = some (bad 3#3 [], 3#3) := by decide +kernel
/-- Scenario B, with the corrected checksum 07. -/
theorem test_analogRead : after (exec (.analogRead 3#8) (linkWith [0xAA#8, 0x02#8, 0x0F#8, 0xA0#8, 0xAD#8])) linkOf =
    some (good [0x0F#8, 0xA0#8], [0xAA#8, 0x05#8, 0x01#8, 0x03#8, 0x07#8], []) := by decide +kernel
/-- R110 (d): the value returned to the host is 4000, and none is returned by another operation. -/
theorem test_analogRead_value :
    after (exec (.analogRead 3#8) (linkWith [0xAA#8, 0x02#8, 0x0F#8, 0xA0#8, 0xAD#8])) (fun t => t.link.hostValue) =
      some (some 4000#16) ∧
    after (exec .ping (unready [0xAA#8, 0x01#8, 0xAA#8, 0xAB#8])) (fun t => t.link.hostValue) = some none := by
  decide +kernel
/-- V-C16. -/
theorem test_analogRead_short : after (exec (.analogRead 3#8) (linkWith [0xAA#8, 0x01#8, 0x01#8, 0x00#8]))
    (fun t => t.link.lkResult) = some (bad 2#3 []) := by decide +kernel
/-- V-C42. -/
theorem test_i2cWrite :
    after (exec (.i2cWrite 0x50#8 ((List.range 40).map (BitVec.ofNat 8)))
      (linkWith [0xAA#8, 0x01#8, 0x01#8, 0x00#8, 0xAA#8, 0x01#8, 0x01#8, 0x00#8])) (fun t => (linkOf t, t.link.bulkOff)) =
    some ((good [0x01#8], [0xAA#8, 0x10#8, 0x20#8, 0x50#8] ++ (List.range 31).map (BitVec.ofNat 8) ++ [0x7F#8] ++
      [0xAA#8, 0x10#8, 0x0A#8, 0x50#8, 0x1F#8, 0x20#8, 0x21#8, 0x22#8, 0x23#8, 0x24#8, 0x25#8, 0x26#8, 0x27#8, 0x55#8],
      []), 40#16) := by decide +kernel
/-- V-C20. -/
theorem test_i2cWrite_nack : after (exec (.i2cWrite 0x3C#8 [0x00#8, 0xAF#8]) (linkWith [0xAA#8, 0x01#8, 0x02#8, 0x03#8])) linkOf =
    some (bad 4#3 [], [0xAA#8, 0x10#8, 0x03#8, 0x3C#8, 0x00#8, 0xAF#8, 0x80#8], []) := by decide +kernel
theorem test_i2cRead : after (exec (.i2cRead 0x68#8 2#16) (linkWith [0xAA#8, 0x02#8, 0x12#8, 0x34#8, 0x24#8])) linkOf =
    some (good [0x12#8, 0x34#8], [0xAA#8, 0x11#8, 0x02#8, 0x68#8, 0x02#8, 0x79#8], []) := by decide +kernel
/-- V-C44, the second frame sent and not yet answered. -/
theorem test_i2cRead_second_frame :
    after (exec (.i2cRead 0x50#8 40#16)
      (linkWith ([0xAA#8, 0x20#8] ++ (List.range 32).map (BitVec.ofNat 8) ++ [0x20#8])))
      (fun t => (t.link.serTx, t.link.expLen, t.link.out.length)) =
    some ([0xAA#8, 0x11#8, 0x02#8, 0x50#8, 0x20#8, 0x63#8, 0xAA#8, 0x11#8, 0x02#8, 0x50#8, 0x08#8, 0x4B#8], 8#8, 32) := by
  decide +kernel
theorem test_spiInit : after (exec (.spiInit 0#8 4#8) (linkWith [0xAA#8, 0x01#8, 0x01#8, 0x00#8])) linkOf =
    some (good [0x01#8], [0xAA#8, 0x20#8, 0x02#8, 0x00#8, 0x04#8, 0x26#8], []) := by decide +kernel
theorem test_spiTransfer : after (exec (.spiTransfer [0xDE#8, 0xAD#8]) (linkWith [0xAA#8, 0x02#8, 0xBE#8, 0xEF#8, 0x53#8])) linkOf =
    some (good [0xBE#8, 0xEF#8], [0xAA#8, 0x21#8, 0x02#8, 0xDE#8, 0xAD#8, 0x50#8], []) := by decide +kernel
/-- PROG-5: data[i] = 3 i + 1, answered inverted; the second response is damaged (E1 for E0). -/
def prog5 (lo n : Nat) : List Byte := (List.range n).map (fun i => ~~~(BitVec.ofNat 8 (3 * (lo + i) + 1)))
theorem test_spiTransfer_aborts :
    after (exec (.spiTransfer ((List.range 70).map (fun i => BitVec.ofNat 8 (3 * i + 1))))
      (linkWith ([0xAA#8, 0x20#8] ++ prog5 0 32 ++ [0x60#8] ++ [0xAA#8, 0x20#8] ++ prog5 32 32 ++ [0xE1#8])))
      (fun t => (t.link.lkResult, t.link.serTx.length, t.link.serRx, t.link.bulkN, t.link.bulkOff, t.link.linkStatus)) =
    some (bad 3#3 (prog5 0 32), 72, [], 70#16, 32#16, 3#3) := by decide +kernel
theorem test_installSleepMonitor :
    after (exec (.installSleepMonitor 2#8 0#8) (linkWith [0xAA#8, 0x01#8, 0x01#8, 0x00#8])) linkOf =
    some (good [0x01#8], [0xAA#8, 0x90#8, 0x02#8, 0x02#8, 0x00#8, 0x90#8], []) := by decide +kernel
theorem test_ping : after (exec .ping (unready [0xAA#8, 0x01#8, 0xAA#8, 0xAB#8])) linkOf =
    some (good [0xAA#8], [0xAA#8, 0x99#8, 0x00#8, 0x99#8], []) := by decide +kernel
/-- V-C18. -/
theorem test_ping_nack : after (exec .ping (unready [0xAA#8, 0x01#8, 0x55#8, 0x54#8])) (fun t => t.link.lkResult) =
    some (bad 4#3 []) := by decide +kernel
/-- V-C23. -/
theorem test_emptyBulk : refusal (exec (.i2cRead 0x68#8 0#16) (linkWith [])) = some .emptyBulk ∧
    refusal (exec (.spiTransfer []) (linkWith [])) = some .emptyBulk ∧
    refusal (exec (.i2cWrite 0x3C#8 []) (linkWith [])) = some .emptyBulk := by decide

/-! ### Request and response frames: the same exchanges (log 7, log 8) -/

theorem test_reqPinMode : after (exec (.reqPinMode 13#8 1#8) (linkWith [0xAA#8, 0x01#8, 0x01#8, 0x00#8])) linkOf =
    some (good [0x01#8], [0xAA#8, 0x01#8, 0x02#8, 0x0D#8, 0x01#8, 0x0F#8], []) := by decide +kernel
theorem test_reqDigitalWrite : after (exec (.reqDigitalWrite 13#8 1#8) (linkWith [0xAA#8, 0x01#8, 0x01#8, 0x00#8])) linkOf =
    some (good [0x01#8], [0xAA#8, 0x02#8, 0x02#8, 0x0D#8, 0x01#8, 0x0C#8], []) := by decide +kernel
theorem test_reqDigitalRead : after (exec (.reqDigitalRead 7#8) (linkWith [0xAA#8, 0x01#8, 0x01#8, 0x00#8])) linkOf =
    some (good [0x01#8], [0xAA#8, 0x03#8, 0x01#8, 0x07#8, 0x05#8], []) := by decide +kernel
theorem test_reqAnalogWrite : after (exec (.reqAnalogWrite 5#8 128#8) (linkWith [0xAA#8, 0x01#8, 0x01#8, 0x00#8])) linkOf =
    some (good [0x01#8], [0xAA#8, 0x04#8, 0x02#8, 0x05#8, 0x80#8, 0x83#8], []) := by decide +kernel
theorem test_reqAnalogRead : after (exec (.reqAnalogRead 3#8) (linkWith [0xAA#8, 0x02#8, 0x0F#8, 0xA0#8, 0xAD#8])) linkOf =
    some (good [0x0F#8, 0xA0#8], [0xAA#8, 0x05#8, 0x01#8, 0x03#8, 0x07#8], []) := by decide +kernel
theorem test_reqI2cWrite : after (exec (.reqI2cWrite 0x3C#8 [0x00#8, 0xAF#8]) (linkWith [0xAA#8, 0x01#8, 0x00#8, 0x01#8])) linkOf =
    some (bad 4#3 [], [0xAA#8, 0x10#8, 0x03#8, 0x3C#8, 0x00#8, 0xAF#8, 0x80#8], []) := by decide +kernel
/-- R106 at k = 0: LEN 1, the address alone (log 37). -/
theorem test_reqI2cWrite_empty :
    decode .req [0xAA#8, 0x10#8, 0x01#8, 0x3C#8, 0x2D#8] = .ok (.reqI2cWrite 0x3C#8 []) ∧
    after (exec (.reqI2cWrite 0x3C#8 []) (linkWith [0xAA#8, 0x01#8, 0x01#8, 0x00#8])) linkOf =
      some (good [0x01#8], [0xAA#8, 0x10#8, 0x01#8, 0x3C#8, 0x2D#8], []) := by decide +kernel
/-- R225, U11: before the handshake a request frame is refused as its host operation is, but for the ping. -/
theorem test_req_refused : refusal (exec (.reqDigitalRead 7#8) (unready [])) = some .linkNotReady ∧
    refusal (exec (.reqSpiTransfer [0xDE#8]) (unready [])) = some .linkNotReady := by decide
theorem test_reqI2cRead : after (exec (.reqI2cRead 0x68#8 2#8) (linkWith [0xAA#8, 0x02#8, 0x12#8, 0x34#8, 0x24#8])) linkOf =
    some (good [0x12#8, 0x34#8], [0xAA#8, 0x11#8, 0x02#8, 0x68#8, 0x02#8, 0x79#8], []) := by decide +kernel
theorem test_reqSpiInit : after (exec (.reqSpiInit 0#8 4#8) (linkWith [0xAA#8, 0x01#8, 0x01#8, 0x00#8])) linkOf =
    some (good [0x01#8], [0xAA#8, 0x20#8, 0x02#8, 0x00#8, 0x04#8, 0x26#8], []) := by decide +kernel
theorem test_reqSpiTransfer :
    after (exec (.reqSpiTransfer [0xDE#8, 0xAD#8]) (linkWith [0xAA#8, 0x02#8, 0xBE#8, 0xEF#8, 0x53#8])) linkOf =
    some (good [0xBE#8, 0xEF#8], [0xAA#8, 0x21#8, 0x02#8, 0xDE#8, 0xAD#8, 0x50#8], []) := by decide +kernel
theorem test_reqInstallSleepMonitor :
    after (exec (.reqInstallSleepMonitor 2#8 0#8) (linkWith [0xAA#8, 0x01#8, 0x01#8, 0x00#8])) linkOf =
    some (good [0x01#8], [0xAA#8, 0x90#8, 0x02#8, 0x02#8, 0x00#8, 0x90#8], []) := by decide +kernel
theorem test_reqPing : after (exec .reqPing (unready [0xAA#8, 0x01#8, 0xAA#8, 0xAB#8]))
    (fun t => (linkOf t, t.link.linkReady)) =
    some ((good [0xAA#8], [0xAA#8, 0x99#8, 0x00#8, 0x99#8], []), false) := by decide +kernel

/-- The engine waits for the response to `ANALOG_READ(3)`. -/
def waiting2 : State :=
  base.setLink { base.link with
    linkState := .awaitStart
    ctl := .exchange
    lkOp := 0x05#8
    lkArgs := [0x03#8]
    expLen := 2#8
    linkReady := true }

/-- V-X21: a response that arrives while nothing runs stays. -/
theorem test_response_stays : after (exec (.response [0x01#8]) (linkWith [])) (fun t => t.link.serRx) =
    some [0xAA#8, 0x01#8, 0x01#8, 0x00#8] := by decide +kernel
theorem test_response_taken : after (exec (.response [0x0F#8, 0xA0#8]) waiting2)
    (fun t => (t.link.lkResult, t.link.rxCrc, t.link.serRx)) = some (good [0x0F#8, 0xA0#8], 0xAD#8, []) := by decide +kernel

/-- U18, R180 to R182: bytes that are no frame arrive all the same; a wrong checksum ends the exchange, junk alone stays. -/
theorem test_response_undecoded :
    after (runInput (.request .rsp [0xAA#8, 0x02#8, 0x0F#8, 0xA0#8, 0xAE#8]) waiting2) (fun t => (t.link.lkResult, t.link.serRx)) =
      some (bad 3#3 [], []) ∧
    after (runInput (.request .rsp [0x55#8, 0xAA#8]) (linkWith [])) (fun t => t.link.serRx) = some [0x55#8, 0xAA#8] := by
  decide +kernel

/-! ### The flash controller (V-F9 to V-F26) -/

/-- V-F11: the third poll reads ready. -/
theorem test_waitForReady : after (exec .waitForReady (chipSays [0#8, 0x03#8, 0#8, 0x03#8, 0#8, 0x00#8, 0x01#8])) flashOf =
    some (mem [(0x05#8, 0#8), (0x5A#8, 0x03#8)] ++ mem [(0x05#8, 0#8), (0x5A#8, 0x03#8)] ++
      mem [(0x05#8, 0#8), (0x5A#8, 0x00#8)], []) := by decide +kernel
/-- V-F12: all-ones is busy. -/
theorem test_waitForReady_ones :
    after (exec .waitForReady ((chipSays (List.replicate 8 0xFF#8)).setEnv
      { (chipSays (List.replicate 8 0xFF#8)).env with quantum := 20 })) (fun t => (t.flash.flPhase, t.flash.flStatus)) =
    some (.wait, 0xFF#8) := by decide +kernel
/-- V-F26. -/
theorem test_write : after (exec (.write 0x000010#24 [0xA5#8]) base) (fun t => t.arb.busTrace.map BusEvent.outgoing) =
    some (sentTxn [0x05#8, 0x5A#8] ++ sentTxn [0x06#8] ++ sentTxn [0x02#8, 0x00#8, 0x00#8, 0x10#8, 0xA5#8]) := by
  decide +kernel
/-- V-F3 on the reference chip, busy for two polls after each program: two page-programs, six transactions more for the
polls and the latch. -/
theorem test_write_pages :
    after (exec (.write 0x0000FF#24 [0xA5#8, 0x5A#8]) (base.setChip { base.chip with plan := some 2 }))
      (fun t => (t.arb.busTrace.map BusEvent.outgoing, t.flash.flAddr, t.flash.flChunk, t.chip.mem)) =
    some (sentTxn [0x05#8, 0x5A#8] ++ sentTxn [0x06#8] ++ sentTxn [0x02#8, 0x00#8, 0x00#8, 0xFF#8, 0xA5#8] ++
      sentTxn [0x05#8, 0x5A#8] ++ sentTxn [0x05#8, 0x5A#8] ++ sentTxn [0x05#8, 0x5A#8] ++ sentTxn [0x06#8] ++
      sentTxn [0x02#8, 0x00#8, 0x01#8, 0x00#8, 0x5A#8], 0x000101#24, 1#9, [(0xFF, 0xA5#8), (0x100, 0x5A#8)]) := by
  decide +kernel
/-- S-P4 (property P4 of the source), V-F4, V-F7. -/
theorem test_pageSplit :
    pageSplit 300 0x0000F0 300 = [(0x0000F0, 16), (0x000100, 256), (0x000200, 28)] ∧
    pageSplit 1 0x0001FF 1 = [(0x0001FF, 1)] ∧
    pageSplit 513 0 513 = [(0, 256), (0x100, 256), (0x200, 1)] := by decide +kernel
/-- V-F18 and V-F16: one command whatever the page. -/
theorem test_read :
    after (exec (.read 0x0000FE#24 4#25) (chipSays
      [0#8, 0x00#8, 0#8, 0#8, 0#8, 0#8, 0xD0#8, 0xD1#8, 0xD2#8, 0xD3#8])) flashOf =
    some (mem [(0x05#8, 0#8), (0x5A#8, 0x00#8)] ++ mem [(0x03#8, 0#8), (0x00#8, 0#8), (0x00#8, 0#8), (0xFE#8, 0#8),
      (0x5A#8, 0xD0#8), (0x5A#8, 0xD1#8), (0x5A#8, 0xD2#8), (0x5A#8, 0xD3#8)],
      [0xD0#8, 0xD1#8, 0xD2#8, 0xD3#8]) := by decide +kernel
/-- V-F17: a read of no byte still polls and sends its command. -/
theorem test_read_empty : after (exec (.read 0x000100#24 0#25) base)
    (fun t => (t.arb.busTrace.map BusEvent.outgoing, t.flash.flResult)) =
    some (sentTxn [0x05#8, 0x5A#8] ++ sentTxn [0x03#8, 0x00#8, 0x01#8, 0x00#8], good []) := by decide +kernel
/-- V-F9d and V-F9e. -/
theorem test_isBusy : after (exec .isBusy (chipSays [0#8, 0xFF#8])) (fun t => t.flash.flResult) = some (good [1#8]) ∧
    after (exec .isBusy (chipSays [0#8, 0xFE#8])) (fun t => t.flash.flResult) = some (good [0#8]) := by decide +kernel
/-- V-F20: the address is sent unrounded, the whole sector is erased. -/
theorem test_eraseSector :
    after (exec (.eraseSector 0x001234#24) (base.setChip { base.chip with mem := [(0xFFF, 1#8), (0x1000, 2#8), (0x1FFF, 3#8), (0x2000, 4#8)] }))
      (fun t => (t.arb.busTrace.map BusEvent.outgoing, t.chip.mem, t.chip.wip)) =
    some (sentTxn [0x05#8, 0x5A#8] ++ sentTxn [0x06#8] ++ sentTxn [0x20#8, 0x00#8, 0x12#8, 0x34#8],
      [(0xFFF, 1#8), (0x2000, 4#8)], true) := by decide +kernel
/-- R65 at the boundary. -/
theorem test_beyondCapacity :
    refusal (exec (.eraseSector 0x100000#24) base) = some .beyondCapacity ∧
    refusal (exec (.read 0x0FFFFF#24 2#25) base) = some .beyondCapacity ∧
    refusal (exec (.write 0x0FFFFF#24 [1#8, 2#8]) base) = some .beyondCapacity := by decide +kernel
/-- V-F13 and V-F14. -/
theorem test_identify :
    after (exec .identify (chipSays [0#8, 0xEF#8, 0x40#8, 0x16#8])) (fun t => (flashOf t, t.flash.flId)) =
      some ((mem [(0x9F#8, 0#8), (0x5A#8, 0xEF#8), (0x5A#8, 0x40#8), (0x5A#8, 0x16#8)], [0xEF#8, 0x40#8, 0x16#8]),
        0xEF4016#24) ∧
    after (exec .identify (chipSays [0xFF#8, 0xFF#8, 0xFF#8, 0xFF#8])) (fun t => (t.flash.flId, t.flash.flResult.ok)) =
      some (0xFFFFFF#24, true) := by decide +kernel
/-- V-F24 and V-F23. -/
theorem test_wakeUp : after (exec .wakeUp (base.setChip { base.chip with pd := true }))
    (fun t => (t.arb.busTrace.map BusEvent.outgoing, t.chip.pd)) = some (sentTxn [0xAB#8], false) := by decide +kernel
theorem test_powerDown : after (exec .powerDown base) (fun t => (t.arb.busTrace.map BusEvent.outgoing, t.chip.pd)) =
    some (sentTxn [0xB9#8], true) := by decide +kernel
/-- V-F21. -/
theorem test_eraseChip : after (exec .eraseChip (base.setChip { base.chip with mem := [(5, 1#8)] }))
    (fun t => (t.arb.busTrace.map BusEvent.outgoing, t.chip.mem, t.chip.wip)) =
    some (sentTxn [0x05#8, 0x5A#8] ++ sentTxn [0x06#8] ++ sentTxn [0xC7#8], [], true) := by decide +kernel

/-! ### Bus commands: one transaction each (R250 to R259) -/

theorem test_busWriteEnable : after (exec .busWriteEnable base) (fun t => (t.arb.busTrace.map BusEvent.outgoing, t.chip.wel)) =
    some (sentTxn [0x06#8], true) := by decide +kernel
theorem test_busReadStatus1 : after (exec .busReadStatus1 (chipSays [0#8, 0x03#8])) (fun t => (flashOf t, t.flash.flStatus)) =
    some ((mem [(0x05#8, 0#8), (0x5A#8, 0x03#8)], [0x03#8]), 0x03#8) := by decide +kernel
theorem test_busReadData : after (exec (.busReadData 0x123456#24 1#25) (chipSays [0#8, 0#8, 0#8, 0#8, 0xD0#8])) flashOf =
    some (mem [(0x03#8, 0#8), (0x12#8, 0#8), (0x34#8, 0#8), (0x56#8, 0#8), (0x5A#8, 0xD0#8)], [0xD0#8]) := by
  decide +kernel
/-- R82: programming clears bits, and needs the write-enable latch. -/
theorem test_busPageProgram :
    after (exec (.busPageProgram 0x10#24 [0xA5#8]) (base.setChip { base.chip with wel := true, mem := [(0x10, 0x0F#8)] }))
      (fun t => (t.arb.busTrace.map BusEvent.outgoing, t.chip.mem, t.chip.wip, t.chip.wel)) =
    some (sentTxn [0x02#8, 0x00#8, 0x00#8, 0x10#8, 0xA5#8], [(0x10, 0x05#8)], true, false) := by decide +kernel
theorem test_busPageProgram_latch :
    after (exec (.busPageProgram 0x10#24 [0xA5#8]) base) (fun t => (t.chip.mem, t.chip.wip)) = some ([], false) := by
  decide +kernel
theorem test_busSectorErase4K :
    after (exec (.busSectorErase4K 0x1FFF#24) (base.setChip { base.chip with wel := true, mem := [(0x1000, 2#8)] }))
      (fun t => (t.arb.busTrace.map BusEvent.outgoing, t.chip.mem)) =
    some (sentTxn [0x20#8, 0x00#8, 0x1F#8, 0xFF#8], []) := by decide +kernel
theorem test_busChipErase : after (exec .busChipErase base) (fun t => (t.arb.busTrace.map BusEvent.outgoing, t.chip.wip)) =
    some (sentTxn [0xC7#8], false) := by decide +kernel
theorem test_busJedecId : after (exec .busJedecId (chipSays [0#8, 0xEF#8, 0x40#8, 0x16#8])) (fun t => (flashOf t, t.flash.flId)) =
    some ((mem [(0x9F#8, 0#8), (0x5A#8, 0xEF#8), (0x5A#8, 0x40#8), (0x5A#8, 0x16#8)], [0xEF#8, 0x40#8, 0x16#8]),
      0#24) := by decide +kernel
theorem test_busPowerDown : after (exec .busPowerDown base) (fun t => (t.arb.busTrace.map BusEvent.outgoing, t.chip.pd)) =
    some (sentTxn [0xB9#8], true) := by decide +kernel
theorem test_busReleasePowerDown : after (exec .busReleasePowerDown (base.setChip { base.chip with pd := true }))
    (fun t => (t.arb.busTrace.map BusEvent.outgoing, t.chip.pd)) = some (sentTxn [0xAB#8], false) := by decide +kernel

/-- R82: a command whose condition fails is ignored, whatever bytes come with it, and bytes read of it are 0xFF. -/
theorem test_chip_ignores :
    eChipExecute params { base.chip with wip := true } 0x06#8 [0#8] = { base.chip with wip := true } ∧
    eChipExecute params base.chip 0xC7#8 [0#8] = base.chip ∧
    eChipExecute params { base.chip with wip := true } 0xB9#8 [0#8] = { base.chip with wip := true } ∧
    eChipAnswer params { base.chip with pd := true } 0x9F#8 [0#8, 0#8, 0#8] = some 0xFF#8 ∧
    eChipAnswer params base.chip 0x02#8 [0#8] = some 0xFF#8 := by decide

/-! ### Inputs -/

/-- R48: the millisecond counter wraps. -/
theorem test_tick_wraps : after (runInput (.tick 2#32) (base.setTime 0xFFFFFFFF#32)) (fun t => t.tNow) = some 1#32 := by decide
/-- R341: reset leaves the chip's array; a command cut short leaves the chip unconstrained. -/
theorem test_reset_cuts :
    after (runInput .reset ((opened .mem).setChip { base.chip with mem := [(5, 1#8)], cmd := [0x02#8] }))
      (fun t => (t.chip.kind, t.chip.mem, arbOf t)) =
    some (.free, [(5, 1#8)], ⟨none, false, false, none, false, false, params.sharedCfg⟩) := by decide

/-! ### Witnesses: for the hypotheses of every obligation, a concrete state and operands that meet them together -/

/-- `s` with this input to come. -/
def coming (x : Input) (s : State) : State := s.setEnv { s.env with inbox := [x] }

/-- The link engine at state `st` of an exchange with one byte expected, `rx` waiting in ser_rx. -/
def linkAt (st : LinkState) (rx : List Byte) : State :=
  base.setLink { base.link with
    linkState := st
    ctl := .exchange
    lkOp := 0x03#8
    lkArgs := [0x07#8]
    expLen := 1#8
    rxLen := 1#8
    serRx := rx
    linkReady := true }

theorem arbReady_base (c : Client) : ArbReady c base := by cases c <;> exact ⟨by decide, by decide, by decide⟩
theorem arbReady_holding (c d : Client) : ArbReady c (holding d) := by
  cases c <;> cases d <;> exact ⟨by decide, by decide, by decide⟩
theorem arbReady_opened (c d : Client) : ArbReady c (opened d) := by
  cases c <;> cases d <;> exact ⟨by decide, by decide, by decide⟩
theorem arbInv_base : ArbInv base := by
  refine ⟨?_, ?_, rfl, ?_, by decide, ?_, ?_, .inl rfl, ?_⟩
  · intro d h; cases h
  · intro _; exact ⟨fun d => by cases d <;> rfl, rfl⟩
  · intro c h; cases c <;> cases h
  · intro c h; cases c <;> cases h
  · intro c h; cases c <;> exact absurd rfl h
  · intro c h; cases c <;> exact absurd rfl h
theorem arbInv_holding (d : Client) : ArbInv (holding d) := by
  refine ⟨?_, ?_, rfl, ?_, fun _ => rfl, ?_, ?_, .inl rfl, ?_⟩
  · intro d h; cases h
  · intro _; exact ⟨fun d => by cases d <;> rfl, rfl⟩
  · intro c h; cases c <;> cases h
  · intro c h; cases c <;> cases h
  · intro c h; cases c <;> exact absurd rfl h
  · intro c h; cases c <;> exact absurd rfl h
theorem arbInv_opened (d : Client) : ArbInv (opened d) := by
  refine ⟨?_, ?_, rfl, ?_, fun _ => rfl, ?_, ?_, .inl rfl, ?_⟩
  · intro e h; cases h; cases d <;> exact ⟨rfl, rfl, rfl, rfl⟩
  · intro h; cases h
  · intro c h; cases c <;> cases h
  · intro c h; cases c <;> cases h
  · intro c h; cases c <;> exact absurd rfl h
  · intro c h; cases c <;> exact absurd rfl h
/-- Both wait, and MEM has been passed over: it may be passed over `n` times more (log 28). -/
def passedMem (n : Nat) : State := bothWait.setArb { bothWait.arb with passed := { disp := none, mem := some n } }
theorem arbInv_passedMem (n : Nat) : ArbInv (passedMem n) := by
  refine ⟨?_, ?_, rfl, ?_, fun _ => rfl, ?_, ?_, .inl rfl, ?_⟩
  · intro d h; cases h
  · intro _; exact ⟨fun d => by cases d <;> rfl, rfl⟩
  · intro c _ h; cases h
  · intro c _; rfl
  · intro c _; cases c <;> rfl
  · intro c _ h; cases h
theorem linkSeqInv_with (rx : List Byte) : LinkSeqInv (linkWith rx).link :=
  ⟨rfl, fun h => absurd rfl h, ⟨fun h => (by cases h), fun h => absurd rfl h⟩⟩
theorem linkSeqInv_unready (rx : List Byte) : LinkSeqInv (unready rx).link :=
  ⟨rfl, fun h => absurd rfl h, ⟨fun h => (by cases h), fun h => absurd rfl h⟩⟩
theorem linkIdle_with (rx : List Byte) : LinkIdle (linkWith rx) := ⟨rfl, rfl⟩
theorem flashReady_base : FlashReady base := ⟨rfl, rfl, rfl⟩
theorem busFree_base : BusFree base := ⟨rfl, rfl, rfl⟩
theorem memInv_base : MemInv base := ⟨rfl, by decide⟩
theorem readyAfter_base : ReadyAfter 0 base := show wipOf params _ = false by decide +kernel

theorem witness_DecodeEncode : Instr.wf (.busPageProgram 0xFF#24 [0x00#8]) = true ∧
    Instr.wf (.reqI2cRead 0x68#8 32#8) = true ∧ Instr.wf (.read 0xFFFFFF#24 0x1000000#25) = true := by decide
theorem witness_DecodeCanonical :
    decode .bus [0x03#8, 0xFF#8, 0xFF#8, 0xFF#8, 0x00#8] = .ok (.busReadData 0xFFFFFF#24 1#25) ∧
    decode .flash [0x03#8, 0x00#8, 0x00#8, 0x00#8, 0x01#8, 0x00#8, 0x00#8, 0x00#8] = .ok (.read 0#24 0x1000000#25) := by
  decide +kernel
theorem witness_RequestDecoder : (0#8).toNat + 1 ≤ [0x99#8].length ∧ (255#8).toNat + 1 ≤ (List.replicate 256 0#8).length ∧
    [0xAA#8, 0x99#8, 0x00#8].length < 4 ∧ [0xAB#8, 0x99#8, 0x00#8, 0x99#8].headD 0#8 ≠ 0xAA#8 ∧
    [0xAA#8, 0x99#8, 0x01#8, 0x00#8].length < ([0xAA#8, 0x99#8, 0x01#8, 0x00#8].getD 2 0#8).toNat + 4 ∧
    (List.replicate 32 0#8).length ≤ 32 := by
  refine ⟨by decide, ?_, by decide, by decide, by decide, by decide⟩
  rw [List.length_replicate]; decide
theorem witness_StepRunsDecoded :
    (coming (.request .link [0x99#8]) base).env.inbox = .request .link [0x99#8] :: [] ∧ decode .link [0x99#8] = .ok .ping ∧
    (coming (.request .link [0x06#8]) base).env.inbox = .request .link [0x06#8] :: [] ∧
    decode .link [0x06#8] = .error .unknownOpSel ∧ Space.link ≠ .rsp ∧
    (coming (.request .rsp [0xAA#8, 0x05#8]) base).env.inbox = .request .rsp [0xAA#8, 0x05#8] :: [] ∧
    decode .rsp [0xAA#8, 0x05#8] = .error .badLength ∧ base.link.ctl = .idle ∧
    (linkAt .awaitStart []).link.ctl ≠ .idle ∧ decodeTableWord 16 0xAA99 = some .reqPing := by decide +kernel
theorem witness_ArbInvKept : ArbInv (coming (.request (.arb .mem) [0x03#8]) (opened .mem)) ∧
    (∃ t, step (coming (.request (.arb .mem) [0x03#8]) (opened .mem)) = .next t) ∧
    ArbInv (coming (.grant .disp) (passedMem 1)) ∧ ∃ t, step (coming (.grant .disp) (passedMem 1)) = .next t := by
  obtain ⟨a, b, c, d, e, f, g, h, i⟩ := arbInv_opened .mem
  obtain ⟨a', b', c', d', e', f', g', h', i'⟩ := arbInv_passedMem 1
  exact ⟨⟨a, b, c, d, e, f, g, h, i⟩, ⟨_, rfl⟩, ⟨a', b', c', d', e', f', g', h', i'⟩, _, rfl⟩
theorem witness_MemInvKept : MemInv (coming (.tick 1#32) (base.setChip { base.chip with mem := [(0xFFFFF, 0#8)] })) ∧
    ∃ t, step (coming (.tick 1#32) (base.setChip { base.chip with mem := [(0xFFFFF, 0#8)] })) = .next t :=
  ⟨⟨rfl, by decide⟩, _, rfl⟩
theorem witness_StatusInvKept : StatusInv (coming (.tick 1#32) base) ∧ ∃ t, step (coming (.tick 1#32) base) = .next t :=
  ⟨⟨by decide, by decide, by decide, rfl, rfl⟩, _, rfl⟩
theorem witness_SeqInvKept : SeqInv (coming (.run .link 3) (linkAt .awaitLen [0x01#8])) ∧
    ∃ t, step (coming (.run .link 3) (linkAt .awaitLen [0x01#8])) = .next t := by
  refine ⟨⟨⟨rfl, by decide, by decide⟩, ⟨by decide, by decide, ?_⟩⟩, ?_⟩
  · intro _ h; exact absurd rfl h
  · cases h : step (coming (.run .link 3) (linkAt .awaitLen [0x01#8])) with
    | next t => exact ⟨t, rfl⟩
    | fault e =>
      have : after (step (coming (.run .link 3) (linkAt .awaitLen [0x01#8]))) (fun _ => ()) = some () := by decide +kernel
      rw [h] at this; cases this
    | refused e =>
      have : after (step (coming (.run .link 3) (linkAt .awaitLen [0x01#8]))) (fun _ => ()) = some () := by decide +kernel
      rw [h] at this; cases this
theorem witness_HeldAgentsStay :
    ((holding .mem).setArb { (holding .mem).arb with port := ⟨.acquiring, .idle⟩ }).arb.permitOwner = some Client.disp.other ∧
    ((holding .mem).setArb { (holding .mem).arb with port := ⟨.acquiring, .idle⟩ }).arb.port.get .disp ≠ .idle ∧
    ((holding .disp).setFlash { base.flash with ctl := .opening, flPhase := .cmd }).flash.ctl = .opening ∧
    ((holding .disp).setFlash { base.flash with ctl := .opening, flPhase := .cmd }).arb.permitOwner = some .disp ∧
    ((holding .disp).setFlash { base.flash with ctl := .opening, flPhase := .cmd }).arb.txnOpen ≠ some .mem ∧
    ((linkAt .awaitStart []).setTime 199#32).link.ctl = .exchange ∧ (linkAt .awaitStart []).link.linkState.receives = true ∧
    (linkAt .awaitStart []).link.serRx = [] ∧
    (((linkAt .awaitStart []).setTime 199#32).tNow - (linkAt .awaitStart []).link.t0).toNat <
      (linkAt .awaitStart []).link.timeoutMs.toNat ∧
    ((base.setTime 49#32).tNow - 0#32).toNat < 50 := by decide
theorem witness_BusyPortsWait :
    ((holding .mem).setArb { (holding .mem).arb with port := ⟨.acquiring, .idle⟩ }).arb.port.get .disp ≠ .idle ∧
    (linkAt .awaitStart []).link.ctl ≠ .idle ∧
    ((holding .disp).setFlash { base.flash with ctl := .opening, flPhase := .cmd }).flash.ctl ≠ .idle ∧
    arbRequest (.busXfer .disp 0xFF#8) = some (.disp, .xfer 0xFF#8) ∧
    linkRequest (.reqI2cWrite 0x3C#8 []) = some { op := 0x10#8, args := [0x3C#8], data := [], n := 0, wire := true } ∧
    Instr.wf (.reqI2cWrite 0x3C#8 []) = true ∧
    flashRequest (.busReadData 0xFFFFFF#24 0x1000000#25) =
      some (.bare [0x03#8, 0xFF#8, 0xFF#8, 0xFF#8] 0x1000000 false) ∧
    Instr.wf (.busReadData 0xFFFFFF#24 0x1000000#25) = true := by decide
/-- A request waits at each port, the ports idle. -/
def queued : State :=
  { base with
    arb := { base.arb with waiting := { disp := [.acquire, .release], mem := [.begin] } }
    link := { base.link with waiting := [scalarRequest false 0x99#8 []] }
    flash := { base.flash with waiting := [.host 0x9F#8 0#24 0#25 []] } }
theorem witness_BusyPortsWait_queued :
    arbRequest (.acquire .disp) = some (.disp, .acquire) ∧ queued.arb.port.get .disp = .idle ∧
    queued.arb.waiting.get .disp = .acquire :: [.release] ∧ arbRequest (.beginTransaction .mem) = some (.mem, .begin) ∧
    queued.arb.port.get .mem = .idle ∧ queued.arb.waiting.get .mem = .begin :: [] ∧ queued.flash.ctl = .idle ∧
    linkRequest .ping = some (scalarRequest false 0x99#8 []) ∧ Instr.wf .ping = true ∧ queued.link.ctl = .idle ∧
    queued.link.waiting = scalarRequest false 0x99#8 [] :: [] ∧
    flashRequest .identify = some (.host 0x9F#8 0#24 0#25 []) ∧ Instr.wf .identify = true ∧
    queued.flash.waiting = .host 0x9F#8 0#24 0#25 [] :: [] := by decide
/-- The oldest waiting request is accepted, the others go on waiting. -/
theorem test_queued :
    after (runInput (.run (.port .disp) 9) queued) (fun t => (t.arb.port.disp, t.arb.waiting.disp)) =
      some (.acquiring, [.release]) ∧
    after (runInput (.run .link 9) queued) (fun t => (t.link.ctl, t.link.lkOp, t.link.waiting)) =
      some (.start, 0x99#8, []) ∧
    after (runInput (.run .flash 9) queued) (fun t => (t.flash.ctl, t.flash.flOp, t.flash.waiting)) =
      some (.begin, 0x9F#8, []) := by decide +kernel
theorem witness_RefusedRequests :
    linkOpOf 0x06#8 = none ∧ flashOpOf 0x01#8 = none ∧ 4 < (0x05#8).toNat ∧ FlashReady base ∧
    base.params.capacity < (0x0FFFFF#24).toNat + (2#25).toNat ∧
    base.params.capacity < (0x0FFFFF#24).toNat + [0#8, 0#8].length ∧ base.params.capacity ≤ (0x100000#24).toNat ∧
    LinkIdle (linkWith []) ∧ (linkWith []).link.linkReady = true ∧ (linkAt .awaitStart []).link.ctl ≠ .idle ∧
    LinkIdle (unready []) ∧ (unready []).link.linkReady = false ∧ Instr.space (.digitalRead 7#8) = .link ∧
    Instr.digitalRead 7#8 ≠ .init ∧ Instr.digitalRead 7#8 ≠ .ping ∧ Instr.space (.reqI2cWrite 7#8 []) = .req ∧
    Instr.wf (.reqI2cWrite 7#8 []) = true ∧ Instr.reqI2cWrite 7#8 [] ≠ .reqPing :=
  ⟨by decide, by decide, by decide, flashReady_base, by decide, by decide, by decide, linkIdle_with [], rfl, by decide,
    ⟨rfl, rfl⟩, rfl, rfl, by decide, by decide, rfl, by decide, by decide⟩
theorem witness_AcquireCompletes : ArbReady .disp base ∧ base.arb.permitOwner = none ∧ 2 ≤ base.env.quantum ∧
    base.arb.arbWait.get Client.disp.other = false ∧
    ArbReady .disp (base.setArb { base.arb with arbWait := ⟨false, true⟩, port := ⟨.idle, .acquiring⟩ }) ∧
    (base.setArb { base.arb with arbWait := ⟨false, true⟩, port := ⟨.idle, .acquiring⟩ }).arb.permitOwner = none ∧
    (base.setArb { base.arb with arbWait := ⟨false, true⟩, port := ⟨.idle, .acquiring⟩ }).arb.arbWait.get Client.disp.other =
      true :=
  ⟨arbReady_base .disp, rfl, by decide, rfl, ⟨rfl, rfl, by decide⟩, rfl, rfl⟩
theorem witness_HolderMakesOthersWait : ArbReady .disp (holding .mem) ∧
    (holding .mem).arb.permitOwner = some Client.disp.other := ⟨arbReady_holding .disp .mem, rfl⟩
theorem witness_ReleaseCompletes : ArbReady .disp (holding .disp) ∧ (holding .disp).arb.permitOwner = some .disp ∧
    (holding .disp).arb.txnOpen = none ∧ ArbReady .disp (opened .disp) ∧
    ¬((opened .disp).arb.permitOwner = some .disp ∧ (opened .disp).arb.txnOpen = none) :=
  ⟨arbReady_holding .disp .disp, rfl, rfl, arbReady_opened .disp .disp, by decide⟩
theorem witness_BeginCompletes : ArbReady .mem base ∧ base.arb.txnOpen = none ∧ base.arb.permitOwner = none ∧
    base.arb.arbWait.get Client.mem.other = false ∧ 2 ≤ base.env.quantum ∧ ArbReady .mem (holding .mem) ∧
    (holding .mem).arb.txnOpen = none ∧ (holding .mem).arb.permitOwner = some .mem :=
  ⟨arbReady_base .mem, rfl, rfl, rfl, by decide, arbReady_holding .mem .mem, rfl, rfl⟩
theorem witness_EndCompletes : ArbReady .mem (opened .mem) ∧ (opened .mem).arb.txnOpen = some .mem ∧
    (opened .mem).arb.permitOwner = some .mem := ⟨arbReady_opened .mem .mem, rfl, rfl⟩
theorem witness_BusXferCompletes : ArbReady .mem (opened .mem) ∧ (opened .mem).arb.permitOwner = some .mem ∧
    (opened .mem).arb.txnOpen = some .mem ∧
    chipAnswer params ((opened .mem).setChip { base.chip with cmd := [0x9F#8] }).chip = some 0xEF#8 ∧
    chipAnswer params (opened .mem).chip = none ∧ (opened .mem).env.busIn = [] ∧
    ((opened .mem).setEnv { base.env with busIn := [0x77#8] }).env.busIn = 0x77#8 :: [] :=
  ⟨arbReady_opened .mem .mem, rfl, rfl, by decide, rfl, rfl, rfl⟩
theorem witness_MisuseRefused : ArbInv (holding .disp) ∧ ArbReady .disp (holding .disp) ∧
    (holding .disp).arb.permitOwner = some .disp ∧ (holding .disp).arb.txnOpen ≠ some .disp ∧
    ArbInv (opened .disp) ∧ ArbReady .disp (opened .disp) ∧ (opened .disp).arb.txnOpen = some .disp ∧
    ArbInv base ∧ ArbReady .disp base ∧ base.arb.permitOwner ≠ some .disp :=
  ⟨arbInv_holding .disp, arbReady_holding .disp .disp, rfl, by decide, arbInv_opened .disp, arbReady_opened .disp .disp, rfl,
    arbInv_base, arbReady_base .disp, by decide⟩
theorem witness_GrantStep : bothWait.arb.permitOwner = none ∧ bothWait.arb.arbWait.get .mem = true ∧
    ¬((holding .disp).arb.permitOwner = none ∧ (holding .disp).arb.arbWait.get .mem = true) ∧
    (∃ c, bothWait.arb.arbWait.get c = true) ∧ (holding .disp).arb.permitOwner ≠ none ∧
    bothWait.arb.passed.get .disp ≠ some 0 ∧ bothWait.arb.arbWait.get Client.mem.other = true ∧
    (bothWait.setArb { bothWait.arb with arbWait := ⟨false, true⟩ }).arb.arbWait.get Client.mem.other = false ∧
    params.arbFair = true ∧ (passedMem 0).arb.permitOwner = none ∧ (passedMem 0).arb.arbWait.get .mem = true ∧
    (passedMem 0).arb.passed.get .mem = some 0 ∧ (passedMem 0).arb.passed.get Client.mem.other ≠ some 0 ∧
    (∀ d, (passedMem 0).arb.arbWait.get d = true) ∧ (passedMem 0).arb.passed.get Client.mem.other = none ∧
    (passedMem 1).arb.passed.get .mem = some (0 + 1) :=
  ⟨rfl, rfl, by decide, ⟨.disp, rfl⟩, by decide, by decide, rfl, rfl, rfl, rfl, rfl, rfl, by decide,
    fun d => by cases d <;> rfl, rfl, rfl⟩
theorem witness_ArbFrame : Instr.space (.acquire .disp) = .arb .disp ∧ ∃ t, exec (.acquire .disp) base = .next t :=
  ⟨rfl, _, rfl⟩
/-- The deadline at 200 ms and just before it. -/
theorem witness_SerRxRule :
    (linkAt .awaitStart [0xAA#8]).link.timeoutMs.toNat ≤ (200#32 - (linkAt .awaitStart [0xAA#8]).link.t0).toNat ∧
    (199#32 - (linkAt .awaitStart [0xAA#8]).link.t0).toNat < (linkAt .awaitStart [0xAA#8]).link.timeoutMs.toNat ∧
    (linkAt .awaitStart [0xAA#8]).link.serRx = 0xAA#8 :: [] ∧ (linkAt .awaitStart []).link.serRx = [] := by decide
theorem witness_SerRxRule_taken : (linkAt .awaitStart [0xAA#8]).link.micro 199#32 =
    .next { (linkAt .awaitStart [0xAA#8]).link with serRx := [], linkState := .awaitLen } ∧
    (linkAt .awaitStart [0xAA#8]).link.linkState.receives = true := ⟨rfl, rfl⟩
theorem witness_SendStep : linkOpOf (linkAt .sent []).link.lkOp = some .digitalRead ∧
    ({ (linkAt .sent []).link with ctl := .start, linkState := .idle } : Link).ctl = .start ∧
    (linkAt .sent []).link.ctl = .exchange ∧ (linkAt .sent []).link.linkState = .sent := by decide
/-- One state for each row of the table, at the boundary of its condition. -/
theorem witness_LinkTransitions : linkOpOf (linkAt .sent []).link.lkOp ≠ none ∧ (linkAt .sent []).link.ctl = .exchange ∧
    (linkAt .awaitStart [0xAB#8]).link.serRxNow 0#32 = .byte 0xAB#8 [] ∧
    (linkAt .awaitLen [0x01#8]).link.expLen = 0x01#8 ∧ 0 < (0x01#8).toNat ∧
    ({ (linkAt .awaitLen [0x00#8]).link with expLen := 0#8 } : Link).serRxNow 0#32 = .byte 0#8 [] ∧
    (linkAt .awaitLen [0x02#8]).link.expLen ≠ 0x02#8 ∧
    ({ (linkAt .awaitData [0x55#8]).link with rxLen := 2#8 } : Link).rxCnt.toNat + 1 < (2#8).toNat ∧
    (linkAt .awaitData [0x55#8]).link.rxCnt.toNat + 1 = (linkAt .awaitData [0x55#8]).link.rxLen.toNat ∧
    0x01#8 = (linkAt .awaitCrc [0x01#8]).link.rxLen ^^^
      fold ((linkAt .awaitCrc [0x01#8]).link.rxBuf.take (linkAt .awaitCrc [0x01#8]).link.rxLen.toNat) ∧
    (linkAt .drain [0x55#8]).link.rxCnt.toNat + 1 < (linkAt .drain [0x55#8]).link.rxLen.toNat + 1 ∧
    ({ (linkAt .drain [0x55#8]).link with rxCnt := 1#9 } : Link).rxCnt.toNat + 1 = (1#8).toNat + 1 ∧
    (linkAt .drain [0x55#8]).link.serRxNow 200#32 = .timeout ∧ (linkAt .drain []).link.serRxNow 199#32 = .waiting := by
  decide
/-- The responses of Scenario B and of V-X4. -/
theorem witness_ScalarCommandsComplete :
    LinkIdle (linkWith [0x00#8, 0x13#8, 0xAA#8, 0x01#8, 0x01#8, 0x00#8]) ∧
    LinkSeqInv (linkWith [0x00#8, 0x13#8, 0xAA#8, 0x01#8, 0x01#8, 0x00#8]).link ∧ (linkWith []).link.linkReady = true ∧
    Answered [0x00#8, 0x13#8] [0x01#8] [] (linkWith [0x00#8, 0x13#8, 0xAA#8, 0x01#8, 0x01#8, 0x00#8]).link ∧
    2 + 1 + 6 ≤ base.env.quantum ∧ [0x01#8].length = 1 ∧
    Answered [] [0x0F#8, 0xA0#8] [0x55#8] (linkWith [0xAA#8, 0x02#8, 0x0F#8, 0xA0#8, 0xAD#8, 0x55#8]).link ∧
    [0x0F#8, 0xA0#8].length = 2 :=
  ⟨linkIdle_with _, linkSeqInv_with _, rfl, ⟨by decide, by decide, by decide⟩, by decide, rfl,
    ⟨by decide, by decide, by decide⟩, rfl⟩
theorem witness_ScalarFramesComplete :
    LinkIdle (linkWith [0xAA#8, 0x01#8, 0x01#8, 0x00#8]) ∧
    LinkSeqInv (linkWith [0xAA#8, 0x01#8, 0x01#8, 0x00#8]).link ∧
    Answered [] [0x01#8] [] (linkWith [0xAA#8, 0x01#8, 0x01#8, 0x00#8]).link ∧ 0 + 1 + 6 ≤ base.env.quantum ∧
    (linkWith []).link.linkReady = true ∧
    Answered [] [0x0F#8, 0xA0#8] [] (linkWith [0xAA#8, 0x02#8, 0x0F#8, 0xA0#8, 0xAD#8]).link :=
  ⟨linkIdle_with _, linkSeqInv_with _, ⟨by decide, by decide, by decide⟩, by decide, rfl, ⟨by decide, by decide, by decide⟩⟩
theorem witness_PingTestsItsByte :
    LinkIdle (unready [0xAA#8, 0x01#8, 0xAA#8, 0xAB#8]) ∧ Answered [] [0xAA#8] [] (unready [0xAA#8, 0x01#8, 0xAA#8, 0xAB#8]).link ∧
    Answered [] [0xAB#8] [] (linkWith [0xAA#8, 0x01#8, 0xAB#8, 0xAA#8]).link ∧ 0xAB#8 ≠ 0xAA#8 ∧
    LinkIdle (linkWith [0xAA#8, 0x01#8, 0xAB#8, 0xAA#8]) ∧ LinkSeqInv (linkWith [0xAA#8, 0x01#8, 0xAB#8, 0xAA#8]).link ∧
    0 + 7 ≤ base.env.quantum :=
  ⟨⟨rfl, rfl⟩, ⟨by decide, by decide, by decide⟩, ⟨by decide, by decide, by decide⟩, by decide, linkIdle_with _,
    linkSeqInv_with _, by decide⟩
theorem witness_InitCompletes : LinkIdle (linkWith [0xAA#8, 0x01#8, 0xAA#8, 0xAB#8]) ∧
    LinkSeqInv (linkWith [0xAA#8, 0x01#8, 0xAA#8, 0xAB#8]).link ∧
    Answered [] [0xAA#8] [] (linkWith [0xAA#8, 0x01#8, 0xAA#8, 0xAB#8]).link ∧ 0 + 7 ≤ base.env.quantum :=
  ⟨linkIdle_with _, linkSeqInv_with _, ⟨by decide, by decide, by decide⟩, by decide⟩
/-- The engine of INIT at the end of an exchange. -/
def initAt (st : LinkState) (b : Byte) (attempt : BitVec 2) : Link :=
  { (linkAt st []).link with
    lkOp := 0x00#8
    rxBuf := b :: List.replicate 31 0#8
    pingTry := attempt }
theorem witness_InitAttempts : (initAt .ok 0xAA#8 1#2).lkOp = 0x00#8 ∧
    ({ initAt .idle 0#8 1#2 with ctl := .start } : Link).ctl = .start ∧
    (initAt .ok 0xAA#8 1#2).ctl = .exchange ∧ (initAt .ok 0xAA#8 1#2).linkState = .ok ∧
    ((initAt .ok 0xAA#8 1#2).rxBuf.take (initAt .ok 0xAA#8 1#2).rxLen.toNat).headD 0#8 = 0xAA#8 ∧
    ((initAt .ok 0xAB#8 2#2).rxBuf.take (initAt .ok 0xAB#8 2#2).rxLen.toNat).headD 0#8 ≠ 0xAA#8 ∧
    (initAt .ok 0xAB#8 2#2).pingTry.toNat < 3 ∧ (initAt .timeout 0#8 3#2).pingTry.toNat = 3 ∧
    (49#32 - 0#32).toNat < 50 ∧ 50 ≤ (50#32 - 0#32).toNat := by decide
/-- Two chunks, 32 and 1. -/
theorem witness_I2cReadCompletes :
    LinkIdle (linkWith ((chunks 32 33 (List.replicate 33 0x55#8)).flatMap encodeResponse ++ [])) ∧
    LinkSeqInv (linkWith ((chunks 32 33 (List.replicate 33 0x55#8)).flatMap encodeResponse ++ [])).link ∧
    (linkWith []).link.timeoutMs ≠ 0#16 ∧ (linkWith []).link.linkReady = true ∧
    1 ≤ (List.replicate 33 0x55#8).length ∧ (List.replicate 33 0x55#8).length ≤ 65535 ∧ 7 * 33 ≤ base.env.quantum ∧
    (chunks 32 33 (List.replicate 33 0x55#8)).length = 2 ∧ (List.replicate 32 0x55#8).length ≤ 32 :=
  ⟨linkIdle_with _, linkSeqInv_with _, by decide, rfl, by decide, by decide, by decide, by decide, by decide⟩
theorem witness_SpiTransferCompletes :
    LinkIdle (linkWith ((chunks 32 33 (List.replicate 33 0x55#8)).flatMap encodeResponse ++ [])) ∧
    LinkSeqInv (linkWith ((chunks 32 33 (List.replicate 33 0x55#8)).flatMap encodeResponse ++ [])).link ∧
    (List.replicate 33 0x55#8).length = (List.replicate 33 0xAA#8).length ∧ (linkWith []).link.timeoutMs ≠ 0#16 ∧
    7 * 33 ≤ base.env.quantum ∧ (linkWith []).link.linkReady = true :=
  ⟨linkIdle_with _, linkSeqInv_with _, by decide, by decide, by decide, rfl⟩
theorem witness_I2cWriteCompletes :
    LinkIdle (linkWith ((chunks 31 32 (List.replicate 32 0x55#8)).flatMap (fun _ => encodeResponse [0x01#8]) ++ [])) ∧
    LinkSeqInv (linkWith ((chunks 31 32 (List.replicate 32 0x55#8)).flatMap (fun _ => encodeResponse [0x01#8]) ++ [])).link ∧
    (chunks 31 32 (List.replicate 32 0x55#8)).length = 2 ∧ (linkWith []).link.timeoutMs ≠ 0#16 ∧
    (List.replicate 31 0x55#8).length ≤ 31 ∧ 7 * 32 ≤ base.env.quantum ∧ (linkWith []).link.linkReady = true ∧
    LinkIdle (linkWith (encodeResponse [0x01#8] ++ [])) ∧ LinkSeqInv (linkWith (encodeResponse [0x01#8] ++ [])).link ∧
    ([] : List Byte).length ≤ 31 :=
  ⟨linkIdle_with _, linkSeqInv_with _, by decide, by decide, by decide, by decide, rfl, linkIdle_with _, linkSeqInv_with _,
    by decide⟩
/-- A response that fails in each way R181, R182 and R219 name. -/
theorem badResponse_crc : BadResponse 0x21#8 1 3#3 [0xAA#8, 0x01#8, 0x01#8, 0x01#8] :=
  .inl ⟨rfl, [0x01#8], 0x01#8, rfl, by decide, rfl⟩
theorem badResponse_len (op : Byte) (n : Nat) (h : 1 ≤ n) : BadResponse op n 2#3 [0xAA#8, 0x00#8, 0x00#8] :=
  .inr (.inl ⟨rfl, 0x00#8, [0x00#8], by simp; omega, rfl, rfl⟩)
theorem badResponse_nack : BadResponse 0x10#8 1 4#3 [0xAA#8, 0x01#8, 0x02#8, 0x03#8] :=
  .inr (.inr ⟨rfl, rfl, 0x02#8, by decide, by decide⟩)
/-- The first chunk fails, and the second. -/
theorem witness_BulkAborts :
    LinkIdle (linkWith [0xAA#8, 0x01#8, 0x01#8, 0x01#8]) ∧ LinkSeqInv (linkWith [0xAA#8, 0x01#8, 0x01#8, 0x01#8]).link ∧
    (linkWith []).link.timeoutMs ≠ 0#16 ∧ (linkWith []).link.linkReady = true ∧ ([] : List Byte).length = 32 * 0 ∧
    BadResponse 0x21#8 (min 32 (1 - ([] : List Byte).length)) 3#3 [0xAA#8, 0x01#8, 0x01#8, 0x01#8] ∧
    (linkWith [0xAA#8, 0x01#8, 0x01#8, 0x01#8]).link.serRx =
      (chunks 32 0 []).flatMap encodeResponse ++ [0xAA#8, 0x01#8, 0x01#8, 0x01#8] ++ [] ∧
    ([] : List Byte).length < 1 ∧ [0x77#8].length = 1 ∧ 7 * 1 + 300 ≤ base.env.quantum ∧
    (List.replicate 32 0x55#8).length = 32 * 1 ∧ (List.replicate 32 0x55#8).length < 33 ∧
    BadResponse 0x11#8 (min 32 (33 - (List.replicate 32 0x55#8).length)) 2#3 [0xAA#8, 0x00#8, 0x00#8] ∧
    (linkWith (encodeResponse (List.replicate 32 0x55#8) ++ [0xAA#8, 0x00#8, 0x00#8] ++ [0x77#8])).link.serRx =
      (chunks 32 32 (List.replicate 32 0x55#8)).flatMap encodeResponse ++ [0xAA#8, 0x00#8, 0x00#8] ++ [0x77#8] :=
  ⟨linkIdle_with _, linkSeqInv_with _, by decide, rfl, rfl, badResponse_crc, by decide, by decide, rfl, by decide, by decide,
    by decide, badResponse_len 0x11#8 _ (by decide), by decide +kernel⟩
/-- I2C_WRITE: NACK of the second chunk and of a frame, and a window that passes in each bulk operation. -/
theorem witness_BulkAborts_i2cWrite :
    BadResponse 0x10#8 1 4#3 [0xAA#8, 0x01#8, 0x02#8, 0x03#8] ∧
    (linkWith (encodeResponse [0x01#8] ++ [0xAA#8, 0x01#8, 0x02#8, 0x03#8])).link.serRx =
      (List.replicate 1 (encodeResponse [0x01#8])).flatten ++ [0xAA#8, 0x01#8, 0x02#8, 0x03#8] ++ [] ∧
    31 * 1 < (List.replicate 32 0x55#8).length ∧ 7 * (List.replicate 32 0x55#8).length + 300 ≤ base.env.quantum ∧
    LinkIdle (linkWith (encodeResponse [0x01#8] ++ [0xAA#8, 0x01#8, 0x02#8, 0x03#8])) ∧
    LinkSeqInv (linkWith (encodeResponse [0x01#8] ++ [0xAA#8, 0x01#8, 0x02#8, 0x03#8])).link ∧
    (linkWith [0xAA#8, 0x01#8, 0x02#8, 0x03#8]).link.serRx =
      (List.replicate 0 (encodeResponse [0x01#8])).flatten ++ [0xAA#8, 0x01#8, 0x02#8, 0x03#8] ++ [] ∧
    ([] : List Byte).length ≤ 31 ∧
    ({ (linkAt .awaitStart []).link with lkOp := 0x10#8 } : Link).lkOp = 0x10#8 ∧
    (linkAt .awaitStart []).link.ctl = .exchange ∧ (linkAt .drain []).link.linkState = .drain ∧
    (linkAt .awaitStart []).link.timeoutMs.toNat ≤ (200#32 - (linkAt .awaitStart []).link.t0).toNat :=
  ⟨badResponse_nack, by decide, by decide, by decide, linkIdle_with _, linkSeqInv_with _, by decide, by decide, rfl, rfl, rfl,
    by decide⟩
/-- R219, R305: the second chunk is refused by the co-processor: NACK, the 31 bytes written count, the byte values are
free. -/
theorem test_i2cWrite_nack_second :
    after (exec (.i2cWrite 0x50#8 (List.replicate 40 0x55#8))
      (linkWith [0xAA#8, 0x01#8, 0x01#8, 0x00#8, 0xAA#8, 0x01#8, 0x02#8, 0x03#8, 0x77#8]))
      (fun t => (t.link.linkStatus, t.link.lkResult.ok, t.link.lkResult.valid, t.link.bulkOff, t.link.serRx)) =
    some (4#3, false, 31, 31#16, [0x77#8]) := by decide +kernel
/-- V-X9 and V-X10. -/
theorem witness_LengthMismatchDrains :
    scalarRow (.digitalRead 7#8) = some (0x03#8, [7#8], 1) ∧ LinkIdle (linkWith [0xAA#8, 0x00#8, 0x00#8, 0xAA#8]) ∧
    LinkSeqInv (linkWith [0xAA#8, 0x00#8, 0x00#8, 0xAA#8]).link ∧ (linkWith []).link.linkReady = true ∧
    (linkWith []).link.timeoutMs ≠ 0#16 ∧ (0x00#8).toNat ≠ 1 ∧ [0x00#8].length = (0x00#8).toNat + 1 ∧
    (linkWith [0xAA#8, 0x00#8, 0x00#8, 0xAA#8]).link.serRx = [0xAA#8, 0x00#8] ++ [0x00#8] ++ [0xAA#8] ∧
    300 ≤ base.env.quantum ∧ (0x02#8).toNat ≠ 1 ∧ [0x11#8, 0x22#8, 0x31#8].length = (0x02#8).toNat + 1 ∧
    scalarRow .ping = some (0x99#8, [], 1) ∧ LinkIdle (unready [0xAA#8, 0x00#8, 0x00#8, 0xAA#8]) ∧
    LinkSeqInv (unready [0xAA#8, 0x00#8, 0x00#8, 0xAA#8]).link ∧ scalarRow .reqPing = some (0x99#8, [], 1) :=
  ⟨rfl, linkIdle_with _, linkSeqInv_with _, rfl, by decide, by decide, by decide, by decide, by decide, by decide, by decide,
    rfl, ⟨rfl, rfl⟩, linkSeqInv_unready _, rfl⟩
/-- V-X8. -/
theorem witness_ChecksumMismatchFails :
    scalarRow (.digitalRead 7#8) = some (0x03#8, [7#8], 1) ∧ LinkIdle (linkWith [0xAA#8, 0x01#8, 0x01#8, 0x01#8]) ∧
    LinkSeqInv (linkWith [0xAA#8, 0x01#8, 0x01#8, 0x01#8]).link ∧ [0x01#8].length = 1 ∧
    0x01#8 ≠ BitVec.ofNat 8 1 ^^^ fold [0x01#8] ∧
    (linkWith [0xAA#8, 0x01#8, 0x01#8, 0x01#8]).link.serRx =
      [0xAA#8, BitVec.ofNat 8 1] ++ [0x01#8] ++ [0x01#8] ++ [] ∧ 300 ≤ base.env.quantum ∧
    scalarRow (.analogRead 3#8) = some (0x05#8, [3#8], 2) ∧ scalarRow .ping = some (0x99#8, [], 1) ∧
    LinkIdle (unready [0xAA#8, 0x01#8, 0x01#8, 0x01#8]) ∧ LinkSeqInv (unready [0xAA#8, 0x01#8, 0x01#8, 0x01#8]).link :=
  ⟨rfl, linkIdle_with _, linkSeqInv_with _, rfl, by decide, by decide, by decide, rfl, rfl, ⟨rfl, rfl⟩, linkSeqInv_unready _⟩
/-- A machine with timeout_ms = 0. -/
def noTime : State := base.setLink { base.link with linkReady := true, timeoutMs := 0#16, serRx := [0xAA#8] }
theorem witness_WindowExpires :
    ((linkAt .awaitCrc [0x55#8]).setTime 200#32).link.ctl = .exchange ∧
    (∃ op, linkOpOf (linkAt .awaitCrc [0x55#8]).link.lkOp = some op ∧ op ≠ .init ∧ op.isBulk = false) ∧
    (linkAt .awaitCrc [0x55#8]).link.timeoutMs.toNat ≤ (200#32 - (linkAt .awaitCrc [0x55#8]).link.t0).toNat ∧
    (linkAt .awaitCrc [0x55#8]).link.linkState = .awaitCrc ∧ (linkAt .drain [0x55#8]).link.linkState = .drain ∧ 2 ≤ 2 ∧
    scalarRow (.digitalRead 7#8) = some (0x03#8, [7#8], 1) ∧ LinkIdle noTime ∧ noTime.link.linkReady = true ∧
    noTime.link.timeoutMs = 0#16 ∧ 5 ≤ noTime.env.quantum ∧ scalarRow .reqPing = some (0x99#8, [], 1) ∧
    LinkIdle (noTime.setLink { noTime.link with linkReady := false }) :=
  ⟨rfl, ⟨.digitalRead, rfl, by decide, rfl⟩, by decide, rfl, rfl, by decide, rfl, ⟨rfl, rfl⟩, rfl, rfl, by decide,
    rfl, ⟨rfl, rfl⟩⟩
theorem witness_TimeoutRegister : base.link.ctl = .idle ∧ (linkAt .awaitStart []).link.ctl ≠ .idle ∧
    ({ (linkAt .awaitStart []).link with timeoutMs := 0#16 } : Link).timeoutMs = 0#16 ∧
    ({ (linkAt .awaitStart []).link with timeoutMs := 0#16 } : Link).ctl = .exchange ∧
    ({ (linkAt .awaitStart []).link with timeoutMs := 0#16 } : Link).linkState = .awaitStart := by decide
theorem witness_LinkFrame : Instr.space .ping = .link ∧ Instr.ping ≠ .init ∧ (unready []).link.ctl = .idle ∧
    after (exec .ping (unready [])) (fun _ => ()) = some () ∧ Instr.space .reqPing = .req ∧
    Instr.space (.response []) = .rsp ∧ after (exec (.response []) base) (fun _ => ()) = some () := by decide +kernel
theorem witness_LinkReadyOnlyByInit :
    ∃ m, (initAt .ok 0xAA#8 1#2 |> fun l => ({ l with linkReady := false } : Link)).micro 0#32 = .next m ∧
      m.linkReady ≠ (initAt .ok 0xAA#8 1#2 |> fun l => ({ l with linkReady := false } : Link)).linkReady :=
  ⟨_, rfl, by decide +kernel⟩
theorem witness_SerTxAppendOnly : (coming (.tick 1#32) base).env.inbox.head? ≠ some .reset ∧
    ∃ t, step (coming (.tick 1#32) base) = .next t := ⟨by decide, _, rfl⟩
theorem witness_ResponseArrives : (List.replicate 255 0#8).length ≤ 255 ∧ base.link.ctl = .idle ∧
    LinkSeqInv waiting2.link ∧ linkOpOf waiting2.link.lkOp = some .analogRead ∧ LinkOp.analogRead ≠ .init ∧
    LinkOp.analogRead ≠ .ping ∧ LinkOp.analogRead.isBulk = false ∧ waiting2.link.ctl = .exchange ∧
    waiting2.link.linkState = .awaitStart ∧ waiting2.link.serRx = [] ∧
    (waiting2.tNow - waiting2.link.t0).toNat < waiting2.link.timeoutMs.toNat ∧ 1 ≤ [0x0F#8, 0xA0#8].length ∧
    waiting2.link.expLen = BitVec.ofNat 8 [0x0F#8, 0xA0#8].length ∧ 2 + 4 ≤ waiting2.env.quantum ∧
    255 < (List.replicate 256 0#8).length :=
  ⟨by rw [List.length_replicate], rfl, ⟨rfl, by decide, by decide⟩, rfl, by decide, by decide, rfl, rfl, rfl, rfl, by decide,
    by decide, by decide, by decide, by rw [List.length_replicate]; decide⟩
theorem witness_BusCommandsComplete : FlashReady base ∧ BusFree base ∧ 10 ≤ base.env.quantum ∧
    (0x1000#25).toNat ≤ 2 ^ 24 ∧ 0 + 10 ≤ base.env.quantum ∧ 1 ≤ [0xA5#8].length ∧
    (0xFF#24).toNat % 256 + [0xA5#8].length ≤ 256 ∧ [0xA5#8].length + 10 ≤ base.env.quantum :=
  ⟨flashReady_base, busFree_base, by decide, by decide, by decide, by decide, by decide, by decide⟩
theorem witness_UnwaitingOperationsComplete : FlashReady base ∧ BusFree base ∧ 10 ≤ base.env.quantum :=
  ⟨flashReady_base, busFree_base, by decide⟩
/-- A chip that is busy for one poll. -/
def busyOnce : State := base.setChip { base.chip with wip := true, busyLeft := some 1 }
theorem readyAfter_busyOnce : ReadyAfter 1 busyOnce :=
  ⟨show wipOf params _ = true by decide +kernel, show wipOf params _ = false by decide +kernel⟩
theorem witness_WaitForReadyPolls : FlashReady busyOnce ∧ BusFree busyOnce ∧ ReadyAfter 1 busyOnce ∧
    7 * (1 + 1) + 1 ≤ busyOnce.env.quantum ∧ ReadyAfter 0 base :=
  ⟨⟨rfl, rfl, rfl⟩, ⟨rfl, rfl, rfl⟩, readyAfter_busyOnce, by decide, readyAfter_base⟩
theorem witness_ReadCompletes : FlashReady busyOnce ∧ BusFree busyOnce ∧ ReadyAfter 1 busyOnce ∧
    (0x0FFFFF#24).toNat + (1#25).toNat ≤ busyOnce.params.capacity ∧
    7 * (1 + 1) + (1#25).toNat + 10 ≤ busyOnce.env.quantum :=
  ⟨⟨rfl, rfl, rfl⟩, ⟨rfl, rfl, rfl⟩, readyAfter_busyOnce, by decide, by decide⟩
/-- V-F3: two chunks, the chip ready again at once. -/
theorem witness_WriteCompletes : ∃ t, FlashReady base ∧ BusFree base ∧ [0xA5#8, 0x5A#8] ≠ [] ∧
    (0x0000FF#24).toNat + [0xA5#8, 0x5A#8].length ≤ base.params.capacity ∧
    WriteLoop 0x0000FF#24 [0xA5#8, 0x5A#8] (7 * 0 + 22 + 1 + (7 * 0 + 22 + pageRoom 0xFF)) base t 1
      (lastPoll 0 (afterTxn (bytesPageProgram 0x0000FF#24 [0xA5#8]) (afterTxn bytesWriteEnable (polled 1 base)))) ∧
    7 * 0 + 22 + 1 + (7 * 0 + 22 + pageRoom 0xFF) + 1 ≤ base.env.quantum :=
  ⟨_, flashReady_base, busFree_base, by decide, by decide,
    WriteLoop.more 0x0000FF#24 [0xA5#8, 0x5A#8] 0 _ base _ _ _ (by decide) readyAfter_base
      (WriteLoop.last 0x000100#24 [0x5A#8] 0 _ (by decide) (by decide) (show wipOf params _ = false by decide +kernel)),
    by decide⟩
theorem witness_EmptyWriteDoesNothing : FlashReady base ∧ (0x100000#24).toNat ≤ base.params.capacity ∧ 1 ≤ base.env.quantum :=
  ⟨flashReady_base, by decide, by decide⟩
theorem witness_ErasesComplete : FlashReady busyOnce ∧ BusFree busyOnce ∧ ReadyAfter 1 busyOnce ∧
    7 * (1 + 1) + 16 ≤ busyOnce.env.quantum ∧ (0x0FFFFF#24).toNat < busyOnce.params.capacity :=
  ⟨⟨rfl, rfl, rfl⟩, ⟨rfl, rfl, rfl⟩, readyAfter_busyOnce, by decide, by decide⟩
theorem witness_FlashFrame : Instr.space .isBusy = .flash ∧ after (exec .isBusy base) (fun _ => ()) = some () ∧
    Instr.space .busJedecId = .bus ∧ after (exec .busJedecId base) (fun _ => ()) = some () := by decide +kernel
theorem witness_PermitExcludesFlash : Instr.space .isBusy = .flash ∧ ArbInv (opened .disp) ∧
    (opened .disp).arb.permitOwner = some .disp ∧ after (exec .isBusy (opened .disp)) (fun _ => ()) = some () :=
  ⟨rfl, arbInv_opened .disp, rfl, by decide⟩
theorem witness_ReadersKeepMemory : ArbInv base ∧ after (exec .isBusy base) (fun _ => ()) = some () :=
  ⟨arbInv_base, by decide +kernel⟩
theorem witness_StoresStayInRange : ArbInv base ∧ after (exec (.write 0xFF#24 [0xA5#8, 0x5A#8]) base) (fun _ => ()) = some () ∧
    after (exec (.busPageProgram 0xFF#24 [0xA5#8]) base) (fun _ => ()) = some () ∧
    after (exec (.eraseSector 0x0FFFFF#24) base) (fun _ => ()) = some () ∧
    after (exec (.busSectorErase4K 0x0FFFFF#24) base) (fun _ => ()) = some () := by
  refine ⟨arbInv_base, ?_⟩
  decide +kernel
theorem witness_PageSplit : 1 ≤ 1 ∧ 1 ≤ 256 - 0xFF % 256 ∧ 256 - 0xFF % 256 < 2 ∧
    (pageSplit 2 0xFF 2)[0]? = some (0xFF, 1) ∧ (pageSplit 2 0xFF 2)[1]? = some (0x100, 1) := by decide
/-- The controller in phase `ph` of operation `op`, with one byte read. -/
def flashAt (op : Byte) (ph : FlPhase) (b : Byte) : Flash :=
  { base.flash with
    flOp := op
    flPhase := ph
    ctl := .transfer
    txnGot := [b] }
theorem witness_FlashTransitions : flashOpOf 0x02#8 = some .write ∧ rangeRefused params .write 0xFF#24 0#25 [0xA5#8] = false ∧
    (flashAt 0x02#8 .wait 0x01#8).job = .host ∧ flashOpOf (flashAt 0x02#8 .wait 0x01#8).flOp = some .write ∧
    ((flashAt 0x02#8 .wait 0x01#8).txnGot.headD 0#8).getLsbD params.wipBit.val = true ∧
    ((flashAt 0x02#8 .wait 0xFE#8).txnGot.headD 0#8).getLsbD params.wipBit.val = false ∧
    (flashAt 0x02#8 .wren 0#8).flPhase = .wren ∧ (flashAt 0x9F#8 .cmd 0#8).flPhase = .cmd ∧
    (base.setFlash { base.flash with flPhase := .done, ctl := .done }).flash.ctl = .done := by decide
theorem witness_ReferenceChipCommands : base.chip.kind = .reference ∧ base.chip.wip = false ∧ base.chip.pd = false ∧
    ({ base.chip with wel := true } : Chip).wel = true ∧ [0xA5#8] ≠ [] ∧ (0x0FFFFF#24).toNat < params.capacity ∧
    ({ base.chip with wip := true } : Chip).wip = true ∧ base.chip.wel = false ∧
    ({ base.chip with pd := true } : Chip).pd = true := by decide
theorem witness_ReadReturnsMemory : FlashReady base ∧ BusFree base ∧ base.chip.kind = .reference ∧ base.params.wipBit = 0 ∧
    base.chip.wip = false ∧ base.chip.pd = false ∧ (0x0FFFFF#24).toNat + (1#25).toNat ≤ base.params.capacity ∧
    (1#25).toNat + 17 ≤ base.env.quantum :=
  ⟨flashReady_base, busFree_base, rfl, rfl, rfl, rfl, by decide, by decide⟩
theorem witness_WriteOnReferenceChip : FlashReady base ∧ BusFree base ∧ MemInv base ∧ [0xA5#8, 0x5A#8] ≠ [] ∧
    base.chip.kind = .reference ∧ base.params.wipBit = 0 ∧ base.chip.wip = false ∧ base.chip.pd = false ∧
    base.chip.plan = some 0 ∧ (0x0FFFFE#24).toNat + [0xA5#8, 0x5A#8].length ≤ base.params.capacity ∧
    (7 * 0 + 24) * ([0xA5#8, 0x5A#8].length + 1) ≤ base.env.quantum :=
  ⟨flashReady_base, busFree_base, memInv_base, by decide, rfl, rfl, rfl, rfl, rfl, by decide, by decide⟩

end Sys2Proof.Tests
end

/-! ## The state: reset, the inputs, and what the link engine leaves alone (10_state.md) -/

section
namespace Sys2Proof.Machine

/-! ### What one micro-step of the link engine is -/

/-- The rows of a micro-step of the engine: one transition of R189, or one of the command layer above it. -/
inductive Link.MicroStep (now : Time) (l : Link) : Link → Prop
  /-- nothing to do -/
  | rest : l.ctl = .idle → l.waiting = [] → MicroStep now l l
  /-- the oldest waiting request is accepted -/
  | accept {m : Link} (r : LinkReq) (rest : List LinkReq) : l.ctl = .idle → l.waiting = r :: rest →
      Link.accept r { l with waiting := rest } = .next m → MicroStep now l m
  /-- a request frame is sent -/
  | send (op : LinkOp) : l.ctl = .start → linkOpOf l.lkOp = some op → MicroStep now l (l.send now op)
  /-- the handshake pause goes on -/
  | pauseOn (since : Time) : l.ctl = .pause since → MicroStep now l l
  /-- the handshake pause is over -/
  | pauseOver (since : Time) : l.ctl = .pause since →
      MicroStep now l { l with pingTry := l.pingTry + 1#2, ctl := .start }
  /-- the frame is out, the response is awaited -/
  | sent : l.ctl = .exchange → l.linkState = .sent → MicroStep now l { l with linkState := .awaitStart }
  /-- a receive step -/
  | receive : l.ctl = .exchange → l.linkState.receives = true → MicroStep now l (l.receive now)
  /-- the exchange was OK -/
  | ok (op : LinkOp) : l.ctl = .exchange → linkOpOf l.lkOp = some op → MicroStep now l (l.onOk now op)
  /-- the exchange failed -/
  | fail (op : LinkOp) (st : BitVec 3) : l.ctl = .exchange → linkOpOf l.lkOp = some op →
      MicroStep now l (l.fail now op st)

theorem Link.micro_step {now : Time} {l m : Link} (h : l.micro now = .next m) : l.MicroStep now m := by
  unfold Link.micro at h
  split at h
  case h_1 hc =>
    split at h
    · cases h; exact .rest hc ‹_›
    · exact .accept _ _ hc ‹_› h
  case h_2 hc => split at h <;> cases h; exact .send _ hc ‹_›
  case h_3 since hc =>
    cases h
    split
    · exact .pauseOver since hc
    · exact .pauseOn since hc
  case h_4 hc =>
    split at h
    case h_1 => cases h
    case h_2 hs => cases h; exact .sent hc hs
    case h_8 => split at h <;> cases h; exact .ok _ hc ‹_›
    case h_9 | h_10 | h_11 => split at h <;> cases h; exact .fail _ _ hc ‹_›
    all_goals rename_i hs; cases h; exact .receive hc (by rw [hs]; rfl)

/-- What accepting a request writes (R210, R211, R218). -/
theorem Link.accept_eq_next {r : LinkReq} {l m : Link} (h : Link.accept r l = .next m) :
    ∃ op, linkOpOf r.op = some op ∧ m = { l with
      lkOp := r.op
      lkArgs := r.args
      bulkN := if op.isBulk then BitVec.ofNat 16 r.n else l.bulkN
      bulkOff := if op.isBulk then 0#16 else l.bulkOff
      hostData := r.data
      out := []
      pingTry := if op = .init then 1#2 else l.pingTry
      ctl := .start } := by
  unfold Link.accept at h
  split at h
  · cases h
  · iterate 3 (split at h; · cases h)
    cases h
    exact ⟨_, ‹_›, rfl⟩

theorem Link.takeByte_ctl (l : Link) (b : Byte) : (l.takeByte b).ctl = l.ctl := by
  unfold Link.takeByte
  split
  case h_2 =>
    split
    · rfl
    · split <;> rfl
  case h_1 | h_5 => split <;> rfl
  all_goals rfl

/-- A receive step leaves link_ready and the command layer's position alone. -/
theorem Link.receive_kept (l : Link) (now : Time) :
    (l.receive now).linkReady = l.linkReady ∧ (l.receive now).ctl = l.ctl := by
  unfold Link.receive
  split
  · exact ⟨rfl, rfl⟩
  · exact ⟨rfl, rfl⟩
  · obtain ⟨_, _, hr, _, _⟩ := Link.takeByte_kept ({ l with serRx := ‹_› } : Link) ‹_›
    exact ⟨hr, Link.takeByte_ctl _ _⟩

/-! ### R31: link_ready -/

theorem linkOpOf_zero {op : LinkOp} (h : linkOpOf 0x00#8 = some op) : op = .init :=
  (Option.some.inj h).symm

/-- A failed attempt of INIT goes to the pause, or it ends the operation with link_ready cleared (R211). -/
theorem Link.fail_init (now : Time) (st : BitVec 3) (l : Link) :
    l.fail now .init st = { l with linkState := .idle, ctl := .pause now } ∨
      l.fail now .init st = ({ l with linkReady := false } : Link).raise stInitFail [] 0 := by
  simp only [Link.fail, Link.attemptFailed]
  split
  · exact .inl rfl
  · exact .inr rfl

/-- An exchange of INIT that was OK ends the operation with link_ready set, or the attempt failed (R211). -/
theorem Link.onOk_init (now : Time) (l : Link) :
    l.onOk now .init = ({ l with linkReady := true } : Link).succeed [] ∨
      l.onOk now .init = l.fail now .init stNack := by
  simp only [Link.onOk]
  split
  · exact .inl rfl
  · exact .inr rfl

/-- The operation has ended, and link_ready says whether its status code is 0. -/
def Link.Concluded (m : Link) : Prop := m.ctl = .idle ∧ (m.linkReady = true ↔ m.linkStatus = 0#3)

theorem Link.fail_init_concluded {now : Time} {st : BitVec 3} {l : Link}
    (h : (l.fail now .init st).linkReady ≠ l.linkReady) : (l.fail now .init st).Concluded := by
  rcases Link.fail_init now st l with e | e <;> rw [e] at h ⊢
  · exact absurd rfl h
  · exact ⟨rfl, by simp [Link.raise, stInitFail]⟩

theorem Link.onOk_init_concluded {now : Time} {l : Link}
    (h : (l.onOk now .init).linkReady ≠ l.linkReady) : (l.onOk now .init).Concluded := by
  rcases Link.onOk_init now l with e | e <;> rw [e] at h ⊢
  · exact ⟨rfl, by simp [Link.succeed, stOk]⟩
  · exact Link.fail_init_concluded h

/-- Settles O42: of the rows of a micro-step only the two that follow an exchange can touch link_ready, by
`Link.micro_frame` only for INIT, and there the attempt has ended the operation. -/
theorem linkReadyOnlyByInit : Obligations.LinkReadyOnlyByInit := by
  unfold Obligations.LinkReadyOnlyByInit
  intro now l m h hne
  obtain ⟨_, _, hready, _, _⟩ := Link.micro_frame h
  have h0 : l.lkOp = 0x00#8 := hready hne
  have concluded : l.ctl = .exchange ∧ m.Concluded := by
    cases Link.micro_step h with
    | ok op hc ho =>
      obtain rfl := linkOpOf_zero (h0 ▸ ho)
      exact ⟨hc, Link.onOk_init_concluded hne⟩
    | fail op st hc ho =>
      obtain rfl := linkOpOf_zero (h0 ▸ ho)
      exact ⟨hc, Link.fail_init_concluded hne⟩
    | accept r rest hc hw ha =>
      obtain ⟨_, _, rfl⟩ := Link.accept_eq_next ha
      exact absurd rfl hne
    | receive hc hs => exact absurd (Link.receive_kept l now).1 hne
    | rest | send | pauseOn | pauseOver | sent => exact absurd rfl hne
  exact ⟨h0, concluded⟩

/-! ### R32: ser_tx only grows -/

/-- timeout_ms is the same, and ser_tx has only grown. -/
def Link.Extends (l m : Link) : Prop := m.timeoutMs = l.timeoutMs ∧ l.serTx <+: m.serTx

theorem Link.Extends.refl (l : Link) : l.Extends l := ⟨rfl, List.prefix_rfl⟩

theorem Link.Extends.trans {l m n : Link} (h1 : l.Extends m) (h2 : m.Extends n) : l.Extends n :=
  ⟨h2.1.trans h1.1, h1.2.trans h2.2⟩

theorem Link.Frame.extends {l m : Link} (h : l.Frame m) : l.Extends m := by
  obtain ⟨ht, ⟨sent, hs⟩, _⟩ := h
  exact ⟨ht, sent, hs.symm⟩

theorem Link.run_extends {now : Time} {n : Nat} {l m : Link} (h : Link.run now n l = .next m) : l.Extends m :=
  Link.run_keeps (P := l.Extends) (fun _ _ ha _ hb => ha.trans (Link.micro_frame hb).extends) n l m (.refl l) h

theorem Link.present_extends {now : Time} {q : Nat} {r : LinkReq} {l m : Link}
    (h : Link.present now q r l = .next m) : l.Extends m := by
  unfold Link.present at h
  split at h
  · rename_i hidle
    obtain ⟨u, hu, hm⟩ := andThen_eq_next.1 h
    exact (Link.accept_frame hidle.1 hu).extends.trans (Link.run_extends hm)
  · cases h; exact .refl l

theorem Link.arrive_extends {now : Time} {q : Nat} {bytes : List Byte} {l m : Link}
    (h : Link.arrive now q bytes l = .next m) : l.Extends m :=
  Link.run_extends (l := { l with serRx := l.serRx ++ bytes }) h

/-- Bytes that arrive while no operation is in progress stay in ser_rx (R33). -/
theorem Link.arrive_idle {l : Link} (h : l.ctl = .idle) (now : Time) (q : Nat) (bytes : List Byte) :
    Link.arrive now q bytes l = .next { l with serRx := l.serRx ++ bytes } :=
  Link.run_stop (l := { l with serRx := l.serRx ++ bytes }) (.inl h) q

theorem LinkChange.serTx_prefix {now : Time} {l m : Link} (h : LinkChange now l m) : l.serTx <+: m.serTx := by
  cases h with
  | micro h => exact (Link.micro_frame h).extends.2
  | accept r hc h => exact (Link.accept_frame hc h).extends.2
  | enqueue | arrive | setTimeout => exact List.prefix_rfl

theorem arbAccept_link {c : Client} {r : ArbReq} {s t : State} (h : arbAccept c r s = .next t) : t.link = s.link := by
  obtain ⟨⟨hl, _⟩, _⟩ := arbAccept_frame h
  exact hl

/-- A micro-step at an ARB port leaves the link engine alone, whether it accepts a request or goes on with one. -/
theorem arbMicro_link {c : Client} {s t : State} (h : arbMicro c s = .next t) : t.link = s.link := by
  by_cases hp : s.arb.port.get c = .idle
  · unfold arbMicro at h
    rw [hp] at h
    dsimp only at h
    split at h
    · cases h; rfl
    · split at h
      · exact (arbAccept_link h).trans rfl
      · cases h; rfl
  · obtain ⟨⟨hl, _⟩, _⟩ := arbMicro_frame hp h
    exact hl

theorem flashMicro_link {s t : State} (h : flashMicro s = .next t) : t.link = s.link :=
  flashMicro_keeps (P := fun u => u.link = s.link) (fun _ _ hu => hu) (fun _ _ _ hu ha => (arbAccept_link ha).trans hu)
    (fun _ _ hu hm => (arbMicro_link hm).trans hu) rfl h

/-- What every change of the link engine's registers keeps of them, everything that can happen to the state keeps. -/
theorem Kept.of_link {Q : Link → Prop} (h : ∀ now l m, Q l → LinkChange now l m → Q m) : Kept (fun s => Q s.link) where
  accept _ _ _ _ hs _ ha := (arbAccept_link ha).symm ▸ hs
  port _ _ _ hs hm := (arbMicro_link hm).symm ▸ hs
  portWait _ _ hs := hs
  link _ _ hs hc := h _ _ _ hs hc
  flash _ _ hs hm := (flashMicro_link hm).symm ▸ hs
  flashAccept _ _ _ hs _ _ := hs
  flashWait _ _ hs := hs
  time _ _ hs := hs
  env _ _ hs := hs
  chip _ hs := hs
  grant _ _ hs := hs

/-- Settles O43: that ser_tx begins with the old one is a property of the link engine that every one of its changes keeps, so
every step but a reset keeps it. -/
theorem serTxAppendOnly : Obligations.SerTxAppendOnly := by
  unfold Obligations.SerTxAppendOnly
  intro s t hin h
  have kept : Kept (fun u => s.link.serTx <+: u.link.serTx) :=
    Kept.of_link (Q := fun l => s.link.serTx <+: l.serTx) (fun _ _ _ hl hc => hl.trans hc.serTx_prefix)
  obtain ⟨sent, hs⟩ := kept.stepNoReset List.prefix_rfl (fun hr => absurd hr hin) h
  exact ⟨sent, hs.symm⟩

/-! ### The frame of the link operations -/

/-- An operation of the LINK port or a request frame is its request presented at that port, or its operands are outside
their domain. -/
theorem exec_linkRequest {i : Instr} {r : LinkReq} (h : linkRequest i = some r) (s : State) :
    exec i s = presentLink r s ∨ exec i s = .refused .illFormed := by
  cases i <;> cases h
  case reqI2cWrite => simp only [exec, execReqI2cWrite]; split; exacts [.inl rfl, .inr rfl]
  case reqI2cRead => simp only [exec, execReqI2cRead]; split; exacts [.inl rfl, .inr rfl]
  case reqSpiTransfer => simp only [exec, execReqSpiTransfer]; split; exacts [.inl rfl, .inr rfl]
  all_goals exact .inl rfl

/-- The operations on the link engine's side are its requests and the response frame. -/
theorem linkRequest_or_response {i : Instr} (h : i.space = .link ∨ i.space = .req ∨ i.space = .rsp) :
    (∃ r, linkRequest i = some r) ∨ ∃ p, i = .response p := by
  cases i
  case response p => exact .inr ⟨p, rfl⟩
  case acquire | release | beginTransaction | endTransaction | busXfer | waitForReady | write | read | isBusy |
    eraseSector | identify | wakeUp | powerDown | eraseChip | busWriteEnable | busReadStatus1 | busReadData |
    busPageProgram | busSectorErase4K | busChipErase | busJedecId | busPowerDown | busReleasePowerDown =>
    simp [Instr.space] at h
  all_goals exact .inl ⟨_, rfl⟩

/-- Only INIT has the selector 0x00 at the LINK port (R104). -/
theorem linkRequest_op_ne {i : Instr} {r : LinkReq} (h : linkRequest i = some r) (hi : i ≠ .init) : r.op ≠ 0x00#8 := by
  cases i <;> cases h
  case init => exact absurd rfl hi
  all_goals simp [scalarRequest]

/-- Only INIT pauses (R211). -/
theorem Link.fail_ctl {now : Time} {op : LinkOp} {st : BitVec 3} {l : Link} (h : op ≠ .init) :
    (l.fail now op st).ctl = .idle := by
  cases op
  case init => exact absurd rfl h
  all_goals rfl

theorem Link.chunkDone_ctl (op : LinkOp) (out data : List Byte) (l : Link) :
    (l.chunkDone op out data).ctl = .start ∨ (l.chunkDone op out data).ctl = .idle := by
  unfold Link.chunkDone
  dsimp only
  split
  · exact .inl rfl
  · exact .inr rfl

theorem Link.onOk_ctl {now : Time} {op : LinkOp} {l : Link} (h : op ≠ .init) :
    (l.onOk now op).ctl = .start ∨ (l.onOk now op).ctl = .idle := by
  cases op <;> dsimp only [Link.onOk]
  case init => exact absurd rfl h
  case i2cRead | spiTransfer => exact Link.chunkDone_ctl _ _ _ _
  case i2cWrite =>
    split
    · exact Link.chunkDone_ctl _ _ _ _
    · exact .inr (Link.fail_ctl h)
  case ping =>
    split
    · exact .inr rfl
    · exact .inr (Link.fail_ctl h)
  all_goals exact .inr rfl

/-- A micro-step of an operation other than INIT leads to no pause. -/
theorem Link.micro_no_pause {now : Time} {l m : Link} (h : l.micro now = .next m) (hc : l.ctl ≠ .idle)
    (hop : l.lkOp ≠ 0x00#8) (hp : ∀ t, l.ctl ≠ .pause t) (t : Time) : m.ctl ≠ .pause t := by
  have notInit : ∀ op, linkOpOf l.lkOp = some op → op ≠ .init := by
    rintro op ho rfl
    exact hop (linkOpOf_init ho)
  cases Link.micro_step h with
  | rest hi | accept _ _ hi => exact absurd hi hc
  | pauseOn since hs | pauseOver since hs => exact absurd hs (hp since)
  | send => simp [Link.send]
  | sent he => simp [he]
  | receive he => rw [(Link.receive_kept l now).2, he]; simp
  | ok op _ ho => rcases Link.onOk_ctl (now := now) (l := l) (notInit op ho) with e | e <;> simp [e]
  | fail op st _ ho => simp [Link.fail_ctl (notInit op ho)]

/-- An operation other than INIT is under way or has ended, and link_ready and ping_try are what they were in `l`. -/
structure Link.QuietFrom (l m : Link) : Prop where
  op : m.lkOp ≠ 0x00#8
  noPause : ∀ t, m.ctl ≠ .pause t
  ready : m.linkReady = l.linkReady
  tries : m.pingTry = l.pingTry

theorem Link.QuietFrom.micro {now : Time} {l m n : Link} (h : l.QuietFrom m) (hc : m.ctl ≠ .idle)
    (hm : m.micro now = .next n) : l.QuietFrom n := by
  obtain ⟨hop, hp, hr, ht⟩ := h
  obtain ⟨_, _, hready, htry, hkeep⟩ := Link.micro_frame hm
  refine ⟨hkeep hc ▸ hop, Link.micro_no_pause hm hc hop hp, ?_, ?_⟩
  · by_contra hne
    exact hop (hready (hr ▸ hne))
  · by_contra hne
    rcases htry (ht ▸ hne) with ⟨t, hpause⟩ | hidle
    · exact hp t hpause
    · exact hc hidle

theorem Link.QuietFrom.accept {r : LinkReq} {l m : Link} (hr : r.op ≠ 0x00#8) (h : Link.accept r l = .next m) :
    l.QuietFrom m := by
  obtain ⟨op, ho, rfl⟩ := Link.accept_eq_next h
  have hi : op ≠ .init := by
    rintro rfl
    exact hr (linkOpOf_init ho)
  exact ⟨hr, fun t => by simp, rfl, by simp [hi]⟩

/-- A request other than INIT leaves link_ready and ping_try alone, whether it runs or waits. -/
theorem Link.present_quiet {now : Time} {q : Nat} {r : LinkReq} {l m : Link} (hr : r.op ≠ 0x00#8)
    (h : Link.present now q r l = .next m) : m.linkReady = l.linkReady ∧ m.pingTry = l.pingTry := by
  unfold Link.present at h
  split at h
  · obtain ⟨u, hu, hm⟩ := andThen_eq_next.1 h
    have quiet : l.QuietFrom m :=
      Link.run_keeps (fun _ _ ha hc hb => ha.micro hc hb) q u m (.accept hr hu) hm
    exact ⟨quiet.ready, quiet.tries⟩
  · cases h; exact ⟨rfl, rfl⟩

/-- Settles O41: the operation is a request presented at the LINK port or an arriving frame; both only lift an answer of
the engine, whose runs are framed by `Link.Frame`, and a run of an operation other than INIT is quiet. -/
theorem linkFrame : Obligations.LinkFrame := by
  unfold Obligations.LinkFrame
  intro i s t hside h
  rcases linkRequest_or_response hside with ⟨r, hreq⟩ | ⟨p, rfl⟩
  · rcases exec_linkRequest hreq s with e | e <;> rw [e] at h
    · obtain ⟨l, hl, rfl⟩ := liftLink_eq_next.1 h
      obtain ⟨htimeout, sent, hsent⟩ := Link.present_extends hl
      exact ⟨rfl, htimeout, ⟨sent, hsent.symm⟩, fun hi _ => Link.present_quiet (linkRequest_op_ne hreq hi) hl⟩
    · cases h
  · simp only [exec, execResponse] at h
    split at h
    · obtain ⟨l, hl, rfl⟩ := liftLink_eq_next.1 h
      obtain ⟨htimeout, sent, hsent⟩ := Link.arrive_extends hl
      refine ⟨rfl, htimeout, ⟨sent, hsent.symm⟩, fun _ hidle => ?_⟩
      rw [Link.arrive_idle hidle] at hl
      cases hl
      exact ⟨rfl, rfl⟩
    · cases h

/-! ### R55, R340: reset -/

@[simp] theorem PerClient.get_mk_same {α : Type} (v : α) (c : Client) : (PerClient.mk v v).get c = v := by
  cases c <;> rfl

/-- Deselecting the chip at reset keeps its array, its bits and its identification (R50, R341). -/
theorem chipCut_kept (selected : Bool) (c : Chip) :
    (chipCut selected c).mem = c.mem ∧ (chipCut selected c).wip = c.wip ∧ (chipCut selected c).wel = c.wel ∧
      (chipCut selected c).pd = c.pd ∧ (chipCut selected c).ident = c.ident := by
  unfold chipCut
  split <;> exact ⟨rfl, rfl, rfl, rfl, rfl⟩

/-- Settles O6: every register of R55 is read off `resetBlock` and `State.reset`; the chip is kept by `chipCut_kept`. -/
theorem resetValues : Obligations.ResetValues := by
  unfold Obligations.ResetValues
  refine ⟨fun s => ?_, rfl, rfl, PerClient.get_mk_same false, rfl, PerClient.get_mk_same false, rfl, rfl, rfl, rfl,
    rfl, rfl, rfl, rfl, rfl⟩
  obtain ⟨hmem, hwip, hwel, hpd, hident⟩ := chipCut_kept s.arb.cs.mem s.chip
  exact ⟨resetBlock s, rfl, rfl, rfl, PerClient.get_mk_same false, rfl, PerClient.get_mk_same false, rfl, rfl, rfl,
    rfl, rfl, rfl, rfl, rfl, rfl, rfl, hmem, hwip, hwel, hpd, hident, rfl⟩

/-- The arbiter's invariants hold whenever its registers hold their reset values, whatever its counter of grants. -/
theorem ArbInv.of_reset {s : State} {n : Nat} (h : s.arb = { Arbiter.reset s.params.sharedCfg with grants := n }) :
    ArbInv s := by
  constructor <;> simp [h, Arbiter.reset, bracket]

theorem StatusInv.of_reset {s : State} {n : Nat} (hl : s.link = { Link.reset with freeCtr := n })
    (hf : s.flash = Flash.reset) : StatusInv s := by
  constructor <;> simp [hl, hf, Link.reset, Flash.reset, Result.reset]

theorem SeqInv.of_reset {s : State} {n : Nat} (hl : s.link = { Link.reset with freeCtr := n })
    (hf : s.flash = Flash.reset) : SeqInv s := by
  refine ⟨?_, ?_⟩
  · constructor <;> simp [hl, Link.reset]
  · constructor <;> simp [hf, Flash.reset]

theorem memInv_reset : MemInv State.reset := ⟨rfl, fun _ h => nomatch h⟩

/-- Settles O7: `State.reset` holds the reset values of the arbiter, the link engine and the flash controller, and its
array is empty. -/
theorem resetInvariants : Obligations.ResetInvariants := by
  unfold Obligations.ResetInvariants
  exact ⟨.of_reset (n := 0) rfl, memInv_reset, .of_reset (n := 0) rfl rfl, .of_reset (n := 0) rfl rfl⟩

/-! ### R33, R48, R82: the inputs -/

/-- The chip's own step clears its busy bit and keeps the array and the other bits (R82). -/
theorem chipOwnStep_kept (c : Chip) :
    (chipOwnStep c).wip = false ∧ (chipOwnStep c).mem = c.mem ∧ (chipOwnStep c).wel = c.wel ∧
      (chipOwnStep c).pd = c.pd := by
  unfold chipOwnStep
  split
  · exact ⟨rfl, rfl, rfl, rfl⟩
  · exact ⟨by simpa using ‹¬ c.wip = true›, rfl, rfl, rfl⟩

/-- Settles O12: each input writes one part of the state; the interval across the wrap is subtraction modulo 2^32. -/
theorem inputsAreLocal : Obligations.InputsAreLocal := by
  unfold Obligations.InputsAreLocal
  refine ⟨fun s ms => ?_, fun _ _ => rfl, fun s => ?_, fun _ _ => rfl⟩
  · exact ⟨s.setTime (s.tNow + ms), rfl, add_sub_cancel_left s.tNow ms, BitVec.toNat_add _ _, rfl⟩
  · exact ⟨s.setChip (chipOwnStep s.chip), rfl, rfl, chipOwnStep_kept s.chip⟩

/-! ### R47: timeout_ms -/

theorem writeTimeout_idle {s : State} (h : s.link.ctl = .idle) (v : BitVec 16) :
    writeTimeout v s = .next (s.setLink { s.link with timeoutMs := v }) := if_pos h

theorem writeTimeout_busy {s : State} (h : s.link.ctl ≠ .idle) (v : BitVec 16) :
    writeTimeout v s = .refused .timeoutWriteBusy := if_neg h

/-- With the value 0 the deadline has always passed. -/
theorem Link.expired_of_zero {l : Link} (h : l.timeoutMs = 0#16) (now : Time) : l.expired now = true := by
  simp [Link.expired, h]

/-- Settles O40: the write is decided by whether the engine is idle; a window of 0 is expired at any time, so the first
receive step takes the timeout. -/
theorem timeoutRegister : Obligations.TimeoutRegister := by
  unfold Obligations.TimeoutRegister
  refine ⟨fun s v => ⟨fun h => writeTimeout_idle h v, fun h => writeTimeout_busy h v⟩, ?_⟩
  intro now l h0 hc hs
  have hrx : l.serRxNow now = .timeout := Link.serRxNow_expired (Link.expired_of_zero h0 now)
  rw [Link.micro_receive hc (by rw [hs]; rfl)]
  simp [Link.receive, hrx, Link.takeTimeout, hs]

end Sys2Proof.Machine
end

/-! ## The memory chip: what keeps its array sound, and what it answers (20_memory.md) -/

section
namespace Sys2Proof.Machine

/-! ### What the end of a command can do to the array -/

/-- What the reference chip can do to its array `m` when a command of the bytes `cmd` ends (R82). -/
inductive ArrayChange (p : Params) (cmd : List Byte) (m : List Host.Cell) : List Host.Cell → Prop
  /-- the command is ignored, reads, or touches the chip's bits only -/
  | kept : ArrayChange p cmd m m
  /-- page-program -/
  | program (rest : List Byte) : cmd = 0x02#8 :: rest → cmdAddr rest < p.capacity →
      ArrayChange p cmd m (Memory.program m (cmdAddr rest) 0 (rest.drop 3))
  /-- sector erase -/
  | eraseSector (rest : List Byte) : cmd = 0x20#8 :: rest →
      ArrayChange p cmd m (Memory.erase m (sectorOf (cmdAddr rest) * 4096) 4096)
  /-- chip erase -/
  | eraseChip : cmd = [0xC7#8] → ArrayChange p cmd m []

theorem eChipEffect_arrayChange (p : Params) (c : Chip) (op : Byte) (rest : List Byte) :
    ArrayChange p (op :: rest) c.mem (eChipEffect p c op rest).mem := by
  unfold eChipEffect
  split
  case h_5 =>
    split
    · exact .kept
    · split
      · exact .kept
      · split
        · exact .kept
        · exact .program rest rfl (by omega)
  case h_6 =>
    split
    · exact .kept
    · exact .eraseSector rest rfl
  case h_7 =>
    split
    · subst rest; exact .eraseChip rfl
    · exact .kept
  case h_3 | h_4 | h_8 | h_9 => split <;> exact .kept
  all_goals exact .kept

/-- Deselecting the chip, whatever it is, changes its array by the command it has received and not otherwise. -/
theorem chipDeselect_arrayChange (p : Params) (c : Chip) :
    ArrayChange p c.cmd c.mem (chipDeselect p c).mem := by
  unfold chipDeselect
  split
  · rename_i op rest _ hcmd
    rw [hcmd]
    simp only [eChipExecute]
    split
    · exact eChipEffect_arrayChange p c op rest
    · exact .kept
  · exact .kept

/-! ### R60: the array stays canonical and inside CAPACITY -/

/-- A page-program wraps inside its page, and CAPACITY is a number of whole pages. -/
theorem programAddr_lt_capacity {p : Params} {a : Nat} (h : a < p.capacity) (k : Nat) :
    programAddr a k < p.capacity := by
  unfold programAddr Params.capacity at *
  omega

theorem ArrayChange.canonical {p : Params} {cmd : List Byte} {m m' : List Host.Cell} (h : ArrayChange p cmd m m')
    (hm : Memory.wf m = true) : Memory.wf m' = true := by
  cases h with
  | kept => exact hm
  | program rest => exact Memory.wf_program _ _ _ _ hm
  | eraseSector rest => exact Memory.wf_erase _ _ _ hm
  | eraseChip => rfl

theorem ArrayChange.inside {p : Params} {cmd : List Byte} {m m' : List Host.Cell} (h : ArrayChange p cmd m m')
    (hm : ∀ x ∈ m, x.1 < p.capacity) : ∀ x ∈ m', x.1 < p.capacity := by
  intro x hx
  cases h with
  | kept => exact hm x hx
  | program rest _ ha =>
    rcases Memory.mem_program hx with ⟨j, hj⟩ | hx
    · rw [hj]; exact programAddr_lt_capacity ha j
    · exact hm x hx
  | eraseSector rest => exact hm x (List.mem_filter.1 hx).1
  | eraseChip => cases hx

theorem MemInv.change {s t : State} {cmd : List Byte} (h : MemInv s) (hp : t.params = s.params)
    (hm : ArrayChange s.params cmd s.chip.mem t.chip.mem) : MemInv t :=
  ⟨hm.canonical h.canonical, hp ▸ hm.inside h.inside⟩

theorem MemInv.of_same_mem {s t : State} (h : MemInv s) (hp : t.params = s.params) (hm : t.chip.mem = s.chip.mem) :
    MemInv t := ⟨hm ▸ h.canonical, hm ▸ hp ▸ h.inside⟩

theorem arbAccept_finish_eq_next {c : Client} {s t : State} (h : arbAccept c .finish s = .next t) :
    t = closeTxn c s := by
  simp only [arbAccept] at h
  split at h <;> cases h
  rfl

/-- Of the requests at the ARB ports only the end of MEM's transaction touches the array (`arbAccept_frame`). -/
theorem arbAccept_memInv {c : Client} {r : ArbReq} {s t : State} (hs : MemInv s) (h : arbAccept c r s = .next t) :
    MemInv t := by
  obtain ⟨⟨_, _, hparams, _⟩, hmem⟩ := arbAccept_frame h
  by_cases hend : c = .mem ∧ r = .finish
  · obtain ⟨rfl, rfl⟩ := hend
    obtain rfl := arbAccept_finish_eq_next h
    exact hs.change hparams (chipDeselect_arrayChange s.params s.chip)
  · exact hs.of_same_mem hparams (hmem hend)

theorem arbMicro_memInv {c : Client} {s t : State} (hs : MemInv s) (h : arbMicro c s = .next t) : MemInv t := by
  by_cases hp : s.arb.port.get c = .idle
  · unfold arbMicro at h
    rw [hp] at h
    dsimp only at h
    split at h
    · cases h; exact hs
    · split at h
      · refine arbAccept_memInv ?_ h
        exact hs.of_same_mem rfl rfl
      · cases h; exact hs
  · obtain ⟨⟨_, _, hparams, _⟩, hmem⟩ := arbMicro_frame hp h
    exact hs.of_same_mem hparams hmem

theorem kept_memInv : Kept MemInv where
  accept _ _ _ _ hs _ ha := arbAccept_memInv hs ha
  port _ _ _ hs hm := arbMicro_memInv hs hm
  portWait _ _ hs := hs.of_same_mem rfl rfl
  link _ _ hs _ := hs.of_same_mem rfl rfl
  flash _ _ hs hm := flashMicro_keeps (fun _ _ hu => hu.of_same_mem rfl rfl) (fun _ _ _ hu ha => arbAccept_memInv hu ha)
    (fun _ _ hu hm => arbMicro_memInv hu hm) hs hm
  flashAccept _ _ _ hs _ _ := hs.of_same_mem rfl rfl
  flashWait _ _ hs := hs.of_same_mem rfl rfl
  time _ _ hs := hs.of_same_mem rfl rfl
  env _ _ hs := hs.of_same_mem rfl rfl
  chip s hs := hs.of_same_mem rfl (chipOwnStep_kept s.chip).2.1
  grant _ _ hs := hs.of_same_mem rfl rfl

/-- Settles O9: the array changes only when MEM's select line is deasserted, and there by an `ArrayChange`; all other changes
of the state, a reset among them, leave it as it is. -/
theorem memInvKept : Obligations.MemInvKept := by
  unfold Obligations.MemInvKept
  intro s t hs h
  have reset (u : State) (hu : MemInv u) : MemInv (resetBlock u) :=
    hu.of_same_mem rfl (chipCut_kept u.arb.cs.mem u.chip).1
  exact kept_memInv.step reset hs h

end Sys2Proof.Machine
end

/-! ## The reference chip: whole commands, and READ (20_memory.md) -/

section
namespace Sys2Proof.Machine

/-! ### The chip while it receives a command -/

/-- The address of a command whose bytes after the opcode begin with the address `a`. -/
theorem cmdAddr_be24 (a : Addr) (d : List Byte) : cmdAddr (be24 a ++ d) = a.toNat :=
  congrArg BitVec.toNat (addrOf_be24 a)

/-- Only a status read that finds the chip busy moves its plan (log 18). -/
theorem chipBefore_of_quiet {c : Chip} {op : Byte} {rest : List Byte} (hcmd : c.cmd = op :: rest)
    (h : op ≠ 0x05#8 ∨ c.wip = false) : chipBefore c = c := by
  unfold chipBefore
  split
  · rename_i op' _ _ hcmd'
    obtain rfl : op = op' := (List.cons.inj (hcmd.symm.trans hcmd')).1
    rcases h with hop | hwip
    · rw [if_neg hop]
    · simp [chipPoll, hwip]
  · rfl

theorem chipReceive_of_quiet {c : Chip} {op : Byte} {rest : List Byte} (hcmd : c.cmd = op :: rest)
    (h : op ≠ 0x05#8 ∨ c.wip = false) (o : Byte) : chipReceive o c = { c with cmd := op :: (rest ++ [o]) } := by
  rw [chipReceive, chipBefore_of_quiet hcmd h, hcmd]
  rfl

/-- The opcode of a command changes nothing but the bytes received. -/
theorem chipReceive_opcode (op : Byte) (c : Chip) : chipReceive op (chipSelect c) = { c with cmd := [op] } := by
  have : chipBefore (chipSelect c) = chipSelect c := by
    unfold chipBefore
    split
    · rename_i hcmd; cases hcmd
    · rfl
  rw [chipReceive, this]
  rfl

theorem foldl_chipReceive_of_quiet {c : Chip} {op : Byte} {rest : List Byte} (sent : List Byte)
    (hcmd : c.cmd = op :: rest) (h : op ≠ 0x05#8 ∨ c.wip = false) :
    sent.foldl (fun d o => chipReceive o d) c = { c with cmd := op :: (rest ++ sent) } := by
  induction sent generalizing c rest with
  | nil => rw [List.append_nil, ← hcmd]; rfl
  | cons o sent ih =>
    rw [List.foldl_cons, chipReceive_of_quiet hcmd h,
      ih (c := { c with cmd := op :: (rest ++ [o]) }) (rest := rest ++ [o]) rfl h, List.append_assoc]
    rfl

/-! ### R82: which commands are taken -/

theorem eChipTakes_awake {op : Byte} (hop : op = 0x06#8 ∨ op = 0x03#8) (c : Chip) :
    eChipTakes c op = (!c.wip && !c.pd) := by
  rcases hop with rfl | rfl <;> rfl

theorem eChipTakes_store {op : Byte} (hop : op = 0x02#8 ∨ op = 0x20#8 ∨ op = 0xC7#8) (c : Chip) :
    eChipTakes c op = (!c.wip && !c.pd && c.wel) := by
  rcases hop with rfl | rfl | rfl <;> rfl

/-- Write-enable and read-data are ignored by a chip that is busy or powered down. -/
theorem eChipTakes_awake_eq_false {op : Byte} (hop : op = 0x06#8 ∨ op = 0x03#8) {c : Chip}
    (h : c.wip = true ∨ c.pd = true) : eChipTakes c op = false := by
  rw [eChipTakes_awake hop]
  rcases h with h | h <;> simp [h]

/-- A program or an erase is ignored by a chip that is busy, powered down or not write-enabled. -/
theorem eChipTakes_store_eq_false {op : Byte} (hop : op = 0x02#8 ∨ op = 0x20#8 ∨ op = 0xC7#8) {c : Chip}
    (h : c.wip = true ∨ c.pd = true ∨ c.wel = false) : eChipTakes c op = false := by
  rw [eChipTakes_store hop]
  rcases h with h | h | h <;> simp [h]

theorem chipWritable_eq_true {c : Chip} (hwip : c.wip = false) (hpd : c.pd = false) (hwel : c.wel = true) :
    chipWritable c = true := by simp [chipWritable, hwip, hpd, hwel]

/-! ### R82: whole commands -/

/-- A whole command on the reference chip: it is carried out when the select line is deasserted. -/
theorem chipAfter_reference {p : Params} {c : Chip} {op : Byte} (hk : c.kind = .reference)
    (h : op ≠ 0x05#8 ∨ c.wip = false) (rest : List Byte) :
    chipAfter p (op :: rest) c = { eChipExecute p { c with cmd := op :: rest } op rest with cmd := [] } := by
  rw [chipAfter, List.foldl_cons, chipReceive_opcode,
    foldl_chipReceive_of_quiet (c := { c with cmd := [op] }) rest rfl h, chipDeselect]
  simp [hk]

/-- A command that is ignored is no status read. -/
theorem ne_readStatus_of_ignored {c : Chip} {op : Byte} (ht : eChipTakes c op = false) : op ≠ 0x05#8 := by
  rintro rfl
  cases ht

/-- A command that the reference chip does not take leaves it as it was, whatever bytes came with it. -/
theorem chipAfter_ignored {p : Params} {c : Chip} {op : Byte} (hk : c.kind = .reference)
    (ht : eChipTakes c op = false) (rest : List Byte) : chipAfter p (op :: rest) c = { c with cmd := [] } := by
  have ht' : ¬ eChipTakes { c with cmd := op :: rest } op = true := (Bool.eq_false_iff.1 ht :)
  rw [chipAfter_reference hk (.inl (ne_readStatus_of_ignored ht)), eChipExecute, if_neg ht']

/-- A command that the reference chip takes has its effect. -/
theorem chipAfter_taken {p : Params} {c : Chip} {op : Byte} (hk : c.kind = .reference)
    (h : op ≠ 0x05#8 ∨ c.wip = false) (ht : eChipTakes c op = true) (rest : List Byte) :
    chipAfter p (op :: rest) c = { eChipEffect p { c with cmd := op :: rest } op rest with cmd := [] } := by
  rw [chipAfter_reference hk h, eChipExecute, if_pos]
  exact ht

theorem chipAfter_writeEnable {p : Params} {c : Chip} (hk : c.kind = .reference) (hwip : c.wip = false)
    (hpd : c.pd = false) : chipAfter p [0x06#8] c = { c with wel := true, cmd := [] } :=
  chipAfter_taken hk (.inl (by decide)) (by simp [eChipTakes, hwip, hpd]) []

/-- A page-program that is taken: the array programmed, the chip busy, the write-enable latch cleared. -/
theorem chipAfter_pageProgram {p : Params} {c : Chip} {a : Addr} {d : List Byte} (hk : c.kind = .reference)
    (hd : d ≠ []) (ha : a.toNat < p.capacity) (hw : chipWritable c = true) :
    chipAfter p (0x02#8 :: (be24 a ++ d)) c =
      { chipBusy (Memory.program c.mem a.toNat 0 d) c with cmd := [] } := by
  have hlen : ¬ (be24 a ++ d).length < 3 := by simp [be24]
  have hdrop : (be24 a ++ d).drop 3 = d := rfl
  rw [chipAfter_taken (op := 0x02#8) hk (.inl (by decide)) hw]
  simp only [eChipEffect, hlen, hdrop, hd, cmdAddr_be24, Nat.not_le.2 ha, if_false, chipBusy]

theorem chipAfter_sectorErase {p : Params} {c : Chip} {a : Addr} (hk : c.kind = .reference)
    (ha : a.toNat < p.capacity) (hw : chipWritable c = true) :
    chipAfter p (0x20#8 :: be24 a) c =
      { chipBusy (Memory.erase c.mem (a.toNat / 4096 * 4096) 4096) c with cmd := [] } := by
  have haddr : cmdAddr (be24 a) = a.toNat := cmdAddr_be24 a []
  have hform : ¬ ((be24 a).length ≠ 3 ∨ p.capacity ≤ a.toNat) := by simp [be24, ha]
  rw [chipAfter_taken (op := 0x20#8) hk (.inl (by decide)) hw]
  simp only [eChipEffect, haddr, hform, if_false, chipBusy, sectorOf]

theorem chipAfter_chipErase {p : Params} {c : Chip} (hk : c.kind = .reference) (hw : chipWritable c = true) :
    chipAfter p [0xC7#8] c = { chipBusy [] c with cmd := [] } :=
  chipAfter_taken (op := 0xC7#8) hk (.inl (by decide)) hw []

theorem chipAfter_powerDown {p : Params} {c : Chip} (hk : c.kind = .reference) (hwip : c.wip = false) :
    chipAfter p [0xB9#8] c = { c with pd := true, cmd := [] } :=
  chipAfter_taken hk (.inl (by decide)) (by simp [eChipTakes, hwip]) []

theorem chipAfter_release {p : Params} {c : Chip} (hk : c.kind = .reference) :
    chipAfter p [0xAB#8] c = { c with pd := false, cmd := [] } :=
  chipAfter_taken hk (.inl (by decide)) rfl []

/-- A status read of an idle chip and a read of the array leave the chip as it was. -/
theorem chipAfter_readStatus {p : Params} {c : Chip} (hk : c.kind = .reference) (hwip : c.wip = false)
    (rest : List Byte) : chipAfter p (0x05#8 :: rest) c = { c with cmd := [] } :=
  chipAfter_taken hk (.inr hwip) rfl rest

theorem chipAfter_readData {p : Params} {c : Chip} (hk : c.kind = .reference) (a : Addr) (fill : List Byte) :
    chipAfter p (0x03#8 :: (be24 a ++ fill)) c = { c with cmd := [] } := by
  have hlen : ¬ (be24 a ++ fill).length < 3 := by simp [be24]
  rw [chipAfter_reference hk (.inl (by decide)), eChipExecute]
  simp only [eChipEffect, hlen, if_false, ite_self]

/-- Every byte read of a command that the chip ignores is 0xFF. -/
theorem answers_ignored {p : Params} {op : Byte} (sent : List Byte) {c : Chip} {rest : List Byte}
    (hk : c.kind = .reference) (hcmd : c.cmd = op :: rest) (ht : eChipTakes c op = false) (e : Env) :
    ∀ b ∈ answers p sent c e, b = 0xFF#8 := by
  have hop : op ≠ 0x05#8 := ne_readStatus_of_ignored ht
  induction sent generalizing c rest e with
  | nil => intro b hb; cases hb
  | cons o sent ih =>
    have hans : chipAnswer p c = some 0xFF#8 := by
      simp [chipAnswer, hk, hcmd, chipBefore_of_quiet hcmd (.inl hop), eChipAnswer, ht]
    have hnext := chipReceive_of_quiet hcmd (.inl hop) o
    intro b hb
    rw [answers, hans] at hb
    rcases List.mem_cons.1 hb with hb | hb
    · exact hb
    · rw [hnext] at hb
      exact ih (c := { c with cmd := op :: (rest ++ [o]) }) hk rfl ht _ b hb

/-- The bytes read after the opcode of an ignored command. -/
theorem answers_tail_ignored {p : Params} {c : Chip} {op o : Byte} {rest : List Byte} {e : Env}
    (hk : c.kind = .reference) (ht : eChipTakes c op = false) :
    ∀ b ∈ (answers p (op :: o :: rest) (chipSelect c) e).tail, b = 0xFF#8 := by
  intro b hb
  rw [answers, List.tail_cons, chipReceive_opcode] at hb
  exact answers_ignored (o :: rest) (c := { c with cmd := [op] }) hk rfl ht _ b hb

theorem mem_sector_iff (x a : Nat) : (a / 4096 * 4096 ≤ x ∧ x < a / 4096 * 4096 + 4096) ↔ x / 4096 = a / 4096 := by
  omega

/-- Settles O58: a command that is taken has the effect of its `chipAfter_` lemma, one that is not taken is ignored with its
bytes, and what is read of it is 0xFF. -/
theorem referenceChipCommands : Obligations.ReferenceChipCommands := by
  unfold Obligations.ReferenceChipCommands
  intro p c hk
  refine ⟨?wren, ?wrenIgnored, ?program, ?sector, ?chip, ?storesIgnored, ?down, ?downIgnored, ?release, ?reads⟩
  case wren =>
    intro hwip hpd
    rw [chipAfter_writeEnable hk hwip hpd]
    exact ⟨rfl, rfl, hwip⟩
  case wrenIgnored =>
    exact fun rest h => chipAfter_ignored hk (eChipTakes_awake_eq_false (.inl rfl) h) rest
  case program =>
    intro a d hd ha hwip hpd hwel
    rw [chipAfter_pageProgram hk hd ha (chipWritable_eq_true hwip hpd hwel)]
    exact ⟨rfl, rfl, rfl⟩
  case sector =>
    intro a ha hwip hpd hwel
    rw [chipAfter_sectorErase hk ha (chipWritable_eq_true hwip hpd hwel)]
    refine ⟨fun x => ?_, rfl, rfl⟩
    simp only [chipBusy, Memory.read_erase, mem_sector_iff, Memory.blank]
  case chip =>
    intro hwip hpd hwel
    rw [chipAfter_chipErase hk (chipWritable_eq_true hwip hpd hwel)]
    exact ⟨fun _ => rfl, rfl, rfl⟩
  case storesIgnored =>
    intro rest h
    exact ⟨chipAfter_ignored hk (eChipTakes_store_eq_false (.inl rfl) h) rest,
      chipAfter_ignored hk (eChipTakes_store_eq_false (.inr (.inl rfl)) h) rest,
      chipAfter_ignored hk (eChipTakes_store_eq_false (.inr (.inr rfl)) h) rest⟩
  case down =>
    intro hwip
    rw [chipAfter_powerDown hk hwip]
    exact ⟨rfl, rfl⟩
  case downIgnored =>
    exact fun rest h => chipAfter_ignored hk (by simp [eChipTakes, h]) rest
  case release =>
    rw [chipAfter_release hk]
    exact ⟨rfl, rfl⟩
  case reads =>
    intro op o rest e h
    rcases h with ⟨hop, hc⟩ | ⟨hop, hc⟩ | ⟨rfl, hc⟩ | ⟨rfl, hc⟩
    · exact answers_tail_ignored hk (eChipTakes_awake_eq_false hop hc)
    · exact answers_tail_ignored hk (eChipTakes_store_eq_false hop hc)
    · exact answers_tail_ignored hk (by simp [eChipTakes, hc])
    · exact answers_tail_ignored hk (by simp [eChipTakes, hc])

end Sys2Proof.Machine
end

/-! ## READ on an idle reference chip (20_memory.md, 43_flash.md) -/

section
namespace Sys2Proof.Machine

/-! ### The controller's side of READ -/

theorem lastPoll_setFlash (k : Nat) (s : State) (f : Flash) : lastPoll k (s.setFlash f) = lastPoll k s := by
  rw [lastPoll, polled_setFlash]
  rfl

/-- The last transaction of an operation, from a free bus: its bytes, the transition that ends the operation, and the result
handed to the host (R250, R272). -/
theorem flashRun_lastTxn {s : State} {g : Flash} {outs : List Byte} {m : Nat} (hc : s.flash.ctl = .begin)
    (ho : s.flash.txnOut = outs) (hi : s.flash.txnIn = m) (hg : s.flash.txnGot = []) (hp : s.arb.port.mem = .idle)
    (hb : BusFree s) (hd : (s.flash.exchanged (txnReads outs m s)).txnDone s.params = .next g) (hgc : g.ctl = .done)
    (n : Nat) :
    flashRun (n + (outs.length + m + 6)) s =
      .next ((afterTxn (withFill outs m s) s).setFlash { g with flPhase := .idle, ctl := .idle }) := by
  have hd' : (s.flash.exchanged ((txnAnswers (outs ++ List.replicate m s.params.fillByte) s).drop outs.length)).txnDone
      s.params = .next g := hd
  rw [show n + (outs.length + m + 6) = n + 1 + (outs.length + m + 5) by omega, flashRun_txn hc ho hi hg hp hb, hd']
  simp only [liftFlash, andThen_next]
  rw [flashRun_done hgc]
  rfl

/-- READ inside CAPACITY, after `k` busy polls: the poll series, one read-data transaction, and the bytes it read are the
result (R261). -/
theorem execRead_completes {s : State} {a : Addr} {n : Len} {k : Nat} (hf : FlashReady s) (hb : BusFree s)
    (hr : ReadyAfter k s) (ha : a.toNat + n.toNat ≤ s.params.capacity)
    (hq : 7 * (k + 1) + n.toNat + 10 ≤ s.env.quantum) :
    exec (.read a n) s =
      .next ((afterTxn (withFill (bytesReadData a) n.toNat s) (polled (k + 1) s)).setFlash
        (({ s.flash with flAddr := a, flRem := n, flStatus := lastPoll k s } : Flash).ended 0x03#8
          (txnReads (bytesReadData a) n.toNat (polled (k + 1) s))
          (txnReads (bytesReadData a) n.toNat (polled (k + 1) s)))) := by
  let f : Flash := { s.flash with job := .host, flOp := 0x03#8, flAddr := a, flRem := n }
  let g : Flash := ({ f with flStatus := lastPoll k s } : Flash).txn .cmd (bytesReadData a) n.toNat
  obtain ⟨q, hq'⟩ : ∃ q, s.env.quantum = (q + ((bytesReadData a).length + n.toNat + 6)) + 7 * (k + 1) :=
    ⟨s.env.quantum - (7 * (k + 1) + n.toNat + 10), by
      simp only [bytesReadData, be24, List.length_cons, List.length_nil]; omega⟩
  have hacc : Flash.accept s.params (.host 0x03#8 a n []) s.flash = .next (f.txn .wait bytesReadStatus 1) := by
    have : beyondCapacity s.params a.toNat n.toNat = false := by simpa [beyondCapacity] using ha
    simp [Flash.accept, flashOpOf, rangeRefused, this, Flash.start, f]
  have hwait : flashRun (q + ((bytesReadData a).length + n.toNat + 6) + 7 * (k + 1))
      (s.setFlash (f.txn .wait bytesReadStatus 1)) =
        flashRun (q + ((bytesReadData a).length + n.toNat + 6)) ((polled (k + 1) s).setFlash g) := by
    rw [flashRun_wait k (s := s.setFlash (f.txn .wait bytesReadStatus 1)) (f := f) (op := .read) rfl rfl rfl hf.2.2
      (hb.setFlash _) (hr.setFlash _), lastPoll_setFlash, polled_setFlash]
    rfl
  have hlast := flashRun_lastTxn (s := (polled (k + 1) s).setFlash g)
    (g := (g.exchanged (txnReads (bytesReadData a) n.toNat (polled (k + 1) s))).finish
      (txnReads (bytesReadData a) n.toNat (polled (k + 1) s)))
    (outs := bytesReadData a) (m := n.toNat) rfl rfl rfl rfl
    ((congrArg PerClient.mem (polled_port (k + 1) s)).trans hf.2.2) ((hb.polled (k + 1)).setFlash g) rfl rfl q
  change presentFlash (.host 0x03#8 a n []) s = _
  rw [presentFlash_ready hf hacc, hq', hwait, hlast]
  simp only [withFill, State.setFlash_params, polled_params, afterTxn_setFlash]
  rfl

/-! ### R73, R82: what the idle reference chip answers -/

/-- The idle chip answers a status read with its wip bit clear (R82), and WIP_BIT is 0 (log 14). -/
theorem readyAfter_zero_of_idle {s : State} (hk : s.chip.kind = .reference) (hbit : s.params.wipBit = 0)
    (hwip : s.chip.wip = false) : ReadyAfter 0 s := by
  have hcmd : chipReceive 0x05#8 (chipSelect s.chip) = { s.chip with cmd := [0x05#8] } := chipReceive_opcode _ _
  have hans : pollAnswer s = chipStatus s.chip := by
    simp [pollAnswer, txnAnswers, pollBytes, bytesReadStatus, answers, hcmd, chipAnswer, hk, chipBefore, chipPoll, hwip,
      eChipAnswer, eChipTakes, eChipRead, chipStatus]
  change wipOf s.params (pollAnswer s) = false
  rw [hans, chipStatus, wipOf, hbit, hwip]
  cases s.chip.wel <;> rfl

/-- The answer of an idle reference chip to the next byte of a read-data command at `a`, `sent` being the
filler sent so far. -/
theorem chipAnswer_readData {p : Params} {c : Chip} {a : Addr} {sent : List Byte} (hk : c.kind = .reference)
    (hwip : c.wip = false) (hpd : c.pd = false) (hcmd : c.cmd = 0x03#8 :: (be24 a ++ sent))
    (ha : a.toNat + sent.length < p.capacity) :
    chipAnswer p c = some (Memory.read c.mem (a.toNat + sent.length)) := by
  have hlen : (be24 a ++ sent).length = sent.length + 3 := by simp [be24]
  have htakes : eChipTakes c 0x03#8 = true := by simp [eChipTakes, hwip, hpd]
  simp only [chipAnswer, hk, hcmd, chipBefore_of_quiet hcmd (.inr hwip), eChipAnswer, htakes, if_true, eChipRead]
  rw [if_neg (by omega), cmdAddr_be24, hlen, Nat.add_sub_cancel, Nat.mod_eq_of_lt ha]

/-- The bytes that come back while MEM sends filler in a read-data command at `a` are those of the array, in order. -/
theorem answers_readData {p : Params} {a : Addr} {fill : Byte} (m : Nat) {c : Chip} {sent : List Byte}
    (hk : c.kind = .reference) (hwip : c.wip = false) (hpd : c.pd = false)
    (hcmd : c.cmd = 0x03#8 :: (be24 a ++ sent)) (ha : a.toNat + sent.length + m ≤ p.capacity) (e : Env) :
    answers p (List.replicate m fill) c e =
      (List.range m).map (fun j => Memory.read c.mem (a.toNat + sent.length + j)) := by
  induction m generalizing c sent e with
  | zero => rfl
  | succ m ih =>
    have hans := chipAnswer_readData (p := p) hk hwip hpd hcmd (by omega)
    rw [List.replicate_succ, answers, hans, chipReceive_of_quiet hcmd (.inr hwip), List.range_succ_eq_map, List.map_cons,
      List.map_map,
      ih (c := { c with cmd := 0x03#8 :: (be24 a ++ sent ++ [fill]) }) (sent := sent ++ [fill]) hk hwip hpd
        (by rw [List.append_assoc]) (by simp only [List.length_append, List.length_singleton]; omega)]
    refine congrArg (List.cons _) (List.map_congr_left fun j _ => ?_)
    simp only [List.length_append, List.length_singleton, Function.comp_apply]
    congr 1
    omega

/-- A read-data transaction on an idle reference chip reads the bytes of the array, in address order (R73, R253). -/
theorem txnReads_readData {s : State} {a : Addr} {m : Nat} (hk : s.chip.kind = .reference) (hwip : s.chip.wip = false)
    (hpd : s.chip.pd = false) (ha : a.toNat + m ≤ s.params.capacity) :
    txnReads (bytesReadData a) m s = (List.range m).map (fun j => Memory.read s.chip.mem (a.toNat + j)) := by
  rw [txnReads, withFill, txnAnswers, answers_append, List.drop_left' (answers_length _ _ _ _), bytesReadData,
    List.foldl_cons, chipReceive_opcode,
    foldl_chipReceive_of_quiet (c := { s.chip with cmd := [0x03#8] }) (be24 a) rfl (.inr hwip)]
  exact answers_readData m (c := { s.chip with cmd := 0x03#8 :: be24 a }) (sent := []) hk hwip hpd rfl ha _

/-- Settles O59: the first poll reads ready, so READ ends after it; neither the poll nor the read-data command changes
anything of the chip, and what the latter reads is `txnReads_readData`. -/
theorem readReturnsMemory : Obligations.ReadReturnsMemory := by
  unfold Obligations.ReadReturnsMemory
  intro s a n hf hb hk hbit hwip hpd ha hq
  have hr := readyAfter_zero_of_idle hk hbit hwip
  have hpoll : (polled 1 s).chip = { s.chip with cmd := [] } := chipAfter_readStatus hk hwip _
  have hreads : txnReads (bytesReadData a) n.toNat (polled 1 s) =
      (List.range n.toNat).map (fun j => Memory.read s.chip.mem (a.toNat + j)) := by
    have h := txnReads_readData (s := polled 1 s) (a := a) (m := n.toNat) (by rw [hpoll]; exact hk)
      (by rw [hpoll]; exact hwip) (by rw [hpoll]; exact hpd) ha
    rwa [hpoll] at h
  have hchip : chipAfter s.params (withFill (bytesReadData a) n.toNat s) (polled 1 s).chip =
      { s.chip with cmd := [] } := by
    rw [hpoll]
    exact chipAfter_readData (c := { s.chip with cmd := [] }) hk a _
  refine ⟨_, execRead_completes hf hb hr ha (by omega), rfl, fun x => ?_, ?_⟩
  · exact congrArg (fun c => Memory.read c.mem x) hchip
  · rw [Nat.zero_add, hreads]
    simp [Flash.ended, stOk]

end Sys2Proof.Machine
end

/-! ## What the flash controller's commands may store (20_memory.md, 43_flash.md) -/

section
namespace Sys2Proof.Machine

/-! ### Commands that store in a range -/

/-- A command of the bytes `cmd` changes the array at most in `lo .. lo+n-1`. -/
def StoresWithin (p : Params) (lo n : Nat) (cmd : List Byte) : Prop :=
  ∀ m m', ArrayChange p cmd m m' → ∀ a, a < lo ∨ lo + n ≤ a → Memory.read m' a = Memory.read m a

/-- A command that neither programs nor erases changes nothing. -/
theorem StoresWithin.of_opcode {p : Params} {lo n : Nat} {op : Byte}
    (hop : op ≠ 0x02#8 ∧ op ≠ 0x20#8 ∧ op ≠ 0xC7#8) (rest : List Byte) : StoresWithin p lo n (op :: rest) := by
  obtain ⟨hprogram, hsector, hchip⟩ := hop
  intro m m' h a _
  cases h with
  | kept => rfl
  | program _ hcmd => exact absurd (List.cons.inj hcmd).1 hprogram
  | eraseSector _ hcmd => exact absurd (List.cons.inj hcmd).1 hsector
  | eraseChip hcmd => exact absurd (List.cons.inj hcmd).1 hchip

/-- A page-program that stays inside its page changes the bytes it is given (R82, R254). -/
theorem StoresWithin.pageProgram {p : Params} {lo n : Nat} {a : Addr} {d : List Byte} (hlo : lo ≤ a.toNat)
    (hhi : a.toNat + d.length ≤ lo + n) (hpage : a.toNat % 256 + d.length ≤ 256) :
    StoresWithin p lo n (bytesPageProgram a d) := by
  intro m m' h x hx
  cases h with
  | kept => rfl
  | program rest hcmd =>
    obtain rfl : be24 a ++ d = rest := (List.cons.inj hcmd).2
    rw [cmdAddr_be24]
    refine Memory.read_program_outside _ _ _ _ _ fun j _ hj => ?_
    have hj' : j < d.length := by simpa [be24] using hj
    rw [programAddr_inside (by omega)]
    omega
  | eraseSector _ hcmd => exact absurd (List.cons.inj hcmd).1 (by decide)
  | eraseChip hcmd => exact absurd (List.cons.inj hcmd).1 (by decide)

/-- A sector erase changes the sector of its address (R61, R82). -/
theorem StoresWithin.sectorErase (p : Params) (a : Addr) :
    StoresWithin p (a.toNat / 4096 * 4096) 4096 (bytesSectorErase a) := by
  intro m m' h x hx
  cases h with
  | kept => rfl
  | program _ hcmd => exact absurd (List.cons.inj hcmd).1 (by decide)
  | eraseSector rest hcmd =>
    obtain rfl : be24 a = rest := (List.cons.inj hcmd).2
    rw [show cmdAddr (be24 a) = a.toNat from cmdAddr_be24 a [], Memory.read_erase, sectorOf, if_neg (by omega)]
  | eraseChip hcmd => exact absurd (List.cons.inj hcmd).1 (by decide)

/-! ### What an operation may still store -/

/-- The bytes the controller still sends in its present transaction, filler included. -/
def Flash.toSend (p : Params) (f : Flash) : List Byte := f.txnOut ++ List.replicate f.txnIn p.fillByte

/-- What operation `op` with the registers of `f` may still store lies in `lo .. lo+n-1`. For WRITE the range lies below
2^24, so its address never wraps, and while a page-program is under way fl_chunk is its size (R262). -/
def Flash.StaysIn (lo n : Nat) (op : FlashOp) (f : Flash) : Prop :=
  match op with
  | .write =>
    lo ≤ f.flAddr.toNat ∧ f.flAddr.toNat + f.flRem.toNat ≤ lo + n ∧ lo + n ≤ 2 ^ 24 ∧
      (f.flPhase = .cmd → f.flChunk = BitVec.ofNat 9 (pageChunk f.flAddr f.flRem))
  | .eraseSector => lo = f.flAddr.toNat / 4096 * 4096 ∧ n = 4096
  | .eraseChip => False
  | .waitForReady | .read | .isBusy | .identify | .wakeUp | .powerDown => True

/-- The operation in progress stores in `lo .. lo+n-1` after its present transaction; a bare bus command is one
transaction. -/
def Flash.JobStaysIn (lo n : Nat) (f : Flash) : Prop :=
  f.job = .host → ∀ op, flashOpOf f.flOp = some op → f.StaysIn lo n op

/-- The controller has ended its operation, or it is about to open a transaction, and what it stores then and later lies in
`lo .. lo+n-1`. -/
def Flash.NextStaysIn (p : Params) (lo n : Nat) (f : Flash) : Prop :=
  f.ctl = .done ∨ f.ctl = .begin ∧ StoresWithin p lo n (f.toSend p) ∧ f.JobStaysIn lo n

section
variable {p : Params} {lo n : Nat} {f g : Flash}

theorem pageChunk_le (a : Addr) (rem : Len) : pageChunk a rem ≤ rem.toNat ∧ a.toNat % 256 + pageChunk a rem ≤ 256 := by
  unfold pageChunk pageRoom
  omega

theorem Flash.finish_nextStaysIn (data : List Byte) : (f.finish data).NextStaysIn p lo n := .inl rfl

/-- A transaction set up for an operation: its own bytes, and what the operation does after it. -/
theorem Flash.txn_nextStaysIn {op : FlashOp} {ph : FlPhase} {out : List Byte} {nIn : Nat} (ho : flashOpOf f.flOp = some op)
    (hcmd : StoresWithin p lo n (out ++ List.replicate nIn p.fillByte)) (hop : (f.txn ph out nIn).StaysIn lo n op) :
    (f.txn ph out nIn).NextStaysIn p lo n := by
  refine .inr ⟨rfl, hcmd, fun _ op' ho' => ?_⟩
  obtain rfl : op = op' := Option.some.inj (ho.symm.trans ho')
  exact hop

/-- A poll stores nothing, and it is no page-program. -/
theorem Flash.poll_nextStaysIn {op : FlashOp} (ho : flashOpOf f.flOp = some op) (hop : f.StaysIn lo n op) :
    (f.txn .wait bytesReadStatus 1).NextStaysIn p lo n := by
  refine Flash.txn_nextStaysIn ho (.of_opcode (by decide) _) ?_
  cases op
  case write =>
    obtain ⟨hlo, hhi, hcap, _⟩ := hop
    exact ⟨hlo, hhi, hcap, nofun⟩
  all_goals exact hop

theorem Flash.afterWait_nextStaysIn {op : FlashOp} (ho : flashOpOf f.flOp = some op) (hop : f.StaysIn lo n op)
    (h : f.afterWait op = .next g) : g.NextStaysIn p lo n := by
  cases op <;> cases h
  case waitForReady => exact Flash.finish_nextStaysIn _
  case read => exact Flash.txn_nextStaysIn ho (.of_opcode (by decide) _) trivial
  case write =>
    obtain ⟨hlo, hhi, hcap, _⟩ := hop
    exact Flash.txn_nextStaysIn ho (.of_opcode (by decide) _) ⟨hlo, hhi, hcap, nofun⟩
  case eraseSector => exact Flash.txn_nextStaysIn ho (.of_opcode (by decide) _) hop
  case eraseChip => exact hop.elim

theorem Flash.afterWren_nextStaysIn {op : FlashOp} (ho : flashOpOf f.flOp = some op) (hop : f.StaysIn lo n op)
    (h : f.afterWren op = .next g) : g.NextStaysIn p lo n := by
  cases op <;> cases h
  case write =>
    obtain ⟨hlo, hhi, hcap, _⟩ := hop
    obtain ⟨hrem, hpage⟩ := pageChunk_le f.flAddr f.flRem
    have hlen := List.length_take_le (pageChunk f.flAddr f.flRem) f.hostData
    refine Flash.txn_nextStaysIn ho ?_ ⟨hlo, hhi, hcap, fun _ => rfl⟩
    rw [List.replicate_zero, List.append_nil]
    exact .pageProgram hlo (by omega) (by omega)
  case eraseSector =>
    obtain ⟨rfl, rfl⟩ := hop
    exact Flash.txn_nextStaysIn ho (.sectorErase p f.flAddr) ⟨rfl, rfl⟩
  case eraseChip => exact hop.elim

/-- After a page-program the rest of WRITE begins where it ended (R262). -/
theorem Flash.advance_nextStaysIn (ho : flashOpOf f.flOp = some .write) (hop : f.StaysIn lo n .write)
    (hph : f.flPhase = .cmd) : f.advance.NextStaysIn p lo n := by
  obtain ⟨hlo, hhi, hcap, hchunk⟩ := hop
  obtain ⟨hrem, hpage⟩ := pageChunk_le f.flAddr f.flRem
  have hchunk' : f.flChunk.toNat = pageChunk f.flAddr f.flRem := by
    rw [hchunk hph, BitVec.toNat_ofNat]
    omega
  have hrem' : (f.flRem - f.flChunk.setWidth 25).toNat = f.flRem.toNat - pageChunk f.flAddr f.flRem := by
    rw [BitVec.toNat_sub, BitVec.toNat_setWidth, hchunk']
    omega
  unfold Flash.advance
  dsimp only
  split
  · rename_i hmore
    have haddr : (f.flAddr + f.flChunk.setWidth 24).toNat = f.flAddr.toNat + pageChunk f.flAddr f.flRem := by
      rw [BitVec.toNat_add, BitVec.toNat_setWidth, hchunk']
      omega
    refine Flash.txn_nextStaysIn ho (.of_opcode (by decide) _) ⟨?_, ?_, hcap, nofun⟩
    · simp only [Flash.txn, haddr]; omega
    · simp only [Flash.txn, haddr, hrem']; omega
  · exact Flash.finish_nextStaysIn _

theorem Flash.afterCmd_nextStaysIn {op : FlashOp} {got : List Byte} (ho : flashOpOf f.flOp = some op)
    (hop : f.StaysIn lo n op) (hph : f.flPhase = .cmd) (h : f.afterCmd p op got = .next g) : g.NextStaysIn p lo n := by
  cases op <;> cases h
  case write => exact Flash.advance_nextStaysIn ho hop hph
  all_goals exact Flash.finish_nextStaysIn _

/-- The rows of R272: the end of a transaction leads to the end of the operation or to a transaction that stays in the
range. -/
theorem Flash.txnDone_nextStaysIn (hf : f.JobStaysIn lo n) (h : f.txnDone p = .next g) : g.NextStaysIn p lo n := by
  unfold Flash.txnDone at h
  split at h
  · cases h; exact Flash.finish_nextStaysIn _
  · rename_i hjob
    split at h
    · cases h
    · rename_i op ho
      have hop := hf hjob op ho
      split at h
      · dsimp only at h
        split at h
        · cases h; exact Flash.poll_nextStaysIn ho hop
        · exact Flash.afterWait_nextStaysIn (f := { f with flStatus := f.txnGot.headD 0#8 }) ho hop h
      · exact Flash.afterWren_nextStaysIn ho hop h
      · rename_i hph
        exact Flash.afterCmd_nextStaysIn ho hop hph h
      · cases h
      · cases h

/-! ### The request -/

/-- The operands of operation `op` say that it stores in `lo .. lo+n-1`. -/
def FlashOp.OperandsStayIn (lo n : Nat) (op : FlashOp) (addr : Addr) (data : List Byte) : Prop :=
  match op with
  | .write => lo = addr.toNat ∧ n = data.length ∧ addr.toNat + data.length ≤ 2 ^ 24
  | .eraseSector => lo = addr.toNat / 4096 * 4096 ∧ n = 4096
  | .eraseChip => False
  | .waitForReady | .read | .isBusy | .identify | .wakeUp | .powerDown => True

/-- The operands of a request that is not refused say that it stores in `lo .. lo+n-1`. -/
def FlashReq.StaysIn (p : Params) (lo n : Nat) (r : FlashReq) : Prop :=
  match r with
  | .host code addr len data =>
    ∀ op, flashOpOf code = some op → rangeRefused p op addr len data = false → op.OperandsStayIn lo n addr data
  | .bare out nIn _ => StoresWithin p lo n (out ++ List.replicate nIn p.fillByte)

theorem Flash.start_nextStaysIn {op : FlashOp} {code : Byte} {addr : Addr} {len : Len} {data : List Byte}
    (ho : flashOpOf code = some op) (hop : op.OperandsStayIn lo n addr data) :
    (f.start op code addr len data).NextStaysIn p lo n := by
  cases op
  case write =>
    obtain ⟨rfl, rfl, hcap⟩ := hop
    unfold Flash.start
    dsimp only
    split
    · exact Flash.finish_nextStaysIn _
    · refine Flash.txn_nextStaysIn ho (.of_opcode (by decide) _) ⟨le_rfl, ?_, hcap, nofun⟩
      simp only [Flash.txn, BitVec.toNat_ofNat]
      omega
  all_goals exact Flash.txn_nextStaysIn ho (.of_opcode (by decide) _) hop

theorem Flash.accept_nextStaysIn {r : FlashReq} (hr : r.StaysIn p lo n) (h : Flash.accept p r f = .next g) :
    g.NextStaysIn p lo n := by
  cases r with
  | host code addr len data =>
    simp only [Flash.accept] at h
    split at h
    · cases h
    · rename_i op ho
      split at h <;> cases h
      exact Flash.start_nextStaysIn ho (hr op ho (Bool.eq_false_iff.2 ‹_›))
  | bare out nIn isStatus =>
    cases h
    exact .inr ⟨rfl, hr, nofun⟩

end

/-! ### A run of the controller -/

/-- Where the controller stands in an operation that stores in `lo .. lo+n-1`: the bytes the chip has received in the open
transaction, with those still to be sent, are a command that does. -/
inductive FlashStage (lo n : Nat) (s : State) : Prop
  /-- the operation has ended -/
  | ended : s.flash.ctl = .idle ∨ s.flash.ctl = .done → FlashStage lo n s
  /-- a transaction is to be opened; one that is open already is MEM's by right -/
  | begin : s.flash.ctl = .begin → StoresWithin s.params lo n (s.flash.toSend s.params) → s.flash.JobStaysIn lo n →
      (s.arb.txnOpen = some .mem → s.arb.permitOwner = some .mem) → FlashStage lo n s
  /-- the permit has been asked for -/
  | waiting : s.flash.ctl = .opening → StoresWithin s.params lo n (s.flash.toSend s.params) → s.flash.JobStaysIn lo n →
      s.arb.txnOpen ≠ some .mem → s.arb.port.mem = .beginning → FlashStage lo n s
  /-- the chip has just been selected -/
  | selected : s.flash.ctl = .opening → StoresWithin s.params lo n (s.flash.toSend s.params) → s.flash.JobStaysIn lo n →
      s.arb.txnOpen = some .mem → s.chip.cmd = [] → FlashStage lo n s
  /-- bytes are exchanged -/
  | transfer : s.flash.ctl = .transfer → StoresWithin s.params lo n (s.chip.cmd ++ s.flash.toSend s.params) →
      s.flash.JobStaysIn lo n → FlashStage lo n s

/-- The stage before a transaction of the controller, or after its last. -/
theorem FlashStage.of_nextStaysIn {lo n : Nat} {s : State} (h : s.flash.NextStaysIn s.params lo n)
    (hown : s.arb.txnOpen = some .mem → s.arb.permitOwner = some .mem) : FlashStage lo n s := by
  rcases h with hdone | ⟨hc, hcmd, hjob⟩
  · exact .ended (.inr hdone)
  · exact .begin hc hcmd hjob hown

theorem arbAccept_begin_eq_next {c : Client} {s t : State} (h : arbAccept c .begin s = .next t) :
    t = openTxn c s ∨ s.arb.permitOwner ≠ some c ∧ t = s.setArb (requestPermit c .beginning s.arb) := by
  simp only [arbAccept] at h
  split at h
  · split at h <;> cases h
    exact .inl rfl
  · cases h; exact .inr ⟨‹_›, rfl⟩

theorem arbAccept_xfer_eq_next {c : Client} {o : Byte} {s t : State} (h : arbAccept c (.xfer o) s = .next t) :
    t = transfer c o s := by
  simp only [arbAccept] at h
  split at h <;> cases h
  rfl

theorem arbMicro_beginning_eq_next {c : Client} {s t : State} (hp : s.arb.port.get c = .beginning)
    (h : arbMicro c s = .next t) : t = openTxn c s ∨ t = grantStep s := by
  unfold arbMicro at h
  rw [hp] at h
  dsimp only at h
  split at h <;> cases h
  · exact .inl rfl
  · exact .inr rfl

theorem grantStep_txnOpen (s : State) : (grantStep s).arb.txnOpen = s.arb.txnOpen := by
  rcases grantStep_cases s with ⟨e, _⟩ | ⟨_, _, _, e⟩ <;> rw [e]
  rfl

theorem MemKeptOutside.trans {lo n : Nat} {s t u : State} (h1 : MemKeptOutside lo n s t) (h2 : MemKeptOutside lo n t u) :
    MemKeptOutside lo n s u := fun a ha => (h2 a ha).trans (h1 a ha)

theorem MemKeptOutside.of_same_mem {lo n : Nat} {s t : State} (h : t.chip.mem = s.chip.mem) : MemKeptOutside lo n s t :=
  fun a _ => by rw [h]

section
variable {lo n : Nat} {s t : State}

theorem FlashStage.micro_begin (hc : s.flash.ctl = .begin) (hcmd : StoresWithin s.params lo n (s.flash.toSend s.params))
    (hjob : s.flash.JobStaysIn lo n) (hown : s.arb.txnOpen = some .mem → s.arb.permitOwner = some .mem)
    (h : flashMicro s = .next t) : MemKeptOutside lo n s t ∧ FlashStage lo n t := by
  simp only [flashMicro, hc] at h
  obtain ⟨u, hu, ht⟩ := andThen_eq_next.1 h
  cases ht
  rcases arbAccept_begin_eq_next hu with rfl | ⟨hne, rfl⟩
  · exact ⟨.of_same_mem rfl, .selected rfl hcmd hjob rfl rfl⟩
  · exact ⟨.of_same_mem rfl, .waiting rfl hcmd hjob (fun ho => hne (hown ho)) rfl⟩

theorem FlashStage.micro_waiting (hc : s.flash.ctl = .opening)
    (hcmd : StoresWithin s.params lo n (s.flash.toSend s.params)) (hjob : s.flash.JobStaysIn lo n)
    (hopen : s.arb.txnOpen ≠ some .mem) (hport : s.arb.port.mem = .beginning) (h : flashMicro s = .next t) :
    MemKeptOutside lo n s t ∧ FlashStage lo n t := by
  simp only [flashMicro, hc, hopen, if_false] at h
  rcases arbMicro_beginning_eq_next (c := .mem) hport h with rfl | rfl
  · exact ⟨.of_same_mem rfl, .selected hc hcmd hjob rfl rfl⟩
  · obtain ⟨⟨_, hflash, hparams, _, _, _, hkept, _⟩, hchip⟩ := grantStep_frame .disp s
    refine ⟨.of_same_mem (by rw [hchip]), .waiting ?_ ?_ ?_ ?_ ?_⟩
    · rw [hflash, hc]
    · rw [hflash, hparams]; exact hcmd
    · rw [hflash]; exact hjob
    · rw [grantStep_txnOpen]; exact hopen
    · exact hkept.trans hport

theorem FlashStage.micro_selected (hc : s.flash.ctl = .opening)
    (hcmd : StoresWithin s.params lo n (s.flash.toSend s.params)) (hjob : s.flash.JobStaysIn lo n)
    (hopen : s.arb.txnOpen = some .mem) (hempty : s.chip.cmd = []) (h : flashMicro s = .next t) :
    MemKeptOutside lo n s t ∧ FlashStage lo n t := by
  simp only [flashMicro, hc, hopen, if_true] at h
  cases h
  refine ⟨.of_same_mem rfl, .transfer rfl ?_ hjob⟩
  change StoresWithin s.params lo n (s.chip.cmd ++ s.flash.toSend s.params)
  rw [hempty]
  exact hcmd

/-- A byte goes to the chip: it is then part of what the chip has received. -/
theorem FlashStage.of_transfer {o : Byte} {f : Flash} (hc : f.ctl = .transfer)
    (hcmd : StoresWithin s.params lo n (s.chip.cmd ++ o :: f.toSend s.params)) (hjob : f.JobStaysIn lo n) :
    FlashStage lo n ((Machine.transfer .mem o s).setFlash f) := by
  refine .transfer hc ?_ hjob
  change StoresWithin s.params lo n (s.chip.cmd ++ [o] ++ f.toSend s.params)
  rwa [List.append_assoc]

theorem FlashStage.micro_transfer (hc : s.flash.ctl = .transfer)
    (hcmd : StoresWithin s.params lo n (s.chip.cmd ++ s.flash.toSend s.params)) (hjob : s.flash.JobStaysIn lo n)
    (h : flashMicro s = .next t) : MemKeptOutside lo n s t ∧ FlashStage lo n t := by
  simp only [flashMicro, hc, flashTransfer] at h
  split at h
  · rename_i o rest hout
    obtain ⟨u, hu, ht⟩ := andThen_eq_next.1 h
    cases ht
    obtain rfl := arbAccept_xfer_eq_next hu
    rw [Flash.toSend, hout] at hcmd
    exact ⟨.of_same_mem (chipBefore_mem s.chip), .of_transfer hc hcmd hjob⟩
  · rename_i hout
    split at h
    · rename_i m hin
      obtain ⟨u, hu, ht⟩ := andThen_eq_next.1 h
      cases ht
      obtain rfl := arbAccept_xfer_eq_next hu
      rw [Flash.toSend, hout, hin] at hcmd
      refine ⟨.of_same_mem (chipBefore_mem s.chip), .of_transfer hc ?_ hjob⟩
      rwa [Flash.toSend, transfer_flash, hout]
    · rename_i hin
      obtain ⟨u, hu, ht⟩ := andThen_eq_next.1 h
      obtain rfl := arbAccept_finish_eq_next hu
      obtain ⟨f, hf, rfl⟩ := liftFlash_eq_next.1 ht
      rw [Flash.toSend, hout, hin, List.replicate_zero, List.append_nil, List.append_nil] at hcmd
      exact ⟨hcmd _ _ (chipDeselect_arrayChange s.params s.chip),
        .of_nextStaysIn (Flash.txnDone_nextStaysIn hjob hf) nofun⟩

/-- Every micro-step of the busy controller keeps the array outside the range. -/
theorem FlashStage.micro (hs : FlashStage lo n s) (hc : s.flash.ctl ≠ .idle) (h : flashMicro s = .next t) :
    MemKeptOutside lo n s t ∧ FlashStage lo n t := by
  cases hs with
  | ended he =>
    have hdone : s.flash.ctl = .done := he.resolve_left hc
    simp only [flashMicro, hdone] at h
    cases h
    exact ⟨.of_same_mem rfl, .ended (.inl rfl)⟩
  | begin h1 h2 h3 h4 => exact FlashStage.micro_begin h1 h2 h3 h4 h
  | waiting h1 h2 h3 h4 h5 => exact FlashStage.micro_waiting h1 h2 h3 h4 h5 h
  | selected h1 h2 h3 h4 h5 => exact FlashStage.micro_selected h1 h2 h3 h4 h5 h
  | transfer h1 h2 h3 => exact FlashStage.micro_transfer h1 h2 h3 h

/-- A request that stays in the range keeps the array outside it, however far it gets. -/
theorem presentFlash_keptOutside {r : FlashReq} (hinv : ArbInv s) (hr : r.StaysIn s.params lo n)
    (h : presentFlash r s = .next t) : MemKeptOutside lo n s t := by
  unfold presentFlash at h
  split at h
  · obtain ⟨u, hu, ht⟩ := andThen_eq_next.1 h
    obtain ⟨f, hf, rfl⟩ := liftFlash_eq_next.1 hu
    have hstart : FlashStage lo n (s.setFlash f) :=
      .of_nextStaysIn (Flash.accept_nextStaysIn hr hf) fun ho => (hinv.opened .mem ho).1
    have hrun := flashRun_keeps (P := fun v => MemKeptOutside lo n s v ∧ FlashStage lo n v)
      (fun a b ha hc _ hb => by
        obtain ⟨hkept, hstage⟩ := ha.2.micro hc hb
        exact ⟨ha.1.trans hkept, hstage⟩)
      _ (s.setFlash f) t ⟨.of_same_mem rfl, hstart⟩ ht
    exact hrun.1
  · cases h; exact .of_same_mem rfl

end

/-! ### R75, R61: the operations -/

/-- An operation of the FLASH port or a bus command is its request presented at that port, or its operands are outside
their domain. -/
theorem exec_flashRequest {i : Instr} {r : FlashReq} (h : flashRequest i = some r) (s : State) :
    exec i s = presentFlash r s ∨ exec i s = .refused .illFormed := by
  cases i <;> cases h
  case busReadData => simp only [exec, execBusReadData]; split; exacts [.inl rfl, .inr rfl]
  case busPageProgram => simp only [exec, execBusPageProgram]; split; exacts [.inl rfl, .inr rfl]
  all_goals exact .inl rfl

/-- An operation whose request stays in the range keeps the array outside it, however far it gets. -/
theorem exec_keptOutside {i : Instr} {r : FlashReq} {lo n : Nat} {s t : State} (hreq : flashRequest i = some r)
    (hinv : ArbInv s) (hr : r.StaysIn s.params lo n) (h : exec i s = .next t) : MemKeptOutside lo n s t := by
  rcases exec_flashRequest hreq s with e | e <;> rw [e] at h
  · exact presentFlash_keptOutside hinv hr h
  · cases h

/-- A host operation that neither programs nor erases stores nowhere. -/
theorem FlashReq.host_staysIn_nowhere {p : Params} {code : Byte} {op : FlashOp} (ho : flashOpOf code = some op)
    (hop : op ≠ .write ∧ op ≠ .eraseSector ∧ op ≠ .eraseChip) (addr : Addr) (len : Len) (data : List Byte) :
    (FlashReq.host code addr len data).StaysIn p 0 0 := by
  intro op' ho' _
  obtain rfl : op = op' := Option.some.inj (ho.symm.trans ho')
  obtain ⟨hwrite, hsector, hchip⟩ := hop
  cases op
  case write => exact absurd rfl hwrite
  case eraseSector => exact absurd rfl hsector
  case eraseChip => exact absurd rfl hchip
  all_goals trivial

/-- A range that is empty says that every byte is kept. -/
theorem MemKeptOutside.nowhere {s t : State} (h : MemKeptOutside 0 0 s t) : MemKept s t :=
  fun a => h a (.inr (Nat.zero_le a))

/-- Settles O54: the requests of these operations store nowhere, and the bytes of the transactions they lead to
are those of commands that store nowhere (`FlashStage`). -/
theorem readersKeepMemory : Obligations.ReadersKeepMemory := by
  unfold Obligations.ReadersKeepMemory
  intro i s t hinv h hi
  have kept {r : FlashReq} (hreq : flashRequest i = some r) (hr : r.StaysIn s.params 0 0) : MemKept s t :=
    (exec_keptOutside hreq hinv hr h).nowhere
  rcases hi with rfl | rfl | rfl | rfl | rfl | ⟨a, n, rfl⟩ | rfl | rfl | ⟨a, n, rfl⟩ | rfl | rfl | rfl
  iterate 6 exact kept rfl (FlashReq.host_staysIn_nowhere rfl (by decide) _ _ _)
  iterate 6 exact kept rfl (StoresWithin.of_opcode (by decide) _)

theorem capacity_le (p : Params) : p.capacity ≤ 2 ^ 24 := by
  unfold Params.capacity
  omega

/-- WRITE that is not refused stores in the range of its operands (R65). -/
theorem FlashReq.write_staysIn (p : Params) (a : Addr) (len : Len) (d : List Byte) :
    (FlashReq.host 0x02#8 a len d).StaysIn p a.toNat d.length := by
  intro op ho hrange
  obtain rfl : FlashOp.write = op := Option.some.inj ho
  have hfits : a.toNat + d.length ≤ p.capacity := by simpa [rangeRefused, beyondCapacity] using hrange
  exact ⟨rfl, rfl, hfits.trans (capacity_le p)⟩

theorem FlashReq.eraseSector_staysIn (p : Params) (a : Addr) (len : Len) (d : List Byte) :
    (FlashReq.host 0x20#8 a len d).StaysIn p (a.toNat / 4096 * 4096) 4096 := by
  intro op ho _
  obtain rfl : FlashOp.eraseSector = op := Option.some.inj ho
  exact ⟨rfl, rfl⟩

/-- A page-program that has a meaning stays inside its page (R254). -/
theorem exec_busPageProgram_wf {a : Addr} {d : List Byte} {s t : State} (h : exec (.busPageProgram a d) s = .next t) :
    a.toNat % 256 + d.length ≤ 256 := by
  simp only [exec, execBusPageProgram] at h
  split at h
  · rename_i hwf
    simp only [wfPageProgram, Bool.and_eq_true, decide_eq_true_eq] at hwf
    exact hwf.2
  · cases h

/-- Settles O55: the request of each operation says the range, which every transaction of its run stays in. -/
theorem storesStayInRange : Obligations.StoresStayInRange := by
  unfold Obligations.StoresStayInRange
  intro s t hinv
  refine ⟨fun a d h => ?write, fun a d h => ?program, fun a h => ?sector, fun a h => ?busSector⟩
  case write => exact exec_keptOutside rfl hinv (FlashReq.write_staysIn _ a _ d) h
  case program =>
    have hcmd : StoresWithin s.params a.toNat d.length (bytesPageProgram a d) :=
      .pageProgram le_rfl le_rfl (exec_busPageProgram_wf h)
    refine exec_keptOutside rfl hinv ?_ h
    change StoresWithin _ _ _ (bytesPageProgram a d ++ [])
    rwa [List.append_nil]
  case sector => exact exec_keptOutside rfl hinv (FlashReq.eraseSector_staysIn _ a _ _) h
  case busSector => exact exec_keptOutside (r := .bare (bytesSectorErase a) 0 false) rfl hinv (.sectorErase _ a) h

end Sys2Proof.Machine
end

/-! ## The code spaces: encoding and decoding (30_encoding.md) -/

section
namespace Sys2Proof

/-! ### R100: decoding what has been encoded -/

/-- The round trip of every operation, constructor by constructor. -/
theorem Laws.RoundTrip.statement : ∀ i : Instr, Statement i
  | .acquire c => acquire c
  | .release c => release c
  | .beginTransaction d => beginTransaction d
  | .endTransaction d => endTransaction d
  | .busXfer c o => busXfer c o
  | .init => init
  | .pinMode pin mode => pinMode pin mode
  | .digitalWrite pin val => digitalWrite pin val
  | .digitalRead pin => digitalRead pin
  | .analogWrite pin val => analogWrite pin val
  | .analogRead pin => analogRead pin
  | .i2cWrite addr data => i2cWrite addr data
  | .i2cRead addr n => i2cRead addr n
  | .spiInit mode clkdiv => spiInit mode clkdiv
  | .spiTransfer data => spiTransfer data
  | .installSleepMonitor pin level => installSleepMonitor pin level
  | .ping => ping
  | .waitForReady => waitForReady
  | .write a data => write a data
  | .read a n => read a n
  | .isBusy => isBusy
  | .eraseSector a => eraseSector a
  | .identify => identify
  | .wakeUp => wakeUp
  | .powerDown => powerDown
  | .eraseChip => eraseChip
  | .reqPinMode pin mode => reqPinMode pin mode
  | .reqDigitalWrite pin val => reqDigitalWrite pin val
  | .reqDigitalRead pin => reqDigitalRead pin
  | .reqAnalogWrite pin val => reqAnalogWrite pin val
  | .reqAnalogRead pin => reqAnalogRead pin
  | .reqI2cWrite addr data => reqI2cWrite addr data
  | .reqI2cRead addr len => reqI2cRead addr len
  | .reqSpiInit mode clkdiv => reqSpiInit mode clkdiv
  | .reqSpiTransfer chunk => reqSpiTransfer chunk
  | .reqInstallSleepMonitor pin level => reqInstallSleepMonitor pin level
  | .reqPing => reqPing
  | .response p => response p
  | .busWriteEnable => busWriteEnable
  | .busReadStatus1 => busReadStatus1
  | .busReadData a n => busReadData a n
  | .busPageProgram a data => busPageProgram a data
  | .busSectorErase4K a => busSectorErase4K a
  | .busChipErase => busChipErase
  | .busJedecId => busJedecId
  | .busPowerDown => busPowerDown
  | .busReleasePowerDown => busReleasePowerDown

/-- Settles O2: each constructor has its round trip in `Laws.RoundTrip`, where the operand fields and the frames are taken
apart as they were put together. -/
theorem decodeEncode : Obligations.DecodeEncode := by
  unfold Obligations.DecodeEncode
  exact Laws.RoundTrip.statement

/-! ### Operand fields have one spelling -/

open BitVec in
theorem be24_addrOf (a2 a1 a0 : Byte) : be24 (addrOf a2 a1 a0) = [a2, a1, a0] := by
  have high (k : Nat) : (addrOf a2 a1 a0).extractLsb' (k + 8) 8 = (a2 ++ a1).extractLsb' k 8 :=
    extractLsb'_append_eq_of_le (Nat.le_add_left 8 k)
  have low : (addrOf a2 a1 a0).extractLsb' 0 8 = a0 := extractLsb'_append_eq_right
  rw [be24, high 8, high 0, low, extractLsb'_append_eq_left, extractLsb'_append_eq_right]

open BitVec in
theorem beCount_countOf (h l : Byte) : beCount (countOf h l) = [h, l] := by
  have high : (countOf h l).extractLsb' 8 8 = h := extractLsb'_append_eq_left
  have low : (countOf h l).extractLsb' 0 8 = l := extractLsb'_append_eq_right
  rw [beCount, high, low]

/-- A length field holds 25 bits, so narrowing it to a flash length loses nothing (R8). -/
theorem setWidth_lenOf {v : BitVec 32} (h : wfLength v.toNat = true) :
    (v.setWidth 25).toNat = v.toNat ∧ (v.setWidth 25).setWidth 32 = v := by
  have hlt : v.toNat ≤ 2 ^ 24 := of_decide_eq_true h
  have hnat : (v.setWidth 25).toNat = v.toNat := by rw [BitVec.toNat_setWidth]; omega
  exact ⟨hnat, BitVec.eq_of_toNat_eq (by rw [BitVec.toNat_setWidth, hnat]; omega)⟩

open BitVec in
theorem beLen_lenOf {l3 l2 l1 l0 : Byte} (h : wfLength (lenOf l3 l2 l1 l0).toNat = true) :
    beLen ((lenOf l3 l2 l1 l0).setWidth 25) = [l3, l2, l1, l0] := by
  have high (k : Nat) : (lenOf l3 l2 l1 l0).extractLsb' (k + 8) 8 = (l3 ++ l2 ++ l1).extractLsb' k 8 :=
    extractLsb'_append_eq_of_le (Nat.le_add_left 8 k)
  have mid (k : Nat) : (l3 ++ l2 ++ l1).extractLsb' (k + 8) 8 = (l3 ++ l2).extractLsb' k 8 :=
    extractLsb'_append_eq_of_le (Nat.le_add_left 8 k)
  have low : (lenOf l3 l2 l1 l0).extractLsb' 0 8 = l0 := extractLsb'_append_eq_right
  rw [beLen, (setWidth_lenOf h).2, high 16, high 8, high 0, mid 8, mid 0, low, extractLsb'_append_eq_left,
    extractLsb'_append_eq_right, extractLsb'_append_eq_right]

/-- Slots that are all zero, in a number that is a flash length, are the zero slots of that length (log 3). -/
theorem replicate_slots {slots : List Byte} (hzero : slots.all (fun b => b == 0#8) = true)
    (hlen : wfLength slots.length = true) :
    List.replicate (BitVec.ofNat 25 slots.length).toNat 0#8 = slots ∧
      wfLength (BitVec.ofNat 25 slots.length).toNat = true := by
  have hle : slots.length ≤ 2 ^ 24 := of_decide_eq_true hlen
  have hnat : (BitVec.ofNat 25 slots.length).toNat = slots.length := by rw [BitVec.toNat_ofNat]; omega
  rw [hnat]
  exact ⟨(List.eq_replicate_iff.2 ⟨rfl, by simpa using hzero⟩).symm, hlen⟩

/-! ### The operand forms accept only what the encoder writes -/

/-- An operation that `bytes` may stand for in code space `sp`. -/
structure Canonical (sp : Space) (bytes : List Byte) (i : Instr) : Prop where
  wellFormed : i.wf = true
  inSpace : i.space = sp
  spelled : encode i = bytes

section
variable {sp : Space} {frame : List Byte → List Byte} {args : List Byte} {j : Instr}

theorem operands0_canonical {i : Instr} (hi : Canonical sp (frame []) i) (h : operands0 i args = .ok j) :
    Canonical sp (frame args) j := by
  unfold operands0 at h
  split at h <;> cases h
  exact hi

theorem operands1_canonical {f : Byte → Instr} (hf : ∀ a, Canonical sp (frame [a]) (f a))
    (h : operands1 f args = .ok j) : Canonical sp (frame args) j := by
  unfold operands1 at h
  split at h <;> cases h
  exact hf _

theorem operands2_canonical {f : Byte → Byte → Instr} (hf : ∀ a b, Canonical sp (frame [a, b]) (f a b))
    (h : operands2 f args = .ok j) : Canonical sp (frame args) j := by
  unfold operands2 at h
  split at h <;> cases h
  exact hf _ _

theorem operandsAddr_canonical {f : Addr → Instr} (hf : ∀ a, Canonical sp (frame (be24 a)) (f a))
    (h : operandsAddr f args = .ok j) : Canonical sp (frame args) j := by
  unfold operandsAddr at h
  split at h <;> cases h
  rw [← be24_addrOf]
  exact hf _

theorem operandsIn_canonical {k : Nat} {i : Instr} (hi : Canonical sp (frame (List.replicate k 0#8)) i)
    (h : operandsIn k i args = .ok j) : Canonical sp (frame args) j := by
  unfold operandsIn at h
  split at h
  · cases h
  · rename_i hlen
    split at h <;> cases h
    rename_i hzero
    rwa [List.eq_replicate_iff.2 ⟨not_not.1 hlen, by simpa using hzero⟩]

end

theorem checked_canonical {sp : Space} {bytes : List Byte} {e : DecodeError} {i j : Instr}
    (hi : i.wf = true → Canonical sp bytes i) (h : checked e i = .ok j) : Canonical sp bytes j := by
  unfold checked at h
  split at h <;> cases h
  exact hi ‹_›

/-! ### The code spaces -/

theorem decodeArb_canonical {c : Client} {bytes : List Byte} {i : Instr} (h : decodeArb c bytes = .ok i) :
    Canonical (.arb c) bytes i := by
  rcases bytes with _ | ⟨op, args⟩
  · cases h
  · dsimp only [decodeArb] at h
    split at h
    case h_1 | h_2 | h_3 | h_4 => exact operands0_canonical ⟨rfl, rfl, rfl⟩ h
    case h_5 => exact operands1_canonical (fun _ => ⟨rfl, rfl, rfl⟩) h
    case h_6 => cases h

theorem operandsI2cWrite_canonical {args : List Byte} {i : Instr} (h : operandsI2cWrite args = .ok i) :
    Canonical .link (0x10#8 :: args) i := by
  rcases args with _ | ⟨a, data⟩
  · cases h
  · exact checked_canonical (fun hw => ⟨hw, rfl, rfl⟩) h

theorem operandsI2cRead_canonical {args : List Byte} {i : Instr} (h : operandsI2cRead args = .ok i) :
    Canonical .link (0x11#8 :: args) i := by
  unfold operandsI2cRead at h
  split at h <;> cases h
  exact ⟨rfl, rfl, by rw [encode, beCount_countOf]⟩

theorem decodeLink_canonical {bytes : List Byte} {i : Instr} (h : decodeLink bytes = .ok i) :
    Canonical .link bytes i := by
  rcases bytes with _ | ⟨op, args⟩
  · cases h
  · dsimp only [decodeLink] at h
    split at h
    case h_1 | h_12 => exact operands0_canonical ⟨rfl, rfl, rfl⟩ h
    case h_4 | h_6 => exact operands1_canonical (fun _ => ⟨rfl, rfl, rfl⟩) h
    case h_2 | h_3 | h_5 | h_9 | h_11 => exact operands2_canonical (fun _ _ => ⟨rfl, rfl, rfl⟩) h
    case h_7 => exact operandsI2cWrite_canonical h
    case h_8 => exact operandsI2cRead_canonical h
    case h_10 => exact checked_canonical (fun hw => ⟨hw, rfl, rfl⟩) h
    case h_13 => cases h

theorem operandsWrite_canonical {args : List Byte} {i : Instr} (h : operandsWrite args = .ok i) :
    Canonical .flash (0x02#8 :: args) i := by
  unfold operandsWrite at h
  split at h
  · exact checked_canonical (fun hw => ⟨hw, rfl, by rw [encode, be24_addrOf]; rfl⟩) h
  · cases h

theorem operandsRead_canonical {args : List Byte} {i : Instr} (h : operandsRead args = .ok i) :
    Canonical .flash (0x03#8 :: args) i := by
  unfold operandsRead at h
  split at h
  · split at h <;> cases h
    rename_i hlen
    refine ⟨?_, rfl, by rw [encode, be24_addrOf, beLen_lenOf hlen]; rfl⟩
    rw [Instr.wf, (setWidth_lenOf hlen).1, hlen]
  · cases h

theorem decodeFlash_canonical {bytes : List Byte} {i : Instr} (h : decodeFlash bytes = .ok i) :
    Canonical .flash bytes i := by
  rcases bytes with _ | ⟨op, args⟩
  · cases h
  · dsimp only [decodeFlash] at h
    split at h
    case h_1 | h_4 | h_6 | h_7 | h_8 | h_9 => exact operands0_canonical ⟨rfl, rfl, rfl⟩ h
    case h_2 => exact operandsWrite_canonical h
    case h_3 => exact operandsRead_canonical h
    case h_5 => exact operandsAddr_canonical (fun _ => ⟨rfl, rfl, rfl⟩) h
    case h_10 => cases h

theorem operandsBusRead_canonical {args : List Byte} {i : Instr} (h : operandsBusRead args = .ok i) :
    Canonical .bus (0x03#8 :: args) i := by
  unfold operandsBusRead at h
  split at h
  · split at h
    · rename_i hzero
      split at h <;> cases h
      rename_i hlen
      obtain ⟨hslots, hwf⟩ := replicate_slots hzero hlen
      exact ⟨hwf, rfl, by rw [encode, be24_addrOf, hslots]; rfl⟩
    · cases h
  · cases h

theorem operandsBusProgram_canonical {args : List Byte} {i : Instr} (h : operandsBusProgram args = .ok i) :
    Canonical .bus (0x02#8 :: args) i := by
  unfold operandsBusProgram at h
  split at h
  · exact checked_canonical (fun hw => ⟨hw, rfl, by rw [encode, be24_addrOf]; rfl⟩) h
  · cases h

theorem decodeBus_canonical {bytes : List Byte} {i : Instr} (h : decodeBus bytes = .ok i) :
    Canonical .bus bytes i := by
  rcases bytes with _ | ⟨op, args⟩
  · cases h
  · dsimp only [decodeBus] at h
    split at h
    case h_1 | h_6 | h_8 | h_9 => exact operands0_canonical ⟨rfl, rfl, rfl⟩ h
    case h_2 | h_7 => exact operandsIn_canonical ⟨rfl, rfl, rfl⟩ h
    case h_3 => exact operandsBusRead_canonical h
    case h_4 => exact operandsBusProgram_canonical h
    case h_5 => exact operandsAddr_canonical (fun _ => ⟨rfl, rfl, rfl⟩) h
    case h_10 => cases h

/-! ### Frames -/

/-- What follows the header of a frame with LEN `n` is a payload of `n` bytes and the checksum (R101, R102). -/
theorem frame_body {n : Byte} {rest : List Byte} (h : rest.length = n.toNat + 1) :
    rest = rest.take n.toNat ++ [rest.getD n.toNat 0#8] ∧ BitVec.ofNat 8 (rest.take n.toNat).length = n := by
  have hlt : n.toNat < rest.length := by omega
  constructor
  · rw [List.getD_eq_getElem _ _ hlt, List.take_append_getElem, List.take_of_length_le h.le]
  · rw [List.length_take_of_le hlt.le, BitVec.ofNat_toNat, BitVec.setWidth_eq]

/-- Bytes that decode as a request and hold nothing after the frame are its encoding (R172, R174). -/
theorem decodeRequest_canonical {bytes : List Byte} {cmd : Byte} {p : List Byte}
    (h : decodeRequest bytes = .ok (cmd, p)) (hlen : bytes.length = p.length + 4) : bytes = encodeRequest cmd p := by
  unfold decodeRequest at h
  split at h
  case h_1 | h_2 | h_3 => cases h
  case h_4 s c n rest =>
    iterate 3 (split at h; · cases h)
    rename_i hstart hshort hcrc
    cases h
    rw [List.length_take_of_le (by omega)] at hlen
    obtain ⟨hbody, hn⟩ := frame_body (n := n) (rest := rest) (by simpa using hlen)
    rw [encodeRequest, requestCrc, hn, ← not_not.1 hcrc, not_not.1 hstart, List.append_assoc, ← hbody]
    rfl

/-- Bytes that decode as a response frame are its encoding (R102, R188). -/
theorem decodeResponse_canonical {bytes p : List Byte} (h : decodeResponse bytes = .ok p) :
    bytes = encodeResponse p ∧ wfPayload p = true := by
  unfold decodeResponse at h
  split at h
  case h_1 | h_2 => cases h
  case h_3 s n rest =>
    iterate 3 (split at h; · cases h)
    rename_i hstart hlen hcrc
    cases h
    obtain ⟨hbody, hn⟩ := frame_body (not_not.1 hlen)
    constructor
    · rw [encodeResponse, hn, ← not_not.1 hcrc, not_not.1 hstart, List.append_assoc, ← hbody]
      rfl
    · have hbyte := n.isLt
      rw [wfPayload, decide_eq_true_eq, List.length_take]
      omega

theorem operandsReqI2cWrite_canonical {payload : List Byte} {i : Instr} (h : operandsReqI2cWrite payload = .ok i) :
    Canonical .req (encodeRequest 0x10#8 payload) i := by
  rcases payload with _ | ⟨a, data⟩
  · cases h
  · exact checked_canonical (fun hw => ⟨hw, rfl, rfl⟩) h

theorem operandsReqI2cRead_canonical {payload : List Byte} {i : Instr} (h : operandsReqI2cRead payload = .ok i) :
    Canonical .req (encodeRequest 0x11#8 payload) i := by
  unfold operandsReqI2cRead at h
  split at h
  · exact checked_canonical (fun hw => ⟨hw, rfl, rfl⟩) h
  · cases h

theorem decodeCommand_canonical {cmd : Byte} {payload : List Byte} {i : Instr} (h : decodeCommand cmd payload = .ok i) :
    Canonical .req (encodeRequest cmd payload) i := by
  unfold decodeCommand at h
  split at h
  case h_1 | h_2 | h_4 | h_8 | h_10 => exact operands2_canonical (fun _ _ => ⟨rfl, rfl, rfl⟩) h
  case h_3 | h_5 => exact operands1_canonical (fun _ => ⟨rfl, rfl, rfl⟩) h
  case h_6 => exact operandsReqI2cWrite_canonical h
  case h_7 => exact operandsReqI2cRead_canonical h
  case h_9 => exact checked_canonical (fun hw => ⟨hw, rfl, rfl⟩) h
  case h_11 => exact operands0_canonical ⟨rfl, rfl, rfl⟩ h
  case h_12 => cases h

theorem decodeReq_canonical {bytes : List Byte} {i : Instr} (h : decodeReq bytes = .ok i) : Canonical .req bytes i := by
  unfold decodeReq at h
  split at h
  · cases h
  · rename_i hframe
    split at h
    · rename_i hlen
      rw [decodeRequest_canonical hframe hlen]
      exact decodeCommand_canonical h
    · cases h

theorem decodeRsp_canonical {bytes : List Byte} {i : Instr} (h : decodeRsp bytes = .ok i) : Canonical .rsp bytes i := by
  unfold decodeRsp at h
  split at h <;> cases h
  obtain ⟨hbytes, hwf⟩ := decodeResponse_canonical ‹_›
  exact ⟨hwf, rfl, hbytes.symm⟩

/-- Settles O3: each code space accepts only canonical bytes, because each of its operand forms does. -/
theorem decodeCanonical : Obligations.DecodeCanonical := by
  unfold Obligations.DecodeCanonical
  intro sp bytes i h
  have canonical : Canonical sp bytes i := by
    cases sp with
    | arb c => exact decodeArb_canonical h
    | link => exact decodeLink_canonical h
    | flash => exact decodeFlash_canonical h
    | req => exact decodeReq_canonical h
    | rsp => exact decodeRsp_canonical h
    | bus => exact decodeBus_canonical h
  exact ⟨canonical.wellFormed, canonical.inSpace, canonical.spelled⟩

/-! ### Words of the spec -/

/-- Settles O1: the decoder is run on each of the ten words. -/
theorem tableWordsDecode : Obligations.TableWordsDecode := by
  unfold Obligations.TableWordsDecode
  exact ⟨rfl, rfl, rfl, rfl, rfl, rfl, rfl, rfl, rfl, rfl⟩

end Sys2Proof
end

/-! ## Requests at the ports: what a step runs, what waits, what is refused (30_encoding.md) -/

section
namespace Sys2Proof.Machine

/-! ### R100, R105: an operation is its request at its port -/

/-- An ARB operation is its request presented at its port. -/
theorem exec_arbRequest {i : Instr} {c : Client} {r : ArbReq} (h : arbRequest i = some (c, r)) (s : State) :
    exec i s = presentArb c r s := by
  cases i <;> cases h <;> rfl

/-- An operation of the LINK port, or a request frame within its operand domain, is its request presented at that port. -/
theorem exec_linkRequest_of_wf {i : Instr} {r : LinkReq} (h : linkRequest i = some r)
    (hw : i.space = .link ∨ i.wf = true) (s : State) : exec i s = presentLink r s := by
  cases i <;> cases h
  case reqI2cWrite | reqI2cRead | reqSpiTransfer => exact if_pos (hw.resolve_left (by simp [Instr.space]))
  all_goals rfl

/-- An operation of the FLASH port or a bus command, within its operand domain, is its request presented at that port. -/
theorem exec_flashRequest_of_wf {i : Instr} {r : FlashReq} (h : flashRequest i = some r) (hw : i.wf = true) (s : State) :
    exec i s = presentFlash r s := by
  cases i <;> cases h
  case busReadData | busPageProgram => exact if_pos hw
  all_goals rfl

/-! ### R105: a busy port -/

theorem presentArb_busy {c : Client} {s : State}
    (h : s.arb.port.get c ≠ .idle ∨ s.arb.waiting.get c ≠ [] ∨ (c = .mem ∧ s.flash.ctl ≠ .idle)) (r : ArbReq) :
    presentArb c r s = .next (s.setArb { s.arb with waiting := s.arb.waiting.set c (s.arb.waiting.get c ++ [r]) }) := by
  rw [presentArb, if_neg]
  rcases h with h | h | ⟨rfl, h⟩ <;> simp [portFree, h]

theorem presentLink_busy {s : State} (h : s.link.ctl ≠ .idle ∨ s.link.waiting ≠ []) (r : LinkReq) :
    presentLink r s = .next (s.setLink { s.link with waiting := s.link.waiting ++ [r] }) := by
  rw [presentLink, Link.present, if_neg (not_and_or.2 h)]
  rfl

theorem presentFlash_busy {s : State} (h : s.flash.ctl ≠ .idle ∨ s.flash.waiting ≠ [] ∨ s.arb.port.mem ≠ .idle)
    (r : FlashReq) :
    presentFlash r s = .next (s.setFlash { s.flash with waiting := s.flash.waiting ++ [r] }) := by
  rw [presentFlash, if_neg (by rwa [not_and_or, not_and_or])]

/-! ### R105, R309: an idle port with requests waiting -/

/-- The state with other requests waiting at the ARB ports and another quantum (log 2, log 11). -/
def State.rescheduled (w : PerClient (List ArbReq)) (q : Nat) (s : State) : State :=
  { s with arb := { s.arb with waiting := w }, env := { s.env with quantum := q } }

theorem envNext_quantum (e : Env) (q : Nat) : envNext { e with quantum := q } = { envNext e with quantum := q } := by
  unfold envNext
  dsimp only
  split <;> rfl

theorem transfer_rescheduled (c : Client) (o : Byte) (w : PerClient (List ArbReq)) (q : Nat) (s : State) :
    transfer c o (s.rescheduled w q) = (transfer c o s).rescheduled w q := by
  have hanswer : deviceAnswer c (s.rescheduled w q) = deviceAnswer c s := by cases c <;> rfl
  have hin : inByte c (s.rescheduled w q) = inByte c s := by unfold inByte; rw [hanswer]; rfl
  have henv : (if (deviceAnswer c s).isSome then (s.rescheduled w q).env else envNext (s.rescheduled w q).env) =
      { (if (deviceAnswer c s).isSome then s.env else envNext s.env) with quantum := q } := by
    split
    · rfl
    · exact envNext_quantum s.env q
  unfold transfer
  rw [hanswer, hin, henv]
  rfl

theorem andThen_ite {σ τ : Type} (p : Prop) [Decidable p] (x y : Answer σ) (f : σ → Answer τ) :
    andThen (if p then x else y) f = if p then andThen x f else andThen y f := apply_ite (andThen · f) p x y

/-- What an accepted request does depends neither on the requests waiting nor on the quantum, and changes neither. -/
theorem arbAccept_rescheduled (c : Client) (r : ArbReq) (w : PerClient (List ArbReq)) (q : Nat) (s : State) :
    arbAccept c r (s.rescheduled w q) = andThen (arbAccept c r s) (fun t => .next (t.rescheduled w q)) := by
  cases r with
  | xfer o =>
    simp only [arbAccept, andThen_ite, andThen_next, andThen_refused, transfer_rescheduled]
    rfl
  | acquire | release | begin | finish =>
    simp only [arbAccept, andThen_ite, andThen_next, andThen_refused]
    rfl

theorem portFree_rescheduled (c : Client) (w : PerClient (List ArbReq)) (q : Nat) (s : State) :
    portFree c (s.rescheduled w q) = portFree c s := rfl

theorem portFree_of_idle {c : Client} {s : State} (hp : s.arb.port.get c = .idle)
    (hf : c = .mem → s.flash.ctl = .idle) : portFree c s = true := by
  cases c <;> simp_all [portFree]

/-- The agent of an idle port accepts the oldest waiting request. -/
theorem arbMicro_accept {c : Client} {r : ArbReq} {rest : List ArbReq} {s : State} (hp : s.arb.port.get c = .idle)
    (hw : s.arb.waiting.get c = r :: rest) (hf : c = .mem → s.flash.ctl = .idle) :
    arbMicro c s = arbAccept c r (s.setArb { s.arb with waiting := s.arb.waiting.set c rest }) := by
  unfold arbMicro
  rw [hp, hw]
  exact if_pos (portFree_of_idle hp hf)

/-- What is left of a request accepted at an idle ARB port when it is cut short at once (log 2). -/
theorem presentArb_cutShort {c : Client} {s : State} (hp : s.arb.port.get c = .idle)
    (hf : c = .mem → s.flash.ctl = .idle) (r : ArbReq) :
    presentArb c r (s.rescheduled (s.arb.waiting.set c []) 0) =
      andThen (arbAccept c r s) (fun t => .next (t.rescheduled (s.arb.waiting.set c []) 0)) := by
  have hnone : (s.rescheduled (s.arb.waiting.set c []) 0).arb.waiting.get c = [] := PerClient.get_set_same _ _ _
  rw [presentArb, if_pos (by simp [hnone, portFree_rescheduled, portFree_of_idle hp hf]), arbAccept_rescheduled]
  cases arbAccept c r s <;> rfl

/-- The engine with other requests waiting. -/
def Link.withWaiting (w : List LinkReq) (l : Link) : Link := { l with waiting := w }

/-- The controller with other requests waiting. -/
def Flash.withWaiting (w : List FlashReq) (f : Flash) : Flash := { f with waiting := w }

/-- The state with another quantum (log 2). -/
def State.withQuantum (q : Nat) (s : State) : State := s.setEnv { s.env with quantum := q }

theorem Link.accept_withWaiting (r : LinkReq) (w : List LinkReq) (l : Link) :
    Link.accept r (l.withWaiting w) = andThen (Link.accept r l) (fun m => .next (m.withWaiting w)) := by
  unfold Link.accept
  cases linkOpOf r.op with
  | none => rfl
  | some op =>
    simp only [andThen_ite, andThen_next, andThen_refused]
    rfl

theorem Flash.start_withWaiting (op : FlashOp) (code : Byte) (addr : Addr) (len : Len) (data : List Byte)
    (w : List FlashReq) (f : Flash) :
    (f.withWaiting w).start op code addr len data = (f.start op code addr len data).withWaiting w := by
  cases op
  case write => dsimp only [Flash.start]; split <;> rfl
  all_goals rfl

theorem Flash.accept_withWaiting (p : Params) (r : FlashReq) (w : List FlashReq) (f : Flash) :
    Flash.accept p r (f.withWaiting w) = andThen (Flash.accept p r f) (fun g => .next (g.withWaiting w)) := by
  cases r with
  | bare out nIn isStatus => rfl
  | host code addr len data =>
    unfold Flash.accept
    dsimp only
    cases flashOpOf code with
    | none => rfl
    | some op => simp only [andThen_ite, andThen_next, andThen_refused, Flash.start_withWaiting]

/-- The agent of the idle LINK port accepts the oldest waiting request. -/
theorem Link.micro_accept {r : LinkReq} {rest : List LinkReq} {l : Link} (hc : l.ctl = .idle)
    (hw : l.waiting = r :: rest) (now : Time) : l.micro now = Link.accept r (l.withWaiting rest) := by
  simp only [Link.micro, Link.withWaiting, hc, hw]

/-- The agent of the idle FLASH port accepts the oldest waiting request. -/
theorem flashMicro_accept {r : FlashReq} {rest : List FlashReq} {s : State} (hc : s.flash.ctl = .idle)
    (hw : s.flash.waiting = r :: rest) (hp : s.arb.port.mem = .idle) :
    flashMicro s = liftFlash s (Flash.accept s.params r (s.flash.withWaiting rest)) := by
  simp only [flashMicro, Flash.withWaiting, hc, hw, hp, if_true]

/-- What is left of a request accepted at the idle LINK port when it is cut short at once (log 2). -/
theorem presentLink_cutShort {s : State} (hc : s.link.ctl = .idle) (r : LinkReq) :
    presentLink r ((s.setLink (s.link.withWaiting [])).withQuantum 0) =
      andThen (Link.accept r s.link)
        (fun m => .next ((s.setLink (m.withWaiting [])).withQuantum 0)) := by
  have hidle : (s.link.withWaiting []).ctl = .idle ∧ (s.link.withWaiting []).waiting = [] := ⟨hc, rfl⟩
  have hpresent : Link.present s.tNow 0 r (s.link.withWaiting []) =
      andThen (Link.accept r (s.link.withWaiting [])) (Link.run s.tNow 0) := if_pos hidle
  change liftLink _ (Link.present s.tNow 0 r (s.link.withWaiting [])) = _
  rw [hpresent, Link.accept_withWaiting]
  cases Link.accept r s.link <;> rfl

/-- What is left of a request accepted at the idle FLASH port when it is cut short at once (log 2). -/
theorem presentFlash_cutShort {s : State} (hc : s.flash.ctl = .idle) (hp : s.arb.port.mem = .idle) (r : FlashReq) :
    presentFlash r ((s.setFlash (s.flash.withWaiting [])).withQuantum 0) =
      andThen (Flash.accept s.params r s.flash)
        (fun g => .next ((s.setFlash (g.withWaiting [])).withQuantum 0)) := by
  rw [presentFlash, if_pos ⟨hc, rfl, hp⟩]
  change andThen (liftFlash _ (Flash.accept s.params r (s.flash.withWaiting []))) _ = _
  rw [Flash.accept_withWaiting]
  cases Flash.accept s.params r s.flash <;> rfl

/-- The oldest request waiting at the idle LINK port is accepted as at a port with none waiting, and there cut short at
once. -/
theorem runAgent_link_accept {r : LinkReq} {rest : List LinkReq} {s : State} (hc : s.link.ctl = .idle)
    (hw : s.link.waiting = r :: rest) (n : Nat) :
    runAgent .link n s =
      andThen (presentLink r ((s.setLink (s.link.withWaiting [])).withQuantum 0))
        (fun t => .next ((t.setLink (t.link.withWaiting rest)).withQuantum s.env.quantum)) := by
  rw [runAgent, if_pos hc, Link.micro_accept hc hw, presentLink_cutShort hc, Link.accept_withWaiting]
  cases Link.accept r s.link <;> rfl

/-- The oldest request waiting at the idle FLASH port is accepted as at a port with none waiting, and there cut short at
once. -/
theorem runAgent_flash_accept {r : FlashReq} {rest : List FlashReq} {s : State} (hc : s.flash.ctl = .idle)
    (hw : s.flash.waiting = r :: rest) (hp : s.arb.port.mem = .idle) (n : Nat) :
    runAgent .flash n s =
      andThen (presentFlash r ((s.setFlash (s.flash.withWaiting [])).withQuantum 0))
        (fun t => .next ((t.setFlash (t.flash.withWaiting rest)).withQuantum s.env.quantum)) := by
  rw [runAgent, if_pos (by simp [hc]), flashMicro_accept hc hw hp, presentFlash_cutShort hc hp,
    Flash.accept_withWaiting]
  cases Flash.accept s.params r s.flash <;> rfl

/-- The oldest request waiting at an idle ARB port is accepted as at a port with none waiting, and there cut short at
once. -/
theorem runAgent_port_accept {c : Client} {r : ArbReq} {rest : List ArbReq} {s : State} (hp : s.arb.port.get c = .idle)
    (hw : s.arb.waiting.get c = r :: rest) (hf : c = .mem → s.flash.ctl = .idle) (n : Nat) :
    runAgent (.port c) n s =
      andThen (presentArb c r (s.rescheduled (s.arb.waiting.set c []) 0))
        (fun t => .next (t.rescheduled (t.arb.waiting.set c rest) s.env.quantum)) := by
  have hmicro : arbMicro c s = arbAccept c r (s.rescheduled (s.arb.waiting.set c rest) s.env.quantum) :=
    arbMicro_accept hp hw hf
  rw [runAgent, if_pos (by simp [hp]), hmicro, presentArb_cutShort hp hf, arbAccept_rescheduled]
  cases arbAccept c r s with
  | next t => simp [State.rescheduled]
  | fault | refused => rfl

/-- Settles O14: an operation is its request presented at its port; a busy port appends it (`presentArb_busy` and its
like), an idle port's agent accepts the oldest, and accepting looks neither at the waiting requests nor at the quantum. -/
theorem busyPortsWait : Obligations.BusyPortsWait := by
  unfold Obligations.BusyPortsWait
  refine ⟨fun i c r s h hb => ?_, fun i r s h hw hb => ?_, fun i r s h hw hb => ?_,
    fun i c r rest s n h hp hwait hf => ?_, fun i r rest s n h hw hc hwait => ?_,
    fun i r rest s n h hw hc hwait hp => ?_⟩
  · rw [exec_arbRequest h, presentArb_busy hb]
  · rw [exec_linkRequest_of_wf h (.inr hw), presentLink_busy hb]
  · rw [exec_flashRequest_of_wf h hw, presentFlash_busy hb]
  · rw [exec_arbRequest h]
    exact runAgent_port_accept hp hwait hf n
  · rw [exec_linkRequest_of_wf h (.inr hw)]
    exact runAgent_link_accept hc hwait n
  · rw [exec_flashRequest_of_wf h hw]
    exact runAgent_flash_accept hc hwait hp n

/-! ### R100: what a step runs -/

/-- A step takes the next input from the inbox and carries it out. -/
theorem step_input {s : State} {x : Input} {rest : List Input} (h : s.env.inbox = x :: rest) :
    step s = runInput x (s.setEnv { s.env with inbox := rest }) := by
  rw [step, stepInput, h]

theorem runRequest_ok {sp : Space} {bytes : List Byte} {i : Instr} (h : decode sp bytes = .ok i) (s : State) :
    runRequest sp bytes s = exec i s := by
  rw [runRequest, h]

theorem runRequest_error {sp : Space} {bytes : List Byte} {e : DecodeError} (h : decode sp bytes = .error e)
    (s : State) : runRequest sp bytes s = runUndecoded sp bytes e s := by
  rw [runRequest, h]

/-- Undecodable bytes are refused everywhere but on the serial channel (R112, R113, R114 (a)). -/
theorem runUndecoded_refused {sp : Space} (h : sp ≠ .rsp) (bytes : List Byte) (e : DecodeError) (s : State) :
    runUndecoded sp bytes e s = .refused (.undecodable e) := by
  cases sp
  case rsp => exact absurd rfl h
  all_goals rfl

theorem decode_of_decodeTableWord {nbits w : Nat} {i : Instr} (h : decodeTableWord nbits w = some i) :
    decode (tableRequest nbits w).1 (tableRequest nbits w).2 = .ok i := by
  unfold decodeTableWord at h
  split at h <;> cases h
  assumption

@[simp] theorem liftLink_setLink (s : State) (l : Link) (x : Answer Link) :
    liftLink (s.setLink l) x = liftLink s x := by
  cases x <;> rfl

/-- Bytes that arrive while no operation is in progress stay in ser_rx (R33). -/
theorem liftLink_arrive_idle {s : State} (h : s.link.ctl = .idle) (bytes : List Byte) :
    liftLink s (Link.arrive s.tNow s.env.quantum bytes s.link) =
      .next (s.setLink { s.link with serRx := s.link.serRx ++ bytes }) := by
  rw [Link.arrive_idle h]
  rfl

theorem runAgent_link_busy {s : State} (h : s.link.ctl ≠ .idle) (n : Nat) :
    runAgent .link n s = liftLink s (Link.run s.tNow n s.link) := if_neg h

/-- Bytes that arrive while an operation is in progress are appended to ser_rx, and the engine runs for its quantum. -/
theorem liftLink_arrive_busy {s : State} (h : s.link.ctl ≠ .idle) (bytes : List Byte) :
    liftLink s (Link.arrive s.tNow s.env.quantum bytes s.link) =
      runAgent .link s.env.quantum (s.setLink { s.link with serRx := s.link.serRx ++ bytes }) := by
  have hrun := runAgent_link_busy (s := s.setLink { s.link with serRx := s.link.serRx ++ bytes }) h s.env.quantum
  rw [hrun, liftLink_setLink]
  rfl

/-- Settles O5: a step carries out the request it takes, as the decoder reads it; bytes of the response's code space arrive
at the engine, which takes them only while an operation is in progress. -/
theorem stepRunsDecoded : Obligations.StepRunsDecoded := by
  unfold Obligations.StepRunsDecoded
  refine ⟨fun s sp bytes rest i hin hd => ?_, fun s sp bytes rest e hin hd hsp => ?_,
    fun s u bytes rest e hin hd hu => ?_, fun s nbits w i hd => ?_⟩
  · rw [step_input hin]
    exact runRequest_ok hd _
  · rw [step_input hin]
    exact (runRequest_error hd _).trans (runUndecoded_refused hsp bytes e _)
  · subst hu
    rw [step_input hin]
    have hrun := runRequest_error hd (s.setEnv { s.env with inbox := rest })
    exact ⟨fun hc => hrun.trans (liftLink_arrive_idle (s := s.setEnv { s.env with inbox := rest }) hc bytes),
      fun hc => hrun.trans (liftLink_arrive_busy (s := s.setEnv { s.env with inbox := rest }) hc bytes)⟩
  · rw [step_input (s := s.withFetchWord nbits w) rfl]
    exact runRequest_ok (decode_of_decodeTableWord hd) s

/-! ### R114: requests without a meaning -/

theorem decode_link_unknown {op : Byte} (h : linkOpOf op = none) (args : List Byte) :
    decode .link (op :: args) = .error .unknownOpSel := by
  dsimp only [decode, decodeLink]
  split
  case h_13 => rfl
  all_goals simp [linkOpOf] at h

theorem decode_flash_unknown {op : Byte} (h : flashOpOf op = none) (args : List Byte) :
    decode .flash (op :: args) = .error .unknownOpSel := by
  dsimp only [decode, decodeFlash]
  split
  case h_10 => rfl
  all_goals simp [flashOpOf] at h

theorem decode_arb_unknown {op : Byte} (h : 4 < op.toNat) (c : Client) (args : List Byte) :
    decode (.arb c) (op :: args) = .error .unknownOpSel := by
  dsimp only [decode, decodeArb]
  split
  case h_6 => rfl
  all_goals simp at h

/-- A host operation whose address range is refused is refused at the ready port (R65, R114 (c)). -/
theorem presentFlash_beyondCapacity {s : State} {op : FlashOp} {code : Byte} {addr : Addr} {len : Len}
    {data : List Byte} (hf : FlashReady s) (ho : flashOpOf code = some op)
    (h : rangeRefused s.params op addr len data = true) :
    presentFlash (.host code addr len data) s = .refused .beyondCapacity := by
  have hready : s.flash.ctl = .idle ∧ s.flash.waiting = [] ∧ s.arb.port.mem = .idle := hf
  rw [presentFlash, if_pos hready]
  simp [Flash.accept, ho, h, liftFlash]

theorem beyondLastSector_of_capacity_le {p : Params} {a : Nat} (h : p.capacity ≤ a) : beyondLastSector p a = true := by
  unfold Params.capacity at h
  exact decide_eq_true (show p.lastSector.val < a / 4096 by omega)

theorem presentLink_refused {s : State} {r : LinkReq} {e : Refusal} (h : LinkIdle s)
    (ha : Link.accept r s.link = .refused e) : presentLink r s = .refused e := by
  have hidle : s.link.ctl = .idle ∧ s.link.waiting = [] := h
  rw [presentLink, Link.present, if_pos hidle, ha]
  rfl

/-- A bulk host operation without data is refused after the handshake (R114 (d), R218). -/
theorem Link.accept_emptyBulk {r : LinkReq} {op : LinkOp} {l : Link} (ho : linkOpOf r.op = some op)
    (hb : op.isBulk = true) (hw : r.wire = false) (hn : r.n = 0) (hr : l.linkReady = true) :
    Link.accept r l = .refused .emptyBulk := by
  simp [Link.accept, ho, hb, hw, hn, hr]

/-- Before the handshake every operation but INIT and PING is refused (R114 (f), R225). -/
theorem Link.accept_notReady {r : LinkReq} {op : LinkOp} {l : Link} (ho : linkOpOf r.op = some op)
    (hb : op.beforeHandshake = false) (hr : l.linkReady = false) : Link.accept r l = .refused .linkNotReady := by
  simp [Link.accept, ho, hb, hr]

/-- Every operation of the link engine but INIT, PING and the ping frame needs the handshake (R225). -/
theorem linkRequest_needsHandshake {i : Instr} {r : LinkReq} (h : linkRequest i = some r) (h1 : i ≠ .init)
    (h2 : i ≠ .ping) (h3 : i ≠ .reqPing) : ∃ op, linkOpOf r.op = some op ∧ op.beforeHandshake = false := by
  cases i <;> cases h
  case init => exact absurd rfl h1
  case ping => exact absurd rfl h2
  case reqPing => exact absurd rfl h3
  all_goals exact ⟨_, rfl, rfl⟩

/-- An operation of the link engine is refused by an idle engine before the handshake (R225). -/
theorem exec_notReady {i : Instr} {s : State} (hidle : LinkIdle s) (hr : s.link.linkReady = false)
    (hi : i.space = .link ∨ (i.space = .req ∧ i.wf = true)) (h1 : i ≠ .init) (h2 : i ≠ .ping) (h3 : i ≠ .reqPing) :
    exec i s = .refused .linkNotReady := by
  have hspace : i.space = .link ∨ i.space = .req ∨ i.space = .rsp := hi.imp_right fun h => .inl h.1
  rcases linkRequest_or_response hspace with ⟨r, hreq⟩ | ⟨p, rfl⟩
  · obtain ⟨op, ho, hb⟩ := linkRequest_needsHandshake hreq h1 h2 h3
    rw [exec_linkRequest_of_wf hreq (hi.imp_right And.right)]
    exact presentLink_refused hidle (Link.accept_notReady ho hb hr)
  · simp [Instr.space] at hi

/-- Settles O15: the decoder refuses unknown selectors; the FLASH port refuses addresses beyond CAPACITY, the LINK port empty
bulk operations and operations before the handshake, when they accept a request. -/
theorem refusedRequests : Obligations.RefusedRequests := by
  unfold Obligations.RefusedRequests
  refine ⟨fun s op args h => ?_, fun s op args h => ?_, fun s c op args h => ?_, fun s hf => ⟨?_, ?_, ?_⟩,
    fun s hidle hr => ⟨?_, ?_, ?_⟩, fun s v h => writeTimeout_busy h v,
    fun s i hidle hr hi h1 h2 h3 => exec_notReady hidle hr hi h1 h2 h3⟩
  · exact runRequest_error (decode_link_unknown h args) s
  · exact runRequest_error (decode_flash_unknown h args) s
  · exact runRequest_error (decode_arb_unknown h c args) s
  · intro a n h
    exact presentFlash_beyondCapacity (op := .read) hf rfl (decide_eq_true h)
  · intro a d h
    exact presentFlash_beyondCapacity (op := .write) hf rfl (decide_eq_true h)
  · intro a h
    exact presentFlash_beyondCapacity (op := .eraseSector) hf rfl (beyondLastSector_of_capacity_le h)
  · exact fun addr => presentLink_refused hidle (Link.accept_emptyBulk (op := .i2cRead) rfl rfl rfl rfl hr)
  · exact fun addr => presentLink_refused hidle (Link.accept_emptyBulk (op := .i2cWrite) rfl rfl rfl rfl hr)
  · exact presentLink_refused hidle (Link.accept_emptyBulk (op := .spiTransfer) rfl rfl rfl rfl hr)

end Sys2Proof.Machine
end

/-! ## Responses to the commands of one exchange (30_encoding.md) -/

section
namespace Sys2Proof.Machine

/-! ### Operations of one exchange whose acknowledgement is not tested -/

/-- The operations of one exchange that take any response: all but INIT, PING and the bulk operations (R213 to R217, R221,
R223). -/
def LinkOp.IsScalar (op : LinkOp) : Prop := op ≠ .init ∧ op ≠ .ping ∧ op.isBulk = false

/-- What a scalar operation sends and expects, and that a good exchange ends it with the bytes received. -/
theorem LinkOp.IsScalar.exchange {op : LinkOp} (h : op.IsScalar) (l : Link) :
    l.cmdOf op = l.lkOp ∧ l.payloadOf op = l.lkArgs ∧
      l.expOf op = (if op = .analogRead then 2#8 else 1#8) ∧ ∀ now, l.onOk now op = l.succeed l.received := by
  obtain ⟨hinit, hping, hbulk⟩ := h
  cases op
  case init => exact absurd rfl hinit
  case ping => exact absurd rfl hping
  case i2cWrite | i2cRead | spiTransfer => exact absurd hbulk (by decide)
  all_goals exact ⟨rfl, rfl, rfl, fun _ => rfl⟩

/-- A scalar operation, as a host operation or as a frame, answered whole and in time with the length it expects, ends well
with the response as its result. -/
theorem presentLink_scalar {s : State} {op : LinkOp} {code : Byte} {noise resp rest : List Byte}
    (hop : op.IsScalar) (ho : linkOpOf code = some op) (hidle : LinkIdle s) (hseq : LinkSeqInv s.link)
    (hready : s.link.linkReady = true) (ha : Answered noise resp rest s.link)
    (hq : noise.length + resp.length + 6 ≤ s.env.quantum) (hlen : resp.length = if op = .analogRead then 2 else 1)
    (args : List Byte) (wire : Bool) :
    presentLink (scalarRequest wire code args) s = .next (s.setLink
      (((s.link.latched code args).exchanged s.tNow code args resp rest).succeed resp)) := by
  have hbound : 1 ≤ resp.length ∧ resp.length ≤ 32 := by split at hlen <;> omega
  obtain ⟨hcmd, hpayload, hexp, _⟩ := hop.exchange (s.link.latched code args)
  obtain ⟨_, _, _, hok⟩ := hop.exchange ((s.link.latched code args).exchanged s.tNow code args resp rest)
  change _ = code at hcmd
  change _ = args at hpayload
  have hexpLen : (s.link.latched code args).expOf op = BitVec.ofNat 8 resp.length := by
    rw [hexp, hlen]
    split <;> rfl
  obtain ⟨hinit, _, hbulk⟩ := hop
  have hrun := presentLink_exchange (wire := wire) ho hbulk hinit (.inr hready) hidle hseq ha hq hbound.1 hbound.2
    hexpLen
  rw [hcmd, hpayload, hok, Link.received_exchanged _ _ _ _ _ _ hbound.2] at hrun
  exact hrun rfl

/-- Settles O29: each of the seven frames is a scalar request presented at the LINK port. -/
theorem scalarFramesComplete : Obligations.ScalarFramesComplete := by
  unfold Obligations.ScalarFramesComplete
  intro s noise resp rest hidle hseq hready ha hq
  have complete {op : LinkOp} {code : Byte} (hop : op.IsScalar) (ho : linkOpOf code = some op)
      (hlen : resp.length = if op = .analogRead then 2 else 1) (args : List Byte) :=
    presentLink_scalar hop ho hidle hseq hready ha hq hlen args true
  refine ⟨fun hlen => ⟨fun pin mode => ?_, fun pin val => ?_, fun pin => ?_, fun pin val => ?_, fun mode clkdiv => ?_,
    fun pin level => ?_⟩, fun hlen pin => ?_⟩
  · exact complete (op := .pinMode) ⟨nofun, nofun, rfl⟩ rfl hlen _
  · exact complete (op := .digitalWrite) ⟨nofun, nofun, rfl⟩ rfl hlen _
  · exact complete (op := .digitalRead) ⟨nofun, nofun, rfl⟩ rfl hlen _
  · exact complete (op := .analogWrite) ⟨nofun, nofun, rfl⟩ rfl hlen _
  · exact complete (op := .spiInit) ⟨nofun, nofun, rfl⟩ rfl hlen _
  · exact complete (op := .installSleepMonitor) ⟨nofun, nofun, rfl⟩ rfl hlen _
  · exact complete (op := .analogRead) ⟨nofun, nofun, rfl⟩ rfl hlen _

/-! ### R33, R188: a response frame arrives -/

theorem execResponse_of_wf {p : List Byte} (h : p.length ≤ 255) (s : State) :
    exec (.response p) s = liftLink s (Link.arrive s.tNow s.env.quantum (encodeResponse p) s.link) :=
  if_pos (decide_eq_true h)

theorem execResponse_illFormed {p : List Byte} (h : 255 < p.length) (s : State) :
    exec (.response p) s = .refused .illFormed :=
  if_neg (by simpa [wfPayload] using h)

/-- The engine at the terminal state OK of an exchange whose response `p` has been taken whole (R175). -/
def Link.responseTaken (p : List Byte) (l : Link) : Link :=
  { l with
    linkState := .ok
    serRx := []
    rxLen := BitVec.ofNat 8 p.length
    rxCnt := BitVec.ofNat 9 p.length
    rxBuf := p ++ l.rxBuf.drop p.length
    rxCrc := responseCrc (BitVec.ofNat 8 p.length) p }

/-- A response of the expected length that arrives alone and in time is taken whole: header, payload, checksum. -/
theorem Link.run_response {now : Time} {p : List Byte} {l : Link} (hc : l.ctl = .exchange)
    (hs : l.linkState = .awaitStart) (he : l.expired now = false) (hb : l.serRx = encodeResponse p)
    (hexp : l.expLen = BitVec.ofNat 8 p.length) (h1 : 1 ≤ p.length) (h32 : p.length ≤ 32) (hbuf : l.rxBuf.length = 32)
    (n : Nat) : Link.run now (n + (p.length + 3)) l = Link.run now n (l.responseTaken p) := by
  have hlen : (BitVec.ofNat 8 p.length).toNat = p.length := toNat_length (by omega)
  have hne : BitVec.ofNat 8 p.length ≠ 0#8 := fun h => by
    rw [h] at hlen
    simp at hlen
    omega
  have hp : p ≠ [] := List.ne_nil_of_length_pos h1
  rw [show n + (p.length + 3) = n + 1 + p.length + 2 by omega]
  refine (Link.run_header (r := p ++ [responseCrc (BitVec.ofNat 8 p.length) p]) hc hs he
    (by simp [hb, encodeResponse]) hexp.symm hne _).trans ?_
  refine (Link.run_data p (by exact hc) (by rfl) (by exact he) (by rfl) hp (by simp [hlen])
    (by simpa [hlen] using h32) (by exact hbuf) _).trans ?_
  refine (Link.run_crc (by exact hc) (by rfl) (by exact he) (by rfl) _).trans ?_
  simp [hlen, Link.responseTaken]

theorem Link.received_responseTaken {p : List Byte} (h : p.length ≤ 32) (l : Link) :
    (l.responseTaken p).received = p := by
  have hlen : (BitVec.ofNat 8 p.length).toNat = p.length := toNat_length (by omega)
  simp [Link.received, Link.responseTaken, hlen]

/-- A scalar command that waits for the START of its response ends well when the response arrives alone and in time. -/
theorem Link.arrive_scalar {now : Time} {q : Nat} {p : List Byte} {op : LinkOp} {l : Link} (hop : op.IsScalar)
    (ho : linkOpOf l.lkOp = some op) (hseq : LinkSeqInv l) (hc : l.ctl = .exchange) (hs : l.linkState = .awaitStart)
    (hrx : l.serRx = []) (he : l.expired now = false) (hexp : l.expLen = BitVec.ofNat 8 p.length) (h1 : 1 ≤ p.length)
    (h32 : p.length ≤ 32) (hq : p.length + 4 ≤ q) :
    Link.arrive now q (encodeResponse p) l = .next ((l.responseTaken p).succeed p) := by
  obtain ⟨_, _, _, hok⟩ := hop.exchange (l.responseTaken p)
  rw [Link.arrive, show q = q - (p.length + 4) + 1 + (p.length + 3) by omega,
    Link.run_response (l := { l with serRx := l.serRx ++ encodeResponse p }) hc hs he (by simp [hrx]) hexp h1 h32
      hseq.buf]
  change Link.run now _ (l.responseTaken p) = _
  rw [Link.run_ok (l := l.responseTaken p) hc rfl ho, hok now, Link.received_responseTaken h32, Link.run_stop (.inl rfl)]

/-- Settles O44: an idle engine keeps the bytes that arrive; one that waits for START takes the response through the rows
of R189; LEN is one byte, so a longer payload has no frame. -/
theorem responseArrives : Obligations.ResponseArrives := by
  unfold Obligations.ResponseArrives
  refine ⟨fun s p hp hidle => ?_,
    fun s p op hseq ho hinit hping hbulk hc hs hrx ht h1 h32 hexp hq => ?_, fun s p h => execResponse_illFormed h s⟩
  · rw [execResponse_of_wf hp, liftLink_arrive_idle hidle]
  · have he : s.link.expired s.tNow = false := decide_eq_false (Nat.not_le.2 ht)
    rw [execResponse_of_wf (by omega),
      Link.arrive_scalar ⟨hinit, hping, hbulk⟩ ho hseq hc hs hrx he hexp h1 h32 hq]
    simp [liftLink, Link.responseTaken, Link.succeed, hrx]

end Sys2Proof.Machine
end

/-! ## The arbiter's invariants (40_arbiter.md) -/

section
namespace Sys2Proof.Machine

/-! ### What happens at an ARB port -/

/-- What accepting a request of client `c` can do: ask for the permit, release it, open or close `c`'s transaction, or
transfer one byte of it (R142, R144, R145, R146, R148). -/
inductive Accepted (c : Client) (s : State) : State → Prop
  | request (p : ArbPort) : s.arb.permitOwner ≠ some c → Accepted c s (s.setArb (requestPermit c p s.arb))
  | release : s.arb.txnOpen = none → Accepted c s (s.setArb { s.arb with permitOwner := none })
  | begin : s.arb.permitOwner = some c → s.arb.txnOpen = none → Accepted c s (openTxn c s)
  | finish : s.arb.txnOpen = some c → Accepted c s (closeTxn c s)
  | xfer (o : Byte) : s.arb.txnOpen = some c → Accepted c s (transfer c o s)

theorem arbAccept_accepted {c : Client} {r : ArbReq} {s t : State} (h : arbAccept c r s = .next t) : Accepted c s t := by
  cases r <;> simp only [arbAccept] at h
  case acquire => split at h <;> cases h; exact .request .acquiring ‹_›
  case release => split at h <;> cases h; exact .release (And.right ‹_›)
  case begin =>
    split at h
    · split at h <;> cases h; exact .begin ‹_› ‹_›
    · cases h; exact .request .beginning ‹_›
  case finish => split at h <;> cases h; exact .finish (And.left ‹_›)
  case xfer o => split at h <;> cases h; exact .xfer o (And.right ‹_›)

/-- What a micro-step at client `c`'s port can do (R105, R142, R143, R145). -/
inductive PortStep (c : Client) (s : State) : State → Prop
  /-- nothing to do -/
  | rest : PortStep c s s
  /-- the oldest waiting request is accepted -/
  | accept {t : State} (w : PerClient (List ArbReq)) : Accepted c (s.setArb { s.arb with waiting := w }) t → PortStep c s t
  /-- the arbiter's grant step -/
  | grant : PortStep c s (grantStep s)
  /-- ACQUIRE returns -/
  | acquired : PortStep c s (s.setArb { s.arb with port := s.arb.port.set c .idle })
  /-- the rest of BEGIN_TRANSACTION -/
  | begin : s.arb.port.get c ≠ .idle → s.arb.permitOwner = some c → PortStep c s (openTxn c s)

theorem arbMicro_portStep {c : Client} {s t : State} (h : arbMicro c s = .next t) : PortStep c s t := by
  unfold arbMicro at h
  split at h
  case h_1 =>
    split at h
    · cases h; exact .rest
    · split at h
      · exact .accept _ (arbAccept_accepted h)
      · cases h; exact .rest
  case h_2 =>
    split at h <;> cases h
    · exact .acquired
    · exact .grant
  case h_3 hp =>
    split at h <;> cases h
    · exact .begin (by simp [hp]) ‹_›
    · exact .grant

/-! ### R150: each operation of the arbiter keeps its invariants -/

theorem bracket_append (d : Option Client) (tr : List BusEvent) (e : BusEvent) :
    bracket d (tr ++ [e]) = (bracket d tr).bind (fun o => bracket o [e]) := by
  induction tr generalizing d with
  | nil => rfl
  | cons x tr ih => cases x <;> simp only [List.cons_append, bracket] <;> split <;> simp [ih]

/-- Without a holder no transaction is open. -/
theorem ArbInv.closed_of_free {s : State} (h : ArbInv s) (ho : s.arb.permitOwner = none) : s.arb.txnOpen = none := by
  cases ht : s.arb.txnOpen with
  | none => rfl
  | some d => exact absurd ((h.opened d ht).1.symm.trans ho) (by simp)

section
variable {c : Client} {s : State} (h : ArbInv s)
include h

theorem ArbInv.requestPermit (p : ArbPort) (ho : s.arb.permitOwner ≠ some c) :
    ArbInv (s.setArb (requestPermit c p s.arb)) where
  opened := h.opened
  closed := h.closed
  bracketed := h.bracketed
  waits d hd := by
    rcases Client.eq_or_other c d with rfl | rfl
    · exact ho
    · exact h.waits _ (by simpa [Machine.requestPermit] using hd)
  created _ := rfl
  asked _ _ := rfl
  counted d hd := by
    rcases Client.eq_or_other c d with rfl | rfl
    · simp [Machine.requestPermit]
    · simpa [Machine.requestPermit] using h.counted _ hd
  oneOwed := h.oneOwed
  asking d hd ht := by
    rcases Client.eq_or_other c d with rfl | rfl
    · exact ho (h.opened _ ht).1
    · exact h.asking _ (by simpa [Machine.requestPermit] using hd) ht

theorem ArbInv.release (ht : s.arb.txnOpen = none) : ArbInv (s.setArb { s.arb with permitOwner := none }) where
  opened d hd := absurd (ht.symm.trans hd) (by simp)
  closed := h.closed
  bracketed := h.bracketed
  waits _ _ := by simp
  created hn := absurd rfl hn
  asked := h.asked
  counted := h.counted
  oneOwed := h.oneOwed
  asking := h.asking

theorem ArbInv.openTxn (ho : s.arb.permitOwner = some c) (ht : s.arb.txnOpen = none) : ArbInv (openTxn c s) where
  opened d hd := by
    obtain rfl : c = d := Option.some.inj hd
    exact ⟨ho, PerClient.get_set_same _ _ _, (PerClient.get_set_other _ _ _).trans ((h.closed ht).1 _), rfl⟩
  closed hn := nomatch hn
  bracketed := by simp [Machine.openTxn, openBus, bracket_append, h.bracketed, ht, bracket]
  waits := h.waits
  created := h.created
  asked := h.asked
  counted := h.counted
  oneOwed := h.oneOwed
  asking d hd hs := by
    obtain rfl : c = d := Option.some.inj hs
    exact hd (PerClient.get_set_same _ _ _)

theorem ArbInv.closeTxn (ht : s.arb.txnOpen = some c) : ArbInv (closeTxn c s) where
  opened _ hd := nomatch hd
  closed _ := by
    obtain ⟨_, _, hother, _⟩ := h.opened c ht
    refine ⟨fun d => ?_, rfl⟩
    rcases Client.eq_or_other c d with rfl | rfl
    · exact PerClient.get_set_same _ _ _
    · exact (PerClient.get_set_other _ _ _).trans hother
  bracketed := by simp [Machine.closeTxn, closeBus, bracket_append, h.bracketed, ht, bracket]
  waits _ _ := nofun
  created hn := absurd rfl hn
  asked := h.asked
  counted := h.counted
  oneOwed := h.oneOwed
  asking _ _ := nofun

theorem ArbInv.transfer (o : Byte) (ht : s.arb.txnOpen = some c) : ArbInv (transfer c o s) :=
  { h with bracketed := by simp [Machine.transfer, bracket_append, h.bracketed, ht, bracket] }

theorem ArbInv.acquired : ArbInv (s.setArb { s.arb with port := s.arb.port.set c .idle }) :=
  { h with
    asking := fun d hd => by
      rcases Client.eq_or_other c d with rfl | rfl
      · simp at hd
      · exact h.asking _ (by simpa using hd) }

/-- A grant keeps the invariants: the client it passes over waits, and the client it serves no longer counts as passed
over. -/
theorem ArbInv.grantTo (ho : s.arb.permitOwner = none) (hw : s.arb.arbWait.get c = true) :
    ArbInv (s.setArb (grantTo c s.arb)) where
  opened d hd := absurd ((h.closed_of_free ho).symm.trans hd) (by simp)
  closed := h.closed
  bracketed := h.bracketed
  waits d hd := by
    rcases Client.eq_or_other c d with rfl | rfl
    · simp [Machine.grantTo] at hd
    · simpa [Machine.grantTo] using (Client.other_ne c).symm
  created _ := h.asked c hw
  asked d hd := by
    rcases Client.eq_or_other c d with rfl | rfl
    · simp [Machine.grantTo] at hd
    · exact h.asked _ (by simpa [Machine.grantTo] using hd)
  counted d hd := by
    rcases Client.eq_or_other c d with rfl | rfl
    · exact absurd (by cases d <;> rfl) hd
    · by_cases hwo : s.arb.arbWait.get c.other = true
      · simpa [Machine.grantTo] using hwo
      · simpa [Machine.grantTo] using h.counted _ (by simpa [Machine.grantTo, hwo] using hd)
  oneOwed := by cases c <;> simp [Machine.grantTo, Client.other]
  asking d hd := by simp [Machine.grantTo, h.closed_of_free ho]

theorem ArbInv.grantIf : ArbInv (s.setArb (grantIf s.params c s.arb)) := by
  unfold Machine.grantIf
  split
  · rename_i hmay
    obtain ⟨ho, hmay⟩ := hmay
    exact h.grantTo ho (mayChoose_iff.1 hmay).1
  · exact h

theorem ArbInv.grantStep : ArbInv (grantStep s) := by
  rcases grantStep_cases s with ⟨e, _⟩ | ⟨d, ho, hmay, e⟩ <;> rw [e]
  · exact h
  · exact { h.grantTo ho (mayChoose_iff.1 hmay).1 with }

end

/-! ### R150: every step keeps them -/

theorem Accepted.arbInv {c : Client} {s t : State} (hs : ArbInv s) (h : Accepted c s t) : ArbInv t := by
  cases h with
  | request p ho => exact hs.requestPermit p ho
  | release ht => exact hs.release ht
  | begin ho ht => exact hs.openTxn ho ht
  | finish ht => exact hs.closeTxn ht
  | xfer o ht => exact hs.transfer o ht

/-- A client that holds the permit while it waits at its port has the bus to itself: a transaction would be its own. -/
theorem ArbInv.closed_of_asking {c : Client} {s : State} (h : ArbInv s) (hp : s.arb.port.get c ≠ .idle)
    (ho : s.arb.permitOwner = some c) : s.arb.txnOpen = none := by
  cases ht : s.arb.txnOpen with
  | none => rfl
  | some d =>
    obtain ⟨howner, _⟩ := h.opened d ht
    obtain rfl : c = d := Option.some.inj (ho.symm.trans howner)
    exact absurd ht (h.asking c hp)

theorem arbMicro_arbInv {c : Client} {s t : State} (hs : ArbInv s) (h : arbMicro c s = .next t) : ArbInv t := by
  cases arbMicro_portStep h with
  | rest => exact hs
  | accept w ha => exact ha.arbInv (s := s.setArb { s.arb with waiting := w }) { hs with }
  | grant => exact hs.grantStep
  | acquired => exact hs.acquired
  | begin hp ho => exact hs.openTxn ho (hs.closed_of_asking hp ho)

theorem kept_arbInv : Kept ArbInv where
  accept _ _ _ _ hs _ ha := (arbAccept_accepted ha).arbInv hs
  port _ _ _ hs hm := arbMicro_arbInv hs hm
  portWait _ _ hs := { hs with }
  link _ _ hs _ := { hs with }
  flash _ _ hs hm := flashMicro_keeps (fun _ _ hu => { hu with }) (fun _ _ _ hu ha => (arbAccept_accepted ha).arbInv hu)
    (fun _ _ hu hm => arbMicro_arbInv hu hm) hs hm
  flashAccept _ _ _ hs _ _ := { hs with }
  flashWait _ _ hs := { hs with }
  time _ _ hs := { hs with }
  env _ _ hs := { hs with }
  chip _ hs := { hs with }
  grant _ _ hs := hs.grantIf

/-- Settles O8: every operation of the arbiter keeps the invariants, nothing else writes its registers, and a reset gives them
their reset values. -/
theorem arbInvKept : Obligations.ArbInvKept := by
  unfold Obligations.ArbInvKept
  intro s t hs h
  exact kept_arbInv.step (fun u _ => .of_reset (s := resetBlock u) rfl) hs h

end Sys2Proof.Machine
end

/-! ## What the operations at the ARB ports do (40_arbiter.md) -/

section
namespace Sys2Proof.Machine

/-! ### Per-client pairs -/

theorem PerClient.set_of_get_eq {α : Type} {p : PerClient α} {c : Client} {v : α} (h : p.get c = v) : p.set c v = p := by
  rw [← h, PerClient.set_get_self]

theorem PerClient.get_set_of_other {α : Type} (p : PerClient α) (c : Client) (v : α) :
    (p.set c.other v).get c = p.get c := by
  cases c <;> rfl

/-! ### R105: a request at a ready port -/

theorem ArbReady.port_idle {c : Client} {s : State} (h : ArbReady c s) : s.arb.port.get c = .idle := h.1

theorem presentArb_ready {c : Client} {s : State} (h : ArbReady c s) (r : ArbReq) :
    presentArb c r s = andThen (arbAccept c r s) (arbRun c s.env.quantum) := by
  obtain ⟨hport, hwaiting, hflash⟩ := h
  rw [presentArb, if_pos (by simp [portFree_of_idle hport hflash, hwaiting])]

/-- An accepted request that has ended, or is held, is left there. -/
theorem presentArb_stop {c : Client} {r : ArbReq} {s t : State} (h : ArbReady c s) (ha : arbAccept c r s = .next t)
    (ht : (t.arb.port.get c == .idle || permitBlocked c t) = true) : presentArb c r s = .next t := by
  rw [presentArb_ready h, ha, andThen_next, arbRun_stop ht]

/-- An accepted request that leaves the port idle has ended. -/
theorem presentArb_ended {c : Client} {r : ArbReq} {s t : State} (h : ArbReady c s) (ha : arbAccept c r s = .next t)
    (ht : t.arb.port.get c = .idle) : presentArb c r s = .next t :=
  presentArb_stop h ha (by simp [ht])

theorem presentArb_refused {c : Client} {r : ArbReq} {e : Refusal} {s : State} (h : ArbReady c s)
    (ha : arbAccept c r s = .refused e) : presentArb c r s = .refused e := by
  rw [presentArb_ready h, ha, andThen_refused]

/-! ### R142, R143: waiting for the permit -/

theorem permitBlocked_of_other {c : Client} {s : State} (h : s.arb.permitOwner = some c.other) :
    permitBlocked c s = true := by
  simp [permitBlocked, h, Client.other_ne]

/-- A request for the permit that the other client holds is held. -/
theorem presentArb_held {c : Client} {r : ArbReq} {p : ArbPort} {s : State} (h : ArbReady c s)
    (ho : s.arb.permitOwner = some c.other) (ha : arbAccept c r s = .next (s.setArb (requestPermit c p s.arb))) :
    presentArb c r s = .next (s.setArb (requestPermit c p s.arb)) := by
  have hheld : permitBlocked c (s.setArb (requestPermit c p s.arb)) = true := permitBlocked_of_other ho
  exact presentArb_stop h ha (by rw [hheld, Bool.or_true])

theorem permitBlocked_of_free {c : Client} {s : State} (h : s.arb.permitOwner = none) : permitBlocked c s = false := by
  simp [permitBlocked, h]

theorem permitBlocked_of_owner {c : Client} {s : State} (h : s.arb.permitOwner = some c) :
    permitBlocked c s = false := by
  simp [permitBlocked, h]

/-- While the permit is free, a micro-step of an operation that waits for it is the arbiter's grant step. -/
theorem arbRun_grant {c : Client} {s : State} (hp : s.arb.port.get c ≠ .idle) (ho : s.arb.permitOwner = none)
    (n : Nat) : arbRun c (n + 1) s = arbRun c n (grantStep s) := by
  have hmicro : arbMicro c s = .next (grantStep s) := by
    unfold arbMicro
    split
    · exact absurd ‹_› hp
    all_goals exact if_neg (by simp [ho])
  rw [arbRun_succ (by simp [hp, permitBlocked_of_free ho]), hmicro, andThen_next]

/-- ACQUIRE returns once its client holds the permit. -/
theorem arbRun_acquired {c : Client} {s : State} (hp : s.arb.port.get c = .acquiring) (ho : s.arb.permitOwner = some c)
    (n : Nat) : arbRun c (n + 1) s = .next (s.setArb { s.arb with port := s.arb.port.set c .idle }) := by
  have hmicro : arbMicro c s = .next (s.setArb { s.arb with port := s.arb.port.set c .idle }) := by
    simp [arbMicro, hp, ho]
  rw [arbRun_succ (by simp [hp, permitBlocked_of_owner ho]), hmicro, andThen_next, arbRun_stop (by simp)]

/-- BEGIN_TRANSACTION opens the transaction once its client holds the permit. -/
theorem arbRun_beginning {c : Client} {s : State} (hp : s.arb.port.get c = .beginning)
    (ho : s.arb.permitOwner = some c) (n : Nat) : arbRun c (n + 1) s = .next (openTxn c s) := by
  have hmicro : arbMicro c s = .next (openTxn c s) := by simp [arbMicro, hp, ho]
  rw [arbRun_succ (by simp [hp, permitBlocked_of_owner ho]), hmicro, andThen_next,
    arbRun_stop (by simp [openTxn, openBus])]

/-- The arbiter when client `c` has asked for the free permit and got it, nobody else waiting; its operation stands at
`p`. -/
def grantedAlone (c : Client) (p : ArbPort) (a : Arbiter) : Arbiter :=
  { a with
    permitCreated := true
    permitOwner := some c
    arbWait := a.arbWait.set c false
    port := a.port.set c p
    passed := a.passed.set c none }

/-- A request for the free permit for which nobody else waits is granted by the next micro-step. -/
theorem arbRun_requestPermit_alone {c : Client} {p : ArbPort} {s : State} (hp : p ≠ .idle)
    (ho : s.arb.permitOwner = none) (hw : s.arb.arbWait.get c.other = false) (n : Nat) :
    arbRun c (n + 1) (s.setArb (requestPermit c p s.arb)) = arbRun c n (s.setArb (grantedAlone c p s.arb)) := by
  have hother : (requestPermit c p s.arb).arbWait.get c.other = false := by simpa [requestPermit] using hw
  have hfree : (s.setArb (requestPermit c p s.arb)).arb.permitOwner = none := ho
  rw [arbRun_grant (by simpa [requestPermit] using hp) hfree, grantStep_alone hfree (by simp [requestPermit]) hother,
    State.setArb_setArb, State.setArb_arb, grantTo_alone hother]
  simp [requestPermit, grantedAlone]

/-- The arbiter's own grant step where both clients wait: one of the two that it may choose. -/
theorem grantStep_contested {s : State} (ho : s.arb.permitOwner = none) (hw : ∀ d, s.arb.arbWait.get d = true) :
    ∃ d, mayChoose s.params d s.arb = true ∧
      grantStep s = (s.setArb (grantTo d s.arb)).setEnv { s.env with freeCtr := s.env.freeCtr + 1 } := by
  rcases grantStep_cases s with ⟨_, h | h⟩ | ⟨d, _, hd, e⟩
  · exact absurd ho h
  · exact absurd (h .disp) (by simp [hw .disp])
  · have hboth : (s.arb.arbWait.disp && s.arb.arbWait.mem) = true := by
      rw [Bool.and_eq_true]
      exact ⟨hw .disp, hw .mem⟩
    exact ⟨d, hd, by rw [e, if_pos hboth]⟩

/-- What `ACQUIRE(c)` of the free permit comes to when the other client waits too and client `d` is chosen. -/
theorem arbRun_acquire_contested {c d : Client} {e : Env} {s : State} (hp : s.arb.port.get c = .acquiring)
    (ho : s.arb.permitOwner = none) (hg : grantStep s = (s.setArb (grantTo d s.arb)).setEnv e) (n : Nat) :
    arbRun c (n + 2) s = .next ((s.setArb { grantTo d s.arb with
      port := s.arb.port.set c (if d = c then .idle else .acquiring) }).setEnv e) := by
  rw [arbRun_grant (by simp [hp]) ho, hg]
  rcases Client.eq_or_other c d with rfl | rfl
  · rw [if_pos rfl]
    exact arbRun_acquired (s := (s.setArb (grantTo d s.arb)).setEnv e) hp rfl n
  · rw [if_neg (Client.other_ne c), PerClient.set_of_get_eq hp,
      arbRun_stop (by rw [permitBlocked_of_other rfl, Bool.or_true])]
    rfl

/-- Settles O16: with nobody else waiting the grant is the client's and ACQUIRE returns; with the other client waiting too
the grant step chooses, and ACQUIRE returns or is held. -/
theorem acquireCompletes : Obligations.AcquireCompletes := by
  unfold Obligations.AcquireCompletes
  intro c s hr ho hq
  obtain ⟨n, hn⟩ := Nat.exists_eq_add_of_le' hq
  have hrun : exec (.acquire c) s = arbRun c (n + 2) (s.setArb (requestPermit c .acquiring s.arb)) := by
    change presentArb c .acquire s = _
    rw [presentArb_ready hr, hn, arbAccept, if_neg (by simp [ho]), andThen_next]
  rw [hrun]
  refine ⟨fun hw => ?_, fun hw => ?_⟩
  · rw [arbRun_requestPermit_alone (by decide) ho hw, arbRun_acquired (by simp [grantedAlone]) rfl]
    simp [grantedAlone]
  · have hboth (d : Client) : (requestPermit c .acquiring s.arb).arbWait.get d = true := by
      rcases Client.eq_or_other c d with rfl | rfl
      · simp [requestPermit]
      · simpa [requestPermit] using hw
    have hfree : (s.setArb (requestPermit c .acquiring s.arb)).arb.permitOwner = none := ho
    obtain ⟨d, hmay, hg⟩ := grantStep_contested hfree hboth
    refine ⟨d, _, fun hfair => (mayChoose_iff.1 hmay).2 hfair (hboth _), ?_, rfl⟩
    rw [arbRun_acquire_contested (by simp [requestPermit]) hfree hg, State.setArb_arb, grantTo_contested (hboth _)]
    simp [requestPermit, passOver]

/-- Settles O17: the request sets the wait bit, and an operation whose permit the other client holds is held. -/
theorem holderMakesOthersWait : Obligations.HolderMakesOthersWait := by
  unfold Obligations.HolderMakesOthersWait
  intro c s hr ho
  have hnot : s.arb.permitOwner ≠ some c := by simp [ho, Client.other_ne]
  exact ⟨presentArb_held (r := .acquire) hr ho (if_neg hnot), presentArb_held (r := .begin) hr ho (if_neg hnot)⟩

/-- Settles O18: RELEASE is accepted or refused at once. -/
theorem releaseCompletes : Obligations.ReleaseCompletes := by
  unfold Obligations.ReleaseCompletes
  intro c s hr
  exact ⟨fun ho ht => presentArb_ended (r := .release) hr (if_pos ⟨ho, ht⟩) hr.port_idle,
    fun hn => presentArb_refused (r := .release) hr (if_neg hn)⟩

/-! ### R145, R146, R148: transactions -/

/-- Settles O19: with the permit free the client asks for it, is granted it and opens the transaction; as its holder it opens
the transaction at once. -/
theorem beginCompletes : Obligations.BeginCompletes := by
  unfold Obligations.BeginCompletes
  intro d s hr ht
  have hport : s.arb.port.set d .idle = s.arb.port := PerClient.set_of_get_eq hr.port_idle
  refine ⟨fun ho hw hq => ?_, fun ho => ?_⟩
  · obtain ⟨n, hn⟩ := Nat.exists_eq_add_of_le' hq
    change presentArb d .begin s = _
    rw [presentArb_ready hr, hn, arbAccept, if_neg (by simp [ho]), andThen_next,
      arbRun_requestPermit_alone (by decide) ho hw, arbRun_beginning (by simp [grantedAlone]) rfl]
    simp [openTxn, openBus, grantedAlone, hport, State.setArb, State.setChip]
  · change presentArb d .begin s = _
    rw [presentArb_ended (r := .begin) (t := openTxn d s) hr ((if_pos ho).trans (if_pos ht)) (by simp [openTxn, openBus])]
    simp [openTxn, openBus, hport, State.setArb, State.setChip]

/-- Settles O20: END_TRANSACTION is accepted and has ended at once. -/
theorem endCompletes : Obligations.EndCompletes := by
  unfold Obligations.EndCompletes
  intro d s hr ht ho
  exact presentArb_ended (r := .finish) (t := closeTxn d s) hr (if_pos ⟨ht, ho⟩) hr.port_idle

/-- The byte that a transfer brings in is the last byte of its client. -/
theorem transfer_lastIn (c : Client) (o : Byte) (s : State) : (transfer c o s).arb.lastIn.get c = inByte c s :=
  PerClient.get_set_same _ _ _

/-- A transfer that the reference chip answers. -/
theorem transfer_answered {c : Client} {s : State} {b : Byte} (h : deviceAnswer c s = some b) (o : Byte) :
    (transfer c o s).arb.lastIn.get c = b ∧ (transfer c o s).env = s.env := by
  rw [transfer_lastIn]
  simp [inByte, transfer, h]

/-- A transfer that the environment answers. -/
theorem transfer_unanswered {c : Client} {s : State} (h : deviceAnswer c s = none) (o : Byte) :
    (transfer c o s).arb.lastIn.get c = envByte s.env ∧ (transfer c o s).env = envNext s.env := by
  rw [transfer_lastIn]
  simp [inByte, transfer, h]

theorem deviceAnswer_eq_none {c : Client} {s : State} (h : c = .disp ∨ chipAnswer s.params s.chip = none) :
    deviceAnswer c s = none := by
  cases c with
  | disp => rfl
  | mem => exact h.resolve_left (by decide)

/-- Settles O21: BUS_XFER is one `transfer`; who answers it decides the byte that comes in and what the environment gives. -/
theorem busXferCompletes : Obligations.BusXferCompletes := by
  unfold Obligations.BusXferCompletes
  intro c o s hr ho ht
  refine ⟨transfer c o s, presentArb_ended (r := .xfer o) hr (if_pos ⟨ho, ht⟩) hr.port_idle, ?_, rfl, ?_, fun hnone => ?_⟩
  · rw [transfer_lastIn]
    rfl
  · rintro b rfl hb
    exact transfer_answered (c := .mem) hb o
  · obtain ⟨hbyte, henv⟩ := transfer_unanswered (deviceAnswer_eq_none hnone) o
    refine ⟨fun b r hin => ?_, fun hin => ?_⟩
    · rw [hbyte, henv]
      simp [envByte, envNext, hin]
    · rw [henv]
      simp [envNext, hin]

/-! ### R151: breaches of the protocol -/

/-- Settles O22: each refusal is a branch of `arbAccept`; by the invariants an open transaction is the permit holder's. -/
theorem misuseRefused : Obligations.MisuseRefused := by
  unfold Obligations.MisuseRefused
  intro c s hinv hr
  refine ⟨fun ho => presentArb_refused (r := .acquire) hr (if_pos ho), fun ht => ?_, fun h => ?_, fun ht => ?_,
    fun o h => ?_⟩
  · obtain ⟨ho, _⟩ := hinv.opened c ht
    exact presentArb_refused (r := .begin) hr ((if_pos ho).trans (if_neg (by simp [ht])))
  · refine presentArb_refused (r := .release) hr (if_neg ?_)
    rintro ⟨ho, hn⟩
    rcases h with h | h
    · exact h ho
    · simp [hn] at h
  · exact presentArb_refused (r := .finish) hr (if_neg fun h => ht h.1)
  · exact presentArb_refused (r := .xfer o) hr (if_neg (not_and_or.2 h))

/-! ### R143, R8: the grant step -/

theorem runInput_grant (c : Client) (s : State) :
    runInput (.grant c) s = .next (s.setArb (grantIf s.params c s.arb)) := rfl

/-- Settles O23: what a grant writes is `grantTo`, whom it may choose is `mayChoose`, and the arbiter's own grant step is a
grant of a client it may choose (`grantStep_cases`); a client owed the permit leaves the other no chance. -/
theorem grantStepRule : Obligations.GrantStep := by
  unfold Obligations.GrantStep
  refine ⟨fun s c ho hw hfair => ?_, fun s c h => ?_, fun s ho hw => ?_, fun s h => ?_,
    fun s c hfair ho hall hother => ?_⟩
  · rw [runInput_grant, grantIf_of_may ho (mayChoose_iff.2 ⟨hw, hfair⟩)]
    exact ⟨fun hn => by rw [grantTo_alone hn], fun hn => by rw [grantTo_contested hn]⟩
  · rw [runInput_grant, grantIf_of_not, State.setArb_self]
    refine h.imp_right fun h => Bool.eq_false_iff.2 fun hmay => ?_
    obtain ⟨hw, hown⟩ := mayChoose_iff.1 hmay
    rcases h with h | ⟨hfair, hwo, h0, hne⟩
    · simp [hw] at h
    · exact hne (hown hfair hwo h0)
  · rcases grantStep_cases s with ⟨_, h | h⟩ | ⟨c, _, hmay, e⟩
    · exact absurd ho h
    · obtain ⟨c, hc⟩ := hw
      exact absurd hc (by simp [h c])
    · refine ⟨c, (mayChoose_iff.1 hmay).1, ?_, by rw [e]; rfl⟩
      rw [runInput_grant, grantIf_of_may ho hmay, e]
      rfl
  · rcases grantStep_cases s with ⟨e, _⟩ | ⟨c, ho, hmay, _⟩
    · exact e
    · rcases h with h | h
      · exact absurd ho h
      · exact absurd (mayChoose_iff.1 hmay).1 (by simp [h c])
  · obtain ⟨d, hmay, e⟩ := grantStep_contested ho hall
    rcases Client.eq_or_other c d with rfl | rfl
    · exact ⟨fun _ => by rw [e]; rfl, fun _ _ => .inl (by rw [e]; rfl)⟩
    · refine ⟨fun h0 => ?_, fun n hn => .inr ?_⟩
      · have hown := (mayChoose_iff.1 hmay).2 hfair (hall _) (by simpa using h0)
        simp [hother] at hown
      · rw [e]
        simp [grantTo_contested (hall _), passOver, PerClient.get_set_of_other, hn, hall]

/-! ### The frame -/

theorem arbRequest_of_space {i : Instr} {c : Client} (h : i.space = .arb c) :
    ∃ r, arbRequest i = some (c, r) ∧ (r = .finish → i = .endTransaction c) := by
  cases i <;> cases h
  case endTransaction => exact ⟨_, rfl, fun _ => rfl⟩
  all_goals exact ⟨_, rfl, nofun⟩

/-- Settles O24: an ARB operation is a request presented at its port, and `presentArb_frame` says what such a request leaves
alone. -/
theorem arbFrame : Obligations.ArbFrame := by
  unfold Obligations.ArbFrame
  intro i c s t hspace h
  obtain ⟨r, hreq, hend⟩ := arbRequest_of_space hspace
  rw [exec_arbRequest hreq] at h
  obtain ⟨⟨hlink, hflash, hparams, htime, hinbox, hquantum, hport, hwaiting, hcs, hlast, hchip⟩, hmem⟩ :=
    presentArb_frame h
  refine ⟨hlink, hflash, hparams, htime, hinbox, hquantum, hport, hwaiting, hcs, hlast, hchip, fun hne a => ?_⟩
  rw [hmem]
  rintro ⟨rfl, rfl⟩
  exact hne (hend rfl)

end Sys2Proof.Machine
end

/-! ## The sequencers keep to their transition tables (41_link_frame.md, 43_flash.md) -/

section
namespace Sys2Proof.Machine

/-! ### Answers that meet a property and are no fault

`Kept` speaks of the next states a step answers. That it answers no fault has to be followed through every part of it, each
from a state that meets the invariant; `Sound` says both at once. -/

/-- The answer is no fault, and the next state, where it is one, meets `P`. -/
def Sound {σ : Type} (P : σ → Prop) (x : Answer σ) : Prop := (∀ t, x = .next t → P t) ∧ ∀ e, x ≠ .fault e

theorem Sound.next {σ : Type} {P : σ → Prop} {s : σ} (h : P s) : Sound P (.next s) :=
  ⟨fun _ e => Host.Outcome.next.inj e ▸ h, nofun⟩

theorem Sound.refused {σ : Type} {P : σ → Prop} (r : Refusal) : Sound P (.refused r) := ⟨nofun, nofun⟩

theorem Sound.mono {σ : Type} {P Q : σ → Prop} {x : Answer σ} (hx : Sound P x) (h : ∀ s, P s → Q s) : Sound Q x :=
  ⟨fun t ht => h t (hx.1 t ht), hx.2⟩

theorem Sound.andThen {σ τ : Type} {P : σ → Prop} {Q : τ → Prop} {x : Answer σ} {f : σ → Answer τ} (hx : Sound P x)
    (hf : ∀ s, P s → Sound Q (f s)) : Sound Q (andThen x f) := by
  cases x with
  | next s => exact hf s (hx.1 s rfl)
  | fault e => exact absurd rfl (hx.2 e)
  | refused r => exact .refused r

theorem Sound.liftLink {s : State} {x : Answer Link} (hs : SeqInv s) (hx : Sound LinkSeqInv x) :
    Sound SeqInv (liftLink s x) :=
  hx.andThen fun _ hl => .next ⟨hl, hs.2⟩

theorem Sound.liftFlash {s : State} {x : Answer Flash} (hs : SeqInv s) (hx : Sound FlashSeqInv x) :
    Sound SeqInv (liftFlash s x) :=
  hx.andThen fun _ hf => .next ⟨hs.1, hf⟩

/-! ### R189: the rows of the link engine -/

theorem Link.micro_start {now : Time} {l : Link} {op : LinkOp} (hc : l.ctl = .start) (ho : linkOpOf l.lkOp = some op) :
    l.micro now = .next (l.send now op) := by
  simp [Link.micro, hc, ho]

theorem Link.micro_sent {now : Time} {l : Link} (hc : l.ctl = .exchange) (hs : l.linkState = .sent) :
    l.micro now = .next { l with linkState := .awaitStart } := by
  simp [Link.micro, hc, hs]

theorem Link.micro_ok {now : Time} {l : Link} {op : LinkOp} (hc : l.ctl = .exchange) (hs : l.linkState = .ok)
    (ho : linkOpOf l.lkOp = some op) : l.micro now = .next (l.onOk now op) := by
  simp [Link.micro, hc, hs, ho]

/-- The terminal state of a failed exchange, with the status that its operation then reports (R302 to R304). -/
def LinkState.FailsWith (x : LinkState) (st : BitVec 3) : Prop :=
  (x = .timeout ∧ st = stTimeout) ∨ (x = .lenMismatch ∧ st = stLenMismatch) ∨ (x = .crcMismatch ∧ st = stCrcMismatch)

theorem Link.micro_failed {now : Time} {l : Link} {op : LinkOp} {st : BitVec 3} (hc : l.ctl = .exchange)
    (hs : l.linkState.FailsWith st) (ho : linkOpOf l.lkOp = some op) : l.micro now = .next (l.fail now op st) := by
  rcases hs with ⟨hs, rfl⟩ | ⟨hs, rfl⟩ | ⟨hs, rfl⟩ <;> simp [Link.micro, hc, hs, ho]

theorem Link.accept_ne_fault (r : LinkReq) (l : Link) (e : Fault) : Link.accept r l ≠ .fault e := by
  unfold Link.accept
  split
  · nofun
  · iterate 3 (split; · nofun)
    nofun

theorem LinkSeqInv.knownOp {l : Link} (h : LinkSeqInv l) (hc : l.ctl ≠ .idle) : ∃ op, linkOpOf l.lkOp = some op :=
  Option.ne_none_iff_exists'.1 (h.known hc)

/-- A busy engine has a row for its position. -/
theorem LinkSeqInv.micro_ne_fault {l : Link} (h : LinkSeqInv l) (now : Time) (e : Fault) : l.micro now ≠ .fault e := by
  cases hc : l.ctl with
  | idle =>
    unfold Link.micro
    rw [hc]
    dsimp only
    split
    · nofun
    · exact Link.accept_ne_fault _ _ e
  | start =>
    obtain ⟨op, ho⟩ := h.knownOp (by simp [hc])
    rw [Link.micro_start hc ho]
    nofun
  | pause since => simp [Link.micro, hc]
  | exchange =>
    obtain ⟨op, ho⟩ := h.knownOp (by simp [hc])
    cases hs : l.linkState with
    | idle => exact absurd hs (h.moving.1 hc)
    | sent => rw [Link.micro_sent hc hs]; nofun
    | awaitStart | awaitLen | awaitData | awaitCrc | drain => rw [Link.micro_receive hc (by rw [hs]; rfl)]; nofun
    | ok => rw [Link.micro_ok hc hs ho]; nofun
    | timeout => rw [Link.micro_failed hc (.inl ⟨hs, rfl⟩) ho]; nofun
    | lenMismatch => rw [Link.micro_failed hc (.inr (.inl ⟨hs, rfl⟩)) ho]; nofun
    | crcMismatch => rw [Link.micro_failed hc (.inr (.inr ⟨hs, rfl⟩)) ho]; nofun

/-- The exchange is over: link_state is back at IDLE, and nothing was received or sent (R189). -/
structure Link.ExchangeOver (l m : Link) : Prop where
  state : m.linkState = .idle
  ctl : m.ctl ≠ .exchange
  op : m.lkOp = l.lkOp
  buf : m.rxBuf = l.rxBuf
  rx : m.serRx = l.serRx
  tx : m.serTx = l.serTx

theorem Link.fail_over (now : Time) (op : LinkOp) (st : BitVec 3) (l : Link) : l.ExchangeOver (l.fail now op st) := by
  cases op
  case init =>
    rcases Link.fail_init now st l with e | e <;> rw [e] <;> exact ⟨rfl, nofun, rfl, rfl, rfl, rfl⟩
  all_goals exact ⟨rfl, nofun, rfl, rfl, rfl, rfl⟩

theorem Link.chunkDone_over (op : LinkOp) (out data : List Byte) (l : Link) :
    l.ExchangeOver (l.chunkDone op out data) := by
  unfold Link.chunkDone
  dsimp only
  split <;> exact ⟨rfl, nofun, rfl, rfl, rfl, rfl⟩

theorem Link.onOk_over (now : Time) (op : LinkOp) (l : Link) : l.ExchangeOver (l.onOk now op) := by
  cases op
  case init =>
    rcases Link.onOk_init now l with e | e <;> rw [e]
    · exact ⟨rfl, nofun, rfl, rfl, rfl, rfl⟩
    · exact Link.fail_over now _ _ l
  case ping =>
    dsimp only [Link.onOk]
    split
    · exact ⟨rfl, nofun, rfl, rfl, rfl, rfl⟩
    · exact Link.fail_over now _ _ l
  case i2cWrite =>
    dsimp only [Link.onOk]
    split
    · exact Link.chunkDone_over _ _ _ l
    · exact Link.fail_over now _ _ l
  case i2cRead | spiTransfer => exact Link.chunkDone_over _ _ _ l
  all_goals exact ⟨rfl, nofun, rfl, rfl, rfl, rfl⟩

/-- What taking a byte leaves alone: the window, the rest of ser_rx and the size of rx_buf (R173, R30). -/
theorem Link.takeByte_window (l : Link) (b : Byte) :
    (l.takeByte b).t0 = l.t0 ∧ (l.takeByte b).serRx = l.serRx ∧ (l.takeByte b).rxBuf.length = l.rxBuf.length := by
  unfold Link.takeByte
  split
  case h_1 | h_5 => split <;> exact ⟨rfl, rfl, rfl⟩
  case h_2 =>
    split
    · exact ⟨rfl, rfl, rfl⟩
    · split <;> exact ⟨rfl, rfl, rfl⟩
  case h_3 => exact ⟨rfl, rfl, List.length_set⟩
  all_goals exact ⟨rfl, rfl, rfl⟩

/-- A byte taken never ends the exchange by itself (R189). -/
theorem Link.takeByte_idle_iff (l : Link) (b : Byte) : (l.takeByte b).linkState = .idle ↔ l.linkState = .idle := by
  unfold Link.takeByte
  split
  case h_1 hs | h_5 hs => split <;> simp [hs]
  case h_2 hs =>
    split
    · simp [hs]
    · split <;> simp [hs]
  case h_3 hs | h_4 hs => dsimp only; split <;> simp [hs]
  all_goals rfl

theorem LinkSeqInv.takeByte {l : Link} (h : LinkSeqInv l) (b : Byte) : LinkSeqInv (l.takeByte b) := by
  have hctl := Link.takeByte_ctl l b
  obtain ⟨_, _, _, _, hop⟩ := Link.takeByte_kept l b
  obtain ⟨_, _, hbuf⟩ := Link.takeByte_window l b
  refine ⟨hbuf.trans h.buf, fun hc => hop ▸ h.known (hctl ▸ hc), ?_⟩
  rw [hctl, h.moving, ne_eq, ne_eq, Link.takeByte_idle_iff]

theorem LinkSeqInv.receive {l : Link} (h : LinkSeqInv l) (hc : l.ctl = .exchange) (now : Time) :
    LinkSeqInv (l.receive now) := by
  unfold Link.receive
  split
  · refine ⟨h.buf, h.known, iff_of_true hc ?_⟩
    dsimp only [Link.takeTimeout]
    split <;> nofun
  · exact h
  · rename_i b rest _
    exact LinkSeqInv.takeByte (l := { l with serRx := rest }) { h with } b

theorem LinkSeqInv.exchangeOver {l m : Link} (h : LinkSeqInv l) (hc : l.ctl = .exchange) (hm : l.ExchangeOver m) :
    LinkSeqInv m where
  buf := hm.buf ▸ h.buf
  known _ := hm.op ▸ h.known (by simp [hc])
  moving := iff_of_false hm.ctl (not_not.2 hm.state)

theorem LinkSeqInv.accept {r : LinkReq} {l m : Link} (h : LinkSeqInv l) (hc : l.ctl = .idle)
    (ha : Link.accept r l = .next m) : LinkSeqInv m := by
  obtain ⟨op, ho, rfl⟩ := Link.accept_eq_next ha
  exact ⟨h.buf, fun _ => by simp [ho], iff_of_false nofun (h.moving.not.1 (by simp [hc]))⟩

/-- A micro-step of the engine keeps to the table, and there is one. -/
theorem Link.micro_sound {l : Link} (h : LinkSeqInv l) (now : Time) : Sound LinkSeqInv (l.micro now) := by
  refine ⟨fun m hm => ?_, h.micro_ne_fault now⟩
  cases Link.micro_step hm with
  | rest | pauseOn => exact h
  | accept r rest hc _ ha => exact LinkSeqInv.accept (l := { l with waiting := rest }) { h with } hc ha
  | send op hc ho => exact ⟨h.buf, fun _ => h.known (by simp [hc]), iff_of_true rfl nofun⟩
  | pauseOver since hc =>
    exact ⟨h.buf, fun _ => h.known (by simp [hc]), iff_of_false nofun (h.moving.not.1 (by simp [hc]))⟩
  | sent hc => exact ⟨h.buf, h.known, iff_of_true hc nofun⟩
  | receive hc => exact h.receive hc now
  | ok op hc => exact h.exchangeOver hc (Link.onOk_over now op l)
  | fail op st hc => exact h.exchangeOver hc (Link.fail_over now op st l)

theorem Link.accept_sound {r : LinkReq} {l : Link} (h : LinkSeqInv l) (hc : l.ctl = .idle) :
    Sound LinkSeqInv (Link.accept r l) :=
  ⟨fun _ => h.accept hc, Link.accept_ne_fault r l⟩

theorem Link.run_sound {l : Link} (h : LinkSeqInv l) (now : Time) (n : Nat) : Sound LinkSeqInv (Link.run now n l) := by
  induction n generalizing l with
  | zero => exact .next h
  | succ n ih =>
    rw [Link.run]
    split
    · exact .next h
    · exact (Link.micro_sound h now).andThen fun _ hm => ih hm

theorem Link.present_sound {l : Link} (h : LinkSeqInv l) (now : Time) (q : Nat) (r : LinkReq) :
    Sound LinkSeqInv (Link.present now q r l) := by
  unfold Link.present
  split
  · rename_i hidle
    exact (Link.accept_sound h hidle.1).andThen fun _ hm => Link.run_sound hm now q
  · exact .next { h with }

/-! ### R272: the rows of the flash controller -/

theorem FlashSeqInv.finish (data : List Byte) (f : Flash) : FlashSeqInv (f.finish data) :=
  ⟨by simp [Flash.finish], by simp [Flash.finish], fun _ _ hd => absurd rfl hd⟩

/-- A phase that fits an operation is one in which a transaction is under way. -/
theorem phaseFits_working {op : FlashOp} {ph : FlPhase} (h : phaseFits op ph = true) : ph ≠ .idle ∧ ph ≠ .done := by
  cases ph
  case idle | done => cases h
  all_goals exact ⟨nofun, nofun⟩

theorem FlashSeqInv.txn {f : Flash} {op : FlashOp} {ph : FlPhase} (ho : flashOpOf f.flOp = some op)
    (hfits : phaseFits op ph = true) (out : List Byte) (nIn : Nat) : FlashSeqInv (f.txn ph out nIn) :=
  ⟨iff_of_false (phaseFits_working hfits).1 nofun, iff_of_false (phaseFits_working hfits).2 nofun,
    fun _ _ _ => ⟨op, ho, hfits⟩⟩

theorem Flash.afterWait_sound {f : Flash} {op : FlashOp} (ho : flashOpOf f.flOp = some op)
    (hfits : phaseFits op .wait = true) : Sound FlashSeqInv (f.afterWait op) := by
  cases op
  case waitForReady => exact .next (.finish [] f)
  case read | write | eraseSector | eraseChip => exact .next (.txn ho rfl _ _)
  case isBusy | identify | wakeUp | powerDown => cases hfits

theorem Flash.afterWren_sound {f : Flash} {op : FlashOp} (ho : flashOpOf f.flOp = some op)
    (hfits : phaseFits op .wren = true) : Sound FlashSeqInv (f.afterWren op) := by
  cases op
  case write => exact .next (.txn (op := .write) (by exact ho) rfl _ _)
  case eraseSector | eraseChip => exact .next (.txn ho rfl _ _)
  case waitForReady | read | isBusy | identify | wakeUp | powerDown => cases hfits

theorem FlashSeqInv.advance {f : Flash} (ho : flashOpOf f.flOp = some .write) : FlashSeqInv f.advance := by
  unfold Flash.advance
  dsimp only
  split
  · exact .txn (op := .write) (by exact ho) rfl _ _
  · exact .finish _ _

theorem Flash.afterCmd_sound {f : Flash} {op : FlashOp} (ho : flashOpOf f.flOp = some op)
    (hfits : phaseFits op .cmd = true) (p : Params) (got : List Byte) : Sound FlashSeqInv (f.afterCmd p op got) := by
  cases op
  case write => exact .next (.advance ho)
  case waitForReady => cases hfits
  all_goals exact .next (.finish _ _)

/-- The end of a transaction has a row, and the row leads to a position of the table. -/
theorem Flash.txnDone_sound {f : Flash} (h : FlashSeqInv f) (hc : f.ctl = .transfer) (p : Params) :
    Sound FlashSeqInv (f.txnDone p) := by
  unfold Flash.txnDone
  split
  · exact .next (.finish _ _)
  · rename_i hj
    obtain ⟨op, ho, hfits⟩ := h.fits hj (by simp [hc]) (by simp [hc])
    rw [ho]
    dsimp only
    split
    case h_1 hp =>
      split
      · exact .next (.txn (by exact ho) (hp ▸ hfits) _ _)
      · exact Flash.afterWait_sound (f := { f with flStatus := _ }) ho (hp ▸ hfits)
    case h_2 hp => exact Flash.afterWren_sound ho (hp ▸ hfits)
    case h_3 hp => exact Flash.afterCmd_sound ho (hp ▸ hfits) p _
    case h_4 hp | h_5 hp => rw [hp] at hfits; cases hfits

theorem Flash.start_seqInv {op : FlashOp} {code : Byte} (ho : flashOpOf code = some op) (addr : Addr) (len : Len)
    (data : List Byte) (f : Flash) : FlashSeqInv (f.start op code addr len data) := by
  unfold Flash.start
  cases op <;> dsimp only
  case write =>
    split
    · exact .finish _ _
    · exact .txn (op := .write) ho rfl _ _
  all_goals exact .txn (by exact ho) rfl _ _

theorem Flash.accept_sound (p : Params) (r : FlashReq) (f : Flash) : Sound FlashSeqInv (Flash.accept p r f) := by
  cases r with
  | bare out nIn isStatus =>
    exact .next ⟨iff_of_false nofun nofun, iff_of_false nofun nofun, nofun⟩
  | host code addr len data =>
    unfold Flash.accept
    dsimp only
    split
    · exact .refused _
    · split
      · exact .refused _
      · exact .next (Flash.start_seqInv ‹_› addr len data f)

/-- Between the ends of an operation the controller may move on from one part of a transaction to the next. -/
theorem FlashSeqInv.goto {f : Flash} {c : FlashCtl} (h : FlashSeqInv f) (hf : f.ctl ≠ .idle ∧ f.ctl ≠ .done)
    (hc : c ≠ .idle ∧ c ≠ .done) : FlashSeqInv { f with ctl := c } :=
  ⟨iff_of_false (h.rest.not.2 hf.1) hc.1, iff_of_false (h.ending.not.2 hf.2) hc.2, fun hj _ _ => h.fits hj hf.1 hf.2⟩

/-! ### The whole machine -/

theorem ArbSide.seqInv {c : Client} {s t : State} (h : ArbSide c s t) (hs : SeqInv s) : SeqInv t := by
  obtain ⟨hlink, hflash, _⟩ := h
  exact ⟨hlink ▸ hs.1, hflash ▸ hs.2⟩

theorem arbAccept_sound (c : Client) (r : ArbReq) (s : State) : Sound (ArbSide c s) (arbAccept c r s) := by
  refine ⟨fun _ h => (arbAccept_frame h).1, fun e => ?_⟩
  cases r <;> dsimp only [arbAccept]
  case begin =>
    split
    · split <;> nofun
    · nofun
  all_goals split <;> nofun

theorem arbMicro_sound {s : State} (hs : SeqInv s) (c : Client) : Sound SeqInv (arbMicro c s) := by
  unfold arbMicro
  split
  · split
    · exact .next hs
    · split
      · exact (arbAccept_sound c _ _).mono fun _ ht => ht.seqInv hs
      · exact .next hs
  · split
    · exact .next hs
    · exact .next ((grantStep_frame c s).1.seqInv hs)
  · split
    · exact .next hs
    · exact .next ((grantStep_frame c s).1.seqInv hs)

theorem arbRun_sound {s : State} (hs : SeqInv s) (c : Client) (n : Nat) : Sound SeqInv (arbRun c n s) := by
  induction n generalizing s with
  | zero => exact .next hs
  | succ n ih =>
    rw [arbRun]
    split
    · exact .next hs
    · exact (arbMicro_sound hs c).andThen fun _ ht => ih ht

theorem presentArb_sound {s : State} (hs : SeqInv s) (c : Client) (r : ArbReq) : Sound SeqInv (presentArb c r s) := by
  unfold presentArb
  split
  · exact (arbAccept_sound c r s).andThen fun _ ht => arbRun_sound (ht.seqInv hs) c _
  · exact .next hs

/-- After a request at MEM's port the controller writes registers of its own only. -/
theorem arbAccept_setFlash_sound {s : State} {r : ArbReq} {f : State → Flash} (hs : SeqInv s)
    (hf : ∀ t : State, t.flash = s.flash → FlashSeqInv (f t)) :
    Sound SeqInv (andThen (arbAccept .mem r s) fun t => .next (t.setFlash (f t))) :=
  (arbAccept_sound .mem r s).andThen fun t ht =>
    have ⟨hlink, hflash, _⟩ := ht
    .next ⟨hlink ▸ hs.1, hf t hflash⟩

theorem flashTransfer_sound {s : State} (hs : SeqInv s) (hc : s.flash.ctl = .transfer) :
    Sound SeqInv (flashTransfer s) := by
  unfold flashTransfer
  split
  · exact arbAccept_setFlash_sound hs fun t ht => { ht ▸ hs.2 with }
  · split
    · exact arbAccept_setFlash_sound hs fun t ht => { ht ▸ hs.2 with }
    · refine (arbAccept_sound .mem .finish s).andThen fun t ht => ?_
      have ⟨_, hflash, _⟩ := ht
      exact .liftFlash (ht.seqInv hs) (Flash.txnDone_sound (hflash ▸ hs.2) (hflash ▸ hc) _)

/-- A micro-step of the controller keeps to the table, and there is one. -/
theorem flashMicro_sound {s : State} (hs : SeqInv s) : Sound SeqInv (flashMicro s) := by
  unfold flashMicro
  split
  · split
    · exact .next hs
    · split
      · exact .liftFlash hs (Flash.accept_sound _ _ _)
      · exact .next hs
  case h_2 hc =>
    exact arbAccept_setFlash_sound hs fun t ht => ht ▸ hs.2.goto (by simp [hc]) ⟨nofun, nofun⟩
  case h_3 hc =>
    split
    · exact .next ⟨hs.1, hs.2.goto (by simp [hc]) ⟨nofun, nofun⟩⟩
    · exact arbMicro_sound hs .mem
  case h_4 hc => exact flashTransfer_sound hs hc
  case h_5 => exact .next ⟨hs.1, iff_of_true rfl rfl, iff_of_false nofun nofun, fun _ hi => absurd rfl hi⟩

theorem flashRun_sound {s : State} (hs : SeqInv s) (n : Nat) : Sound SeqInv (flashRun n s) := by
  induction n generalizing s with
  | zero => exact .next hs
  | succ n ih =>
    rw [flashRun]
    split
    · exact .next hs
    · exact (flashMicro_sound hs).andThen fun _ ht => ih ht

theorem presentFlash_sound {s : State} (hs : SeqInv s) (r : FlashReq) : Sound SeqInv (presentFlash r s) := by
  unfold presentFlash
  split
  · exact (Sound.liftFlash hs (Flash.accept_sound _ r _)).andThen fun _ ht => flashRun_sound ht _
  · exact .next ⟨hs.1, { hs.2 with }⟩

theorem arrive_sound {s : State} (hs : SeqInv s) (bytes : List Byte) :
    Sound SeqInv (liftLink s (Link.arrive s.tNow s.env.quantum bytes s.link)) :=
  .liftLink hs (Link.run_sound (l := { s.link with serRx := s.link.serRx ++ bytes }) { hs.1 with } _ _)

theorem exec_sound {s : State} (hs : SeqInv s) (i : Instr) : Sound SeqInv (exec i s) := by
  rcases exec_forms i s with ⟨c, r, e⟩ | ⟨r, e⟩ | ⟨p, e⟩ | ⟨r, e⟩ | e <;> rw [e]
  · exact presentArb_sound hs c r
  · exact .liftLink hs (Link.present_sound hs.1 _ _ r)
  · exact arrive_sound hs _
  · exact presentFlash_sound hs r
  · exact .refused _

theorem runRequest_sound {s : State} (hs : SeqInv s) (sp : Space) (bytes : List Byte) :
    Sound SeqInv (runRequest sp bytes s) := by
  unfold runRequest
  split
  · exact exec_sound hs _
  · unfold runUndecoded
    split
    · exact arrive_sound hs bytes
    all_goals exact .refused _

theorem runAgent_sound {s : State} (hs : SeqInv s) (a : Agent) (n : Nat) : Sound SeqInv (runAgent a n s) := by
  cases a <;> dsimp only [runAgent] <;> split
  · exact arbMicro_sound hs _
  · exact arbRun_sound hs _ n
  · exact .liftLink hs (Link.micro_sound hs.1 _)
  · exact .liftLink hs (Link.run_sound hs.1 _ n)
  · exact flashMicro_sound hs
  · exact flashRun_sound hs n

theorem runInput_sound {s : State} (hs : SeqInv s) (x : Input) : Sound SeqInv (runInput x s) := by
  cases x with
  | request sp bytes => exact runRequest_sound hs sp bytes
  | run a n => exact runAgent_sound hs a n
  | rx b => exact .next ⟨{ hs.1 with }, hs.2⟩
  | setTimeout v =>
    dsimp only [runInput, writeTimeout]
    split
    · exact .next ⟨{ hs.1 with }, hs.2⟩
    · exact .refused _
  | reset => exact .next (.of_reset (s := resetBlock s) rfl rfl)
  | tick | grant | quantum | chipReady => exact .next hs

theorem background_sound {s : State} (hs : SeqInv s) : Sound SeqInv (background s) :=
  (Sound.liftLink hs (Link.micro_sound hs.1 _)).andThen fun _ ht =>
    (flashMicro_sound ht).andThen fun _ hu => (arbMicro_sound hu .disp).andThen fun _ hv => arbMicro_sound hv .mem

/-- Settles O11: every micro-step of either sequencer from a position of its table has a row and leads to such a position
(`Link.micro_sound`, `flashMicro_sound`), the ARB ports leave both sequencers alone, and a step is made of these. -/
theorem seqInvKept : Obligations.SeqInvKept := by
  unfold Obligations.SeqInvKept
  intro s hs
  change Sound SeqInv (step s)
  unfold step stepInput
  split
  · exact background_sound hs
  · rename_i x rest _
    exact runInput_sound (s := s.setEnv { s.env with inbox := rest }) hs x

end Sys2Proof.Machine
end

/-! ## Frames and exchanges of the link engine (41_link_frame.md) -/

section
namespace Sys2Proof.Machine

/-! ### R174: DecodeRequest -/

/-- A sequence that begins with START and holds the whole frame is decided by its checksum. -/
theorem decodeRequest_whole {cmd n : Byte} {rest : List Byte} (h : n.toNat + 1 ≤ rest.length) :
    decodeRequest (Config.start :: cmd :: n :: rest) =
      if rest.getD n.toNat 0#8 ≠ cmd ^^^ n ^^^ fold (rest.take n.toNat) then .error .badChecksum
      else .ok (cmd, rest.take n.toNat) := by
  rw [decodeRequest, if_neg (not_not.2 rfl), if_neg (Nat.not_lt.2 h)]

/-- A sequence without START at its head, or too short for the frame it announces, is no request. -/
theorem decodeRequest_error {bytes : List Byte}
    (h : bytes.length < 4 ∨ bytes.headD 0#8 ≠ Config.start ∨ bytes.length < (bytes.getD 2 0#8).toNat + 4) :
    ∃ e, decodeRequest bytes = .error e := by
  unfold decodeRequest
  split
  case h_1 | h_2 | h_3 => exact ⟨_, rfl⟩
  case h_4 b cmd n rest =>
    by_cases hstart : b = Config.start
    · have hshort : rest.length < n.toNat + 1 := by
        simp [hstart] at h
        omega
      exact ⟨_, by rw [if_neg (not_not.2 hstart), if_pos hshort]⟩
    · exact ⟨_, if_pos hstart⟩

/-- Settles O4: `decodeRequest` tests START, the length and the checksum in turn; P1 is the round trip of the frame. -/
theorem requestDecoder : Obligations.RequestDecoder := by
  unfold Obligations.RequestDecoder
  exact ⟨fun _ _ _ h => decodeRequest_whole h, fun _ h => decodeRequest_error h,
    fun c p hp => decodeRequest_encodeRequest c p (by omega)⟩

/-! ### R173: SerRx -/

theorem Link.expired_eq_false_iff {now : Time} {l : Link} :
    l.expired now = false ↔ (now - l.t0).toNat < l.timeoutMs.toNat := by
  simp [Link.expired]

theorem Link.serRxNow_waiting {now : Time} {l : Link} (he : l.expired now = false) (hb : l.serRx = []) :
    l.serRxNow now = .waiting := by
  simp [Link.serRxNow, he, hb]

theorem Link.serRxNow_eq_byte {now : Time} {l : Link} {b : Byte} {rest : List Byte} (h : l.serRxNow now = .byte b rest) :
    l.expired now = false ∧ l.serRx = b :: rest := by
  unfold Link.serRxNow at h
  split at h
  · cases h
  · split at h <;> cases h
    exact ⟨Bool.eq_false_iff.2 ‹_›, ‹_›⟩

/-- A receive step leaves ser_rx alone, or it is inside the window and takes the head. -/
theorem Link.receive_serRx (now : Time) (l : Link) :
    (l.receive now).serRx = l.serRx ∨ (l.expired now = false ∧ ∃ b, l.serRx = b :: (l.receive now).serRx) := by
  unfold Link.receive
  split
  case h_1 | h_2 => exact .inl rfl
  case h_3 b rest hrx =>
    obtain ⟨he, hb⟩ := Link.serRxNow_eq_byte hrx
    obtain ⟨_, hrest, _⟩ := Link.takeByte_window ({ l with serRx := rest } : Link) b
    exact .inr ⟨he, b, hrest ▸ hb⟩

/-- Every receive step of an exchange has the same window. -/
theorem Link.receive_window (now : Time) (l : Link) :
    (l.receive now).t0 = l.t0 ∧ (l.receive now).timeoutMs = l.timeoutMs := by
  unfold Link.receive
  split
  case h_1 | h_2 => exact ⟨rfl, rfl⟩
  case h_3 b rest _ =>
    obtain ⟨ht0, _, _⟩ := Link.takeByte_window ({ l with serRx := rest } : Link) b
    obtain ⟨htimeout, _⟩ := Link.takeByte_kept ({ l with serRx := rest } : Link) b
    exact ⟨ht0, htimeout⟩

/-- A micro-step that changes ser_rx is a receive step. -/
theorem Link.micro_serRx {now : Time} {l m : Link} (h : l.micro now = .next m) (hne : m.serRx ≠ l.serRx) :
    l.ctl = .exchange ∧ l.linkState.receives = true ∧ m = l.receive now := by
  cases Link.micro_step h with
  | receive hc hs => exact ⟨hc, hs, rfl⟩
  | accept r rest _ _ ha =>
    obtain ⟨_, _, rfl⟩ := Link.accept_eq_next ha
    exact absurd rfl hne
  | ok op => exact absurd (Link.onOk_over now op l).rx hne
  | fail op st => exact absurd (Link.fail_over now op st l).rx hne
  | rest | send | pauseOn | pauseOver | sent => exact absurd rfl hne

/-- Settles O25: `serRxNow` tests the deadline first; only a receive step takes a byte, and it keeps the window. -/
theorem serRxRule : Obligations.SerRxRule := by
  unfold Obligations.SerRxRule
  refine ⟨fun now l => ⟨fun h => Link.serRxNow_expired (decide_eq_true h), fun b rest h hb => ?_, fun h hb => ?_⟩,
    fun now l m h => ⟨fun hne => ?_, fun hc hs => ?_⟩⟩
  · exact Link.serRxNow_byte (Link.expired_eq_false_iff.2 h) hb
  · exact Link.serRxNow_waiting (Link.expired_eq_false_iff.2 h) hb
  · obtain ⟨hc, hs, rfl⟩ := Link.micro_serRx h hne
    obtain ⟨he, hb⟩ := (Link.receive_serRx now l).resolve_left hne
    exact ⟨hc, hs, Link.expired_eq_false_iff.1 he, hb⟩
  · rw [Link.micro_receive hc hs] at h
    cases h
    exact Link.receive_window now l

/-! ### R176, R189: the transition table -/

/-- Settles O26: the two rows are `Link.micro_start`, where `Link.send` writes the frame of R101, and `Link.micro_sent`. -/
theorem sendStep : Obligations.SendStep := by
  unfold Obligations.SendStep
  exact fun now l op ho => ⟨fun hc => Link.micro_start hc ho, Link.micro_sent⟩

/-- The rows whose condition is "rx byte". -/
theorem Link.micro_byte {now : Time} {l : Link} {b : Byte} {rest : List Byte} (hc : l.ctl = .exchange)
    (hs : l.linkState.receives = true) (hrx : l.serRxNow now = .byte b rest) :
    l.micro now = .next (({ l with serRx := rest } : Link).takeByte b) := by
  rw [Link.micro_receive hc hs, Link.receive, hrx]

/-- The rows whose condition is "rx TIMEOUT". -/
theorem Link.micro_timeout {now : Time} {l : Link} (hc : l.ctl = .exchange) (hs : l.linkState.receives = true)
    (hrx : l.serRxNow now = .timeout) : l.micro now = .next l.takeTimeout := by
  rw [Link.micro_receive hc hs, Link.receive, hrx]

theorem Link.micro_waiting {now : Time} {l : Link} (hc : l.ctl = .exchange) (hs : l.linkState.receives = true)
    (hrx : l.serRxNow now = .waiting) : l.micro now = .next l := by
  rw [Link.micro_receive hc hs, Link.receive, hrx]

/-- The four terminal states lead to IDLE without taking or sending a byte. -/
theorem Link.micro_terminal {now : Time} {l : Link} {op : LinkOp} (hc : l.ctl = .exchange)
    (hs : l.linkState = .ok ∨ ∃ st, l.linkState.FailsWith st) (ho : linkOpOf l.lkOp = some op) :
    ∃ m, l.micro now = .next m ∧ l.ExchangeOver m := by
  rcases hs with hs | ⟨st, hs⟩
  · exact ⟨_, Link.micro_ok hc hs ho, Link.onOk_over now op l⟩
  · exact ⟨_, Link.micro_failed hc hs ho, Link.fail_over now op st l⟩

/-- Outside an exchange link_state does not change, but by the send step. -/
theorem Link.micro_outside {now : Time} {l m : Link} (hc : l.ctl = .idle ∨ ∃ since, l.ctl = .pause since)
    (h : l.micro now = .next m) : m.linkState = l.linkState := by
  have outside : l.ctl ≠ .start ∧ l.ctl ≠ .exchange := by
    rcases hc with hc | ⟨since, hc⟩ <;> simp [hc]
  cases Link.micro_step h with
  | accept r rest _ _ ha =>
    obtain ⟨_, _, rfl⟩ := Link.accept_eq_next ha
    rfl
  | rest | pauseOn | pauseOver => rfl
  | send _ hc => exact absurd hc outside.1
  | sent hc | receive hc | ok _ hc | fail _ _ hc => exact absurd hc outside.2

/-- Settles O27: each row is the equation of the micro-step for its condition, with `takeByte` or `takeTimeout` evaluated at
its state. -/
theorem linkTransitions : Obligations.LinkTransitions := by
  unfold Obligations.LinkTransitions
  intro now l hknown
  obtain ⟨op, ho⟩ := Option.ne_none_iff_exists'.1 hknown
  refine ⟨fun hc => ⟨_, Link.micro_start hc ho, rfl, rfl, rfl⟩, fun hc => ⟨Link.micro_sent hc, fun b rest hrx => ?_,
    fun hrx => ?_, fun hrx hs => Link.micro_waiting hc hs hrx, fun hs => ?_⟩, fun hc m h => Link.micro_outside hc h⟩
  · have row {x : LinkState} (hs : l.linkState = x) (hx : x.receives = true) :=
      Link.micro_byte hc (hs ▸ hx) hrx
    refine ⟨fun hs hb => ?_, fun hs hb => ?_, fun hs hb h0 => ?_, fun hs hb h0 => ?_, fun hs hb => ?_, fun hs hlt => ?_,
      fun hs heq => ?_, fun hs hb => ?_, fun hs hb => ?_, fun hs hlt => ?_, fun hs heq => ?_⟩ <;> rw [row hs rfl]
    · simp [Link.takeByte, hs, Config.start, hb]
    · simp [Link.takeByte, hs, Config.start, hb]
    · have hne : b ≠ 0#8 := fun e => by simp [e] at h0
      subst hb
      simp [Link.takeByte, hs, hne]
    · subst hb
      simp [Link.takeByte, hs, h0]
    · simp [Link.takeByte, hs, hb]
    · simp [Link.takeByte, hs, hlt]
    · simp [Link.takeByte, hs, heq]
    · simp [Link.takeByte, hs, responseCrc, hb]
    · simp [Link.takeByte, hs, responseCrc, hb]
    · simp [Link.takeByte, hs, Nat.lt_of_succ_lt_succ hlt]
    · simp [Link.takeByte, hs, Nat.succ.inj heq]
  · refine ⟨fun hs => ?_, fun hs => ?_⟩
    · have ⟨hreceives, hdrain⟩ : l.linkState.receives = true ∧ l.linkState ≠ .drain := by
        rcases hs with h | h | h | h <;> simp [h, LinkState.receives]
      rw [Link.micro_timeout hc hreceives hrx, Link.takeTimeout, if_neg hdrain]
    · rw [Link.micro_timeout hc (by rw [hs]; rfl) hrx, Link.takeTimeout, if_pos hs]
  · have hterm : l.linkState = .ok ∨ ∃ st, l.linkState.FailsWith st := by
      rcases hs with h | h | h | h
      · exact .inl h
      · exact .inr ⟨_, .inl ⟨h, rfl⟩⟩
      · exact .inr ⟨_, .inr (.inl ⟨h, rfl⟩)⟩
      · exact .inr ⟨_, .inr (.inr ⟨h, rfl⟩)⟩
    obtain ⟨m, hm, hover⟩ := Link.micro_terminal hc hterm ho
    exact ⟨m, hm, hover.state, hover.rx, hover.tx⟩

/-! ### R181, R182: responses that fail -/

/-- `AWAIT_START → AWAIT_LEN → DRAIN → LEN_MISMATCH`: exactly LEN + 1 bytes are taken after a wrong LEN. -/
theorem Link.run_wrongLength {now : Time} {len : Byte} {body rest : List Byte} {l : Link} (hc : l.ctl = .exchange)
    (hs : l.linkState = .awaitStart) (he : l.expired now = false) (hb : l.serRx = [Config.start, len] ++ body ++ rest)
    (hlen : len ≠ l.expLen) (hbody : body.length = len.toNat + 1) (n : Nat) :
    Link.run now (n + (body.length + 2)) l = Link.run now n
      { l with serRx := rest, rxLen := len, rxCnt := len.setWidth 9, linkState := .lenMismatch } := by
  have hstart : ({ l with serRx := len :: (body ++ rest) } : Link).takeByte Config.start =
      { l with serRx := len :: (body ++ rest), linkState := .awaitLen } := by simp [Link.takeByte, hs]
  have hdrain : ({ l with serRx := body ++ rest, linkState := .awaitLen } : Link).takeByte len =
      { l with serRx := body ++ rest, rxLen := len, rxCnt := 0#9, linkState := .drain } := by
    simp [Link.takeByte, hlen]
  rw [← Nat.add_assoc, Link.run_take hc (by rw [hs]; rfl) he (by simpa using hb), hstart,
    Link.run_take (l := { l with serRx := len :: (body ++ rest), linkState := .awaitLen }) hc rfl he rfl, hdrain]
  exact Link.run_drain (l := { l with serRx := body ++ rest, rxLen := len, rxCnt := 0#9, linkState := .drain }) body hc rfl
    he rfl (List.ne_nil_of_length_eq_add_one hbody) (by simp [hbody]) n

/-- `AWAIT_START → … → AWAIT_CRC → CRC_MISMATCH`: a response of the expected length is taken whole, with its wrong
checksum. -/
theorem Link.run_wrongChecksum {now : Time} {crc : Byte} {body rest : List Byte} {l : Link} (hc : l.ctl = .exchange)
    (hs : l.linkState = .awaitStart) (he : l.expired now = false)
    (hb : l.serRx = [Config.start, BitVec.ofNat 8 body.length] ++ body ++ [crc] ++ rest)
    (hexp : l.expLen = BitVec.ofNat 8 body.length) (h1 : 1 ≤ body.length) (h32 : body.length ≤ 32)
    (hbuf : l.rxBuf.length = 32) (hcrc : crc ≠ responseCrc (BitVec.ofNat 8 body.length) body) (n : Nat) :
    Link.run now (n + (body.length + 3)) l = Link.run now n
      { l with
        serRx := rest
        rxLen := BitVec.ofNat 8 body.length
        rxCnt := BitVec.ofNat 9 body.length
        rxBuf := body ++ l.rxBuf.drop body.length
        rxCrc := crc
        linkState := .crcMismatch } := by
  have hlen : (BitVec.ofNat 8 body.length).toNat = body.length := toNat_length (by omega)
  have hne : BitVec.ofNat 8 body.length ≠ 0#8 := fun h => by
    rw [h] at hlen
    simp at hlen
    omega
  rw [show n + (body.length + 3) = n + 1 + body.length + 2 by omega]
  refine (Link.run_header (r := body ++ (crc :: rest)) hc hs he (by simpa using hb) hexp.symm hne _).trans ?_
  refine (Link.run_data body (by exact hc) (by rfl) (by exact he) (by rfl) (List.ne_nil_of_length_pos h1) (by simp [hlen])
    (by simpa [hlen] using h32) (by exact hbuf) _).trans ?_
  refine (Link.run_crc (by exact hc) (by rfl) (by exact he) (by rfl) _).trans ?_
  simp [hlen, hcrc]

/-- The engine after the request frame `cmd`, `payload` has been sent at time `now`: it waits for the START of a response of
`n` bytes (R176, R177). -/
def Link.awaiting (now : Time) (cmd : Byte) (payload : List Byte) (n : Nat) (l : Link) : Link :=
  { l.latched cmd payload with
    linkState := .awaitStart
    ctl := .exchange
    txCmd := cmd
    txPayload := payload
    expLen := BitVec.ofNat 8 n
    serTx := l.serTx ++ encodeRequest cmd payload
    t0 := now }

/-- The operation `op` is one exchange with a response of fixed length: it sends `cmd` with `payload`, expects `n` bytes, and
reports a failure of the exchange with its status and no data (R106, R212 to R217, R221, R223, R301). -/
structure LinkOp.OneExchange (op : LinkOp) (cmd : Byte) (payload : List Byte) (n : Nat) : Prop where
  code : linkOpOf cmd = some op
  notInit : op ≠ .init
  notBulk : op.isBulk = false
  early : cmd = 0x99#8 → op.beforeHandshake = true
  sends : ∀ now (l : Link), (({ l.latched cmd payload with ctl := .start } : Link).send now op).goto .awaitStart =
    l.awaiting now cmd payload n
  size : 1 ≤ n ∧ n ≤ 2
  failed : ∀ now st (l : Link), l.fail now op st = l.raise st [] 0

/-- The operations of `scalarRow` are requests of one exchange presented at the LINK port. -/
theorem scalarRow_request {i : Instr} {cmd : Byte} {payload : List Byte} {n : Nat}
    (h : scalarRow i = some (cmd, payload, n)) : ∃ (op : LinkOp) (wire : Bool),
      op.OneExchange cmd payload n ∧ ∀ s, exec i s = presentLink (scalarRequest wire cmd payload) s := by
  cases i <;> cases h
  all_goals
    exact ⟨_, _, ⟨rfl, nofun, rfl, by decide, fun _ _ => rfl, by decide, fun _ _ _ => rfl⟩, fun _ => rfl⟩

/-- The registers of an operation of one exchange that has failed, whatever the receive steps left in theirs. -/
theorem ScalarFailed.of_awaiting (now : Time) (cmd : Byte) (payload : List Byte) (n : Nat) (st : BitVec 3)
    (rest : List Byte) (len : Byte) (cnt : BitVec 9) (buf : List Byte) (crc : Byte) (x : LinkState) (l : Link) :
    ScalarFailed cmd payload st rest l (({ l.awaiting now cmd payload n with
      serRx := rest, rxLen := len, rxCnt := cnt, rxBuf := buf, rxCrc := crc, linkState := x } : Link).raise st [] 0) :=
  ⟨⟨rfl, rfl⟩, ⟨rfl, rfl⟩, rfl, rfl, rfl, rfl, rfl, rfl, rfl, rfl, rfl, rfl, rfl⟩

/-- An operation of one exchange whose receive steps fail the exchange, in `k` steps after the frame was sent, ends with
that failure. -/
theorem exec_scalar_failed {s : State} {i : Instr} {cmd : Byte} {payload : List Byte} {n k : Nat} {st : BitVec 3} {m : Link}
    (hrow : scalarRow i = some (cmd, payload, n)) (hidle : LinkIdle s) (hready : s.link.linkReady = true ∨ cmd = 0x99#8)
    (hq : k + 3 ≤ s.env.quantum)
    (hrun : ∀ q, Link.run s.tNow (q + k) (s.link.awaiting s.tNow cmd payload n) = Link.run s.tNow q m)
    (hc : m.ctl = .exchange) (hop : m.lkOp = cmd) (hs : m.linkState.FailsWith st) :
    exec i s = .next (s.setLink (m.raise st [] 0)) := by
  obtain ⟨op, wire, h, hexec⟩ := scalarRow_request hrow
  obtain ⟨q, hquantum⟩ : ∃ q, s.env.quantum = q + 1 + k + 2 := ⟨s.env.quantum - (k + 3), by omega⟩
  have haccept := Link.accept_scalar (args := payload) (wire := wire) h.code h.notBulk h.notInit
    (hready.symm.imp_left h.early)
  rw [hexec, scalarRequest, presentLink_idle hidle haccept, hquantum, Link.run_send rfl h.code, h.sends, hrun,
    Link.run_failed hc hs (hop ▸ h.code), h.failed, Link.run_stop (.inl rfl)]
  rfl

/-- Settles O37: the frame is sent, the wrong LEN leads to DRAIN, which takes LEN + 1 bytes (`Link.run_wrongLength`). -/
theorem lengthMismatchDrains : Obligations.LengthMismatchDrains := by
  unfold Obligations.LengthMismatchDrains
  intro s i cmd payload n len body rest hrow hidle hseq hready ht hlen hbody hrx hq
  obtain ⟨op, wire, h, _⟩ := scalarRow_request hrow
  obtain ⟨_, hn⟩ := h.size
  have hbyte := len.isLt
  have hwrong : len ≠ BitVec.ofNat 8 n := fun e => hlen (by rw [e, BitVec.toNat_ofNat]; omega)
  have hrun := Link.run_wrongLength (l := s.link.awaiting s.tNow cmd payload n) rfl rfl
    (Link.not_expired_at_send rfl ht) hrx hwrong hbody
  exact ⟨_, exec_scalar_failed hrow hidle hready (by omega) hrun rfl rfl (.inr (.inl ⟨rfl, rfl⟩)), .of_awaiting ..⟩

/-- Settles O38: the frame is sent, the response is taken whole and fails its checksum (`Link.run_wrongChecksum`). -/
theorem checksumMismatchFails : Obligations.ChecksumMismatchFails := by
  unfold Obligations.ChecksumMismatchFails
  intro s i cmd payload n body rest crc hrow hidle hseq hready ht hbody hcrc hrx hq
  obtain ⟨op, wire, h, _⟩ := scalarRow_request hrow
  obtain ⟨h1, h2⟩ := h.size
  subst hbody
  have hrun := Link.run_wrongChecksum (l := s.link.awaiting s.tNow cmd payload body.length) rfl rfl
    (Link.not_expired_at_send rfl ht) hrx rfl h1 (by omega) hseq.buf hcrc
  exact ⟨_, exec_scalar_failed hrow hidle hready (by omega) hrun rfl rfl (.inr (.inr ⟨rfl, rfl⟩)), .of_awaiting ..⟩

end Sys2Proof.Machine
end

/-! ## The commands of one exchange, PING and INIT (42_link_commands.md) -/

section
namespace Sys2Proof.Machine

/-! ### R213 to R217, R221, R223: the commands of one exchange -/

/-- The two bytes of an analog-read response, most significant first (R110 (d)). -/
theorem analogValue_pair (d0 d1 : Byte) : analogValue [d0, d1] = BitVec.ofNat 16 (d0.toNat * 256 + d1.toNat) := by
  simp [analogValue, fromBe]

/-- Settles O28: each of the seven commands is a scalar request presented at the LINK port; the value of ANALOG_READ is read
off the result. -/
theorem scalarCommandsComplete : Obligations.ScalarCommandsComplete := by
  unfold Obligations.ScalarCommandsComplete
  intro s noise resp rest hidle hseq hready ha hq
  have complete {op : LinkOp} {code : Byte} (hop : op.IsScalar) (ho : linkOpOf code = some op)
      (hlen : resp.length = if op = .analogRead then 2 else 1) (args : List Byte) :=
    presentLink_scalar hop ho hidle hseq hready ha hq hlen args false
  have analogRead (hlen : resp.length = 2) (pin : Byte) :=
    complete (op := .analogRead) (code := 0x05#8) ⟨nofun, nofun, rfl⟩ rfl hlen [pin]
  refine ⟨fun hlen => ⟨fun pin mode => ?_, fun pin val => ?_, fun pin => ?_, fun pin val => ?_, fun mode clkdiv => ?_,
    fun pin level => ?_⟩, analogRead, fun d0 d1 pin hresp => ⟨_, analogRead (by simp [hresp]) pin, ?_⟩⟩
  · exact complete (op := .pinMode) ⟨nofun, nofun, rfl⟩ rfl hlen _
  · exact complete (op := .digitalWrite) ⟨nofun, nofun, rfl⟩ rfl hlen _
  · exact complete (op := .digitalRead) ⟨nofun, nofun, rfl⟩ rfl hlen _
  · exact complete (op := .analogWrite) ⟨nofun, nofun, rfl⟩ rfl hlen _
  · exact complete (op := .spiInit) ⟨nofun, nofun, rfl⟩ rfl hlen _
  · exact complete (op := .installSleepMonitor) ⟨nofun, nofun, rfl⟩ rfl hlen _
  · rw [← analogValue_pair, ← hresp]
    rfl

/-! ### R212: PING -/

theorem Link.onOk_ping {now : Time} {l : Link} {b : Byte} (h : l.received = [b]) :
    l.onOk now .ping = if b = 0xAA#8 then l.succeed [b] else l.raise 4#3 [] 0 := by
  simp only [Link.onOk, h]
  rfl

/-- PING, as a host operation or as a frame, answered with one byte in a good frame. -/
theorem presentLink_ping {s : State} {noise rest : List Byte} {b : Byte} (hidle : LinkIdle s) (hseq : LinkSeqInv s.link)
    (ha : Answered noise [b] rest s.link) (hq : noise.length + 7 ≤ s.env.quantum) (wire : Bool) :
    presentLink (scalarRequest wire 0x99#8 []) s = .next (s.setLink
      (if b = 0xAA#8 then ((s.link.latched 0x99#8 []).exchanged s.tNow 0x99#8 [] [b] rest).succeed [b]
      else ((s.link.latched 0x99#8 []).exchanged s.tNow 0x99#8 [] [b] rest).raise 4#3 [] 0)) := by
  have hok := Link.onOk_ping (now := s.tNow)
    (Link.received_exchanged s.tNow 0x99#8 [] [b] rest (s.link.latched 0x99#8 []) (by simp))
  rw [← hok]
  refine presentLink_exchange (op := .ping) rfl rfl nofun (.inl rfl) hidle hseq ha hq (by simp) (by simp) rfl ?_
  exact (congrArg Link.ctl hok).trans (by split <;> rfl)

/-- Settles O30: both forms are the same request, whose test of its byte is `Link.onOk_ping`. -/
theorem pingTestsItsByte : Obligations.PingTestsItsByte := by
  unfold Obligations.PingTestsItsByte
  intro s noise rest b hidle hseq ha hq
  have run (wire : Bool) := presentLink_ping hidle hseq ha hq wire
  refine ⟨fun hb => ?_, fun hb => ?_⟩
  · simp only [if_pos hb] at run
    exact ⟨run false, run true⟩
  · simp only [if_neg hb] at run
    exact ⟨run false, run true⟩

/-! ### R211: INIT -/

theorem Link.onOk_init_ack {now : Time} {l : Link} (h : l.received.headD 0#8 = 0xAA#8) :
    l.onOk now .init = ({ l with linkReady := true } : Link).succeed [] := if_pos h

/-- INIT accepted, its first attempt to make (R211). -/
def Link.initStarted (l : Link) : Link := { l.latched 0x00#8 [] with pingTry := 1#2, ctl := .start }

theorem Link.accept_init (l : Link) : Link.accept (scalarRequest false 0x00#8 []) l = .next l.initStarted := rfl

/-- Settles O31: INIT is accepted with its first attempt to make, and the exchange of that attempt is answered by 0xAA. -/
theorem initCompletes : Obligations.InitCompletes := by
  unfold Obligations.InitCompletes
  intro s noise rest hidle hseq ha hq
  obtain ⟨q, hquantum⟩ : ∃ q, s.env.quantum = q + 1 + (noise.length + 1 + 5) :=
    ⟨s.env.quantum - (noise.length + 7), by omega⟩
  have hexchange : Link.run s.tNow (q + 1 + (noise.length + 1 + 5)) s.link.initStarted =
      Link.run s.tNow (q + 1) (s.link.initStarted.exchanged s.tNow 0x99#8 [] [0xAA#8] rest) :=
    Link.run_exchange (l := s.link.initStarted) (op := .init) rfl rfl ha rfl (by simp) (by simp) hseq.buf (q + 1)
  have hack : (s.link.initStarted.exchanged s.tNow 0x99#8 [] [0xAA#8] rest).received.headD 0#8 = 0xAA#8 := by
    rw [Link.received_exchanged _ _ _ _ _ _ (by simp)]
    rfl
  change presentLink (scalarRequest false 0x00#8 []) s = _
  rw [presentLink_idle hidle (Link.accept_init _), hquantum, hexchange, Link.run_ok (op := .init) rfl rfl rfl,
    Link.onOk_init_ack hack, Link.run_stop (.inl rfl)]
  rfl

/-- The ping frame (R211, R101). -/
theorem encodeRequest_ping : encodeRequest 0x99#8 [] = [0xAA#8, 0x99#8, 0x00#8, 0x99#8] := by decide

/-- Whatever failed an attempt of INIT, the answer is that of `Link.attemptFailed` (R211, R314). -/
theorem Link.micro_attemptFailed {now : Time} {l : Link} (ho : linkOpOf l.lkOp = some .init) (hc : l.ctl = .exchange)
    (h : (l.linkState = .ok ∧ l.received.headD 0#8 ≠ 0xAA#8) ∨ ∃ st, l.linkState.FailsWith st) :
    l.micro now = .next (l.attemptFailed now) := by
  rcases h with ⟨hs, hb⟩ | ⟨st, hs⟩
  · rw [Link.micro_ok hc hs ho]
    exact congrArg Host.Outcome.next (if_neg hb)
  · exact Link.micro_failed hc hs ho

/-- The handshake pause lasts 50 ms (R211). -/
theorem Link.micro_pause {now since : Time} {l : Link} (hc : l.ctl = .pause since) :
    l.micro now = .next
      (if 50 ≤ (now - since).toNat then { l with pingTry := l.pingTry + 1#2, ctl := .start } else l) := by
  rw [Link.micro, hc]
  rfl

/-- Settles O32: the send step of an attempt, its good end, its failure (`Link.micro_attemptFailed`) and the pause. -/
theorem initAttempts : Obligations.InitAttempts := by
  unfold Obligations.InitAttempts
  intro now l h0
  have ho : linkOpOf l.lkOp = some .init := h0 ▸ rfl
  refine ⟨fun hc => ⟨_, Link.micro_start hc ho, congrArg (l.serTx ++ ·) encodeRequest_ping, rfl, rfl, rfl⟩,
    fun hc hs hack => ?_, fun hc hfail => ?_, fun since hc => ⟨fun hlt => ?_, fun hle => ?_⟩⟩
  · rw [Link.micro_ok hc hs ho, Link.onOk_init_ack hack]
  · have hcases : (l.linkState = .ok ∧ l.received.headD 0#8 ≠ 0xAA#8) ∨ ∃ st, l.linkState.FailsWith st := by
      rcases hfail with h | h | h | h
      · exact .inl h
      · exact .inr ⟨_, .inl ⟨h, rfl⟩⟩
      · exact .inr ⟨_, .inr (.inl ⟨h, rfl⟩)⟩
      · exact .inr ⟨_, .inr (.inr ⟨h, rfl⟩)⟩
    rw [Link.micro_attemptFailed ho hc hcases]
    exact ⟨fun hlt => congrArg Host.Outcome.next (if_pos hlt),
      fun heq => congrArg Host.Outcome.next (if_neg (by rw [heq]; decide))⟩
  · rw [Link.micro_pause hc, if_neg (Nat.not_le.2 hlt)]
  · rw [Link.micro_pause hc, if_pos hle]

end Sys2Proof.Machine
end

/-! ## The bulk commands (42_link_commands.md) -/

section
namespace Sys2Proof.Machine

/-! ### R218: the chunks of a bulk transfer -/

/-- The number of chunks of a transfer, counted on the data left. -/
theorem chunkCount_drop {w n : Nat} (hw : 0 < w) (hn : 0 < n) : (n + w - 1) / w = (n - w + w - 1) / w + 1 := by
  rcases Nat.le_total w n with h | h
  · rw [show n + w - 1 = n - w + w - 1 + w by omega, Nat.add_div_right _ hw]
  · rw [show n + w - 1 = n - 1 + w by omega, Nat.add_div_right _ hw, Nat.div_eq_of_lt (by omega),
      Nat.div_eq_of_lt (by omega)]

/-- The chunks one by one: number `i` begins at `w * i`. -/
theorem chunks_eq_map_range {w : Nat} (hw : 0 < w) {fuel : Nat} {d : List Byte} (hf : d.length ≤ fuel) :
    chunks w fuel d = (List.range ((d.length + w - 1) / w)).map fun i => (d.drop (w * i)).take w := by
  induction fuel generalizing d with
  | zero =>
    rw [List.length_eq_zero_iff.1 (Nat.le_zero.1 hf)]
    simp [chunks, Nat.div_eq_of_lt, hw]
  | succ fuel ih =>
    by_cases hd : d = []
    · simp [chunks, hd, Nat.div_eq_of_lt, hw]
    · have hpos : 0 < d.length := List.length_pos_iff.2 hd
      have hrest : (d.drop w).length ≤ fuel := by rw [List.length_drop]; omega
      rw [chunks, if_neg hd, ih hrest, List.length_drop, chunkCount_drop hw hpos, List.range_succ_eq_map]
      simp [List.map_map, Function.comp_def, Nat.mul_succ, Nat.add_comm]

theorem chunks_flatten {w : Nat} (hw : 0 < w) {fuel : Nat} {d : List Byte} (hf : d.length ≤ fuel) :
    (chunks w fuel d).flatten = d := by
  induction fuel generalizing d with
  | zero =>
    rw [List.length_eq_zero_iff.1 (Nat.le_zero.1 hf)]
    rfl
  | succ fuel ih =>
    by_cases hd : d = []
    · simp [chunks, hd]
    · have hpos : 0 < d.length := List.length_pos_iff.2 hd
      rw [chunks, if_neg hd, List.flatten_cons, ih (by rw [List.length_drop]; omega), List.take_append_drop]

/-- Data that fits one frame is one chunk. -/
theorem chunks_of_le {w : Nat} {d : List Byte} (h1 : 1 ≤ d.length) (hle : d.length ≤ w) : chunks w d.length d = [d] := by
  obtain ⟨n, hn⟩ := Nat.exists_eq_add_of_le' h1
  have hd : d ≠ [] := List.ne_nil_of_length_pos h1
  rw [hn, chunks, if_neg hd, List.take_of_length_le hle, List.drop_of_length_le hle]
  cases n <;> simp [chunks]

/-! ### A bulk operation between its exchanges -/

/-- The length of a good response to a chunk of `k` bytes: a status byte for I2C_WRITE, else the bytes themselves
(R219, R220, R222). -/
def LinkOp.respLen (op : LinkOp) (k : Nat) : Nat := if op = .i2cWrite then 1 else k

/-- The size of the chunk at offset `off` of a request (R218). -/
def LinkReq.chunkSize (op : LinkOp) (off : Nat) (r : LinkReq) : Nat := min (r.n - off) op.width

/-- The frame of the chunk at offset `off` of a bulk request (R106, R219, R220, R222). -/
def LinkReq.frame (op : LinkOp) (off : Nat) (r : LinkReq) : List Byte :=
  encodeRequest r.op <|
    if op = .i2cRead then r.args ++ [BitVec.ofNat 8 (r.chunkSize op off)]
    else if op = .i2cWrite then r.args ++ (r.data.drop off).take op.width
    else (r.data.drop off).take op.width

/-- A request of the bulk operation `op` that the machine gives a meaning once the handshake is done (R114 (d), R218). -/
structure LinkReq.IsBulk (op : LinkOp) (r : LinkReq) : Prop where
  code : linkOpOf r.op = some op
  bulk : op.isBulk = true
  asked : (op = .i2cWrite ∧ r.wire = true) ∨ 1 ≤ r.n
  size : r.n ≤ 65535
  whole : op ≠ .i2cRead → r.data.length = r.n

theorem LinkOp.isBulk_cases {op : LinkOp} (h : op.isBulk = true) :
    op = .i2cWrite ∨ op = .i2cRead ∨ op = .spiTransfer := by
  cases op
  case i2cWrite => exact .inl rfl
  case i2cRead => exact .inr (.inl rfl)
  case spiTransfer => exact .inr (.inr rfl)
  all_goals exact absurd h (by decide)

/-- The engine `m` carries out the bulk request `r`, which the engine `l` accepted: `off` bytes are done, `frames` were sent,
`out` stands in the host's buffer and `rx` in ser_rx. Where the present exchange stands is not said. -/
structure Link.BulkRegs (r : LinkReq) (off : Nat) (frames : List (List Byte)) (out rx : List Byte) (l m : Link) : Prop where
  op : m.lkOp = r.op
  args : m.lkArgs = r.args
  data : m.hostData = r.data
  count : m.bulkN = BitVec.ofNat 16 r.n
  done : m.bulkOff = BitVec.ofNat 16 off
  sent : m.serTx = l.serTx ++ frames.flatten
  left : m.serRx = rx
  gathered : m.out = out
  buf : m.rxBuf.length = 32
  kept : m.linkReady = l.linkReady ∧ m.timeoutMs = l.timeoutMs ∧ m.waiting = l.waiting ∧ m.pingTry = l.pingTry
  free : m.freeCtr = l.freeCtr

theorem Link.accept_bulk {op : LinkOp} {r : LinkReq} {l : Link} (h : r.IsBulk op) (hready : l.linkReady = true)
    (hbuf : l.rxBuf.length = 32) : ∃ m, Link.accept r l = .next m ∧ m.ctl = .start ∧ l.BulkRegs r 0 [] [] l.serRx m := by
  have hempty : (op.isBulk && !r.wire && r.n == 0) = false := by
    rcases h.asked with ⟨_, hw⟩ | hn
    · simp [hw]
    · simp [Nat.ne_of_gt hn]
  have hsize : ¬ 65535 < r.n := Nat.not_lt.2 h.size
  have hinit : op ≠ .init := fun e => absurd h.bulk (by rw [e]; decide)
  rw [Link.accept, h.code]
  refine ⟨_, by simp only [hready, hempty, if_neg hsize, Bool.not_true, Bool.and_false]; rfl, rfl, ?_⟩
  exact ⟨rfl, rfl, rfl, if_pos h.bulk, if_pos h.bulk, by simp, rfl, rfl, hbuf, ⟨hready.symm, rfl, rfl, if_neg hinit⟩, rfl⟩

section
variable {op : LinkOp} {r : LinkReq} {off : Nat} {frames : List (List Byte)} {out rx : List Byte} {l m : Link}

theorem Link.BulkRegs.counters (h : l.BulkRegs r off frames out rx m) (hr : r.IsBulk op) (hoff : off ≤ r.n) :
    m.bulkN.toNat = r.n ∧ m.bulkOff.toNat = off := by
  have := hr.size
  rw [h.count, h.done, BitVec.toNat_ofNat, BitVec.toNat_ofNat]
  omega

theorem Link.BulkRegs.chunkLen_eq (h : l.BulkRegs r off frames out rx m) (hr : r.IsBulk op) (hoff : off ≤ r.n) :
    m.chunkLen op = r.chunkSize op off := by
  obtain ⟨hn, hdone⟩ := h.counters hr hoff
  rw [Link.chunkLen, hn, hdone, LinkReq.chunkSize]

/-- The bytes of the present chunk (R218). -/
theorem Link.BulkRegs.chunk_eq (h : l.BulkRegs r off frames out rx m) (hr : r.IsBulk op) (hoff : off ≤ r.n)
    (hop : op ≠ .i2cRead) : m.chunk op = (r.data.drop off).take op.width := by
  obtain ⟨_, hdone⟩ := h.counters hr hoff
  rw [Link.chunk, h.chunkLen_eq hr hoff, hdone, h.data, LinkReq.chunkSize, List.take_eq_take_iff, List.length_drop,
    hr.whole hop]
  omega

/-- What the engine sends for the present chunk, and how long a response it expects (R106, R219, R220, R222). -/
theorem Link.BulkRegs.frame_eq (h : l.BulkRegs r off frames out rx m) (hr : r.IsBulk op) (hoff : off ≤ r.n) :
    encodeRequest (m.cmdOf op) (m.payloadOf op) = r.frame op off ∧
      m.expOf op = BitVec.ofNat 8 (op.respLen (r.chunkSize op off)) := by
  have hlen := h.chunkLen_eq hr hoff
  have hchunk := h.chunk_eq hr hoff
  rcases LinkOp.isBulk_cases hr.bulk with rfl | rfl | rfl
  · simp [Link.cmdOf, Link.payloadOf, Link.expOf, LinkReq.frame, LinkOp.respLen, h.op, h.args, hchunk]
  · simp [Link.cmdOf, Link.payloadOf, Link.expOf, LinkReq.frame, LinkOp.respLen, h.op, h.args, hlen]
  · simp [Link.cmdOf, Link.payloadOf, Link.expOf, LinkReq.frame, LinkOp.respLen, h.op, hlen, hchunk]

end

/-! ### Runs that need a known number of steps -/

/-- `k` micro-steps lead from `l` to `m`, whatever comes after them. -/
def Link.Reaches (now : Time) (k : Nat) (l m : Link) : Prop := ∀ q, Link.run now (q + k) l = Link.run now q m

theorem Link.Reaches.trans {now : Time} {i k : Nat} {l m n : Link} (h1 : l.Reaches now i m) (h2 : m.Reaches now k n) :
    l.Reaches now (i + k) n := fun q => by
  rw [Nat.add_comm i k, ← Nat.add_assoc, h1, h2]

/-- A request whose operation has ended within the quantum is completed at once. -/
theorem Link.Reaches.present {s : State} {r : LinkReq} {k : Nat} {l m : Link} (h : l.Reaches s.tNow k m)
    (hidle : LinkIdle s) (ha : Link.accept r s.link = .next l) (hc : m.ctl = .idle) (hq : k ≤ s.env.quantum) :
    presentLink r s = .next (s.setLink m) := by
  rw [presentLink_idle hidle ha, ← Nat.sub_add_cancel hq, h, Link.run_stop (.inl hc)]
  rfl

/-! ### One chunk -/

/-- `resp` is a good response to a chunk of `k` bytes: of the length expected, and for I2C_WRITE the status byte 1
(R219, R220, R222). -/
structure LinkOp.Accepts (op : LinkOp) (k : Nat) (resp : List Byte) : Prop where
  length : resp.length = op.respLen k
  ack : op = .i2cWrite → resp = [0x01#8]

/-- The host's buffer after a good response `resp` (R218). -/
def LinkOp.gather (op : LinkOp) (out resp : List Byte) : List Byte := if op = .i2cWrite then out else out ++ resp

/-- The data of the result when `resp` answers the last chunk (R219, R220, R222). -/
def LinkOp.answer (op : LinkOp) (out resp : List Byte) : List Byte := if op = .i2cWrite then resp else out ++ resp

theorem Link.onOk_bulk {op : LinkOp} {k : Nat} {resp : List Byte} {l : Link} (now : Time) (hb : op.isBulk = true)
    (ha : op.Accepts k resp) (hr : l.received = resp) :
    l.onOk now op = l.chunkDone op (op.gather l.out resp) (op.answer l.out resp) := by
  rcases LinkOp.isBulk_cases hb with rfl | rfl | rfl
  · simp [Link.onOk, hr, ha.ack rfl, LinkOp.gather, LinkOp.answer]
  · simp [Link.onOk, hr, LinkOp.gather, LinkOp.answer]
  · simp [Link.onOk, hr, LinkOp.gather, LinkOp.answer]

theorem linkOpOf_eq_i2cWrite {c : Byte} : linkOpOf c = some .i2cWrite ↔ c = 0x10#8 := by
  refine ⟨fun h => ?_, fun h => h ▸ rfl⟩
  unfold linkOpOf at h
  split at h <;> simp_all

/-- The failure of a chunk ends the operation with what the chunks before it brought (R218; log 20). -/
theorem Link.fail_bulk {op : LinkOp} {l : Link} (now : Time) (st : BitVec 3) (ho : linkOpOf l.lkOp = some op)
    (hb : op.isBulk = true) : l.fail now op st = l.bulkFailed st := by
  have hcode := linkOpOf_eq_i2cWrite (c := l.lkOp)
  rw [ho, Option.some.injEq] at hcode
  rcases LinkOp.isBulk_cases hb with rfl | rfl | rfl
  · rw [Link.bulkFailed, if_pos (hcode.1 rfl)]
    rfl
  · rw [Link.bulkFailed, if_neg (hcode.not.1 nofun)]
    rfl
  · rw [Link.bulkFailed, if_neg (hcode.not.1 nofun)]
    rfl

section
variable {op : LinkOp} {r : LinkReq} {off : Nat} {frames : List (List Byte)} {out rx rest : List Byte} {l m : Link}

/-- An exchange leaves the operands and the host's buffer alone: one more frame was sent, and `rest` is left in ser_rx. -/
theorem Link.BulkRegs.exchange (h : l.BulkRegs r off frames out rx m) (hr : r.IsBulk op) (hoff : off ≤ r.n)
    {buf : List Byte} (hbuf : buf.length = 32) (rest : List Byte) :
    l.BulkRegs r off (frames ++ [r.frame op off]) out rest { m with
      serTx := m.serTx ++ encodeRequest (m.cmdOf op) (m.payloadOf op), serRx := rest, rxBuf := buf } := by
  have hsent : m.serTx ++ encodeRequest (m.cmdOf op) (m.payloadOf op) =
      l.serTx ++ (frames ++ [r.frame op off]).flatten := by
    rw [h.sent, (h.frame_eq hr hoff).1]
    simp
  exact { h with sent := hsent, left := rfl, buf := hbuf }

/-- A good response is between 1 and 32 bytes long, where something is left to transfer or the frame may be empty. -/
theorem LinkReq.IsBulk.respLen_bounds (hr : r.IsBulk op) (hoff : off < r.n ∨ op = .i2cWrite) :
    1 ≤ op.respLen (r.chunkSize op off) ∧ op.respLen (r.chunkSize op off) ≤ 32 := by
  rcases LinkOp.isBulk_cases hr.bulk with rfl | rfl | rfl
  · exact ⟨Nat.le_refl 1, show 1 ≤ 32 by decide⟩
  all_goals
    have hlt := hoff.resolve_right nofun
    simp only [LinkOp.respLen, LinkReq.chunkSize, LinkOp.width, reduceCtorEq, if_false]
    omega

/-- An exchange answered by a good frame with `resp` as its payload. -/
theorem Link.BulkRegs.run_exchange (h : l.BulkRegs r off frames out (encodeResponse resp ++ rest) m) (hr : r.IsBulk op)
    (hoff : off ≤ r.n) (hc : m.ctl = .start) (ht : l.timeoutMs ≠ 0#16)
    (hlen : resp.length = op.respLen (r.chunkSize op off)) (h1 : 1 ≤ resp.length) (h32 : resp.length ≤ 32) (now : Time) :
    ∃ x, m.Reaches now (resp.length + 6) (x.onOk now op) ∧ x.received = resp ∧ linkOpOf x.lkOp = some op ∧
      l.BulkRegs r off (frames ++ [r.frame op off]) out rest x := by
  obtain ⟨_, hexp⟩ := h.frame_eq hr hoff
  have ho : linkOpOf m.lkOp = some op := h.op ▸ hr.code
  have ha : Answered [] resp rest m := ⟨h.left, nofun, h.kept.2.1 ▸ ht⟩
  have hbuf : (resp ++ m.rxBuf.drop resp.length).length = 32 := by
    rw [List.length_append, List.length_drop, h.buf]
    omega
  refine ⟨m.exchanged now (m.cmdOf op) (m.payloadOf op) resp rest, fun q => ?_, Link.received_exchanged _ _ _ _ _ _ h32, ho,
    { h.exchange hr hoff hbuf rest with }⟩
  have hrun := Link.run_exchange (now := now) hc ho ha (hexp.trans (by rw [hlen])) h1 h32 h.buf (q + 1)
  rw [List.length_nil, Nat.zero_add] at hrun
  rw [show q + (resp.length + 6) = q + 1 + (resp.length + 5) by omega, hrun,
    Link.run_ok (l := m.exchanged now (m.cmdOf op) (m.payloadOf op) resp rest) rfl rfl ho]

/-- After a good chunk that is not the last the engine stands before the next. -/
theorem Link.BulkRegs.chunkDone_more (h : l.BulkRegs r off frames out rest m) (hr : r.IsBulk op)
    (hlt : off + op.width < r.n) (out' data : List Byte) :
    (m.chunkDone op out' data).ctl = .start ∧
      l.BulkRegs r (off + op.width) frames out' rest (m.chunkDone op out' data) := by
  have hsize := hr.size
  have hk : m.chunkLen op = op.width := by
    rw [h.chunkLen_eq hr (by omega), LinkReq.chunkSize]
    omega
  have hoff : m.bulkOff + BitVec.ofNat 16 op.width = BitVec.ofNat 16 (off + op.width) := by
    rw [h.done, BitVec.ofNat_add]
  have hmore : (m.bulkOff + BitVec.ofNat 16 (m.chunkLen op)).toNat < m.bulkN.toNat := by
    rw [hk, hoff, (h.counters hr (by omega)).1, BitVec.toNat_ofNat]
    omega
  rw [Link.chunkDone, if_pos hmore, hk, hoff]
  exact ⟨rfl, { h with done := rfl, gathered := rfl }⟩

/-- After the last good chunk the operation has ended well. -/
theorem Link.BulkRegs.chunkDone_last (h : l.BulkRegs r off frames out rest m) (hr : r.IsBulk op) (hoff : off ≤ r.n)
    (hlast : r.n ≤ off + op.width) (out' data : List Byte) :
    BulkEnded r.op r.args r.n r.n 0 frames { ok := true, status := 0#3, data := data, valid := data.length } rest l
      (m.chunkDone op out' data) := by
  have hsize := hr.size
  have hk : m.chunkLen op = r.n - off := by
    rw [h.chunkLen_eq hr hoff, LinkReq.chunkSize]
    omega
  have hdone : m.bulkOff + BitVec.ofNat 16 (r.n - off) = BitVec.ofNat 16 r.n := by
    rw [h.done, ← BitVec.ofNat_add, Nat.add_sub_cancel' hoff]
  have hend : ¬ (m.bulkOff + BitVec.ofNat 16 (m.chunkLen op)).toNat < m.bulkN.toNat := by
    rw [hk, hdone, h.count]
    exact Nat.lt_irrefl _
  rw [Link.chunkDone, if_neg hend, hk, hdone]
  exact ⟨⟨rfl, rfl⟩, ⟨h.op, h.args, h.count⟩, rfl, h.sent, h.left, rfl, rfl, h.kept, h.free⟩

/-! ### Whole chunks -/

/-- The frames of the first `j` chunks (R218). -/
def LinkReq.firstFrames (op : LinkOp) (j : Nat) (r : LinkReq) : List (List Byte) :=
  (List.range j).map fun i => r.frame op (op.width * i)

/-- The host's buffer after `j` good responses (R218). -/
def LinkOp.gathered (op : LinkOp) (resp : Nat → List Byte) (j : Nat) : List Byte :=
  if op = .i2cWrite then [] else (List.range j).flatMap resp

theorem LinkReq.firstFrames_succ (op : LinkOp) (j : Nat) (r : LinkReq) :
    r.firstFrames op (j + 1) = r.firstFrames op j ++ [r.frame op (op.width * j)] := by
  simp [LinkReq.firstFrames, List.range_succ]

theorem LinkOp.gather_gathered (op : LinkOp) (resp : Nat → List Byte) (j : Nat) :
    op.gather (op.gathered resp j) (resp j) = op.gathered resp (j + 1) := by
  unfold LinkOp.gather LinkOp.gathered
  split <;> simp [List.range_succ]

/-- `j` whole chunks that are not the last, each answered well. -/
theorem Link.BulkRegs.run_wholeChunks {resp : Nat → List Byte} {j : Nat}
    (h : l.BulkRegs r 0 [] [] ((List.range j).flatMap (fun i => encodeResponse (resp i)) ++ rest) m) (hr : r.IsBulk op)
    (hc : m.ctl = .start) (ht : l.timeoutMs ≠ 0#16) (hj : j = 0 ∨ op.width * j < r.n)
    (hresp : ∀ i < j, op.Accepts op.width (resp i)) (now : Time) :
    ∃ x, m.Reaches now (j * (op.respLen op.width + 6)) x ∧ x.ctl = .start ∧
      l.BulkRegs r (op.width * j) (r.firstFrames op j) (op.gathered resp j) rest x := by
  induction j generalizing rest with
  | zero => exact ⟨m, fun q => by simp, hc, { h with gathered := h.gathered.trans (by simp [LinkOp.gathered]) }⟩
  | succ j ih =>
    have hlt : op.width * j + op.width < r.n := hj.resolve_left (Nat.succ_ne_zero j)
    have hsize : r.chunkSize op (op.width * j) = op.width := by
      rw [LinkReq.chunkSize]
      omega
    have hbounds := hr.respLen_bounds (off := op.width * j) (.inl (by omega))
    have haccepts := hresp j (Nat.lt_succ_self j)
    rw [hsize, ← haccepts.length] at hbounds
    obtain ⟨x, hx, hxc, hxr⟩ := ih (rest := encodeResponse (resp j) ++ rest)
      { h with left := h.left.trans (by simp [List.range_succ]) } (.inr (by omega)) fun i hi => hresp i (by omega)
    obtain ⟨y, hy, hrecv, _, hyr⟩ := hxr.run_exchange hr (by omega) hxc ht (by rw [hsize, haccepts.length]) hbounds.1
      hbounds.2 now
    rw [Link.onOk_bulk now hr.bulk haccepts hrecv, hyr.gathered, op.gather_gathered resp j] at hy
    obtain ⟨hc', hregs⟩ := hyr.chunkDone_more hr hlt (op.gathered resp (j + 1)) (op.answer (op.gathered resp j) (resp j))
    have hreach := hx.trans hy
    rw [haccepts.length, ← Nat.succ_mul] at hreach
    exact ⟨_, hreach, hc', r.firstFrames_succ op j ▸ hregs⟩

end

/-- The offset after `j` whole chunks is inside the transfer, and there is a chunk left, be it the empty one of an i2c-write
frame (log 37). -/
theorem LinkReq.IsBulk.offset_bounds {op : LinkOp} {r : LinkReq} {j : Nat} (hr : r.IsBulk op)
    (hj : j = 0 ∨ op.width * j < r.n) : op.width * j ≤ r.n ∧ (op.width * j < r.n ∨ op = .i2cWrite) := by
  rcases hj with rfl | hj
  · exact ⟨Nat.zero_le _, hr.asked.symm.imp id And.left⟩
  · exact ⟨hj.le, .inl hj⟩

/-- A bulk request all of whose chunks are answered well ends well (R218). -/
theorem presentLink_bulk_completes {s : State} {op : LinkOp} {r : LinkReq} {resp : Nat → List Byte} {j : Nat}
    {rest : List Byte} (hr : r.IsBulk op) (hidle : LinkIdle s) (hseq : LinkSeqInv s.link) (ht : s.link.timeoutMs ≠ 0#16)
    (hready : s.link.linkReady = true) (hj : j = 0 ∨ op.width * j < r.n) (hn : r.n ≤ op.width * (j + 1))
    (hrx : s.link.serRx = (List.range (j + 1)).flatMap (fun i => encodeResponse (resp i)) ++ rest)
    (hresp : ∀ i < j, op.Accepts op.width (resp i)) (hlast : op.Accepts (r.n - op.width * j) (resp j))
    (hq : j * (op.respLen op.width + 6) + (op.respLen (r.n - op.width * j) + 6) ≤ s.env.quantum) :
    ∃ l, presentLink r s = .next (s.setLink l) ∧
      BulkEnded r.op r.args r.n r.n 0 (r.firstFrames op (j + 1)) {
        ok := true
        status := 0#3
        data := op.answer (op.gathered resp j) (resp j)
        valid := (op.answer (op.gathered resp j) (resp j)).length } rest s.link l := by
  obtain ⟨hoff, hasked⟩ := hr.offset_bounds hj
  have hsize : r.chunkSize op (op.width * j) = r.n - op.width * j := by
    rw [LinkReq.chunkSize]
    exact Nat.min_eq_left (by rw [Nat.mul_succ] at hn; omega)
  obtain ⟨m, haccept, hc, hm⟩ := Link.accept_bulk hr hready hseq.buf
  obtain ⟨x, hx, hxc, hxr⟩ := Link.BulkRegs.run_wholeChunks (j := j) (resp := resp) (rest := encodeResponse (resp j) ++ rest)
    { hm with left := hm.left.trans (hrx.trans (by simp [List.range_succ])) } hr hc ht hj hresp s.tNow
  obtain ⟨h1, h32⟩ := hr.respLen_bounds hasked
  rw [hsize, ← hlast.length] at h1 h32
  obtain ⟨y, hy, hrecv, _, hyr⟩ := hxr.run_exchange hr hoff hxc ht (by rw [hsize, hlast.length]) h1 h32 s.tNow
  rw [Link.onOk_bulk _ hr.bulk hlast hrecv, hyr.gathered] at hy
  have hended := hyr.chunkDone_last hr hoff hn (op.gather (op.gathered resp j) (resp j))
    (op.answer (op.gathered resp j) (resp j))
  rw [← r.firstFrames_succ op j] at hended
  exact ⟨_, (hx.trans hy).present hidle haccept hended.idle.1 (by rw [hlast.length]; exact hq), hended⟩

/-! ### A chunk that fails -/

/-- The data of a failed bulk operation, `off` bytes done: free bytes for I2C_WRITE, else what the chunks before brought
(R218, R301; log 20). -/
def LinkOp.partialData (op : LinkOp) (free off : Nat) (out : List Byte) : List Byte :=
  if op = .i2cWrite then freeBytes free off else out

section
variable {op : LinkOp} {r : LinkReq} {off : Nat} {frames : List (List Byte)} {out bad rest : List Byte} {l m : Link}
  {st : BitVec 3}

theorem Link.BulkRegs.bulkFailed_ended (h : l.BulkRegs r off frames out rest m) (hr : r.IsBulk op) (hoff : off ≤ r.n)
    (st : BitVec 3) :
    BulkEnded r.op r.args r.n off (if op = .i2cWrite then off else 0) frames
      { ok := false, status := st, data := op.partialData l.freeCtr off out, valid := off } rest l (m.bulkFailed st) := by
  obtain ⟨_, hdone⟩ := h.counters hr hoff
  have hcode : m.lkOp = 0x10#8 ↔ op = .i2cWrite := by
    rw [h.op, ← linkOpOf_eq_i2cWrite, hr.code, Option.some.injEq]
  unfold LinkOp.partialData
  by_cases hop : op = .i2cWrite
  · rw [Link.bulkFailed, if_pos (hcode.2 hop), if_pos hop, if_pos hop, hdone, h.free]
    exact ⟨⟨rfl, rfl⟩, ⟨h.op, h.args, h.count⟩, h.done, h.sent, h.left, rfl, rfl, h.kept, rfl⟩
  · rw [Link.bulkFailed, if_neg (hcode.not.2 hop), if_neg hop, if_neg hop, hdone, h.gathered]
    exact ⟨⟨rfl, rfl⟩, ⟨h.op, h.args, h.count⟩, h.done, h.sent, h.left, rfl, rfl, h.kept, h.free⟩

/-- An exchange whose receive steps fail it, in `k` steps after the frame was sent, ends the operation with that failure. -/
theorem Link.BulkRegs.reaches_bulkFailed {now : Time} {k : Nat} {x : Link} (hx : l.BulkRegs r off frames out rest x)
    (hr : r.IsBulk op) (hop : m.lkOp = r.op) (hc : m.ctl = .start)
    (hrun : ((m.send now op).goto .awaitStart).Reaches now k x) (hxc : x.ctl = .exchange) (hs : x.linkState.FailsWith st) :
    m.Reaches now (k + 3) (x.bulkFailed st) := fun q => by
  have ho : linkOpOf x.lkOp = some op := hx.op ▸ hr.code
  rw [show q + (k + 3) = q + 1 + k + 2 by omega, Link.run_send hc (hop ▸ hr.code), hrun, Link.run_failed hxc hs ho,
    Link.fail_bulk now st ho hr.bulk]

/-- A response with another checksum fails the chunk with CRC_MISMATCH (R181). -/
theorem Link.BulkRegs.run_wrongChecksum {body : List Byte} {crc : Byte}
    (h : l.BulkRegs r off frames out ([0xAA#8, BitVec.ofNat 8 body.length] ++ body ++ [crc] ++ rest) m) (hr : r.IsBulk op)
    (hoff : off ≤ r.n) (hc : m.ctl = .start) (ht : l.timeoutMs ≠ 0#16)
    (hlen : body.length = op.respLen (r.chunkSize op off)) (h1 : 1 ≤ body.length) (h32 : body.length ≤ 32)
    (hcrc : crc ≠ BitVec.ofNat 8 body.length ^^^ fold body) (now : Time) :
    ∃ x, m.Reaches now (body.length + 6) (x.bulkFailed 3#3) ∧
      l.BulkRegs r off (frames ++ [r.frame op off]) out rest x := by
  obtain ⟨_, hexp⟩ := h.frame_eq hr hoff
  have hbuf : (body ++ m.rxBuf.drop body.length).length = 32 := by
    rw [List.length_append, List.length_drop, h.buf]
    omega
  have hrun := Link.run_wrongChecksum (l := (m.send now op).goto .awaitStart) (now := now) rfl rfl
    (Link.not_expired_at_send rfl (h.kept.2.1 ▸ ht)) h.left (hexp.trans (by rw [hlen])) h1 h32 h.buf hcrc
  have hregs : l.BulkRegs r off (frames ++ [r.frame op off]) out rest { (m.send now op).goto .awaitStart with
      serRx := rest
      rxLen := BitVec.ofNat 8 body.length
      rxCnt := BitVec.ofNat 9 body.length
      rxBuf := body ++ m.rxBuf.drop body.length
      rxCrc := crc
      linkState := .crcMismatch } := { h.exchange hr hoff hbuf rest with }
  exact ⟨_, hregs.reaches_bulkFailed hr h.op hc hrun rfl (.inr (.inr ⟨rfl, rfl⟩)), hregs⟩

/-- A response with another LEN fails the chunk with LEN_MISMATCH, after LEN + 1 further bytes (R182). -/
theorem Link.BulkRegs.run_wrongLength {body : List Byte} {len : Byte}
    (h : l.BulkRegs r off frames out ([0xAA#8, len] ++ body ++ rest) m) (hr : r.IsBulk op)
    (hoff : off ≤ r.n) (hc : m.ctl = .start) (ht : l.timeoutMs ≠ 0#16)
    (hlen : len ≠ BitVec.ofNat 8 (op.respLen (r.chunkSize op off))) (hbody : body.length = len.toNat + 1) (now : Time) :
    ∃ x, m.Reaches now (body.length + 5) (x.bulkFailed 2#3) ∧
      l.BulkRegs r off (frames ++ [r.frame op off]) out rest x := by
  obtain ⟨_, hexp⟩ := h.frame_eq hr hoff
  have hrun := Link.run_wrongLength (l := (m.send now op).goto .awaitStart) (now := now) rfl rfl
    (Link.not_expired_at_send rfl (h.kept.2.1 ▸ ht)) h.left (fun e => hlen (e.trans hexp)) hbody
  have hregs : l.BulkRegs r off (frames ++ [r.frame op off]) out rest { (m.send now op).goto .awaitStart with
      serRx := rest
      rxLen := len
      rxCnt := len.setWidth 9
      linkState := .lenMismatch } := { h.exchange hr hoff h.buf rest with }
  exact ⟨_, hregs.reaches_bulkFailed hr h.op hc hrun rfl (.inr (.inl ⟨rfl, rfl⟩)), hregs⟩

/-- A good frame with a status byte other than 1 fails a chunk of I2C_WRITE with NACK (R219). -/
theorem Link.BulkRegs.run_nack {b : Byte} (h : l.BulkRegs r off frames out (encodeResponse [b] ++ rest) m)
    (hr : r.IsBulk .i2cWrite) (hoff : off ≤ r.n) (hc : m.ctl = .start) (ht : l.timeoutMs ≠ 0#16) (hb : b ≠ 0x01#8)
    (now : Time) :
    ∃ x, m.Reaches now 7 (x.bulkFailed 4#3) ∧ l.BulkRegs r off (frames ++ [r.frame .i2cWrite off]) out rest x := by
  obtain ⟨x, hx, hrecv, ho, hxr⟩ := h.run_exchange hr hoff hc ht rfl (by simp) (by simp) now
  have hnack : x.onOk now .i2cWrite = x.bulkFailed 4#3 := by
    rw [← Link.fail_bulk now 4#3 ho rfl]
    simp [Link.onOk, hrecv, hb, stNack]
  exact ⟨x, hnack ▸ hx, hxr⟩

/-- Whatever way the response to a chunk fails, the operation ends with its status. -/
theorem Link.BulkRegs.run_bad (h : l.BulkRegs r off frames out (bad ++ rest) m) (hr : r.IsBulk op) (hoff : off ≤ r.n)
    (hasked : off < r.n ∨ op = .i2cWrite) (hc : m.ctl = .start) (ht : l.timeoutMs ≠ 0#16)
    (hbad : BadResponse r.op (op.respLen (r.chunkSize op off)) st bad) (now : Time) :
    ∃ k x, k ≤ 261 ∧ m.Reaches now k (x.bulkFailed st) ∧ l.BulkRegs r off (frames ++ [r.frame op off]) out rest x := by
  obtain ⟨h1, h32⟩ := hr.respLen_bounds hasked
  rcases hbad with ⟨rfl, body, crc, hlen, hcrc, rfl⟩ | ⟨rfl, len, body, hlen, hbody, rfl⟩ | ⟨rfl, hop, b, hb, rfl⟩
  · rw [← hlen] at h hcrc h1 h32
    obtain ⟨x, hx, hxr⟩ := h.run_wrongChecksum hr hoff hc ht hlen h1 h32 hcrc now
    exact ⟨_, x, by omega, hx, hxr⟩
  · have hne : len ≠ BitVec.ofNat 8 (op.respLen (r.chunkSize op off)) := fun e =>
      hlen (by rw [e, BitVec.toNat_ofNat]; omega)
    obtain ⟨x, hx, hxr⟩ := h.run_wrongLength hr hoff hc ht hne hbody now
    have := len.isLt
    exact ⟨_, x, by omega, hx, hxr⟩
  · obtain rfl : op = .i2cWrite := Option.some.inj (hr.code.symm.trans (linkOpOf_eq_i2cWrite.2 hop))
    obtain ⟨x, hx, hxr⟩ := h.run_nack hr hoff hc ht hb now
    exact ⟨7, x, by omega, hx, hxr⟩

end

/-- A bulk request whose chunk after `j` good ones fails ends with that failure and sends no further frame (R218). -/
theorem presentLink_bulk_fails {s : State} {op : LinkOp} {r : LinkReq} {resp : Nat → List Byte} {j : Nat}
    {bad rest : List Byte} {st : BitVec 3} (hr : r.IsBulk op) (hidle : LinkIdle s) (hseq : LinkSeqInv s.link)
    (ht : s.link.timeoutMs ≠ 0#16) (hready : s.link.linkReady = true) (hj : j = 0 ∨ op.width * j < r.n)
    (hrx : s.link.serRx = (List.range j).flatMap (fun i => encodeResponse (resp i)) ++ bad ++ rest)
    (hresp : ∀ i < j, op.Accepts op.width (resp i))
    (hbad : BadResponse r.op (op.respLen (r.chunkSize op (op.width * j))) st bad)
    (hq : j * (op.respLen op.width + 6) + 261 ≤ s.env.quantum) :
    ∃ l, presentLink r s = .next (s.setLink l) ∧
      BulkEnded r.op r.args r.n (op.width * j) (if op = .i2cWrite then op.width * j else 0) (r.firstFrames op (j + 1)) {
        ok := false
        status := st
        data := op.partialData s.link.freeCtr (op.width * j) (op.gathered resp j)
        valid := op.width * j } rest s.link l := by
  obtain ⟨hoff, hasked⟩ := hr.offset_bounds hj
  obtain ⟨m, haccept, hc, hm⟩ := Link.accept_bulk hr hready hseq.buf
  rw [hrx, List.append_assoc] at hm
  obtain ⟨x, hx, hxc, hxr⟩ := hm.run_wholeChunks hr hc ht hj hresp s.tNow
  obtain ⟨k, y, hk, hy, hyr⟩ := hxr.run_bad hr hoff hasked hxc ht hbad s.tNow
  have hended := hyr.bulkFailed_ended hr hoff st
  rw [← r.firstFrames_succ op j] at hended
  exact ⟨_, (hx.trans hy).present hidle haccept hended.idle.1 (by omega), hended⟩

/-! ### I2C_READ and SPI_TRANSFER: the bytes come back -/

/-- Chunk `i` of the bytes received (R220, R222). -/
def readChunk (d : List Byte) (i : Nat) : List Byte := (d.drop (32 * i)).take 32

theorem chunks_flatMap_encodeResponse (d : List Byte) :
    (chunks 32 d.length d).flatMap encodeResponse =
      (List.range ((d.length + 31) / 32)).flatMap fun i => encodeResponse (readChunk d i) := by
  rw [chunks_eq_map_range (by decide) (Nat.le_refl _), List.flatMap_map]
  rfl

theorem flatMap_readChunk (d : List Byte) : (List.range ((d.length + 31) / 32)).flatMap (readChunk d) = d := by
  have h := chunks_flatten (w := 32) (by decide) (Nat.le_refl d.length)
  rw [chunks_eq_map_range (by decide) (Nat.le_refl _)] at h
  exact (List.flatMap_def ..).trans h

/-- The operations whose responses carry data (R220, R222). -/
def LinkOp.Reads (op : LinkOp) : Prop := op = .i2cRead ∨ op = .spiTransfer

theorem LinkOp.Reads.facts {op : LinkOp} (h : op.Reads) :
    op.width = 32 ∧ op ≠ .i2cWrite ∧ (∀ k, op.respLen k = k) ∧
      ∀ d i, op.Accepts (min 32 (d.length - 32 * i)) (readChunk d i) := by
  rcases h with rfl | rfl
  all_goals exact ⟨rfl, nofun, fun _ => rfl, fun d i => ⟨by simp [readChunk, LinkOp.respLen], nofun⟩⟩

/-- A read all of whose chunks are answered well returns the bytes in order (R218). -/
theorem presentLink_read_completes {s : State} {op : LinkOp} {r : LinkReq} {data rest : List Byte} (hop : op.Reads)
    (hr : r.IsBulk op) (hidle : LinkIdle s) (hseq : LinkSeqInv s.link) (ht : s.link.timeoutMs ≠ 0#16)
    (hready : s.link.linkReady = true) (h1 : 1 ≤ r.n) (hn : data.length = r.n) (hq : 7 * r.n ≤ s.env.quantum)
    (hrx : s.link.serRx = (chunks 32 data.length data).flatMap encodeResponse ++ rest) :
    ∃ l, presentLink r s = .next (s.setLink l) ∧
      BulkEnded r.op r.args r.n r.n 0 (r.firstFrames op ((r.n + 31) / 32))
        { ok := true, status := 0#3, data := data, valid := data.length } rest s.link l := by
  obtain ⟨hwidth, hnw, hlen, haccepts⟩ := hop.facts
  obtain ⟨j, hj⟩ : ∃ j, (r.n + 31) / 32 = j + 1 := ⟨(r.n - 1) / 32, by omega⟩
  have hlast : r.n - 32 * j = min 32 (data.length - 32 * j) := by omega
  rw [chunks_flatMap_encodeResponse, hn, hj] at hrx
  have hdata : op.answer (op.gathered (readChunk data) j) (readChunk data j) = data := by
    conv_rhs => rw [← flatMap_readChunk data, hn, hj, List.range_succ]
    simp [LinkOp.answer, LinkOp.gathered, hnw]
  have hrun := presentLink_bulk_completes (resp := readChunk data) (j := j) hr hidle hseq ht hready
    (.inr (by rw [hwidth]; omega)) (by rw [hwidth]; omega) hrx
    (fun i hi => by
      have h32 : min 32 (data.length - 32 * i) = 32 := by omega
      exact hwidth ▸ h32 ▸ haccepts data i)
    (by rw [hwidth, hlast]; exact haccepts data j) (by rw [hlen, hlen, hwidth]; omega)
  rwa [hdata, ← hj] at hrun

/-- A read whose chunk after `j` good ones fails ends with that failure and the bytes of the good ones (R218). -/
theorem presentLink_read_fails {s : State} {op : LinkOp} {r : LinkReq} {j : Nat} {good bad rest : List Byte}
    {st : BitVec 3} (hop : op.Reads) (hr : r.IsBulk op) (hidle : LinkIdle s) (hseq : LinkSeqInv s.link)
    (ht : s.link.timeoutMs ≠ 0#16) (hready : s.link.linkReady = true) (hgood : good.length = 32 * j)
    (hlt : good.length < r.n) (hbad : BadResponse r.op (min 32 (r.n - good.length)) st bad)
    (hrx : s.link.serRx = (chunks 32 good.length good).flatMap encodeResponse ++ bad ++ rest)
    (hq : 7 * r.n + 300 ≤ s.env.quantum) :
    ∃ l, presentLink r s = .next (s.setLink l) ∧
      BulkEnded r.op r.args r.n good.length 0 (r.firstFrames op (j + 1))
        { ok := false, status := st, data := good, valid := good.length } rest s.link l := by
  obtain ⟨hwidth, hnw, hlen, haccepts⟩ := hop.facts
  have hj : (good.length + 31) / 32 = j := by omega
  rw [chunks_flatMap_encodeResponse, hj] at hrx
  have hdata : op.partialData s.link.freeCtr (op.width * j) (op.gathered (readChunk good) j) = good := by
    conv_rhs => rw [← flatMap_readChunk good, hj]
    simp [LinkOp.partialData, LinkOp.gathered, hnw]
  have hrun := presentLink_bulk_fails (resp := readChunk good) (j := j) (st := st) hr hidle hseq ht hready
    (.inr (by rw [hwidth]; omega)) hrx
    (fun i hi => by
      have h32 : min 32 (good.length - 32 * i) = 32 := by omega
      exact hwidth ▸ h32 ▸ haccepts good i)
    (by rw [hlen, LinkReq.chunkSize, hwidth, Nat.min_comm, ← hgood]; exact hbad) (by rw [hlen, hwidth]; omega)
  rwa [hdata, if_neg hnw, hwidth, ← hgood] at hrun

/-! ### R220: I2C_READ -/

/-- The request of I2C_READ and of the i2c-read frame. -/
def i2cReadRequest (wire : Bool) (addr : Byte) (n : Nat) : LinkReq :=
  { op := 0x11#8, args := [addr], data := [], n := n, wire := wire }

theorem i2cReadRequest_isBulk (wire : Bool) (addr : Byte) {n : Nat} (h1 : 1 ≤ n) (hn : n ≤ 65535) :
    (i2cReadRequest wire addr n).IsBulk .i2cRead :=
  ⟨rfl, rfl, .inr h1, hn, fun h => absurd rfl h⟩

theorem exec_i2cRead (addr : Byte) {n : Nat} (hn : n ≤ 65535) (s : State) :
    exec (.i2cRead addr (BitVec.ofNat 16 n)) s = presentLink (i2cReadRequest false addr n) s := by
  have : (BitVec.ofNat 16 n).toNat = n := by rw [BitVec.toNat_ofNat]; omega
  simp [exec, execI2cRead, hostLink, i2cReadRequest, this]

theorem exec_reqI2cRead (addr : Byte) {n : Nat} (h1 : 1 ≤ n) (hn : n ≤ 32) (s : State) :
    exec (.reqI2cRead addr (BitVec.ofNat 8 n)) s = presentLink (i2cReadRequest true addr n) s := by
  have : (BitVec.ofNat 8 n).toNat = n := by rw [BitVec.toNat_ofNat]; omega
  simp [exec, execReqI2cRead, wfI2cLen, wireLink, i2cReadRequest, this, h1, hn]

theorem i2cReadRequest_frame (wire : Bool) (addr : Byte) (n off : Nat) :
    (i2cReadRequest wire addr n).frame .i2cRead off = encodeRequest 0x11#8 [addr, BitVec.ofNat 8 (min 32 (n - off))] := by
  rw [Nat.min_comm]
  rfl

/-- The frames of I2C_READ, each with the size of its chunk of the bytes that come back. -/
theorem i2cReadRequest_frames_all (wire : Bool) (addr : Byte) (data : List Byte) :
    (i2cReadRequest wire addr data.length).firstFrames .i2cRead ((data.length + 31) / 32) =
      (chunks 32 data.length data).map fun c => encodeRequest 0x11#8 [addr, BitVec.ofNat 8 c.length] := by
  rw [chunks_eq_map_range (by decide) (Nat.le_refl _), List.map_map]
  refine List.map_congr_left fun i _ => ?_
  rw [i2cReadRequest_frame, Function.comp_apply, List.length_take, List.length_drop]
  rfl

/-- The frames of I2C_READ up to chunk `j`: all but the last ask for 32 bytes. -/
theorem i2cReadRequest_frames (wire : Bool) (addr : Byte) {n j : Nat} (hj : 32 * j < n) :
    (i2cReadRequest wire addr n).firstFrames .i2cRead (j + 1) =
      List.replicate j (encodeRequest 0x11#8 [addr, 32#8]) ++
        [encodeRequest 0x11#8 [addr, BitVec.ofNat 8 (min 32 (n - 32 * j))]] := by
  rw [LinkReq.firstFrames_succ, i2cReadRequest_frame]
  congr 1
  refine List.eq_replicate_iff.2 ⟨by simp [LinkReq.firstFrames], fun f hf => ?_⟩
  obtain ⟨i, hi, rfl⟩ := List.mem_map.1 hf
  have hlt : i < j := List.mem_range.1 hi
  have h32 : min 32 (n - 32 * i) = 32 := by omega
  rw [i2cReadRequest_frame, LinkOp.width, h32]

/-- Settles O33: the command and the frame are one request, whose run is `presentLink_read_completes`. -/
theorem i2cReadCompletes : Obligations.I2cReadCompletes := by
  unfold Obligations.I2cReadCompletes
  intro s addr data rest hidle hseq ht hready h1 hn hq hrx
  have run (wire : Bool) := presentLink_read_completes (.inl rfl) (i2cReadRequest_isBulk wire addr h1 hn) hidle hseq ht
    hready h1 rfl hq hrx
  refine ⟨?_, fun h32 => ?_⟩
  · rw [exec_i2cRead addr hn, ← i2cReadRequest_frames_all false]
    exact run false
  · have hframes := i2cReadRequest_frames_all true addr data
    rw [chunks_of_le h1 h32, List.map_singleton] at hframes
    rw [exec_reqI2cRead addr h1 h32, ← hframes]
    exact run true

/-! ### R222: SPI_TRANSFER -/

/-- The request of SPI_TRANSFER and of the spi-transfer frame. -/
def spiRequest (wire : Bool) (data : List Byte) : LinkReq :=
  { op := 0x21#8, args := [], data := data, n := data.length, wire := wire }

theorem spiRequest_isBulk (wire : Bool) {data : List Byte} (h1 : 1 ≤ data.length) (hn : data.length ≤ 65535) :
    (spiRequest wire data).IsBulk .spiTransfer :=
  ⟨rfl, rfl, .inr h1, hn, fun _ => rfl⟩

theorem exec_spiTransfer (data : List Byte) (s : State) :
    exec (.spiTransfer data) s = presentLink (spiRequest false data) s := rfl

theorem exec_reqSpiTransfer {data : List Byte} (h1 : 1 ≤ data.length) (hn : data.length ≤ 32) (s : State) :
    exec (.reqSpiTransfer data) s = presentLink (spiRequest true data) s :=
  if_pos (by simp [wfSpiChunk, h1, hn])

theorem spiRequest_frames (wire : Bool) {data : List Byte} {k : Nat} (hk : k ≤ (data.length + 32 - 1) / 32) :
    (spiRequest wire data).firstFrames .spiTransfer k =
      ((chunks 32 data.length data).take k).map (encodeRequest 0x21#8) := by
  rw [chunks_eq_map_range (by decide) (Nat.le_refl _), ← List.map_take, List.take_range, Nat.min_eq_left hk, List.map_map]
  rfl

theorem spiRequest_frames_all (wire : Bool) (data : List Byte) :
    (spiRequest wire data).firstFrames .spiTransfer ((data.length + 31) / 32) =
      (chunks 32 data.length data).map (encodeRequest 0x21#8) := by
  rw [chunks_eq_map_range (by decide) (Nat.le_refl _), List.map_map]
  rfl

/-- Settles O34: the command and the frame are one request, whose run is `presentLink_read_completes`. -/
theorem spiTransferCompletes : Obligations.SpiTransferCompletes := by
  unfold Obligations.SpiTransferCompletes
  intro s data rx rest hidle hseq ht hready h1 hn hlen hq hrx
  have run (wire : Bool) := presentLink_read_completes (.inr rfl) (spiRequest_isBulk wire h1 hn) hidle hseq ht
    hready h1 hlen hq hrx
  refine ⟨?_, fun h32 => ?_⟩
  · rw [exec_spiTransfer, ← spiRequest_frames_all false]
    exact run false
  · have hframes := spiRequest_frames_all true data
    rw [chunks_of_le h1 h32, List.map_singleton] at hframes
    rw [exec_reqSpiTransfer h1 h32, ← hframes]
    exact run true

/-! ### R219: I2C_WRITE -/

/-- The request of I2C_WRITE and of the i2c-write frame. -/
def i2cWriteRequest (wire : Bool) (addr : Byte) (data : List Byte) : LinkReq :=
  { op := 0x10#8, args := [addr], data := data, n := data.length, wire := wire }

theorem i2cWriteRequest_isBulk {wire : Bool} (addr : Byte) {data : List Byte} (h : wire = true ∨ 1 ≤ data.length)
    (hn : data.length ≤ 65535) : (i2cWriteRequest wire addr data).IsBulk .i2cWrite :=
  ⟨rfl, rfl, h.imp_left fun hw => ⟨rfl, hw⟩, hn, fun _ => rfl⟩

theorem exec_i2cWrite (addr : Byte) (data : List Byte) (s : State) :
    exec (.i2cWrite addr data) s = presentLink (i2cWriteRequest false addr data) s := rfl

theorem exec_reqI2cWrite (addr : Byte) {data : List Byte} (hn : data.length ≤ 31) (s : State) :
    exec (.reqI2cWrite addr data) s = presentLink (i2cWriteRequest true addr data) s :=
  if_pos (by simp [wfI2cChunk, hn])

theorem i2cWriteRequest_frames (wire : Bool) (addr : Byte) {data : List Byte} {k : Nat}
    (hk : k ≤ (data.length + 31 - 1) / 31) :
    (i2cWriteRequest wire addr data).firstFrames .i2cWrite k =
      ((chunks 31 data.length data).take k).map fun c => encodeRequest 0x10#8 (addr :: c) := by
  rw [chunks_eq_map_range (by decide) (Nat.le_refl _), ← List.map_take, List.take_range, Nat.min_eq_left hk, List.map_map]
  rfl

/-- The i2c-write frame is one chunk, be it empty (R106; log 37). -/
theorem i2cWriteRequest_frame (wire : Bool) (addr : Byte) {data : List Byte} (hn : data.length ≤ 31) :
    (i2cWriteRequest wire addr data).firstFrames .i2cWrite 1 = [encodeRequest 0x10#8 (addr :: data)] := by
  have h : data.take 31 = data := List.take_of_length_le hn
  simp [LinkReq.firstFrames, LinkReq.frame, i2cWriteRequest, LinkOp.width, h]

theorem accepts_ack (k : Nat) : LinkOp.i2cWrite.Accepts k [0x01#8] := ⟨rfl, fun _ => rfl⟩

theorem flatMap_ack (j : Nat) : (List.range j).flatMap (fun _ => encodeResponse [0x01#8]) =
    (List.replicate j (encodeResponse [0x01#8])).flatten := by
  simp [List.flatMap_def]

/-- A write all of whose chunks are acknowledged ends well (R219). -/
theorem presentLink_write_completes {s : State} {addr : Byte} {data rest : List Byte} {wire : Bool} {j : Nat}
    (hr : (i2cWriteRequest wire addr data).IsBulk .i2cWrite) (hidle : LinkIdle s) (hseq : LinkSeqInv s.link)
    (ht : s.link.timeoutMs ≠ 0#16) (hready : s.link.linkReady = true) (hj : j = 0 ∨ 31 * j < data.length)
    (hn : data.length ≤ 31 * (j + 1)) (hq : 7 * (j + 1) ≤ s.env.quantum)
    (hrx : s.link.serRx = (List.replicate (j + 1) (encodeResponse [0x01#8])).flatten ++ rest) :
    ∃ l, presentLink (i2cWriteRequest wire addr data) s = .next (s.setLink l) ∧
      BulkEnded 0x10#8 [addr] data.length data.length 0 ((i2cWriteRequest wire addr data).firstFrames .i2cWrite (j + 1))
        { ok := true, status := 0#3, data := [0x01#8], valid := 1 } rest s.link l :=
  presentLink_bulk_completes (resp := fun _ => [0x01#8]) hr hidle hseq ht hready hj hn (by rw [hrx, flatMap_ack])
    (fun _ _ => accepts_ack _) (accepts_ack _) (by simp only [LinkOp.respLen, if_true]; omega)

/-- A write whose chunk after `j` good ones fails ends with that failure; the bytes of its result are free (R219; log
20). -/
theorem presentLink_write_fails {s : State} {addr : Byte} {data bad rest : List Byte} {wire : Bool} {j : Nat}
    {st : BitVec 3} (hr : (i2cWriteRequest wire addr data).IsBulk .i2cWrite) (hidle : LinkIdle s)
    (hseq : LinkSeqInv s.link) (ht : s.link.timeoutMs ≠ 0#16) (hready : s.link.linkReady = true)
    (hj : j = 0 ∨ 31 * j < data.length) (hbad : BadResponse 0x10#8 1 st bad)
    (hrx : s.link.serRx = (List.replicate j (encodeResponse [0x01#8])).flatten ++ bad ++ rest)
    (hq : 7 * data.length + 300 ≤ s.env.quantum) :
    ∃ l, presentLink (i2cWriteRequest wire addr data) s = .next (s.setLink l) ∧
      BulkEnded 0x10#8 [addr] data.length (31 * j) (31 * j)
        ((i2cWriteRequest wire addr data).firstFrames .i2cWrite (j + 1))
        { ok := false, status := st, data := freeBytes s.link.freeCtr (31 * j), valid := 31 * j } rest s.link l :=
  presentLink_bulk_fails (resp := fun _ => [0x01#8]) hr hidle hseq ht hready hj (by rw [hrx, flatMap_ack])
    (fun _ _ => accepts_ack _) hbad (by simp only [LinkOp.respLen, if_true]; omega)

/-- Settles O35: the command and the frame are one request, whose run is `presentLink_write_completes`; the frame is one
chunk. -/
theorem i2cWriteCompletes : Obligations.I2cWriteCompletes := by
  unfold Obligations.I2cWriteCompletes
  refine ⟨fun s addr data rest hidle hseq ht hready h1 hn hq hrx => ?_,
    fun s addr data rest hidle hseq ht hready hn hq hrx => ?_⟩
  · obtain ⟨j, hj⟩ : ∃ j, (data.length + 30) / 31 = j + 1 := ⟨(data.length - 1) / 31, by omega⟩
    have hcount : (chunks 31 data.length data).length = j + 1 := by
      rw [chunks_eq_map_range (by decide) (Nat.le_refl _), List.length_map, List.length_range]
      exact hj
    have hframes := i2cWriteRequest_frames false addr (data := data) (k := j + 1) hj.ge
    rw [List.take_of_length_le hcount.le] at hframes
    rw [exec_i2cWrite, ← hframes]
    exact presentLink_write_completes (i2cWriteRequest_isBulk addr (.inr h1) hn) hidle hseq ht hready (.inr (by omega))
      (by omega) (by omega) (by rw [hrx, List.flatMap_def, List.map_const', hcount])
  · rw [exec_reqI2cWrite addr hn, ← i2cWriteRequest_frame true addr hn]
    exact presentLink_write_completes (j := 0) (i2cWriteRequest_isBulk addr (.inl rfl) (by omega)) hidle hseq ht hready
      (.inl rfl) hn hq (by simpa using hrx)

/-! ### R218, R302, R303: the first chunk that fails -/

/-- A bulk operation whose window has passed ends in TIMEOUT, or in LEN_MISMATCH out of DRAIN (R177 to R182). -/
theorem runInput_bulk_expired {s : State} {n : Nat} {op : LinkOp} {st : BitVec 3} (hc : s.link.ctl = .exchange)
    (hn : 2 ≤ n) (ho : linkOpOf s.link.lkOp = some op) (hb : op.isBulk = true) (he : s.link.expired s.tNow = true)
    (hs : s.link.linkState.receives = true) (hst : s.link.takeTimeout.linkState.FailsWith st) :
    runInput (.run .link n) s = .next (s.setLink (s.link.bulkFailed st)) := by
  obtain ⟨k, rfl⟩ := Nat.exists_eq_add_of_le' hn
  have hidle : (s.link.takeTimeout.bulkFailed st).ctl = .idle := by
    unfold Link.bulkFailed
    split <;> rfl
  have hbusy : s.link.ctl ≠ .idle := by simp [hc]
  change (if s.link.ctl = .idle then _ else liftLink s (Link.run s.tNow (k + 2) s.link)) = _
  rw [if_neg hbusy, Link.run_expired hc hs he, Link.run_failed (l := s.link.takeTimeout) hc hst ho,
    Link.fail_bulk (l := s.link.takeTimeout) s.tNow st ho hb, Link.run_stop (.inl hidle)]
  rfl

/-- Settles O36: the runs of `presentLink_read_fails` and `presentLink_write_fails`, the frames being one chunk each, and a
window that has passed. -/
theorem bulkAborts : Obligations.BulkAborts := by
  unfold Obligations.BulkAborts
  refine ⟨fun s j n good bad rest st hidle hseq ht hready hgood hlt hn hrx hq => ⟨fun data hdata hbad => ?_,
    fun addr hbad => ?_⟩, fun s j addr data bad rest st hidle hseq ht hready hbad hrx hq => ⟨fun hj hn => ?_,
    fun hj hn => ?_⟩, fun s n hc hn hop he => ?_⟩
  · subst hdata
    have run (wire : Bool) := presentLink_read_fails (.inr rfl) (spiRequest_isBulk wire (by omega) hn) hidle hseq ht
      hready hgood hlt hbad hrx hq
    refine ⟨?_, fun h32 => ?_⟩
    · rw [exec_spiTransfer, ← spiRequest_frames false (by omega)]
      exact run false
    · obtain rfl : j = 0 := by omega
      obtain rfl : good = [] := List.length_eq_zero_iff.1 hgood
      have hframes := spiRequest_frames_all true data
      rw [chunks_of_le (by omega) h32, List.map_singleton, show (data.length + 31) / 32 = 1 by omega] at hframes
      rw [exec_reqSpiTransfer (by omega) h32, ← hframes]
      exact run true
  · have run (wire : Bool) := presentLink_read_fails (.inl rfl) (i2cReadRequest_isBulk wire addr (by omega) hn) hidle hseq
      ht hready hgood hlt hbad hrx hq
    simp only [i2cReadRequest_frames _ addr (hgood ▸ hlt), ← hgood] at run
    refine ⟨?_, fun h32 => ?_⟩
    · rw [exec_i2cRead addr hn]
      exact run false
    · obtain rfl : j = 0 := by omega
      obtain rfl : good = [] := List.length_eq_zero_iff.1 hgood
      rw [exec_reqI2cRead addr (by omega) h32]
      have hmin : min 32 (n - ([] : List Byte).length) = n := Nat.min_eq_right h32
      rw [hmin] at run
      exact run true
  · rw [exec_i2cWrite, ← i2cWriteRequest_frames false addr (by omega)]
    exact presentLink_write_fails (i2cWriteRequest_isBulk addr (.inr (by omega)) hn) hidle hseq ht hready (.inr hj) hbad
      hrx hq
  · subst hj
    rw [exec_reqI2cWrite addr hn, ← i2cWriteRequest_frame true addr hn]
    exact presentLink_write_fails (i2cWriteRequest_isBulk addr (.inl rfl) (by omega)) hidle hseq ht hready (.inl rfl) hbad
      hrx hq
  · obtain ⟨op, ho, hb⟩ : ∃ op, linkOpOf s.link.lkOp = some op ∧ op.isBulk = true := by
      rcases hop with h | h | h <;> rw [h] <;> exact ⟨_, rfl, rfl⟩
    refine ⟨fun hs => ?_, fun hs => ?_⟩
    · have ⟨hreceives, hdrain⟩ : s.link.linkState.receives = true ∧ s.link.linkState ≠ .drain := by
        rcases hs with h | h | h | h <;> simp [h, LinkState.receives]
      exact runInput_bulk_expired hc hn ho hb (decide_eq_true he) hreceives (.inl ⟨if_neg hdrain, rfl⟩)
    · exact runInput_bulk_expired hc hn ho hb (decide_eq_true he) (by rw [hs]; rfl) (.inr (.inl ⟨if_pos hs, rfl⟩))

end Sys2Proof.Machine
end

/-! ## The bus commands and the operations of the flash controller (43_flash.md) -/

section
namespace Sys2Proof.Machine

/-! ### R250 to R259: bus commands -/

theorem withFill_zero (outs : List Byte) (s : State) : withFill outs 0 s = outs := List.append_nil outs

theorem txnReads_length (outs : List Byte) (n : Nat) (s : State) : (txnReads outs n s).length = n := by
  simp [txnReads, txnAnswers, answers_length, withFill]

@[simp] theorem txnReads_zero (outs : List Byte) (s : State) : txnReads outs 0 s = [] :=
  List.length_eq_zero_iff.1 (txnReads_length outs 0 s)

/-- A bus command on a free bus is one Device Transaction, and the bytes it reads are its result. -/
theorem exec_bare {i : Instr} {outs : List Byte} {n : Nat} {isStatus : Bool} {s : State}
    (hreq : flashRequest i = some (.bare outs n isStatus)) (hwf : i.wf = true) (hf : FlashReady s) (hb : BusFree s)
    (hq : outs.length + n + 6 ≤ s.env.quantum) :
    exec i s = .next ((afterTxn (withFill outs n s) s).setFlash (s.flash.bareEnded isStatus (txnReads outs n s))) := by
  rw [exec_flashRequest_of_wf hreq hwf]
  have hacc : Flash.accept s.params (.bare outs n isStatus) s.flash =
      .next (({ s.flash with job := .bare isStatus } : Flash).txn .cmd outs n) := rfl
  exact presentFlash_once hf hb hacc rfl rfl rfl rfl rfl rfl hq

/-- A bus command that reads nothing. -/
theorem exec_bare_sent {i : Instr} {outs : List Byte} {s : State} (hreq : flashRequest i = some (.bare outs 0 false))
    (hwf : i.wf = true) (hf : FlashReady s) (hb : BusFree s) (hq : outs.length + 6 ≤ s.env.quantum) :
    exec i s = .next ((afterTxn outs s).setFlash (s.flash.bareEnded false [])) := by
  rw [exec_bare hreq hwf hf hb hq, withFill_zero, txnReads_zero]

/-- Settles O45: each bus command is the bare request with the bytes of its format (`exec_bare`). -/
theorem busCommandsComplete : Obligations.BusCommandsComplete := by
  unfold Obligations.BusCommandsComplete
  intro s hf hb
  refine ⟨fun hq => ⟨?_, ?_, ?_, ?_⟩, fun hq => exec_bare rfl rfl hf hb hq,
    fun hq => ⟨exec_bare rfl rfl hf hb hq, fun a => ?erase⟩, fun a n hn hq => ?read,
    fun a d h1 hpage hq => ?program⟩
  case erase => exact exec_bare_sent rfl rfl hf hb hq
  case read =>
    exact exec_bare rfl (decide_eq_true hn) hf hb (by simp only [be24, List.length_cons, List.length_nil]; omega)
  case program =>
    have hwf : (Instr.busPageProgram a d).wf = true := by simp [Instr.wf, wfPageProgram, h1, hpage]
    exact exec_bare_sent rfl hwf hf hb
      (by simp only [be24, List.length_cons, List.length_nil, List.length_append]; omega)
  all_goals exact exec_bare_sent rfl rfl hf hb hq

/-! ### R260, R265, R267, R268: the operations of one transaction -/

/-- A host operation that the idle controller accepts. -/
theorem Flash.accept_host {p : Params} {op : FlashOp} {code : Byte} {a : Addr} {n : Len} {d : List Byte}
    (ho : flashOpOf code = some op) (hrange : rangeRefused p op a n d = false) (f : Flash) :
    Flash.accept p (.host code a n d) f = .next (f.start op code a n d) := by
  simp [Flash.accept, ho, hrange]

theorem fromBe_three (m t c : Byte) : BitVec.ofNat 24 (fromBe [m, t, c]) = m ++ t ++ c := by
  refine BitVec.eq_of_toNat_eq ?_
  rw [BitVec.toNat_append, BitVec.toNat_append, ← Nat.shiftLeft_add_eq_or_of_lt c.isLt,
    ← Nat.shiftLeft_add_eq_or_of_lt t.isLt]
  simp only [fromBe, List.foldl_cons, List.foldl_nil, BitVec.toNat_ofNat, Nat.shiftLeft_eq]
  omega

/-- A host operation of one transaction, which it sets up at once. -/
theorem presentFlash_command {s : State} {code : Byte} {op : FlashOp} {f g : Flash} {outs data : List Byte} {m : Nat}
    (hf : FlashReady s) (hb : BusFree s) (hq : 10 ≤ s.env.quantum) (hlen : outs.length + m ≤ 4)
    (ho : flashOpOf code = some op) (hrange : rangeRefused s.params op 0#24 0#25 [] = false)
    (hstart : s.flash.start op code 0#24 0#25 [] = f.txn .cmd outs m)
    (hd : ((f.txn .cmd outs m).exchanged (txnReads outs m s)).txnDone s.params = .next (g.finish data)) :
    presentFlash (.host code 0#24 0#25 []) s =
      .next ((afterTxn (withFill outs m s) s).setFlash { g.finish data with flPhase := .idle, ctl := .idle }) :=
  presentFlash_once hf hb (by rw [Flash.accept_host ho hrange, hstart]) rfl rfl rfl rfl hd rfl
    (by omega)

/-- Settles O46: one transaction each (`presentFlash_command`), followed by the row of F_CMD for the operation. -/
theorem unwaitingOperationsComplete : Obligations.UnwaitingOperationsComplete := by
  unfold Obligations.UnwaitingOperationsComplete
  intro s hf hb hq
  refine ⟨?identify, ?isBusy, ?powerDown, ?wakeUp⟩
  case identify =>
    obtain ⟨m, t, c, hread⟩ := List.length_eq_three.1 (txnReads_length [0x9F#8] 3 s)
    refine ⟨m, t, c, hread, ?_⟩
    rw [← fromBe_three, ← hread]
    exact presentFlash_command (code := 0x9F#8) (op := .identify) (outs := bytesJedecId) (m := 3) hf hb hq (by decide)
      rfl rfl rfl rfl
  case isBusy =>
    exact presentFlash_command (code := 0x05#8) (op := .isBusy) (outs := bytesReadStatus) (m := 1) hf hb hq (by decide)
      rfl rfl rfl rfl
  case powerDown =>
    have h := presentFlash_command (code := 0xB9#8) (op := .powerDown) (outs := bytesPowerDown) hf hb hq (by decide)
      rfl rfl rfl rfl
    rw [withFill_zero, txnReads_zero] at h
    exact h
  case wakeUp =>
    have h := presentFlash_command (code := 0xAB#8) (op := .wakeUp) (outs := bytesReleasePowerDown) hf hb hq (by decide)
      rfl rfl rfl rfl
    rw [withFill_zero, txnReads_zero] at h
    exact h

end Sys2Proof.Machine
end

/-! ## The operations of the flash controller that wait (43_flash.md) -/

section
namespace Sys2Proof.Machine

/-! ### R261 to R264, R266: the operations that wait -/

/-- The wait of an operation (`flashRun_wait`), with the transition that follows it. -/
theorem flashRun_polls (k : Nat) {s : State} {f g : Flash} {op : FlashOp} (hj : f.job = .host)
    (ho : flashOpOf f.flOp = some op) (hp : s.arb.port.mem = .idle) (hb : BusFree s) (hr : ReadyAfter k s)
    (hg : ((({ f with flStatus := lastPoll k s } : Flash).txn .wait [] 0).exchanged [lastPoll k s]).afterWait op =
      .next g)
    (n : Nat) :
    flashRun (n + 7 * (k + 1)) (s.setFlash (f.txn .wait bytesReadStatus 1)) =
      flashRun n ((polled (k + 1) s).setFlash g) := by
  rw [flashRun_wait k (s := s.setFlash (f.txn .wait bytesReadStatus 1)) (f := f) rfl hj ho hp (hb.setFlash _)
    (hr.setFlash _), polled_setFlash, lastPoll_setFlash]
  change andThen (liftFlash _ (((({ f with flStatus := lastPoll k s } : Flash).txn .wait [] 0).exchanged
    [lastPoll k s]).afterWait op)) _ = _
  rw [hg]
  rfl

/-- Settles O47: the poll series of the wait (`flashRun_wait`), then F_DONE. -/
theorem waitForReadyPolls : Obligations.WaitForReadyPolls := by
  unfold Obligations.WaitForReadyPolls
  intro s k hf hb hr hq
  let f : Flash := { s.flash with job := .host, flOp := 0x00#8 }
  obtain ⟨q, hq⟩ := Nat.exists_eq_add_of_le' hq
  have hacc : Flash.accept s.params (.host 0x00#8 0#24 0#25 []) s.flash = .next (f.txn .wait bytesReadStatus 1) := rfl
  change presentFlash (.host 0x00#8 0#24 0#25 []) s = _
  rw [presentFlash_ready hf hacc, hq, show q + (7 * (k + 1) + 1) = q + 1 + 7 * (k + 1) by omega,
    flashRun_polls k (op := .waitForReady) rfl rfl hf.2.2 hb hr rfl]
  exact flashRun_done rfl q

/-- Settles O48: this is `execRead_completes`. -/
theorem readCompletes : Obligations.ReadCompletes := by
  unfold Obligations.ReadCompletes
  intro s a n k hf hb hr ha hq
  exact execRead_completes hf hb hr ha hq

/-- Settles O50: the operation is accepted in F_DONE, with no transaction. -/
theorem emptyWriteDoesNothing : Obligations.EmptyWriteDoesNothing := by
  unfold Obligations.EmptyWriteDoesNothing
  intro s a hf ha hq
  obtain ⟨q, hq⟩ := Nat.exists_eq_add_of_le' hq
  have hrange : rangeRefused s.params .write a 0#25 [] = false := decide_eq_false (Nat.not_lt.2 ha)
  change presentFlash (.host 0x02#8 a 0#25 []) s = _
  rw [presentFlash_ready hf (Flash.accept_host (op := .write) rfl hrange s.flash), hq]
  exact flashRun_done rfl q

/-- A transaction that is not the operation's last, from a free bus, with the transition that follows it (R250, R272). -/
theorem flashRun_midTxn {u : State} {f g : Flash} {ph : FlPhase} {outs : List Byte} {m : Nat}
    (hp : u.arb.port.mem = .idle) (hb : BusFree u)
    (hd : ((f.txn ph outs m).exchanged (txnReads outs m u)).txnDone u.params = .next g) (n : Nat) :
    flashRun (n + (outs.length + m + 5)) (u.setFlash (f.txn ph outs m)) =
      flashRun n ((afterTxn (withFill outs m u) u).setFlash g) := by
  rw [flashRun_txn (s := u.setFlash (f.txn ph outs m)) (outs := outs) (m := m) rfl rfl rfl rfl hp (hb.setFlash _)]
  change andThen (liftFlash _ (((f.txn ph outs m).exchanged (txnReads outs m u)).txnDone u.params)) _ = _
  rw [hd]
  rfl

/-- The last transaction of an operation: the result is handed to the host (`flashRun_lastTxn`). -/
theorem flashRun_endTxn {u : State} {f g : Flash} {ph : FlPhase} {outs data : List Byte} {m : Nat}
    (hp : u.arb.port.mem = .idle) (hb : BusFree u)
    (hd : ((f.txn ph outs m).exchanged (txnReads outs m u)).txnDone u.params = .next (g.finish data)) (n : Nat) :
    flashRun (n + (outs.length + m + 6)) (u.setFlash (f.txn ph outs m)) =
      .next ((afterTxn (withFill outs m u) u).setFlash { g.finish data with flPhase := .idle, ctl := .idle }) :=
  flashRun_lastTxn (s := u.setFlash (f.txn ph outs m)) (outs := outs) (m := m) rfl rfl rfl rfl hp (hb.setFlash _) hd
    rfl n

/-- The operations that store: the poll series and write-enable, then the operation's own command (R262 to R264). -/
theorem flashRun_untilEnabled (k : Nat) {s : State} {f g : Flash} {op : FlashOp} (hj : f.job = .host)
    (ho : flashOpOf f.flOp = some op) (hop : op = .write ∨ op = .eraseSector ∨ op = .eraseChip)
    (hp : s.arb.port.mem = .idle) (hb : BusFree s) (hr : ReadyAfter k s)
    (hg : ((({ f with flStatus := lastPoll k s } : Flash).txn .wren bytesWriteEnable 0).exchanged []).afterWren op =
      .next g) (n : Nat) :
    flashRun (n + (7 * k + 13)) (s.setFlash (f.txn .wait bytesReadStatus 1)) =
      flashRun n ((afterTxn bytesWriteEnable (polled (k + 1) s)).setFlash g) := by
  let h : Flash := { f with flStatus := lastPoll k s }
  have hwait : ((h.txn .wait [] 0).exchanged [lastPoll k s]).afterWait op = .next (h.txn .wren bytesWriteEnable 0) := by
    rcases hop with rfl | rfl | rfl <;> rfl
  have hdone : ((h.txn .wren bytesWriteEnable 0).exchanged
      (txnReads bytesWriteEnable 0 (polled (k + 1) s))).txnDone (polled (k + 1) s).params = .next g := by
    rw [txnReads_zero, ← hg]
    simp only [Flash.txnDone, Flash.exchanged, Flash.txn, h, hj, ho]
  have hport : (polled (k + 1) s).arb.port.mem = .idle := by rwa [polled_port]
  have henable := flashRun_midTxn hport (hb.polled (k + 1)) hdone n
  rw [withFill_zero] at henable
  rw [show n + (7 * k + 13) = n + 6 + 7 * (k + 1) by omega,
    flashRun_polls k hj ho hp hb hr hwait]
  exact henable

/-- An erase that the idle port accepts: the polls and write-enable, then its command is the last transaction (R263,
R264). -/
theorem presentFlash_erase {s : State} {code : Byte} {op : FlashOp} {a : Addr} {f : Flash} {outs : List Byte} {k : Nat}
    (hf : FlashReady s) (hb : BusFree s) (hr : ReadyAfter k s) (hq : 7 * k + 13 + (outs.length + 6) ≤ s.env.quantum)
    (hacc : Flash.accept s.params (.host code a 0#25 []) s.flash = .next (f.txn .wait bytesReadStatus 1))
    (hj : f.job = .host) (ho : flashOpOf f.flOp = some op) (hop : op = .eraseSector ∨ op = .eraseChip)
    (hcmd : ((({ f with flStatus := lastPoll k s } : Flash).txn .wren bytesWriteEnable 0).exchanged []).afterWren op =
      .next (({ f with flStatus := lastPoll k s } : Flash).txn .cmd outs 0)) :
    presentFlash (.host code a 0#25 []) s =
      .next ((afterTxn outs (afterTxn bytesWriteEnable (polled (k + 1) s))).setFlash
        (({ f with flStatus := lastPoll k s } : Flash).ended f.flOp [] [])) := by
  let g : Flash := { f with flStatus := lastPoll k s }
  obtain ⟨q, hq⟩ := Nat.exists_eq_add_of_le' hq
  have hdone : ((g.txn .cmd outs 0).exchanged (txnReads outs 0 (afterTxn bytesWriteEnable (polled (k + 1) s)))).txnDone
      (polled (k + 1) s).params = .next (((g.txn .cmd outs 0).exchanged []).finish []) := by
    rw [txnReads_zero]
    rcases hop with rfl | rfl <;> simp only [Flash.txnDone, Flash.exchanged, Flash.txn, Flash.afterCmd, g, hj, ho]
  have hport : (polled (k + 1) s).arb.port.mem = .idle := by rw [polled_port]; exact hf.2.2
  have hlast := flashRun_endTxn (u := afterTxn bytesWriteEnable (polled (k + 1) s)) hport
    ((hb.polled (k + 1)).afterTxn _) hdone q
  rw [withFill_zero] at hlast
  rw [presentFlash_ready hf hacc, hq,
    show q + (7 * k + 13 + (outs.length + 6)) = q + (outs.length + 0 + 6) + (7 * k + 13) by omega,
    flashRun_untilEnabled k hj ho (.inr hop) hf.2.2 hb hr hcmd, hlast]
  simp only [Flash.finish, Flash.exchanged, Flash.txn, Flash.ended, List.length_nil, hj, g]

theorem beyondLastSector_of_lt_capacity {p : Params} {a : Nat} (h : a < p.capacity) : beyondLastSector p a = false := by
  unfold Params.capacity at h
  exact decide_eq_false (show ¬ p.lastSector.val < a / 4096 by omega)

/-- Settles O51: both erases are `presentFlash_erase`. -/
theorem erasesComplete : Obligations.ErasesComplete := by
  unfold Obligations.ErasesComplete
  intro s k hf hb hr hq
  refine ⟨fun a ha => ?sector, ?chip⟩
  case sector =>
    have hrange : rangeRefused s.params .eraseSector a 0#25 [] = false := beyondLastSector_of_lt_capacity ha
    exact presentFlash_erase (op := .eraseSector) (outs := bytesSectorErase a) hf hb hr
      (by change 7 * k + 13 + 10 ≤ _; omega) (Flash.accept_host (op := .eraseSector) rfl hrange s.flash) rfl rfl
      (.inl rfl) rfl
  case chip =>
    exact presentFlash_erase (op := .eraseChip) (outs := bytesChipErase) hf hb hr
      (by change 7 * k + 13 + 7 ≤ _; omega) (Flash.accept_host (op := .eraseChip) rfl rfl s.flash) rfl rfl
      (.inr rfl) rfl

end Sys2Proof.Machine
end

/-! ## WRITE (43_flash.md) -/

section
namespace Sys2Proof.Machine

/-! ### R262: WRITE -/

/-- The controller's registers in a WRITE that has still to write `d` at `a`. -/
def Flash.writing (a : Addr) (d : List Byte) (f : Flash) : Flash :=
  { f with job := .host, flOp := 0x02#8, flAddr := a, flRem := BitVec.ofNat 25 d.length, hostData := d }

/-- The same with the last chunk's size and the last status byte. -/
def Flash.chunkRegs (c : Nat) (st : Byte) (f : Flash) : Flash := { f with flChunk := BitVec.ofNat 9 c, flStatus := st }

theorem pageRoom_bounds (a : Nat) : 0 < pageRoom a ∧ pageRoom a ≤ 256 := by unfold pageRoom; omega

theorem pageChunk_ofNat (a : Addr) {n : Nat} (h : n ≤ 2 ^ 24) :
    pageChunk a (BitVec.ofNat 25 n) = min n (pageRoom a.toNat) := by
  rw [pageChunk, BitVec.toNat_ofNat, Nat.mod_eq_of_lt (by omega)]

/-- After a page-program of `c` bytes the rest of the data is to be written where they ended. -/
theorem Flash.advance_writing {a : Addr} {d : List Byte} {c : Nat} {f : Flash} (hd : d.length ≤ 2 ^ 24)
    (hc : c ≤ d.length) (hpage : c ≤ 256) (hchunk : f.flChunk = BitVec.ofNat 9 c) :
    (f.writing a d).advance =
      if c < d.length then (f.writing (a + BitVec.ofNat 24 c) (d.drop c)).txn .wait bytesReadStatus 1
      else (f.writing (a + BitVec.ofNat 24 c) (d.drop c)).finish [] := by
  have hnat : (BitVec.ofNat 9 c).toNat = c := by rw [BitVec.toNat_ofNat]; omega
  have haddr : (BitVec.ofNat 9 c).setWidth 24 = BitVec.ofNat 24 c := by
    refine BitVec.eq_of_toNat_eq ?_
    rw [BitVec.toNat_setWidth, hnat, BitVec.toNat_ofNat]
  have hrem : BitVec.ofNat 25 d.length - (BitVec.ofNat 9 c).setWidth 25 = BitVec.ofNat 25 (d.drop c).length := by
    refine BitVec.eq_of_toNat_eq ?_
    rw [BitVec.toNat_sub, BitVec.toNat_setWidth, hnat, List.length_drop]
    simp only [BitVec.toNat_ofNat]
    omega
  have hmore : 0 < (BitVec.ofNat 25 (d.drop c).length).toNat ↔ c < d.length := by
    rw [BitVec.toNat_ofNat, List.length_drop]
    omega
  simp only [Flash.advance, Flash.writing, hchunk, hnat, haddr, hrem, hmore]

/-- One chunk of WRITE: the polls, write-enable, and a page-program of `c` bytes, then `Flash.advance` (R262). -/
theorem flashRun_chunk {a : Addr} {d : List Byte} {c k : Nat} {s : State} (f : Flash) (hd : d.length ≤ 2 ^ 24)
    (hc : c = min d.length (pageRoom a.toNat)) (hp : s.arb.port.mem = .idle) (hb : BusFree s) (hr : ReadyAfter k s)
    (n : Nat) :
    flashRun (n + (7 * k + 22 + c)) (s.setFlash ((f.writing a d).txn .wait bytesReadStatus 1)) =
      flashRun n ((afterTxn (bytesPageProgram a (d.take c)) (afterTxn bytesWriteEnable (polled (k + 1) s))).setFlash
        ((((f.chunkRegs c (lastPoll k s)).txn .cmd [] 0).exchanged []).writing a d).advance) := by
  have hchunk : pageChunk a (BitVec.ofNat 25 d.length) = c := (pageChunk_ofNat a hd).trans hc.symm
  let g : Flash := (f.chunkRegs c (lastPoll k s)).writing a d
  have hcmd : ((({ f.writing a d with flStatus := lastPoll k s } : Flash).txn .wren bytesWriteEnable 0).exchanged
      []).afterWren .write = .next (g.txn .cmd (bytesPageProgram a (d.take c)) 0) := by
    subst hchunk
    rfl
  have hdone : ((g.txn .cmd (bytesPageProgram a (d.take c)) 0).exchanged (txnReads (bytesPageProgram a (d.take c)) 0
      (afterTxn bytesWriteEnable (polled (k + 1) s)))).txnDone (polled (k + 1) s).params =
      .next ((((f.chunkRegs c (lastPoll k s)).txn .cmd [] 0).exchanged []).writing a d).advance := by
    rw [txnReads_zero]
    rfl
  have hport : (polled (k + 1) s).arb.port.mem = .idle := by rwa [polled_port]
  have hlen : (bytesPageProgram a (d.take c)).length = c + 4 := by
    simp only [bytesPageProgram, be24, List.length_cons, List.length_append, List.length_nil, List.length_take]
    omega
  rw [show n + (7 * k + 22 + c) = n + ((bytesPageProgram a (d.take c)).length + 0 + 5) + (7 * k + 13) by omega,
    flashRun_untilEnabled k (op := .write) rfl rfl (.inl rfl) hp hb hr hcmd,
    flashRun_midTxn (u := afterTxn bytesWriteEnable (polled (k + 1) s)) hport ((hb.polled (k + 1)).afterTxn _)
      hdone n, withFill_zero]

/-- The loop of R262, from its first poll to the end of the operation. -/
theorem WriteLoop.run {a : Addr} {d : List Byte} {cost last : Nat} {s t : State} {st : Byte}
    (h : WriteLoop a d cost s t last st) (f : Flash) (hd : d.length ≤ 2 ^ 24) (hp : s.arb.port.mem = .idle)
    (hb : BusFree s) (n : Nat) :
    flashRun (n + 1 + cost) (s.setFlash ((f.writing a d).txn .wait bytesReadStatus 1)) =
      .next (t.setFlash (((f.chunkRegs last st).writing (a + BitVec.ofNat 24 d.length) []).ended 0x02#8 [] [])) := by
  induction h generalizing f n with
  | last a d k s hne hfits hr =>
    rw [flashRun_chunk f hd (Nat.min_eq_left hfits).symm hp hb hr, List.take_length,
      Flash.advance_writing hd le_rfl (hfits.trans (pageRoom_bounds _).2) rfl, if_neg (lt_irrefl _), List.drop_length]
    exact flashRun_done rfl n
  | more a d k cost s t last st hmore hr hrest ih =>
    obtain ⟨hpos, hpage⟩ := pageRoom_bounds a.toNat
    have hport : (polled (k + 1) s).arb.port.mem = .idle := by rwa [polled_port]
    have haddr : a + BitVec.ofNat 24 (pageRoom a.toNat) + BitVec.ofNat 24 (d.drop (pageRoom a.toNat)).length =
        a + BitVec.ofNat 24 d.length := by
      rw [BitVec.add_assoc, ← BitVec.ofNat_add, List.length_drop, Nat.add_sub_cancel' hmore.le]
    rw [show n + 1 + (cost + (7 * k + 22 + pageRoom a.toNat)) = n + 1 + cost + (7 * k + 22 + pageRoom a.toNat) by omega,
      flashRun_chunk f hd (Nat.min_eq_right hmore.le).symm hp hb hr, Flash.advance_writing hd hmore.le hpage rfl,
      if_pos hmore]
    have hrun := ih (f.chunkRegs (pageRoom a.toNat) (lastPoll k s)) (by rw [List.length_drop]; omega) hport
      (((hb.polled (k + 1)).afterTxn _).afterTxn _) n
    rw [haddr] at hrun
    exact hrun

/-- WRITE inside CAPACITY is accepted at the first poll of its loop, and the loop is its whole run. -/
theorem execWrite_completes {s t : State} {a : Addr} {d : List Byte} {cost last : Nat} {st : Byte} (hf : FlashReady s)
    (hb : BusFree s) (hne : d ≠ []) (hcap : a.toNat + d.length ≤ s.params.capacity)
    (hloop : WriteLoop a d cost s t last st) (hq : cost + 1 ≤ s.env.quantum) :
    exec (.write a d) s = .next (t.setFlash
      (((s.flash.chunkRegs last st).writing (a + BitVec.ofNat 24 d.length) []).ended 0x02#8 [] [])) := by
  obtain ⟨q, hq⟩ := Nat.exists_eq_add_of_le' hq
  have hrange : rangeRefused s.params .write a (BitVec.ofNat 25 d.length) d = false :=
    decide_eq_false (Nat.not_lt.2 hcap)
  have hstart : s.flash.start .write 0x02#8 a (BitVec.ofNat 25 d.length) d =
      (s.flash.writing a d).txn .wait bytesReadStatus 1 := if_neg hne
  have hlen : d.length ≤ 2 ^ 24 := (Nat.le_add_left _ _).trans (hcap.trans (capacity_le s.params))
  change presentFlash (.host 0x02#8 a (BitVec.ofNat 25 d.length) d) s = _
  rw [presentFlash_ready hf (Flash.accept_host (op := .write) rfl hrange s.flash), hstart, hq,
    show q + (cost + 1) = q + 1 + cost by omega]
  exact hloop.run s.flash hlen hf.2.2 hb q

/-- Settles O49: this is `execWrite_completes`. -/
theorem writeCompletes : Obligations.WriteCompletes := by
  unfold Obligations.WriteCompletes
  intro s t a d cost last st hf hb hne hcap hloop hq
  exact execWrite_completes hf hb hne hcap hloop hq

end Sys2Proof.Machine
end

/-! ## What the flash operations leave alone (43_flash.md) -/

section
namespace Sys2Proof.Machine

/-! ### What a micro-step of the busy controller is -/

/-- What a micro-step of the busy controller can do: change its own registers; have a request of its own accepted at MEM's
port; or let that port take a micro-step, while it waits for the permit (R250, R272). -/
inductive FlashStep (s : State) : State → Prop
  | own (f : Flash) : FlashStep s (s.setFlash f)
  | request {u : State} (r : ArbReq) (f : Flash) : arbAccept .mem r s = .next u → FlashStep s (u.setFlash f)
  | port {t : State} : arbMicro .mem s = .next t → FlashStep s t

theorem flashMicro_step {s t : State} (hc : s.flash.ctl ≠ .idle) (h : flashMicro s = .next t) : FlashStep s t := by
  unfold flashMicro at h
  split at h
  case h_1 hidle => exact absurd hidle hc
  case h_2 =>
    obtain ⟨u, hu, ht⟩ := andThen_eq_next.1 h
    cases ht
    exact .request .begin _ hu
  case h_3 =>
    split at h
    · cases h; exact .own _
    · exact .port h
  case h_4 =>
    unfold flashTransfer at h
    split at h
    · obtain ⟨u, hu, ht⟩ := andThen_eq_next.1 h
      cases ht
      exact .request (.xfer _) _ hu
    · split at h
      · obtain ⟨u, hu, ht⟩ := andThen_eq_next.1 h
        cases ht
        exact .request (.xfer _) _ hu
      · obtain ⟨u, hu, ht⟩ := andThen_eq_next.1 h
        obtain ⟨f, _, rfl⟩ := liftFlash_eq_next.1 ht
        exact .request .finish f hu
  case h_5 => cases h; exact .own _

/-- A micro-step at MEM's port while the controller is busy: nothing, for then the port takes no request; a grant; or, MEM
holding the permit, the end of a wait. -/
theorem arbMicro_mem_busy {s t : State} (hc : s.flash.ctl ≠ .idle) (h : arbMicro .mem s = .next t) :
    t = s ∨ t = grantStep s ∨ s.arb.permitOwner = some .mem ∧
      (t = openTxn .mem s ∨ t = s.setArb { s.arb with port := s.arb.port.set .mem .idle }) := by
  unfold arbMicro at h
  split at h
  case h_1 =>
    split at h
    · cases h; exact .inl rfl
    · have hbusy : portFree .mem s = false := by simp [portFree, hc]
      rw [hbusy] at h
      cases h
      exact .inl rfl
  all_goals split at h <;> cases h
  case h_2.isTrue ho => exact .inr (.inr ⟨ho, .inr rfl⟩)
  case h_3.isTrue ho => exact .inr (.inr ⟨ho, .inl rfl⟩)
  all_goals exact .inr (.inl rfl)

/-- What every step of the busy controller keeps, and every change of its own registers, a request at the FLASH port
keeps, however far it gets. -/
theorem presentFlash_keeps {P : State → Prop} (hf : ∀ s f, P s → P (s.setFlash f))
    (hstep : ∀ s t, P s → s.flash.ctl ≠ .idle → FlashStep s t → P t) {r : FlashReq} {s t : State} (hs : P s)
    (h : presentFlash r s = .next t) : P t := by
  unfold presentFlash at h
  split at h
  · obtain ⟨u, hu, ht⟩ := andThen_eq_next.1 h
    obtain ⟨f, _, rfl⟩ := liftFlash_eq_next.1 hu
    exact flashRun_keeps (fun a b ha hc _ hb => hstep a b ha hc (flashMicro_step hc hb)) _ _ t (hf s f hs) ht
  · cases h; exact hf s _ hs

theorem flashRequest_of_space {i : Instr} (h : i.space = .flash ∨ i.space = .bus) : ∃ r, flashRequest i = some r := by
  rcases h with h | h
  all_goals
    cases i <;> cases h
    all_goals exact ⟨_, rfl⟩

/-- An operation of the FLASH port or a bus command that answers a next state is its request presented at that port. -/
theorem exec_flashSpace {i : Instr} {s t : State} (hspace : i.space = .flash ∨ i.space = .bus)
    (h : exec i s = .next t) : ∃ r, presentFlash r s = .next t := by
  obtain ⟨r, hr⟩ := flashRequest_of_space hspace
  rcases exec_flashRequest hr s with e | e <;> rw [e] at h
  · exact ⟨r, h⟩
  · cases h

/-! ### R145, R250: the frame -/

/-- What the controller leaves alone: all but its own registers, the chip and MEM's side of the arbiter. -/
def FlashKept (s t : State) : Prop :=
  LinkSideKept s t ∧ t.arb.port.disp = s.arb.port.disp ∧ t.arb.waiting = s.arb.waiting ∧
    t.arb.cs.disp = s.arb.cs.disp ∧ t.arb.lastIn.disp = s.arb.lastIn.disp

theorem FlashKept.refl (s : State) : FlashKept s s := ⟨⟨rfl, rfl, rfl, rfl, rfl⟩, rfl, rfl, rfl, rfl⟩

theorem FlashKept.trans {s t u : State} (h1 : FlashKept s t) (h2 : FlashKept t u) : FlashKept s u := by
  obtain ⟨⟨a1, a2, a3, a4, a5⟩, a6, a7, a8, a9⟩ := h1
  obtain ⟨⟨b1, b2, b3, b4, b5⟩, b6, b7, b8, b9⟩ := h2
  exact ⟨⟨b1.trans a1, b2.trans a2, b3.trans a3, b4.trans a4, b5.trans a5⟩, b6.trans a6, b7.trans a7, b8.trans a8,
    b9.trans a9⟩

/-- What everything at MEM's port leaves alone, with the waiting requests, is what the controller does. -/
theorem ArbSide.flashKept {s t : State} (h : ArbSide .mem s t) (hw : t.arb.waiting = s.arb.waiting) : FlashKept s t := by
  obtain ⟨hlink, _, hparams, htime, hinbox, hquantum, hport, _, hcs, hlast, _⟩ := h
  exact ⟨⟨hlink, hparams, htime, hinbox, hquantum⟩, hport, hw, hcs, hlast⟩

theorem Accepted.waiting {c : Client} {s t : State} (h : Accepted c s t) : t.arb.waiting = s.arb.waiting := by
  cases h <;> rfl

theorem grantStep_waiting (s : State) : (grantStep s).arb.waiting = s.arb.waiting := by
  rcases grantStep_cases s with ⟨e, _⟩ | ⟨_, _, _, e⟩ <;> rw [e]
  rfl

theorem FlashStep.flashKept {s t : State} (hc : s.flash.ctl ≠ .idle) (h : FlashStep s t) : FlashKept s t := by
  cases h with
  | own f => exact .refl s
  | request r f hu => exact (arbAccept_frame hu).1.flashKept (arbAccept_accepted hu).waiting
  | port h =>
    rcases arbMicro_mem_busy hc h with rfl | rfl | ⟨_, rfl | rfl⟩
    · exact .refl t
    · exact (grantStep_frame .mem s).1.flashKept (grantStep_waiting s)
    · exact (openTxn_frame .mem s).1.flashKept rfl
    · exact .refl s

/-- Settles O52: every micro-step of the busy controller has the frame (`FlashStep.flashKept`). -/
theorem flashFrame : Obligations.FlashFrame := by
  unfold Obligations.FlashFrame
  intro i s t hspace h
  obtain ⟨r, hr⟩ := exec_flashSpace hspace h
  exact presentFlash_keeps (P := FlashKept s) (fun _ _ ha => ha) (fun _ _ ha hc hb => ha.trans (hb.flashKept hc))
    (.refl s) hr

/-! ### R149, R309: while DISP holds the permit -/

/-- DISP still holds the permit, and the bus and the chip are as they were. -/
def BusKept (s t : State) : Prop :=
  t.arb.busTrace = s.arb.busTrace ∧ t.chip = s.chip ∧ t.arb.permitOwner = some .disp ∧ t.arb.cs = s.arb.cs ∧
    t.arb.busCfg = s.arb.busCfg

/-- The only request that is accepted of a client that does not hold the permit asks for it (R142, R145, R151). -/
theorem arbAccept_without_permit {c : Client} {r : ArbReq} {s t : State} (ho : s.arb.permitOwner ≠ some c)
    (h : arbAccept c r s = .next t) : ∃ p, t = s.setArb (requestPermit c p s.arb) := by
  cases r <;> simp only [arbAccept, ho, if_false, false_and, and_false] at h <;> cases h
  · exact ⟨.acquiring, rfl⟩
  · exact ⟨.beginning, rfl⟩

theorem grantStep_of_owner {s : State} (h : s.arb.permitOwner ≠ none) : grantStep s = s := by
  rcases grantStep_cases s with ⟨e, _⟩ | ⟨_, ho, _⟩
  · exact e
  · exact absurd ho h

theorem FlashStep.busKept {s a b : State} (ha : BusKept s a) (hc : a.flash.ctl ≠ .idle) (h : FlashStep a b) :
    BusKept s b := by
  have hown : a.arb.permitOwner = some .disp := ha.2.2.1
  cases h with
  | own f => exact ha
  | request r f hu =>
    obtain ⟨p, rfl⟩ := arbAccept_without_permit (by simp [hown]) hu
    exact ha
  | port h =>
    rcases arbMicro_mem_busy hc h with rfl | rfl | ⟨ho, _⟩
    · exact ha
    · rwa [grantStep_of_owner (by simp [hown])]
    · rw [hown] at ho
      cases ho

/-- Settles O53: a micro-step of the busy controller cannot get past its request for the permit (`FlashStep.busKept`). -/
theorem permitExcludesFlash : Obligations.PermitExcludesFlash := by
  unfold Obligations.PermitExcludesFlash
  intro i s t hspace _ hown h
  obtain ⟨r, hr⟩ := exec_flashSpace hspace h
  exact presentFlash_keeps (P := BusKept s) (fun _ _ ha => ha) (fun _ _ ha hc hb => hb.busKept ha hc)
    ⟨rfl, rfl, hown, rfl, rfl⟩ hr

end Sys2Proof.Machine
end

/-! ## The transition table of fl_phase (43_flash.md) -/

section
namespace Sys2Proof.Machine

/-- What accepting a host operation does to the registers (R272). -/
theorem Flash.start_row (op : FlashOp) (code : Byte) (a : Addr) (n : Len) (d : List Byte) (f : Flash) :
    (f.start op code a n d).flOp = code ∧
      (op = .read ∨ (op = .write ∧ d ≠ []) ∨ op = .eraseSector ∨ op = .eraseChip ∨ op = .waitForReady →
        (f.start op code a n d).flPhase = .wait ∧ (f.start op code a n d).txnOut = [0x05#8] ∧
          (f.start op code a n d).txnIn = 1) ∧
      (op = .write ∧ d = [] → (f.start op code a n d).flPhase = .done) ∧
      (op = .identify ∨ op = .isBusy ∨ op = .powerDown ∨ op = .wakeUp → (f.start op code a n d).flPhase = .cmd) ∧
      (op = .read ∨ op = .write ∨ op = .eraseSector → (f.start op code a n d).flAddr = a) ∧
      (op = .read → (f.start op code a n d).flRem = n) ∧
      (op = .write →
        (f.start op code a n d).flRem = BitVec.ofNat 25 d.length ∧ (f.start op code a n d).hostData = d) := by
  cases op
  case write =>
    by_cases hd : d = []
    all_goals simp [Flash.start, Flash.txn, Flash.finish, bytesReadStatus, hd]
  all_goals simp [Flash.start, Flash.txn, bytesReadStatus]

section
variable {p : Params} {f : Flash} {op : FlashOp} (hj : f.job = .host) (ho : flashOpOf f.flOp = some op)
include hj ho

/-- F_WAIT with a busy status: the next poll. -/
theorem Flash.txnDone_wait_busy (hph : f.flPhase = .wait) (hw : wipOf p (f.txnGot.headD 0#8) = true) :
    f.txnDone p = .next (({ f with flStatus := f.txnGot.headD 0#8 } : Flash).txn .wait bytesReadStatus 1) := by
  simp only [Flash.txnDone, hj, ho, hph, hw, if_true]

/-- F_WAIT with a ready status. -/
theorem Flash.txnDone_wait_ready (hph : f.flPhase = .wait) (hw : wipOf p (f.txnGot.headD 0#8) = false) :
    f.txnDone p = ({ f with flStatus := f.txnGot.headD 0#8 } : Flash).afterWait op := by
  simp only [Flash.txnDone, hj, ho, hph, hw, Bool.false_eq_true, if_false]

/-- F_WREN. -/
theorem Flash.txnDone_wren (hph : f.flPhase = .wren) : f.txnDone p = f.afterWren op := by
  simp only [Flash.txnDone, hj, ho, hph]

/-- F_CMD. -/
theorem Flash.txnDone_cmd (hph : f.flPhase = .cmd) : f.txnDone p = f.afterCmd p op f.txnGot := by
  simp only [Flash.txnDone, hj, ho, hph]

end

/-- After a page-program: address and remaining length advanced, on to the next poll or to the end (R262). -/
theorem Flash.advance_row (f : Flash) : f.advance.flAddr = f.flAddr + f.flChunk.setWidth 24 ∧
    f.advance.flRem = f.flRem - f.flChunk.setWidth 25 ∧ (0 < f.advance.flRem.toNat → f.advance.flPhase = .wait) ∧
    (f.advance.flRem.toNat = 0 → f.advance.flPhase = .done) := by
  unfold Flash.advance
  dsimp only
  split
  · rename_i hmore
    exact ⟨rfl, rfl, fun _ => rfl, fun h => absurd h hmore.ne'⟩
  · rename_i hmore
    exact ⟨rfl, rfl, fun h => absurd h hmore, fun _ => rfl⟩

/-- The other commands of F_CMD end the operation well (R301, R306). -/
theorem Flash.afterCmd_ends {p : Params} {op : FlashOp} (got : List Byte) (f : Flash) (hw : op ≠ .write)
    (hr : op ≠ .waitForReady) :
    ∃ g, f.afterCmd p op got = .next g ∧ g.flPhase = .done ∧ g.flResult.ok = true ∧ g.flResult.status = 0#3 := by
  cases op
  case write => exact absurd rfl hw
  case waitForReady => exact absurd rfl hr
  all_goals exact ⟨_, rfl, rfl, rfl, rfl⟩

/-- Settles O57: the rows of acceptance (`Flash.start_row`) and of the end of a transaction in each phase. -/
theorem flashTransitions : Obligations.FlashTransitions := by
  unfold Obligations.FlashTransitions
  refine ⟨fun p f code op a n d ho hrange => ⟨_, Flash.accept_host ho hrange f, Flash.start_row op code a n d f⟩,
    fun p f op hj ho => ⟨?busy, ?ready, ?wren, ?cmd⟩, fun s hc => by simp only [flashMicro, hc]⟩
  case busy => exact fun hph hw => ⟨_, Flash.txnDone_wait_busy hj ho hph hw, rfl, rfl, rfl, rfl⟩
  case ready =>
    intro hph hw
    rw [Flash.txnDone_wait_ready hj ho hph hw]
    refine ⟨?_, ?_, ?_⟩
    · rintro rfl; exact ⟨_, rfl, rfl, rfl⟩
    · rintro rfl; exact ⟨_, rfl, rfl, rfl, rfl, rfl⟩
    · rintro (rfl | rfl | rfl) <;> exact ⟨_, rfl, rfl, rfl, rfl, rfl⟩
  case wren =>
    intro hph
    rw [Flash.txnDone_wren hj ho hph]
    refine ⟨?_, ?_, ?_⟩
    · rintro rfl; exact ⟨_, rfl, rfl, rfl, rfl⟩
    · rintro rfl; exact ⟨_, rfl, rfl, rfl⟩
    · rintro rfl; exact ⟨_, rfl, rfl, rfl⟩
  case cmd =>
    intro hph
    rw [Flash.txnDone_cmd hj ho hph]
    refine ⟨?_, fun hw hr => Flash.afterCmd_ends _ f hw hr⟩
    rintro rfl
    exact ⟨_, rfl, f.advance_row⟩

end Sys2Proof.Machine
end

/-! ## The page split (43_flash.md) -/

section
namespace Sys2Proof.Machine

theorem pageSplit_fits {fuel a n : Nat} (h1 : 1 ≤ n) (hf : n ≤ fuel) (hn : n ≤ pageRoom a) :
    pageSplit fuel a n = [(a, n)] := by
  obtain ⟨m, rfl⟩ := Nat.exists_eq_add_of_le' (h1.trans hf)
  have hrest : pageSplit m (a + n) 0 = [] := by cases m <;> rfl
  rw [pageSplit, if_neg (by omega), Nat.min_eq_left hn, Nat.sub_self, hrest]

theorem pageSplit_more {fuel a n : Nat} (hn : pageRoom a < n) :
    pageSplit (fuel + 1) a n = (a, pageRoom a) :: pageSplit fuel (a + pageRoom a) (n - pageRoom a) := by
  rw [pageSplit, if_neg (by omega), Nat.min_eq_right hn.le]

/-- The induction along the page split: the last chunk, and a chunk that fills its page before others (R262). -/
theorem pageSplit_induction {motive : Nat → Nat → List (Nat × Nat) → Prop}
    (last : ∀ a n, 1 ≤ n → n ≤ pageRoom a → motive a n [(a, n)])
    (more : ∀ a n l, pageRoom a < n → motive (a + pageRoom a) (n - pageRoom a) l → motive a n ((a, pageRoom a) :: l))
    {fuel a n : Nat} (h1 : 1 ≤ n) (hf : n ≤ fuel) : motive a n (pageSplit fuel a n) := by
  induction fuel generalizing a n with
  | zero => omega
  | succ fuel ih =>
    by_cases hn : n ≤ pageRoom a
    · rw [pageSplit_fits h1 hf hn]
      exact last a n h1 hn
    · have hmore : pageRoom a < n := Nat.lt_of_not_le hn
      have hpos := (pageRoom_bounds a).1
      rw [pageSplit_more hmore]
      exact more a n _ hmore (ih (by omega) (by omega))

theorem add_pageRoom_mod (a : Nat) : (a + pageRoom a) % 256 = 0 := by unfold pageRoom; omega

/-- The chunks of a range that begins with a page: whole pages and what is left. -/
def alignedChunks (a n : Nat) : List (Nat × Nat) :=
  (List.range (n / 256)).map (fun j => (a + 256 * j, 256)) ++
    if n % 256 ≠ 0 then [(a + 256 * (n / 256), n % 256)] else []

theorem alignedChunks_short {a n : Nat} (h1 : 1 ≤ n) (hn : n < 256) : alignedChunks a n = [(a, n)] := by
  simp [alignedChunks, Nat.div_eq_of_lt hn, Nat.mod_eq_of_lt hn, Nat.ne_of_gt h1]

theorem alignedChunks_more {a n : Nat} (hn : 256 ≤ n) :
    alignedChunks a n = (a, 256) :: alignedChunks (a + 256) (n - 256) := by
  have hdiv : n / 256 = (n - 256) / 256 + 1 := by omega
  have hmod : n % 256 = (n - 256) % 256 := by omega
  have haddr (j : Nat) : a + 256 * (j + 1) = a + 256 + 256 * j := by omega
  simp only [alignedChunks, hdiv, hmod, List.range_succ_eq_map, List.map_cons, List.map_map, Function.comp_def,
    Nat.succ_eq_add_one, haddr, Nat.mul_zero, Nat.add_zero, List.cons_append]

theorem pageSplit_aligned {fuel a n : Nat} (h1 : 1 ≤ n) (hf : n ≤ fuel) (ha : a % 256 = 0) :
    pageSplit fuel a n = alignedChunks a n := by
  refine pageSplit_induction (motive := fun a n l => a % 256 = 0 → l = alignedChunks a n) ?last ?more h1 hf ha
  case last =>
    intro a n h1 hn ha
    rcases Nat.lt_or_ge n 256 with h | h
    · exact (alignedChunks_short h1 h).symm
    · obtain rfl : n = 256 := Nat.le_antisymm (hn.trans (pageRoom_bounds a).2) h
      rfl
  case more =>
    intro a n l hn ih ha
    have hroom : pageRoom a = 256 := by rw [pageRoom, ha]
    rw [ih (add_pageRoom_mod a), hroom, alignedChunks_more (a := a) (by omega)]

theorem pageSplit_length {fuel a n : Nat} (h1 : 1 ≤ n) (hf : n ≤ fuel) :
    (pageSplit fuel a n).length = (a % 256 + n + 255) / 256 := by
  refine pageSplit_induction (motive := fun a n l => l.length = (a % 256 + n + 255) / 256) ?last ?more h1 hf
  case last =>
    intro a n h1 hn
    unfold pageRoom at hn
    rw [List.length_singleton]
    omega
  case more =>
    intro a n l hn ih
    rw [add_pageRoom_mod] at ih
    rw [List.length_cons, ih]
    unfold pageRoom at *
    omega

/-- Every chunk has at least one byte, stays inside its page, and begins no earlier than the range. -/
theorem pageSplit_chunk {fuel a n : Nat} (h1 : 1 ≤ n) (hf : n ≤ fuel) :
    ∀ c ∈ pageSplit fuel a n, 1 ≤ c.2 ∧ c.1 % 256 + c.2 ≤ 256 ∧ a ≤ c.1 := by
  refine pageSplit_induction (motive := fun a _ l => ∀ c ∈ l, 1 ≤ c.2 ∧ c.1 % 256 + c.2 ≤ 256 ∧ a ≤ c.1) ?last ?more
    h1 hf
  case last =>
    intro a n h1 hn c hc
    obtain rfl := List.mem_singleton.1 hc
    unfold pageRoom at hn
    exact ⟨h1, by dsimp only; omega, le_rfl⟩
  case more =>
    intro a n l hn ih c hc
    have hb := pageRoom_bounds a
    rcases List.mem_cons.1 hc with rfl | hc
    · exact ⟨hb.1, by simp only [pageRoom]; omega, le_rfl⟩
    · obtain ⟨h2, h3, h4⟩ := ih c hc
      exact ⟨h2, h3, by omega⟩

/-- The chunks of a range that begins with a page begin with a page. -/
theorem alignedChunks_aligned {a n : Nat} (ha : a % 256 = 0) : ∀ c ∈ alignedChunks a n, c.1 % 256 = 0 := by
  intro c hc
  rcases List.mem_append.1 hc with hc | hc
  · obtain ⟨j, _, rfl⟩ := List.mem_map.1 hc
    dsimp only
    omega
  · split at hc
    · obtain rfl := List.mem_singleton.1 hc
      dsimp only
      omega
    · cases hc

/-- A range that leaves its page: the rest of the page, then the chunks of a range that begins with a page. -/
theorem pageSplit_eq_cons {a n : Nat} (hn : pageRoom a < n) :
    pageSplit n a n = (a, pageRoom a) :: alignedChunks (a + pageRoom a) (n - pageRoom a) := by
  have hpos := (pageRoom_bounds a).1
  obtain ⟨m, rfl⟩ := Nat.exists_eq_add_of_le' (Nat.one_le_of_lt hn)
  rw [pageSplit_more hn, pageSplit_aligned (by omega) (by omega) (add_pageRoom_mod a)]

/-- Each chunk begins where the one before it ends. -/
theorem pageSplit_contiguous {fuel a n : Nat} (h1 : 1 ≤ n) (hf : n ≤ fuel) :
    (∀ y, (pageSplit fuel a n)[0]? = some y → y.1 = a) ∧
    ∀ (k : Nat) (x y : Nat × Nat), (pageSplit fuel a n)[k]? = some x → (pageSplit fuel a n)[k + 1]? = some y →
      y.1 = x.1 + x.2 := by
  refine pageSplit_induction (motive := fun a _ l => (∀ y, l[0]? = some y → y.1 = a) ∧
    ∀ (k : Nat) (x y : Nat × Nat), l[k]? = some x → l[k + 1]? = some y → y.1 = x.1 + x.2) ?last ?more h1 hf
  case last =>
    intro a n _ _
    exact ⟨fun y hy => by cases hy; rfl, fun k x y _ hy => by cases hy⟩
  case more =>
    rintro a n l _ ⟨hhead, hnext⟩
    refine ⟨fun y hy => by cases hy; rfl, fun k x y hx hy => ?_⟩
    cases k with
    | zero => cases hx; exact hhead y hy
    | succ k => exact hnext k x y hx hy

theorem pageSplit_sum {fuel a n : Nat} (h1 : 1 ≤ n) (hf : n ≤ fuel) : ((pageSplit fuel a n).map Prod.snd).sum = n := by
  refine pageSplit_induction (motive := fun _ n l => (l.map Prod.snd).sum = n) ?last ?more h1 hf
  case last => exact fun a n _ _ => List.sum_singleton
  case more =>
    intro a n l hn ih
    rw [List.map_cons, List.sum_cons, ih]
    dsimp only
    omega

/-- Settles O56: each property by induction along the split (`pageSplit_induction`); the later chunks are those of a range
that begins with a page. -/
theorem pageSplitRule : Obligations.PageSplit := by
  unfold Obligations.PageSplit
  intro a n h1
  refine ⟨pageSplit_fits h1 le_rfl, pageSplit_eq_cons, pageSplit_length h1 le_rfl, ?aligned, fun c hc => ?page,
    (pageSplit_contiguous h1 le_rfl).2, pageSplit_sum h1 le_rfl, fun c hc => ?size⟩
  case aligned =>
    rcases Nat.lt_or_ge (pageRoom a) n with hn | hn
    · rw [pageSplit_eq_cons hn]
      exact alignedChunks_aligned (add_pageRoom_mod a)
    · rw [pageSplit_fits h1 le_rfl hn]
      exact nofun
  case page =>
    obtain ⟨hsize, hpage, _⟩ := pageSplit_chunk h1 le_rfl c hc
    omega
  case size =>
    obtain ⟨hsize, hpage, _⟩ := pageSplit_chunk h1 le_rfl c hc
    omega

end Sys2Proof.Machine
end

/-! ## WRITE on the reference chip (20_memory.md, 43_flash.md) -/

section
namespace Sys2Proof.Machine

/-! ### R82: what a page-program stores -/

/-- In the array `m'` each byte of `d`, from `a` on, is anded to what was there in `m`; every other byte reads as before. -/
def ProgramsAt (a : Nat) (d : List Byte) (m m' : List Host.Cell) : Prop :=
  ∀ x, Memory.read m' x =
    if a ≤ x ∧ x < a + d.length then Memory.read m x &&& d.getD (x - a) 0#8 else Memory.read m x

theorem ProgramsAt.nil (a : Nat) (m : List Host.Cell) : ProgramsAt a [] m m :=
  fun x => (if_neg (by simp only [List.length_nil]; omega)).symm

theorem ProgramsAt.append {a : Nat} {d e : List Byte} {m m1 m2 : List Host.Cell} (h1 : ProgramsAt a d m m1)
    (h2 : ProgramsAt (a + d.length) e m1 m2) : ProgramsAt a (d ++ e) m m2 := by
  intro x
  rw [h2 x, h1 x, List.length_append]
  by_cases hx : a ≤ x ∧ x < a + d.length
  · have hsecond : ¬ (a + d.length ≤ x ∧ x < a + d.length + e.length) := by omega
    have hboth : a ≤ x ∧ x < a + (d.length + e.length) := by omega
    rw [if_neg hsecond, if_pos hx, if_pos hboth, List.getD_append _ _ _ _ (by omega)]
  · rw [if_neg hx]
    by_cases hx2 : a + d.length ≤ x ∧ x < a + d.length + e.length
    · have hboth : a ≤ x ∧ x < a + (d.length + e.length) := by omega
      rw [if_pos hx2, if_pos hboth, List.getD_append_right _ _ _ _ (by omega), Nat.sub_sub]
    · have hboth : ¬ (a ≤ x ∧ x < a + (d.length + e.length)) := by omega
      rw [if_neg hx2, if_neg hboth]

theorem ProgramsAt.write {m : List Host.Cell} (a : Nat) (b : Byte) (hwf : Memory.wf m = true) :
    ProgramsAt a [b] m (Memory.write m a (Memory.read m a &&& b)) := by
  intro x
  by_cases hx : x = a
  · subst hx
    rw [Memory.read_write_same _ _ _ hwf, if_pos ⟨le_rfl, Nat.lt_succ_self x⟩, Nat.sub_self]
    rfl
  · rw [Memory.read_write_other _ _ _ _ hx, if_neg (by simp only [List.length_singleton]; omega)]

/-- A page-program that stays inside its page (R82). -/
theorem ProgramsAt.program {m : List Host.Cell} {a k : Nat} {d : List Byte} (hwf : Memory.wf m = true)
    (hpage : a % 256 + k + d.length ≤ 256) : ProgramsAt (a + k) d m (Memory.program m a k d) := by
  induction d generalizing m k with
  | nil => exact .nil _ _
  | cons b r ih =>
    rw [List.length_cons] at hpage
    rw [Memory.program, programAddr_inside (by omega)]
    exact (ProgramsAt.write (a + k) b hwf).append (ih (Memory.wf_write m _ _ hwf) (by omega))

/-! ### R116: what goes out on the bus -/

/-- From `s` to `t` the bus trace has grown by `evs`, the incoming bytes left out. -/
def SentSince (s t : State) (evs : List BusEvent) : Prop :=
  ∃ l, t.arb.busTrace = s.arb.busTrace ++ l ∧ l.map BusEvent.outgoing = evs

theorem SentSince.refl (s : State) : SentSince s s [] := ⟨[], (List.append_nil _).symm, rfl⟩

theorem SentSince.trans {s t u : State} {x y : List BusEvent} (h1 : SentSince s t x) (h2 : SentSince t u y) :
    SentSince s u (x ++ y) := by
  obtain ⟨l1, e1, rfl⟩ := h1
  obtain ⟨l2, e2, rfl⟩ := h2
  exact ⟨l1 ++ l2, by rw [e2, e1, List.append_assoc], List.map_append⟩

theorem outgoing_transfers {outs ins : List Byte} (h : ins.length = outs.length) :
    (List.zipWith (fun o i => BusEvent.xfer .mem o i) outs ins).map BusEvent.outgoing =
      outs.map (fun o => BusEvent.xfer .mem o 0#8) := by
  induction outs generalizing ins with
  | nil => rfl
  | cons o outs ih =>
    cases ins with
    | nil => cases h
    | cons i ins => exact congrArg (List.cons _) (ih (Nat.succ.inj h))

theorem SentSince.afterTxn (sent : List Byte) (s : State) : SentSince s (afterTxn sent s) (sentTxn sent) := by
  refine ⟨_, rfl, ?_⟩
  have hlen : (txnAnswers sent s).length = sent.length := answers_length _ _ _ _
  rw [memTxn, List.map_append, List.map_append, outgoing_transfers hlen]
  rfl

theorem SentSince.polled (k : Nat) (s : State) :
    SentSince s (polled k s) (List.replicate k (sentTxn [0x05#8, s.params.fillByte])).flatten := by
  induction k generalizing s with
  | zero => exact .refl s
  | succ k ih =>
    rw [List.replicate_succ, List.flatten_cons]
    exact (SentSince.afterTxn (pollBytes s) s).trans (ih (Machine.afterTxn (pollBytes s) s))

/-! ### R82: polls of a busy chip -/

theorem chipPoll_setCmd (c : Chip) (cmd : List Byte) :
    chipPoll { c with cmd := cmd } = { chipPoll c with cmd := cmd } := by
  obtain ⟨_, _, wip, _, _, _, _, _, left⟩ := c
  rcases wip with _ | _ <;> rcases left with _ | _ | _ <;> rfl

@[simp] theorem chipPoll_kind (c : Chip) : (chipPoll c).kind = c.kind := by
  unfold chipPoll
  split <;> rfl

/-- A status read of the reference chip moves its plan by one poll before it is answered (log 18). -/
theorem chipBefore_statusRead {c : Chip} (hk : c.kind = .reference) :
    chipBefore { c with cmd := [0x05#8] } = { chipPoll c with cmd := [0x05#8] } := by
  rw [← chipPoll_setCmd]
  simp only [chipBefore, hk, if_true]

/-- A poll leaves the reference chip with its plan moved by one. -/
theorem chipAfter_poll {p : Params} {c : Chip} (hk : c.kind = .reference) (o : Byte) :
    chipAfter p [0x05#8, o] c = { chipPoll c with cmd := [] } := by
  have hreceived : [0x05#8, o].foldl (fun d o => chipReceive o d) (chipSelect c) =
      { chipPoll c with cmd := [0x05#8, o] } := by
    rw [List.foldl_cons, List.foldl_cons, List.foldl_nil, chipReceive_opcode, chipReceive, chipBefore_statusRead hk]
    rfl
  rw [chipAfter, hreceived, chipDeselect]
  simp only [chipPoll_kind, hk]
  rfl

theorem chipAnswer_reference {p : Params} {c : Chip} {op : Byte} {rest : List Byte} (hk : c.kind = .reference)
    (hcmd : c.cmd = op :: rest) : chipAnswer p c = eChipAnswer p (chipBefore c) op rest := by
  simp only [chipAnswer, hk, hcmd]

/-- What a poll of the reference chip reads. -/
theorem pollAnswer_reference {s : State} (hk : s.chip.kind = .reference) :
    pollAnswer s = chipStatus (chipPoll s.chip) := by
  have hanswer : chipAnswer s.params { s.chip with cmd := [0x05#8] } = some (chipStatus (chipPoll s.chip)) := by
    rw [chipAnswer_reference (c := { s.chip with cmd := [0x05#8] }) hk rfl, chipBefore_statusRead hk]
    rfl
  simp [pollAnswer, txnAnswers, pollBytes, bytesReadStatus, answers, chipReceive_opcode, hanswer]

theorem wipOf_chipStatus {p : Params} (hbit : p.wipBit = 0) (c : Chip) : wipOf p (chipStatus c) = c.wip := by
  rw [wipOf, hbit, chipStatus]
  cases c.wip <;> cases c.wel <;> rfl

theorem chip_after_poll {s : State} (hk : s.chip.kind = .reference) :
    (afterTxn (pollBytes s) s).chip = { chipPoll s.chip with cmd := [] } := chipAfter_poll hk _

theorem wipOf_pollAnswer {s : State} (hk : s.chip.kind = .reference) (hbit : s.params.wipBit = 0) :
    wipOf s.params (pollAnswer s) = (chipPoll s.chip).wip := by
  rw [pollAnswer_reference hk, wipOf_chipStatus hbit]

/-- A chip that is busy for `j` more polls: the next one reads ready. -/
theorem polled_busy {j : Nat} {s : State} (hk : s.chip.kind = .reference) (hbit : s.params.wipBit = 0)
    (hwip : s.chip.wip = true) (hleft : s.chip.busyLeft = some j) :
    ReadyAfter j s ∧ (polled (j + 1) s).chip = { s.chip with wip := false, busyLeft := none, cmd := [] } := by
  induction j generalizing s with
  | zero =>
    have hpoll : chipPoll s.chip = { s.chip with wip := false, busyLeft := none } := by
      simp only [chipPoll, hwip, hleft]
    have hread := wipOf_pollAnswer hk hbit
    have hchip := chip_after_poll hk
    rw [hpoll] at hread hchip
    exact ⟨hread, hchip⟩
  | succ j ih =>
    have hpoll : chipPoll s.chip = { s.chip with busyLeft := some j } := by
      simp only [chipPoll, hwip, hleft]
    have hread := wipOf_pollAnswer hk hbit
    have hchip := chip_after_poll hk
    rw [hpoll] at hread hchip
    obtain ⟨hready, hrest⟩ := ih (s := afterTxn (pollBytes s) s) (by rw [hchip]; exact hk) hbit
      (by rw [hchip]; exact hwip) (by rw [hchip])
    rw [hchip] at hrest
    exact ⟨⟨hread.trans hwip, hready⟩, hrest⟩

/-- The reference chip before a chunk of WRITE: awake, its array canonical, ready after `j` polls, and to be busy for `k`
polls after a program. -/
structure ChipAwaits (k j : Nat) (c : Chip) : Prop where
  kind : c.kind = .reference
  awake : c.pd = false
  plan : c.plan = some k
  canonical : Memory.wf c.mem = true
  busy : c.wip = false ∧ j = 0 ∨ c.wip = true ∧ c.busyLeft = some j

/-- The wait of a chunk ends after `j` busy polls, with an idle chip. -/
theorem ChipAwaits.polled {k j : Nat} {s : State} (h : ChipAwaits k j s.chip) (hbit : s.params.wipBit = 0) :
    ReadyAfter j s ∧ ∃ left, (polled (j + 1) s).chip = { s.chip with wip := false, busyLeft := left, cmd := [] } := by
  rcases h.busy with ⟨hwip, rfl⟩ | ⟨hwip, hleft⟩
  · refine ⟨readyAfter_zero_of_idle h.kind hbit hwip, s.chip.busyLeft, ?_⟩
    change chipAfter s.params (pollBytes s) s.chip = _
    rw [← hwip]
    exact chipAfter_readStatus h.kind hwip _
  · obtain ⟨hready, hchip⟩ := polled_busy h.kind hbit hwip hleft
    exact ⟨hready, none, hchip⟩

/-! ### R262: one chunk -/

/-- The state after one chunk of WRITE: `j + 1` polls, write-enable and a page-program. -/
def afterChunk (j : Nat) (a : Addr) (d : List Byte) (s : State) : State :=
  afterTxn (bytesPageProgram a d) (afterTxn bytesWriteEnable (polled (j + 1) s))

@[simp] theorem afterChunk_params (j : Nat) (a : Addr) (d : List Byte) (s : State) :
    (afterChunk j a d s).params = s.params := polled_params (j + 1) s

theorem SentSince.afterChunk (j : Nat) (a : Addr) (d : List Byte) (s : State) :
    SentSince s (afterChunk j a d s) (chunkTxns s.params.fillByte (j + 1) a.toNat d) := by
  have h := ((SentSince.polled (j + 1) s).trans (.afterTxn bytesWriteEnable _)).trans (.afterTxn (bytesPageProgram a d) _)
  rw [chunkTxns, BitVec.ofNat_toNat, BitVec.setWidth_eq]
  exact h

theorem ChipAwaits.afterChunk {k j : Nat} {s : State} {a : Addr} {d : List Byte} (h : ChipAwaits k j s.chip)
    (hbit : s.params.wipBit = 0) (hd : d ≠ []) (ha : a.toNat < s.params.capacity)
    (hpage : a.toNat % 256 + d.length ≤ 256) :
    ChipAwaits k k (afterChunk j a d s).chip ∧ (afterChunk j a d s).chip.wip = true ∧
      ProgramsAt a.toNat d s.chip.mem (afterChunk j a d s).chip.mem := by
  obtain ⟨_, left, hpolled⟩ := h.polled hbit
  have henabled : (afterTxn bytesWriteEnable (Machine.polled (j + 1) s)).chip =
      { s.chip with wip := false, busyLeft := left, wel := true, cmd := [] } := by
    change chipAfter (Machine.polled (j + 1) s).params bytesWriteEnable (Machine.polled (j + 1) s).chip = _
    rw [hpolled]
    exact chipAfter_writeEnable h.kind rfl h.awake
  have hchip : (Machine.afterChunk j a d s).chip =
      { s.chip with
        mem := Memory.program s.chip.mem a.toNat 0 d
        wip := true
        wel := false
        busyLeft := s.chip.plan
        cmd := [] } := by
    change chipAfter (Machine.polled (j + 1) s).params (bytesPageProgram a d)
      (afterTxn bytesWriteEnable (Machine.polled (j + 1) s)).chip = _
    rw [henabled, polled_params]
    exact chipAfter_pageProgram h.kind hd ha (chipWritable_eq_true rfl h.awake rfl)
  rw [hchip]
  exact ⟨⟨h.kind, h.awake, h.plan, Memory.wf_program _ _ _ _ h.canonical, .inr ⟨rfl, h.plan⟩⟩, rfl,
    ProgramsAt.program (k := 0) h.canonical hpage⟩

/-! ### R269: all chunks -/

/-- The transactions of WRITE over the chunks `l` of `d` at `a`: `j + 1` polls before the first, `k + 1` before each other
(R262). -/
def writeTxns (fill : Byte) (k j a : Nat) (d : List Byte) (l : List (Nat × Nat)) : List BusEvent :=
  l.zipIdx.flatMap (fun c => chunkTxns fill (if c.2 = 0 then j + 1 else k + 1) c.1.1 ((d.drop (c.1.1 - a)).take c.1.2))

theorem writeTxns_singleton (fill : Byte) (k j a : Nat) (d : List Byte) :
    writeTxns fill k j a d [(a, d.length)] = chunkTxns fill (j + 1) a d := by
  simp [writeTxns]

theorem writeTxns_cons {a c : Nat} {l : List (Nat × Nat)} (hl : ∀ x ∈ l, a + c ≤ x.1) (fill : Byte) (k j : Nat)
    (d : List Byte) :
    writeTxns fill k j a d ((a, c) :: l) =
      chunkTxns fill (j + 1) a (d.take c) ++ writeTxns fill k k (a + c) (d.drop c) l := by
  rw [writeTxns, writeTxns, List.zipIdx_cons', List.flatMap_cons, List.flatMap_map]
  simp only [Prod.map_fst, Prod.map_snd, id_eq, Nat.succ_ne_zero, if_true, if_false, ite_self, Nat.sub_self,
    List.drop_zero]
  refine congrArg (_ ++ ·) (List.flatMap_congr fun x hx => ?_)
  have haddr : c + (x.1.1 - (a + c)) = x.1.1 - a := by
    have := hl x.1 (List.fst_mem_of_mem_zipIdx hx)
    omega
  rw [List.drop_drop, haddr]

/-- The address of the chunk after one that fills its page. -/
theorem toNat_nextPage {p : Params} {a : Addr} {n : Nat} (hmore : pageRoom a.toNat < n)
    (hcap : a.toNat + n ≤ p.capacity) :
    (a + BitVec.ofNat 24 (pageRoom a.toNat)).toNat = a.toNat + pageRoom a.toNat := by
  have := capacity_le p
  rw [BitVec.toNat_add, BitVec.toNat_ofNat]
  omega

/-- What the loop of R262 comes to on the reference chip: it ends in `t` within a bound, with the transactions of the page
split sent and the data programmed. -/
structure WriteDone (fuel k j : Nat) (a : Addr) (d : List Byte) (s t : State) : Prop where
  loop : ∃ cost last st, WriteLoop a d cost s t last st ∧ cost ≤ 7 * j + (7 * k + 23) * d.length
  released : t.arb.permitOwner = none ∧ t.arb.txnOpen = none
  busy : t.chip.wip = true
  stored : ProgramsAt a.toNat d s.chip.mem t.chip.mem
  sent : SentSince s t (writeTxns s.params.fillByte k j a.toNat d (pageSplit fuel a.toNat d.length))

section
variable {fuel k j : Nat} {s : State} {a : Addr} {d : List Byte} (hne : d ≠ []) (hlen : d.length ≤ fuel)
  (hcap : a.toNat + d.length ≤ s.params.capacity) (hbit : s.params.wipBit = 0) (hc : ChipAwaits k j s.chip)
include hne hlen hcap hbit hc

/-- The last chunk. -/
theorem WriteDone.last (hfits : d.length ≤ pageRoom a.toNat) : WriteDone fuel k j a d s (afterChunk j a d s) := by
  have hpos : 0 < d.length := List.length_pos_of_ne_nil hne
  have hpage : a.toNat % 256 + d.length ≤ 256 := by
    unfold pageRoom at hfits
    omega
  obtain ⟨hready, -⟩ := hc.polled hbit
  obtain ⟨-, hwip, hmem⟩ := hc.afterChunk hbit hne (by omega) hpage
  refine ⟨⟨_, _, _, .last a d j s hne hfits hready, ?cost⟩, ⟨rfl, rfl⟩, hwip, hmem, ?sent⟩
  case cost =>
    have := Nat.le_mul_of_pos_right (7 * k) hpos
    rw [Nat.add_mul]
    omega
  case sent =>
    rw [pageSplit_fits hpos hlen hfits, writeTxns_singleton]
    exact .afterChunk j a d s

omit hne hlen in
/-- The chip after a chunk that fills its page. -/
theorem ChipAwaits.afterPage (hmore : pageRoom a.toNat < d.length) :
    ChipAwaits k k (Machine.afterChunk j a (d.take (pageRoom a.toNat)) s).chip ∧
      ProgramsAt a.toNat (d.take (pageRoom a.toNat)) s.chip.mem
        (Machine.afterChunk j a (d.take (pageRoom a.toNat)) s).chip.mem := by
  obtain ⟨hroom, -⟩ := pageRoom_bounds a.toNat
  have htake : (d.take (pageRoom a.toNat)).length = pageRoom a.toNat := List.length_take_of_le hmore.le
  have hpage : a.toNat % 256 + pageRoom a.toNat ≤ 256 := by
    unfold pageRoom
    omega
  obtain ⟨hnext, -, hmem⟩ :=
    hc.afterChunk hbit (List.ne_nil_of_length_pos (htake ▸ hroom)) (by omega) (htake.symm ▸ hpage)
  exact ⟨hnext, hmem⟩

omit hne in
/-- A chunk that fills its page before the loop goes on. -/
theorem WriteDone.more {m : Nat} {t : State} (hfuel : fuel = m + 1) (hmore : pageRoom a.toNat < d.length)
    (hrest : WriteDone m k k (a + BitVec.ofNat 24 (pageRoom a.toNat)) (d.drop (pageRoom a.toNat))
      (afterChunk j a (d.take (pageRoom a.toNat)) s) t) : WriteDone fuel k j a d s t := by
  obtain ⟨hroom, -⟩ := pageRoom_bounds a.toNat
  have htake : (d.take (pageRoom a.toNat)).length = pageRoom a.toNat := List.length_take_of_le hmore.le
  have hdrop : (d.drop (pageRoom a.toNat)).length = d.length - pageRoom a.toNat := List.length_drop
  obtain ⟨hready, -⟩ := hc.polled hbit
  obtain ⟨-, hmem⟩ := hc.afterPage hcap hbit hmore
  obtain ⟨⟨cost, last, st, hloop, hcost⟩, hreleased, hbusy, hstored, hsent⟩ := hrest
  rw [toNat_nextPage hmore hcap] at hstored hsent
  refine ⟨⟨_, last, st, .more a d j cost s t last st hmore hready hloop, ?cost⟩, hreleased, hbusy, ?stored, ?sent⟩
  case cost =>
    have := Nat.le_mul_of_pos_right (7 * k) hroom
    obtain ⟨r, hr⟩ := Nat.exists_eq_add_of_le hmore.le
    rw [hdrop, hr, Nat.add_sub_cancel_left] at hcost
    rw [hr, Nat.mul_add, Nat.add_mul _ _ (pageRoom a.toNat)]
    omega
  case stored =>
    have h := hmem.append (by rwa [htake])
    rwa [List.take_append_drop] at h
  case sent =>
    subst hfuel
    have hlater : ∀ x ∈ pageSplit m (a.toNat + pageRoom a.toNat) (d.length - pageRoom a.toNat),
        a.toNat + pageRoom a.toNat ≤ x.1 := fun x hx => (pageSplit_chunk (by omega) (by omega) x hx).2.2
    rw [pageSplit_more hmore, writeTxns_cons hlater]
    rw [hdrop, afterChunk_params] at hsent
    exact (SentSince.afterChunk j a _ s).trans hsent

/-- The loop of R262 on the reference chip, chunk by chunk. -/
theorem writeDone_exists : ∃ t, WriteDone fuel k j a d s t := by
  induction fuel generalizing j s a d with
  | zero => exact absurd (List.length_eq_zero_iff.1 (Nat.le_zero.1 hlen)) hne
  | succ fuel ih =>
    rcases Nat.lt_or_ge (pageRoom a.toNat) d.length with hmore | hfits
    · have hdrop : (d.drop (pageRoom a.toNat)).length = d.length - pageRoom a.toNat := List.length_drop
      have hroom := (pageRoom_bounds a.toNat).1
      have hcap' : (a + BitVec.ofNat 24 (pageRoom a.toNat)).toNat + (d.drop (pageRoom a.toNat)).length ≤
          (afterChunk j a (d.take (pageRoom a.toNat)) s).params.capacity := by
        rw [toNat_nextPage hmore hcap, hdrop, afterChunk_params]
        omega
      obtain ⟨t, ht⟩ := ih (List.ne_nil_of_length_pos (by omega)) (by omega) hcap' (by rwa [afterChunk_params])
        (hc.afterPage hcap hbit hmore).1
      exact ⟨t, .more hlen hcap hbit hc rfl hmore ht⟩
    · exact ⟨_, .last hne hlen hcap hbit hc hfits⟩

end

/-- Settles O60: WRITE runs the loop of R262 (`execWrite_completes`), and on the reference chip that loop comes to
`WriteDone`. -/
theorem writeOnReferenceChip : Obligations.WriteOnReferenceChip := by
  unfold Obligations.WriteOnReferenceChip
  intro s a d k hf hb hmem hne hk hbit hwip hpd hplan hcap hq
  have hc : ChipAwaits k 0 s.chip := ⟨hk, hpd, hplan, hmem.canonical, .inl ⟨hwip, rfl⟩⟩
  obtain ⟨t, ⟨cost, last, st, hloop, hcost⟩, ⟨howner, hopen⟩, hbusy, hstored, sent, htrace, hsent⟩ :=
    writeDone_exists hne le_rfl hcap hbit hc
  have hcost' : cost + 1 ≤ s.env.quantum := by
    have : (7 * k + 23) * d.length ≤ (7 * k + 24) * d.length := Nat.mul_le_mul_right _ (Nat.le_succ _)
    rw [Nat.mul_succ] at hq
    omega
  refine ⟨_, execWrite_completes hf hb hne hcap hloop hcost', rfl, rfl, rfl, howner, hopen, hbusy, ?_, hstored⟩
  rw [State.setFlash_arb, htrace, List.drop_left, hsent]
  rfl

end Sys2Proof.Machine
end

/-! ## Failures, held agents and the status codes (60_exceptions.md) -/

section
namespace Sys2Proof.Machine

/-! ### R301, R306: what the link engine reports -/

/-- The link engine's part of `StatusInv`. -/
structure Link.StatusOk (l : Link) : Prop where
  code : l.linkStatus.toNat ≤ 5
  resultCode : l.lkResult.status.toNat ≤ 5
  resultOk : l.lkResult.ok = true → l.lkResult.status = 0#3

theorem Link.statusOk_succeed (data : List Byte) (l : Link) : (l.succeed data).StatusOk :=
  ⟨Nat.zero_le 5, Nat.zero_le 5, fun _ => rfl⟩

theorem Link.statusOk_raise {st : BitVec 3} (hst : st.toNat ≤ 5) (data : List Byte) (valid : Nat) (l : Link) :
    (l.raise st data valid).StatusOk :=
  ⟨hst, hst, nofun⟩

theorem LinkState.FailsWith.code_le {x : LinkState} {st : BitVec 3} (h : x.FailsWith st) : st.toNat ≤ 5 := by
  rcases h with ⟨_, rfl⟩ | ⟨_, rfl⟩ | ⟨_, rfl⟩ <;> decide

section
variable {l : Link} (h : l.StatusOk)
include h

theorem Link.StatusOk.takeByte (b : Byte) : (l.takeByte b).StatusOk := by
  unfold Link.takeByte
  split
  case h_2 =>
    split
    · exact { h with }
    · split <;> exact { h with }
  case h_1 | h_5 => split <;> exact { h with }
  all_goals exact { h with }

theorem Link.StatusOk.receive (now : Time) : (l.receive now).StatusOk := by
  unfold Link.receive
  split
  · exact { h with }
  · exact h
  · rename_i b rest _
    exact Link.StatusOk.takeByte (l := { l with serRx := rest }) { h with } b

/-- A failure reports the status it is given; an attempt of INIT reports nothing, or INIT_FAIL after the last one. -/
theorem Link.StatusOk.fail {st : BitVec 3} (hst : st.toNat ≤ 5) (now : Time) (op : LinkOp) :
    (l.fail now op st).StatusOk := by
  cases op
  case init =>
    rcases Link.fail_init now st l with e | e <;> rw [e]
    · exact { h with }
    · exact Link.statusOk_raise (by decide) _ _ _
  all_goals exact Link.statusOk_raise hst _ _ _

theorem Link.StatusOk.chunkDone (op : LinkOp) (out data : List Byte) : (l.chunkDone op out data).StatusOk := by
  unfold Link.chunkDone
  dsimp only
  split
  · exact { h with }
  · exact Link.statusOk_succeed _ _

theorem Link.StatusOk.onOk (now : Time) (op : LinkOp) : (l.onOk now op).StatusOk := by
  have nack (op : LinkOp) : (l.fail now op stNack).StatusOk := h.fail (by decide) now op
  cases op
  case init =>
    rcases Link.onOk_init now l with e | e <;> rw [e]
    · exact Link.statusOk_succeed _ _
    · exact nack .init
  case ping =>
    dsimp only [Link.onOk]
    split
    · exact Link.statusOk_succeed _ _
    · exact nack .ping
  case i2cWrite =>
    dsimp only [Link.onOk]
    split
    · exact h.chunkDone _ _ _
    · exact nack .i2cWrite
  case i2cRead | spiTransfer => exact h.chunkDone _ _ _
  all_goals exact Link.statusOk_succeed _ _

theorem Link.StatusOk.accept {r : LinkReq} {m : Link} (ha : Link.accept r l = .next m) : m.StatusOk := by
  obtain ⟨_, _, rfl⟩ := Link.accept_eq_next ha
  exact { h with }

end

/-- The rows of an exchange, each with the state it starts from (R189). -/
theorem Link.micro_exchange {now : Time} {l m : Link} {op : LinkOp} (hc : l.ctl = .exchange)
    (ho : linkOpOf l.lkOp = some op) (h : l.micro now = .next m) :
    (l.linkState = .sent ∧ m = { l with linkState := .awaitStart }) ∨
      (l.linkState.receives = true ∧ m = l.receive now) ∨ (l.linkState = .ok ∧ m = l.onOk now op) ∨
      ∃ st, l.linkState.FailsWith st ∧ m = l.fail now op st := by
  have row {n : Link} (hn : l.micro now = .next n) : m = n := Host.Outcome.next.inj (h.symm.trans hn)
  have failed {st : BitVec 3} (hs : l.linkState.FailsWith st) : ∃ st, l.linkState.FailsWith st ∧ m = l.fail now op st :=
    ⟨st, hs, row (Link.micro_failed hc hs ho)⟩
  cases hs : l.linkState with
  | idle => simp [Link.micro, hc, hs] at h
  | sent => exact .inl ⟨rfl, row (Link.micro_sent hc hs)⟩
  | awaitStart | awaitLen | awaitData | awaitCrc | drain =>
    exact .inr (.inl ⟨rfl, row (Link.micro_receive hc (by rw [hs]; rfl))⟩)
  | ok => exact .inr (.inr (.inl ⟨rfl, row (Link.micro_ok hc hs ho)⟩))
  | timeout => exact .inr (.inr (.inr (hs ▸ failed (.inl ⟨hs, rfl⟩))))
  | lenMismatch => exact .inr (.inr (.inr (hs ▸ failed (.inr (.inl ⟨hs, rfl⟩)))))
  | crcMismatch => exact .inr (.inr (.inr (hs ▸ failed (.inr (.inr ⟨hs, rfl⟩)))))

theorem Link.StatusOk.micro {now : Time} {l m : Link} (h : l.StatusOk) (hm : l.micro now = .next m) : m.StatusOk := by
  have exchange {op : LinkOp} (hc : l.ctl = .exchange) (ho : linkOpOf l.lkOp = some op) : m.StatusOk := by
    rcases Link.micro_exchange hc ho hm with ⟨_, rfl⟩ | ⟨_, rfl⟩ | ⟨_, rfl⟩ | ⟨st, hs, rfl⟩
    · exact { h with }
    · exact h.receive now
    · exact h.onOk now op
    · exact h.fail hs.code_le now op
  cases Link.micro_step hm with
  | accept r rest _ _ ha => exact Link.StatusOk.accept (l := { l with waiting := rest }) { h with } ha
  | receive => exact h.receive now
  | ok op hc ho | fail op _ hc ho => exact exchange hc ho
  | rest | send | pauseOn | pauseOver | sent => exact { h with }

theorem LinkChange.statusOk {now : Time} {l m : Link} (h : l.StatusOk) (hc : LinkChange now l m) : m.StatusOk := by
  cases hc with
  | micro hm => exact h.micro hm
  | accept r _ ha => exact h.accept ha
  | enqueue | arrive | setTimeout => exact { h with }

/-! ### R271, R301, R306: what the flash controller reports -/

/-- The flash controller's part of `StatusInv`: it never fails. -/
structure Flash.StatusOk (f : Flash) : Prop where
  code : f.flashStatus = 0#3
  resultCode : f.flResult.status = 0#3

theorem Flash.statusOk_finish (data : List Byte) (f : Flash) : (f.finish data).StatusOk := ⟨rfl, rfl⟩

section
variable {p : Params} {f g : Flash} (h : f.StatusOk)
include h

theorem Flash.StatusOk.afterWait {op : FlashOp} (hg : f.afterWait op = .next g) : g.StatusOk := by
  cases op <;> cases hg
  case waitForReady => exact Flash.statusOk_finish _ _
  all_goals exact { h with }

theorem Flash.StatusOk.afterWren {op : FlashOp} (hg : f.afterWren op = .next g) : g.StatusOk := by
  cases op <;> cases hg
  all_goals exact { h with }

theorem Flash.StatusOk.advance : f.advance.StatusOk := by
  unfold Flash.advance
  dsimp only
  split
  · exact { h with }
  · exact Flash.statusOk_finish _ _

theorem Flash.StatusOk.afterCmd {op : FlashOp} {got : List Byte} (hg : f.afterCmd p op got = .next g) : g.StatusOk := by
  cases op <;> cases hg
  case write => exact h.advance
  all_goals exact Flash.statusOk_finish _ _

/-- The rows of R272 set up the next transaction or end the operation well. -/
theorem Flash.StatusOk.txnDone (hg : f.txnDone p = .next g) : g.StatusOk := by
  unfold Flash.txnDone at hg
  split at hg
  · cases hg; exact Flash.statusOk_finish _ _
  · split at hg
    · cases hg
    · split at hg
      · dsimp only at hg
        split at hg
        · cases hg; exact { h with }
        · exact Flash.StatusOk.afterWait (f := { f with flStatus := f.txnGot.headD 0#8 }) { h with } hg
      · exact h.afterWren hg
      · exact h.afterCmd hg
      · cases hg
      · cases hg

theorem Flash.StatusOk.start (op : FlashOp) (code : Byte) (addr : Addr) (len : Len) (data : List Byte) :
    (f.start op code addr len data).StatusOk := by
  unfold Flash.start
  cases op <;> dsimp only
  case write =>
    split
    · exact Flash.statusOk_finish _ _
    · exact { h with }
  all_goals exact { h with }

theorem Flash.StatusOk.accept {r : FlashReq} (hg : Flash.accept p r f = .next g) : g.StatusOk := by
  cases r with
  | bare out nIn isStatus => cases hg; exact { h with }
  | host code addr len data =>
    unfold Flash.accept at hg
    dsimp only at hg
    split at hg
    · cases hg
    · split at hg <;> cases hg
      exact h.start _ _ _ _ _

end

theorem arbAccept_flash {c : Client} {r : ArbReq} {s t : State} (h : arbAccept c r s = .next t) : t.flash = s.flash := by
  obtain ⟨⟨_, hf, _⟩, _⟩ := arbAccept_frame h
  exact hf

theorem arbMicro_flash {c : Client} {s t : State} (h : arbMicro c s = .next t) : t.flash = s.flash := by
  cases arbMicro_portStep h with
  | accept w ha => cases ha <;> rfl
  | grant =>
    obtain ⟨⟨_, hf, _⟩, _⟩ := grantStep_frame c s
    exact hf
  | rest | acquired | begin => rfl

theorem flashMicro_statusOk {s t : State} (hs : s.flash.StatusOk) (h : flashMicro s = .next t) : t.flash.StatusOk := by
  have requested {r : ArbReq} {u : State} (hu : arbAccept .mem r s = .next u) : u.flash.StatusOk :=
    (arbAccept_flash hu).symm ▸ hs
  have goesOn {r : ArbReq} {f : State → Flash}
      (ht : andThen (arbAccept .mem r s) (fun u => .next (u.setFlash (f u))) = .next t)
      (hf : ∀ u : State, u.flash.StatusOk → (f u).StatusOk) : t.flash.StatusOk := by
    obtain ⟨u, hu, ht⟩ := andThen_eq_next.1 ht
    cases ht
    exact hf u (requested hu)
  unfold flashMicro at h
  split at h
  case h_1 =>
    split at h
    · cases h; exact hs
    · split at h
      · obtain ⟨f, hf, rfl⟩ := liftFlash_eq_next.1 h
        rename_i rest _ _
        exact Flash.StatusOk.accept (f := { s.flash with waiting := rest }) { hs with } hf
      · cases h; exact hs
  case h_2 => exact goesOn h fun _ hu => { hu with }
  case h_3 =>
    split at h
    · cases h; exact { hs with }
    · exact (arbMicro_flash h).symm ▸ hs
  case h_4 =>
    unfold flashTransfer at h
    split at h
    · exact goesOn h fun _ hu => { hu with }
    · split at h
      · exact goesOn h fun _ hu => { hu with }
      · obtain ⟨u, hu, ht⟩ := andThen_eq_next.1 h
        obtain ⟨f, hf, rfl⟩ := liftFlash_eq_next.1 ht
        exact (requested hu).txnDone hf
  case h_5 => cases h; exact { hs with }

theorem kept_flashStatusOk : Kept (fun s => s.flash.StatusOk) where
  accept _ _ _ _ hs _ ha := (arbAccept_flash ha).symm ▸ hs
  port _ _ _ hs hm := (arbMicro_flash hm).symm ▸ hs
  portWait _ _ hs := hs
  link _ _ hs _ := hs
  flash _ _ hs hm := flashMicro_statusOk hs hm
  flashAccept _ _ _ hs _ ha := hs.accept ha
  flashWait _ _ hs := { hs with }
  time _ _ hs := hs
  env _ _ hs := hs
  chip _ hs := hs
  grant _ _ hs := hs

theorem statusInv_iff {s : State} : StatusInv s ↔ s.link.StatusOk ∧ s.flash.StatusOk :=
  ⟨fun ⟨linkCode, resultCode, resultOk, flashCode, flashResult⟩ =>
      ⟨⟨linkCode, resultCode, resultOk⟩, ⟨flashCode, flashResult⟩⟩,
    fun ⟨⟨linkCode, resultCode, resultOk⟩, ⟨flashCode, flashResult⟩⟩ =>
      ⟨linkCode, resultCode, resultOk, flashCode, flashResult⟩⟩

/-- Settles O10: every change of the engine's registers keeps its part (`LinkChange.statusOk`), the controller's micro-steps
keep the other (`flashMicro_statusOk`), and a reset gives both their reset values. -/
theorem statusInvKept : Obligations.StatusInvKept := by
  unfold Obligations.StatusInvKept
  intro s t hs h
  obtain ⟨hlink, hflash⟩ := statusInv_iff.1 hs
  have hreset (u : State) := statusInv_iff.1 (StatusInv.of_reset (s := resetBlock u) rfl rfl)
  have keptLink : Kept (fun u => u.link.StatusOk) := Kept.of_link fun _ _ _ hl hc => hc.statusOk hl
  exact statusInv_iff.2 ⟨keptLink.step (fun u _ => (hreset u).1) hlink h,
    kept_flashStatusOk.step (fun u _ => (hreset u).2) hflash h⟩

/-! ### R302, R182: the window has passed -/

/-- An operation that is neither INIT nor split into chunks reports a failed exchange with its status and no data. -/
theorem Link.fail_oneExchange {op : LinkOp} (hi : op ≠ .init) (hb : op.isBulk = false) (now : Time) (st : BitVec 3)
    (l : Link) : l.fail now op st = l.raise st [] 0 := by
  cases op
  case init => exact absurd rfl hi
  case i2cWrite | i2cRead | spiTransfer => cases hb
  all_goals rfl

/-- When the window has passed, the receive step ends the exchange without taking a byte, and the operation with it. -/
theorem runInput_link_expired {s : State} {op : LinkOp} {st : BitVec 3} (hc : s.link.ctl = .exchange)
    (hs : s.link.linkState.receives = true) (ho : linkOpOf s.link.lkOp = some op) (hi : op ≠ .init)
    (hb : op.isBulk = false) (he : s.link.expired s.tNow = true) (hst : s.link.takeTimeout.linkState.FailsWith st)
    (n : Nat) : runInput (.run .link (n + 2)) s = .next (s.setLink (s.link.raise st [] 0)) := by
  rw [runInput, runAgent_link_busy (by simp [hc]), Link.run_expired hc hs he,
    Link.run_failed (l := s.link.takeTimeout) hc hst ho, Link.fail_oneExchange hi hb, Link.run_stop (.inl rfl)]
  rfl

/-- Settles O39: with the window passed the first receive step ends the exchange (`runInput_link_expired`); with timeout_ms 0
the window has passed as soon as the frame is sent. -/
theorem windowExpires : Obligations.WindowExpires := by
  unfold Obligations.WindowExpires
  refine ⟨fun s n hc hn ⟨op, ho, hi, hb⟩ hpast => ?_, fun s i cmd payload n hrow hidle hready h0 hq => ?_⟩
  · obtain ⟨n, rfl⟩ := Nat.exists_eq_add_of_le' hn
    have he : s.link.expired s.tNow = true := decide_eq_true hpast
    refine ⟨fun hs => ?_, fun hs => ?_⟩
    · have ⟨hreceives, hdrain⟩ : s.link.linkState.receives = true ∧ s.link.linkState ≠ .drain := by
        rcases hs with h | h | h | h <;> simp [h, LinkState.receives]
      exact runInput_link_expired hc hreceives ho hi hb he (.inl ⟨if_neg hdrain, rfl⟩) n
    · exact runInput_link_expired hc (by rw [hs]; rfl) ho hi hb he (.inr (.inl ⟨if_pos hs, rfl⟩)) n
  · have he := Link.expired_of_zero (l := s.link.awaiting s.tNow cmd payload n) h0 s.tNow
    have hend := exec_scalar_failed hrow hidle hready (k := 1) (by omega) (Link.run_expired rfl rfl he) rfl rfl
      (.inl ⟨rfl, rfl⟩)
    exact ⟨_, hend, .of_awaiting ..⟩

/-! ### R309: agents at a suspension point -/

theorem runInput_link_blocked {s : State} (hc : s.link.ctl ≠ .idle) (hb : s.link.blocked s.tNow = true) (n : Nat) :
    runInput (.run .link n) s = .next s := by
  rw [runInput, runAgent_link_busy hc, Link.run_stop (.inr hb)]
  rfl

theorem runInput_port_blocked {c : Client} {s : State} (hp : s.arb.port.get c ≠ .idle) (hb : permitBlocked c s = true)
    (n : Nat) : runInput (.run (.port c) n) s = .next s := by
  rw [runInput, runAgent, if_neg (by simpa using hp), arbRun_stop (by rw [hb, Bool.or_true])]

theorem runInput_flash_blocked {s : State} (hc : s.flash.ctl ≠ .idle) (hb : flashBlocked s = true) (n : Nat) :
    runInput (.run .flash n) s = .next s := by
  rw [runInput, runAgent, if_neg (by simpa using hc), flashRun_stop (by rw [hb, Bool.or_true])]

/-- Settles O13: each agent is blocked where it waits, and a blocked agent takes no step. -/
theorem heldAgentsStay : Obligations.HeldAgentsStay := by
  unfold Obligations.HeldAgentsStay
  refine ⟨fun s c n ho hp => ?port, fun s n hc ho hopen => ?flash, fun s n hc hs hrx hin => ?receive,
    fun s n since hc hin => ?pause⟩
  case port => exact runInput_port_blocked hp (permitBlocked_of_other ho) n
  case flash =>
    have hheld : permitBlocked .mem s = true := permitBlocked_of_other ho
    exact runInput_flash_blocked (by simp [hc]) (by simp [flashBlocked, hc, hopen, hheld]) n
  case receive =>
    have hwaiting := Link.serRxNow_waiting (Link.expired_eq_false_iff.2 hin) hrx
    exact runInput_link_blocked (by simp [hc]) (by rw [Link.blocked_receive hc hs, hwaiting]; rfl) n
  case pause =>
    exact runInput_link_blocked (by simp [hc]) (by rw [Link.blocked, hc]; exact decide_eq_true hin) n

end Sys2Proof.Machine
end
